-- ==== Sys2Proof/Word.lean ====
section
/-! DEFINITION. The machine words of the handbook: 32-bit memory words (00 section 7.1), 16-bit ring
indices (R8), bytes, and the integer samples of R2. -/

namespace Sys2Proof

/-- A 32-bit memory word, little-endian in memory (00 section 7.1). -/
abbrev Word := BitVec 32

/-- A free-running 16-bit ring index (R8). -/
abbrev Index := BitVec 16

/-- A byte of memory or of a link transaction. -/
abbrev Byte := BitVec 8

/-- One frame: one sample per channel (R2, R9). Samples are integers (R3). -/
abbrev Frame := List Int

/-- One channel of a block: 32 samples (R5). -/
abbrev Chan := List Int

end Sys2Proof
end

