-- ==== Sys2Proof/Syntax.lean ====
section
/-! DEFINITION. The commands the block takes: one constructor of `Instr` per row of
spec/opcode_table.json, with the operands the rule of that row names. -/

namespace Sys2Proof

/-- One beat of a processor-port transaction: its word in the 32-byte line, its four byte enables (bit b
enables byte b) and, on a write, its data (R1). -/
structure Beat where
  off : BitVec 3
  be : BitVec 4
  data : Word
  deriving DecidableEq, Repr

/-- A processor-port transaction: a direction, a line of the 28-bit space and its beats (R1). A
transaction lies within one line, so each beat is placed by its word in the line. -/
structure ProcTx where
  write : Bool
  line : BitVec 23
  beats : List Beat
  deriving DecidableEq, Repr

/-- The three transfer queues of R43. -/
inductive Queue where
  | render
  | input
  | control
  deriving DecidableEq, Repr

/-- The 55 steps of spec/opcode_table.json. A command record's step carries its tag and its parameter
words in the order of the command's own rule (R208). -/
inductive Instr where
  /-- HARD_RESET_ASSERT (R54). -/
  | hardResetAssert
  /-- HARD_RESET_RELEASE (R54), with the CB[7:0] straps sampled. -/
  | hardResetRelease (cb : BitVec 8)
  /-- PROCESSOR_TRANSACTION (R34): the processor issues a transaction. -/
  | processorTransaction (tx : ProcTx)
  /-- ARBITER_GRANT (R44). -/
  | arbiterGrant
  /-- PROCESSOR_MEMORY_ANSWER (R34): OK or ERROR, with the words read. -/
  | processorMemoryAnswer (ok : Bool) (data : List Word)
  /-- PART_TRANSFER_ANSWER (R46): OK or ERROR, with the words read. -/
  | partTransferAnswer (ok : Bool) (data : List Word)
  /-- LOCK_GRANT (R38). -/
  | lockGrant
  /-- QUEUE_ROOM_FREED (R43), for one queue. -/
  | queueRoomFreed (q : Queue)
  /-- RING_ENABLE (R192): a ring control word with these bits 31:1 and ENABLE 1. -/
  | ringEnable (upper : BitVec 31)
  /-- RING_DISABLE (R193): a ring control word with these bits 31:1 and ENABLE 0. -/
  | ringDisable (upper : BitVec 31)
  /-- COMMAND_TAIL_WRITE (R194). -/
  | commandTailWrite (w : Word) (be : BitVec 4)
  /-- EVENT_CONSUMER_WRITE (R194). -/
  | eventConsumerWrite (w : Word) (be : BitVec 4)
  /-- INPUT_RING_CONSUMER_WRITE (R57). -/
  | inputRingConsumerWrite (w : Word) (be : BitVec 4)
  /-- OUTPUT_RING_PRODUCER_WRITE (R57). -/
  | outputRingProducerWrite (w : Word) (be : BitVec 4)
  /-- INTERRUPT_ENABLE_WRITE (R198). -/
  | interruptEnableWrite (w : Word) (be : BitVec 4)
  /-- ANCHOR_WORD_WRITE (R37): the anchor word at this word offset from the strap base. -/
  | anchorWordWrite (off : Fin 16) (w : Word) (be : BitVec 4)
  /-- SET_REGION (R52): role, CLEAR flag, base, slot count. -/
  | setRegion (tag : BitVec 16) (role clear base slots : Word)
  /-- SET_REGION_DRAINED (R53). -/
  | setRegionDrained
  /-- SET_ARBITER (R45): the new H. -/
  | setArbiter (tag : BitVec 16) (h : Word)
  /-- CLEAR_FAULT (R51). -/
  | clearFault (tag : BitVec 16)
  /-- RESTART (R200). -/
  | restart (tag : BitVec 16)
  /-- RESTART_QUIESCED (R200). -/
  | restartQuiesced
  /-- CONFIG_SOURCE (R17), its nine parameters as R208 packs them. -/
  | configSource (tag : BitVec 16) (id : BitVec 16) (valid : Bool) (port path : BitVec 16) (pref trim lipSync fallback hold : Word)
  /-- SELECT_SOURCE (R20): a source identifier, or 0xFFFFFFFF for NONE. -/
  | selectSource (tag : BitVec 16) (target : Word)
  /-- SET_VOLUME (R100): master attenuation, MUTE flag. -/
  | setVolume (tag : BitVec 16) (master mute : Word)
  /-- CONFIG_SPEAKER (R91). -/
  | configSpeaker (tag : BitVec 16) (id presence distance trim lane slot pair : Word)
  /-- SET_CROSSOVER (R98): the frequency in Hz. -/
  | setCrossover (tag : BitVec 16) (freq : Word)
  /-- SET_LANES (R126): the masks of lane 0 and lane 1. -/
  | setLanes (tag : BitVec 16) (mask0 mask1 : Word)
  /-- CONFIG_RECORD_OUT (R138): source, port, four status words. -/
  | configRecordOut (tag : BitVec 16) (source port w0 w1 w2 w3 : Word)
  /-- AMP_RECOVER (R147): the pair. -/
  | ampRecover (tag : BitVec 16) (pair : Word)
  /-- CONFIG_TUNER (R158): address, FM step in kHz, AM step in kHz. -/
  | configTuner (tag : BitVec 16) (addr fmStep amStep : Word)
  /-- TUNE (R160): band, channel. -/
  | tune (tag : BitVec 16) (band channel : Word)
  /-- SEEK (R163): direction, threshold. -/
  | seek (tag : BitVec 16) (direction threshold : Word)
  /-- STOP_SEEK (R166). -/
  | stopSeek (tag : BitVec 16)
  /-- RECALL_PRESET (R169): the entry index. -/
  | recallPreset (tag : BitVec 16) (entry : Word)
  /-- STORE_PRESET (R170): the entry index. -/
  | storePreset (tag : BitVec 16) (entry : Word)
  /-- CONFIG_CAPTURE (R185): slot, enable, type match, type mask, variant match, variant mask. -/
  | configCapture (tag : BitVec 16) (slot enable typeMatch typeMask varMatch varMask : Word)
  /-- RELEASE_CAPTURE (R188): the slot. -/
  | releaseCapture (tag : BitVec 16) (slot : Word)
  /-- UNKNOWN_COMMAND (R196): a record whose kind names no command. -/
  | unknownCommand (tag : BitVec 16) (kind : BitVec 16)
  /-- RATE_WINDOW_END (R10). -/
  | rateWindowEnd
  /-- PORT_FRAME (R9): the bits received in the frame, first bit first, and the level of the port's FMT
  line (sampled when the frame completes a block, R15). -/
  | portFrame (port : Fin 6) (bits : List Bool) (fmt : Bool)
  /-- FREE_RUN_BOUNDARY (R29). -/
  | freeRunBoundary
  /-- FOLLOW_TIMEOUT (R29). -/
  | followTimeout
  /-- HOLD_TIMER_EXPIRY (R27). -/
  | holdTimerExpiry
  /-- LANE_FRAME (R125), for one lane. -/
  | laneFrame (lane : Fin 2)
  /-- RECORD_FRAME (R131). -/
  | recordFrame
  /-- LINK_ATTEMPT_END (R155): success (true) or NAK (false), and the two bytes of a status read. -/
  | linkAttemptEnd (ack : Bool) (b0 b1 : Byte)
  /-- LINK_TIMEOUT (R156). -/
  | linkTimeout
  /-- LINK_RETRY (R156). -/
  | linkRetry
  /-- SETTLE_TIMER_EXPIRY (R161). -/
  | settleTimerExpiry
  /-- SEARCH_WINDOW (R176). -/
  | searchWindow
  /-- PROBE_WINDOW (R177). -/
  | probeWindow
  /-- SYNC_BLOCK (R178). -/
  | syncBlock
  /-- AMP_FAULT_SAMPLE (R141): a high sample of AMP_FAULT[p]. -/
  | ampFaultSample (pair : Fin 4)
  /-- STATION_DATA_BIT (R174): the bit on TUN_DDAT. -/
  | stationDataBit (bit : Bool)
  deriving DecidableEq, Repr

end Sys2Proof
end

