-- ==== Sys2Proof/Decode.lean ====
section
/-! DEFINITION. The words of commands: the table gives no row any bits, so no table word spells a command;
the command records of R208 are read and written here. -/

namespace Sys2Proof

/-- spec/opcode_table.json gives no row any bits, so no word of it spells a command (log entry 39). -/
def decodeTableWord (_nbits _w : Nat) : Option Instr := none

/-- R208: the kind of a record, bits 15:0 of word 0. -/
def recordKind (words : List Word) : BitVec 16 := (words.getD 0 0).extractLsb' 0 16

/-- R208: the tag of a record, bits 31:16 of word 0. -/
def recordTag (words : List Word) : BitVec 16 := (words.getD 0 0).extractLsb' 16 16

/-- R208: the command a record spells, for each kind code. `p n` is its parameter word n. -/
def decodeKind (kind tag : BitVec 16) (p : Nat → Word) : Instr :=
  match kind.toNat with
  | 0x01 => .setRegion tag (p 1) (p 2) (p 3) (p 4)
  | 0x02 => .setArbiter tag (p 1)
  | 0x03 => .clearFault tag
  | 0x04 => .restart tag
  | 0x05 =>
    .configSource tag ((p 1).extractLsb' 0 16) ((p 1).getLsbD 16) ((p 2).extractLsb' 0 16)
      ((p 2).extractLsb' 16 16) (p 3) (p 4) (p 5) (p 6) (p 7)
  | 0x06 => .selectSource tag (p 1)
  | 0x07 => .setVolume tag (p 1) (p 2)
  | 0x08 => .configSpeaker tag (p 1) (p 2) (p 3) (p 4) (p 5) (p 6) (p 7)
  | 0x09 => .setCrossover tag (p 1)
  | 0x0A => .setLanes tag (p 1) (p 2)
  | 0x0B => .configRecordOut tag (p 1) (p 2) (p 3) (p 4) (p 5) (p 6)
  | 0x0C => .ampRecover tag (p 1)
  | 0x0D => .configTuner tag (p 1) (p 2) (p 3)
  | 0x0E => .tune tag (p 1) (p 2)
  | 0x0F => .seek tag (p 1) (p 2)
  | 0x10 => .stopSeek tag
  | 0x11 => .recallPreset tag (p 1)
  | 0x12 => .storePreset tag (p 1)
  | 0x13 => .configCapture tag (p 1) (p 2) (p 3) (p 4) (p 5) (p 6)
  | 0x14 => .releaseCapture tag (p 1)
  | _ => .unknownCommand tag kind

/-- R208: the command a record of eight words spells. -/
def decodeCommand (words : List Word) : Instr :=
  decodeKind (recordKind words) (recordTag words) fun n => words.getD n 0

/-- R208: word 0 of a record. -/
def recordWord (tag kind : BitVec 16) : Word := tag ++ kind

/-- R208: a flag written into a parameter word's bit 16 over sixteen bits. -/
def flagOver (b : Bool) (low : BitVec 16) : Word := ((if b then 1 else 0) : BitVec 16) ++ low

/-- R208: the record of a command, its parameter words in order; none for a step that is no command. -/
def encodeCommand : Instr → Option (List Word)
  | .setRegion t r c b n => some [recordWord t 0x01, r, c, b, n]
  | .setArbiter t h => some [recordWord t 0x02, h]
  | .clearFault t => some [recordWord t 0x03]
  | .restart t => some [recordWord t 0x04]
  | .configSource t i v port path pref trim lip fb hold =>
    some [recordWord t 0x05, flagOver v i, path ++ port, pref, trim, lip, fb, hold]
  | .selectSource t x => some [recordWord t 0x06, x]
  | .setVolume t a m => some [recordWord t 0x07, a, m]
  | .configSpeaker t i pr d tr l sl pa => some [recordWord t 0x08, i, pr, d, tr, l, sl, pa]
  | .setCrossover t f => some [recordWord t 0x09, f]
  | .setLanes t a b => some [recordWord t 0x0A, a, b]
  | .configRecordOut t so po a b c d => some [recordWord t 0x0B, so, po, a, b, c, d]
  | .ampRecover t p => some [recordWord t 0x0C, p]
  | .configTuner t a f m => some [recordWord t 0x0D, a, f, m]
  | .tune t b c => some [recordWord t 0x0E, b, c]
  | .seek t d h => some [recordWord t 0x0F, d, h]
  | .stopSeek t => some [recordWord t 0x10]
  | .recallPreset t e => some [recordWord t 0x11, e]
  | .storePreset t e => some [recordWord t 0x12, e]
  | .configCapture t s e tm tk vm vk => some [recordWord t 0x13, s, e, tm, tk, vm, vk]
  | .releaseCapture t s => some [recordWord t 0x14, s]
  | .unknownCommand t k => some [recordWord t k]
  | .hardResetAssert => none
  | .hardResetRelease _ => none
  | .processorTransaction _ => none
  | .arbiterGrant => none
  | .processorMemoryAnswer _ _ => none
  | .partTransferAnswer _ _ => none
  | .lockGrant => none
  | .queueRoomFreed _ => none
  | .ringEnable _ => none
  | .ringDisable _ => none
  | .commandTailWrite _ _ => none
  | .eventConsumerWrite _ _ => none
  | .inputRingConsumerWrite _ _ => none
  | .outputRingProducerWrite _ _ => none
  | .interruptEnableWrite _ _ => none
  | .anchorWordWrite _ _ _ => none
  | .setRegionDrained => none
  | .restartQuiesced => none
  | .rateWindowEnd => none
  | .portFrame _ _ _ => none
  | .freeRunBoundary => none
  | .followTimeout => none
  | .holdTimerExpiry => none
  | .laneFrame _ => none
  | .recordFrame => none
  | .linkAttemptEnd _ _ _ => none
  | .linkTimeout => none
  | .linkRetry => none
  | .settleTimerExpiry => none
  | .searchWindow => none
  | .probeWindow => none
  | .syncBlock => none
  | .ampFaultSample _ => none
  | .stationDataBit _ => none

end Sys2Proof
end

