-- ==== Sys2Proof/Config.lean ====
section
/-! DEFINITION. What the handbook leaves open and the model leaves free: constants with no body, so that
no claim can rest on what they are. -/

namespace Sys2Proof

/-- The command kind field (bits 15:0 of the second detail word) of the COMPLETION of a command whose
record could not be read: R196 gives its result FAILED and its tag 0, and states no kind.
Applied to the machine's count of free values used. DESIGN CHOICE, log entry 9. -/
opaque Config.freeKind : Nat → BitVec 16

end Sys2Proof
end

