-- ==== Sys2Proof/Machine/State.lean ====
section
/-! DEFINITION. The state of the Tocarga 5120: every register, buffer, counter, mode and pin the handbook
gives the part, unit by unit, and its value right after a hard reset. -/

namespace Sys2Proof.Machine

/-! ## Named sets (R202: a value's code is its place in the set) -/

/-- The five rate classes (R4). -/
inductive RateClass where
  | k32
  | k44
  | k48
  | k88
  | k96
  deriving DecidableEq, Repr

/-- The formats of a port (R15). -/
inductive Format where
  | pcm
  | encoded
  deriving DecidableEq, Repr

/-- The result of one measurement window (R10). -/
inductive WindowResult where
  | low
  | cls (c : RateClass)
  | out
  deriving DecidableEq, Repr

/-- The lock state of a port (R11). -/
inductive LockState where
  | noSignal
  | measuring
  | unsupported
  | locked (c : RateClass)
  deriving DecidableEq, Repr

/-- The path a source asks for (R17). -/
inductive PathChoice where
  | direct
  | hosted
  | auto
  deriving DecidableEq, Repr

/-- The effective path (R18). -/
inductive EffPath where
  | direct
  | hosted
  deriving DecidableEq, Repr

/-- The decode preference of a source (R17). -/
inductive Preference where
  | stereo
  | matrix
  | multi
  | downmix
  | auto
  deriving DecidableEq, Repr

/-- The effective decode mode (R75). -/
inductive DecodeMode where
  | stereo
  | matrix
  | multi
  | downmix
  deriving DecidableEq, Repr

/-- The switch states (section 1.3). -/
inductive SwitchState where
  | idle
  | drain
  | acquire
  | playRamp
  | playing
  | hold
  | blocked
  deriving DecidableEq, Repr

/-- The blocking cause (R28). -/
inductive BlockCause where
  | format
  | region
  deriving DecidableEq, Repr

/-- The pending target (section 1.3): absent, NONE, or a source. -/
inductive Target where
  | absent
  | none
  | source (id : Fin 8)
  deriving DecidableEq, Repr

/-- The presence of a speaker (R90). -/
inductive Presence where
  | absent
  | small
  | large
  | present
  deriving DecidableEq, Repr

/-- The dip state of a speaker (R104). -/
inductive Dip where
  | none
  | down
  | up
  deriving DecidableEq, Repr

/-- The underrun ladder (R67). -/
inductive Ladder where
  | waiting
  | flowing
  | repeated
  | starved
  | drained
  deriving DecidableEq, Repr

/-- The state of an amplifier pair (R140). -/
inductive PairState where
  | normal
  | warn
  | derate
  | shutdown
  | recovering
  deriving DecidableEq, Repr

/-- The tuner state (R154). -/
inductive TunerState where
  | untuned
  | tuning
  | settling
  | tuned
  | seeking
  | offline
  deriving DecidableEq, Repr

/-- The bands (R158). -/
inductive Band where
  | fm
  | am
  deriving DecidableEq, Repr

/-- The two requests the front end knows (R155). -/
inductive LinkRequest where
  | tuneWrite
  | statusRead
  deriving DecidableEq, Repr

/-- The sync states of the Station Data Decoder (section 10.2). -/
inductive SyncState where
  | search
  | probe
  | sync
  deriving DecidableEq, Repr

/-- The source of the record link (R133). -/
inductive RecordSource where
  | off
  | main
  | port (n : Fin 6)
  deriving DecidableEq, Repr

/-- The sequences that take a range lock (R39). -/
inductive Sequence where
  | outputFetch
  | inputStore
  | statusWrite
  | textWrite
  | presetStore
  deriving DecidableEq, Repr

/-- The part index words (R195). -/
inductive IndexWord where
  | ringStatus
  | commandHead
  | eventProducer
  | inputProducer
  | outputConsumer
  | eventsDropped
  deriving DecidableEq, Repr

/-- The ring status codes (R192, R203). -/
inductive RingStatus where
  | ok
  | cmdSize
  | evtSize
  | cmdBase
  | evtBase
  | cmdOverlap
  | evtOverlap
  deriving DecidableEq, Repr

/-- The fault kinds (R48). -/
inductive FaultKind where
  | guardWrite
  | partMemoryError
  | ringIndex
  | ringGeometry
  | badOutputSlot
  deriving DecidableEq, Repr

/-- The result codes of a command (00 section 7.10). -/
inductive ResultCode where
  | done
  | accepted
  | clamped
  | refusedRange
  | refusedState
  | refusedBusy
  | refusedOverlap
  | refusedEmpty
  | unknownCommand
  | failed
  deriving DecidableEq, Repr

/-- The codes of the SOURCE events (R30). -/
inductive SourceCode where
  | connected
  | playing
  | hold
  | fallback
  | lost
  | blocked
  | idle
  deriving DecidableEq, Repr

/-- The codes of the PORT events (R16). -/
inductive PortCode where
  | locked
  | lost
  | unsupported
  | formatChanged
  deriving DecidableEq, Repr

/-- The codes of the RING events (R70). -/
inductive RingCode where
  | inputDropped
  | outputRepeat
  | outputStarved
  | outputResumed
  | outputDrained
  deriving DecidableEq, Repr

/-- The codes of the PROTECT events (R151). -/
inductive ProtectCode where
  | normal
  | warn
  | derate
  | shutdown
  | recovering
  | recovered
  | recoveryFailed
  deriving DecidableEq, Repr

/-- The codes of the TUNER events (R171). -/
inductive TunerCode where
  | tuned
  | notLocked
  | abandoned
  | seekFound
  | seekFailed
  | seekStopped
  | linkFailed
  deriving DecidableEq, Repr

/-- The codes of the STATION events (R190). -/
inductive StationCode where
  | syncGained
  | syncLost
  | identity
  | identityChanged
  | identityMismatch
  | category
  | text
  | captured
  | captureOverrun
  deriving DecidableEq, Repr

/-- The kind of an event together with its code within the kind (00 section 7.11, R208). -/
inductive EventName where
  | completion
  | source (c : SourceCode)
  | port (c : PortCode)
  | ring (c : RingCode)
  | delayLate
  | protect (c : ProtectCode)
  | tuner (c : TunerCode)
  | station (c : StationCode)
  | fault (k : FaultKind)
  deriving DecidableEq, Repr

/-! ## Events, transfers and the memory path -/

/-- An event as the Command Unit holds it (R197, R208). `ofEventWrite` marks the FAULT event of a failed
event write, whose own failure raises no further fault (R50). -/
structure Event where
  name : EventName
  subject : BitVec 16
  stamp : Word
  d1 : Word
  d2 : Word
  ofEventWrite : Bool
  deriving DecidableEq, Repr

/-- Who placed a part transfer, and for what (R43). -/
inductive Requester where
  | commandFetch
  | eventWrite
  | indexWord (w : IndexWord)
  | faultRecord
  | statusLine (last : Bool)
  | textLine (last : Bool)
  | captureRecord (slot : Fin 8)
  | presetRead
  | storeRead
  | storeWrite
  | inputLine
  | inputHeader
  | inputProducer
  | fetchHeader
  | fetchSamples
  | delayWrite (speaker : Fin 8)
  | delayRead (speaker : Fin 8) (generation start : Nat)
  deriving DecidableEq, Repr

/-- A part transfer: 1 to 8 beats within one line, all byte enables set on a write (R43). A write's beats
are its data words; a read gives only their number. `draining`: placed before a SET_REGION changed the region
it addresses, which waits for it (R53). -/
structure Transfer where
  requester : Requester
  addr : Nat
  write : Bool
  beats : Nat
  data : List Word
  sequence : Option Sequence
  draining : Bool
  deriving DecidableEq, Repr

/-- A range lock, held or asked for: start line, line count, owning sequence (R38). -/
structure Lock where
  owner : Sequence
  startLine : Nat
  lines : Nat
  deriving DecidableEq, Repr

/-- A set region: base address and size in bytes (R32). -/
structure Range where
  base : Nat
  size : Nat
  deriving DecidableEq, Repr

/-- The region table (R32). CONTROL is always set, with a size of 4 KiB. -/
structure Regions where
  control : Nat
  command : Option Range
  event : Option Range
  input : Option Range
  output : Option Range
  delay : Option Range
  preset : Option Range
  deriving DecidableEq, Repr

/-- One transfer queue: the transfers in it, and those waiting for room (R43). -/
structure TransferQueue where
  items : List Transfer
  waiting : List Transfer
  deriving DecidableEq, Repr

/-- The three queues (R43). -/
structure Queues where
  render : TransferQueue
  input : TransferQueue
  control : TransferQueue
  deriving DecidableEq, Repr

/-- The transaction on the memory port (R44). `orphan` is a part transfer cut off by RESET_N: its answer
is discarded (R54). -/
inductive MemPort where
  | free
  | processor (tx : ProcTx)
  | part (t : Transfer)
  | orphan (t : Transfer)
  deriving DecidableEq, Repr

/-- The condition of the transaction at the head of the processor port (R34), or that it was granted the
memory port and waits for memory's answer. -/
inductive HeadCondition where
  | held (owner : Sequence)
  | waiting
  | granted
  deriving DecidableEq, Repr

/-- An answer given to the processor: OK or ERROR, and the words of a read (R34). -/
structure Answer where
  ok : Bool
  data : List Word
  deriving DecidableEq, Repr

/-- The processor port (R34): its head with its condition, the transactions behind it in issue order, and
the answers given, in order. -/
structure ProcPort where
  head : Option (ProcTx × HeadCondition)
  behind : List ProcTx
  answers : List Answer
  deriving DecidableEq, Repr

/-- The latched fault (R48); its severity follows from its kind. -/
structure FaultRecord where
  kind : FaultKind
  addr : Nat
  stamp : Word
  deriving DecidableEq, Repr

/-- The Path Unit. -/
structure PathUnit where
  regions : Regions
  shadow : Vector Word 10
  locks : List Lock
  requests : List Lock
  queues : Queues
  port : MemPort
  proc : ProcPort
  sliceH : Nat
  runCount : Nat
  faultRec : Option FaultRecord
  deriving DecidableEq, Repr

/-! ## Command Unit -/

/-- What a command that holds the Command Unit waits for (R53, R169, R170, R200). -/
inductive BusyWork where
  | atOnce
  | drain (role : Fin 7)
  | restart
  | recall (entry : Fin 64)
  | store (entry : Fin 64)
  deriving DecidableEq, Repr

/-- The command being run (R196). `counts`: its completion advances the head, since it was taken after the
last enable (R193). -/
structure Busy where
  tag : BitVec 16
  kind : BitVec 16
  index : Index
  counts : Bool
  work : BusyWork
  deriving DecidableEq, Repr

/-- The execution state (R196). -/
inductive ExecState where
  | idle
  | fetching
  | busy (b : Busy)
  deriving DecidableEq, Repr

/-- A writer of one word or record with at most one write in flight (R48, R195). -/
structure WordWriter where
  inFlight : Bool
  again : Bool
  deriving DecidableEq, Repr

/-- The event whose write is placed (R197); `stale` when the rings were enabled anew since (log entry 13). -/
structure EventWrite where
  event : Event
  stale : Bool
  deriving DecidableEq, Repr

/-- The status writer (R199): WRITING or IDLE, the again flag, and the copy a write carries. -/
structure StatusWriter where
  writing : Bool
  again : Bool
  copy : List Word
  deriving DecidableEq, Repr

/-- The Command Unit. The ring geometry in use is the COMMAND and EVENT entries of the region table.
`producerFollows`: the write of the producer word owed behind the one in flight follows an event write, so a
quiesce does not hold it back (R197, R200). -/
structure CommandUnit where
  enabled : Bool
  ringStatus : RingStatus
  head : Index
  tail : Index
  evProd : Index
  evCons : Index
  inCons : Index
  outProd : Index
  irqEnable : Bool
  evDropped : Word
  exec : ExecState
  fetchDiscard : Bool
  pendingEvents : List Event
  evWrite : Option EventWrite
  words : Vector WordWriter 6
  faultWriter : WordWriter
  producerFollows : Bool
  image : List Word
  status : StatusWriter
  quiesce : Bool
  deriving DecidableEq, Repr

/-! ## Ports, Switch Controller and render clock -/

/-- One input port (R10 to R15). The capture buffer's halves are `filling` and `offered` (R13). -/
structure PortState where
  lock : LockState
  candidate : Option WindowResult
  miss : Bool
  windowCount : Nat
  filling : List Frame
  offered : Option (List Frame)
  format : Format
  change : Bool
  mark : Bool
  deriving DecidableEq, Repr

/-- One entry of the source table (R17). -/
structure Source where
  valid : Bool
  port : Fin 6
  path : PathChoice
  preference : Preference
  trim : Nat
  lipSync : Nat
  fallback : Option (Fin 8)
  holdTime : Nat
  deriving DecidableEq, Repr

/-- The hold timer (R26), its remaining time in REF_CLK periods. -/
structure HoldTimer where
  running : Bool
  remaining : Nat
  suspended : Bool
  deriving DecidableEq, Repr

/-- The Switch Controller (section 1.3). -/
structure SwitchUnit where
  table : Vector Source 8
  st : SwitchState
  connected : Option (Fin 8)
  target : Target
  path : EffPath
  connectRequest : Bool
  feed : Bool
  timer : HoldTimer
  cause : Option BlockCause
  deriving DecidableEq, Repr

/-- The render clock (R29), the block stamp (R5) and the measurement window's position (R10). -/
structure ClockUnit where
  cls : RateClass
  following : Bool
  own : Bool
  stamp : Word
  windowPos : Nat
  deriving DecidableEq, Repr

/-! ## Ring Engine -/

/-- The block being stored, with the header facts of R58 and the slot it goes to. -/
structure StoreJob where
  frames : List Frame
  source : Fin 8
  port : Fin 6
  cls : RateClass
  format : Format
  channels : Nat
  stamp : Word
  disc : Bool
  drops : Nat
  slotAddr : Nat
  deriving DecidableEq, Repr

/-- A decoded block as the Ring Engine hands it on (R68). -/
structure HostedBlock where
  channels : Nat
  frames : List Frame
  disc : Bool
  last : Bool
  deriving DecidableEq, Repr

/-- A fetch under way (R64): its slot, what its header gave, the sample words read so far and the reads
still to come. `discard` marks a fetch cut by a connect (R69). -/
structure FetchJob where
  slotAddr : Nat
  channels : Nat
  disc : Bool
  last : Bool
  words : List Word
  left : Nat
  discard : Bool
  deriving DecidableEq, Repr

/-- The fetched-slot buffer (R56). -/
inductive FetchBuffer where
  | free
  | fetching (job : FetchJob)
  | complete (block : HostedBlock)
  | bad
  | failed
  deriving DecidableEq, Repr

/-- The Ring Engine (R56). -/
structure RingEngine where
  inProd : Index
  outCons : Index
  store : Option StoreJob
  fetch : FetchBuffer
  last : HostedBlock
  ladder : Ladder
  missRun : Nat
  disc : Bool
  pendingDrops : Nat
  dropRun : Bool
  dropped : Word
  repeats : Word
  silent : Word
  deriving DecidableEq, Repr

/-! ## Render Unit -/

/-- One entry of the speaker table (R90). -/
structure Speaker where
  presence : Presence
  distance : Nat
  trim : Nat
  lane : Fin 2
  slot : Fin 8
  pair : Option (Fin 4)
  deriving DecidableEq, Repr

/-- The level state of one speaker (section 5.5). -/
structure Level where
  applied : Nat
  dip : Dip
  derated : Bool
  derateFast : Bool
  forced : Bool
  release : Bool
  deriving DecidableEq, Repr

/-- The eight matrix values of the decoder (R74). -/
structure Steering where
  envL : Int
  envR : Int
  envS : Int
  envD : Int
  aTgt : Int
  bTgt : Int
  aApp : Int
  bApp : Int
  deriving DecidableEq, Repr

/-- The Render Unit (R74, R90, R95, R98, R100). Speaker identifiers: FL FR C SW SL SR BL BR. -/
structure RenderUnit where
  steering : Steering
  lastMode : DecodeMode
  heldCount : Nat
  speakers : Vector Speaker 8
  lp : Vector Int 8
  crossover : Nat
  master : Nat
  mute : Bool
  levels : Vector Level 8
  deriving DecidableEq, Repr

/-! ## Delay Unit -/

/-- The status of one line of memory that a prepared block reads (R110, R115): not yet completed, OK, ERROR,
or never placed because the DELAY entry changed (R120). -/
inductive ReadStatus where
  | pending
  | ok
  | error
  | abandoned
  deriving DecidableEq, Repr

/-- One line of memory read for a prepared block (R110, R114): the block's first frame from it, and its
status. -/
structure LineRead where
  start : Nat
  status : ReadStatus
  deriving DecidableEq, Repr

/-- A prepared block (R110, R115): its frames, the lines of memory read for it, and the number that ties its
reads to it (log entry 25). -/
structure Prepared where
  generation : Nat
  frames : Chan
  lines : List LineRead
  deriving DecidableEq, Repr

/-- The Delay Unit's state for one speaker (R110). `take`: a new distance is taken at the next boundary
(R118). -/
structure DelayLine where
  history : Nat
  inUse : Nat
  effective : Nat
  prepared : Option Prepared
  lastOut : Chan
  late : Bool
  take : Bool
  deriving DecidableEq, Repr

/-- The Delay Unit (R110, R120). -/
structure DelayUnit where
  lines : Bool
  writeIndex : Nat
  fill : Nat
  speakers : Vector DelayLine 8
  changed : Bool
  generation : Nat
  lateRuns : Word
  deriving DecidableEq, Repr

/-! ## Output Unit -/

/-- One speaker lane (R123 to R127): RUNNING or PARKED, the frames begun in the block, the masks, the slot
map of the block and the eight slots of the last frame sent. -/
structure Lane where
  running : Bool
  count : Nat
  active : Byte
  pending : Byte
  map : Vector (Option (Fin 8)) 8
  sent : List Word
  deriving DecidableEq, Repr

/-- The record link (R130 to R139). -/
structure RecordLink where
  source : RecordSource
  cls : RateClass
  following : Bool
  count : Nat
  active : BitVec 128
  pending : BitVec 128
  pendingFlag : Bool
  level : Bool
  mainBlock : List (Int × Int)
  mainNext : List (Int × Int)
  portBlock : List (Int × Int)
  portInvalid : Bool
  sent : List Bool
  deriving DecidableEq, Repr

/-- The Output Unit. `delayed` and `pairs` are what the lanes took at the last boundary (R124). -/
structure OutputUnit where
  lanes : Vector Lane 2
  delayed : Vector (Option Chan) 8
  pairs : Vector (Option (Fin 4)) 8
  link : RecordLink
  deriving DecidableEq, Repr

/-! ## Amplifier Protection -/

/-- One amplifier pair (R140). -/
structure Pair where
  st : PairState
  counter : Nat
  latch : Bool
  blockFault : Bool
  windowBlocks : Nat
  windows : Nat
  recFaults : Nat
  first : Bool
  deriving DecidableEq, Repr

/-! ## Tuner Controller -/

/-- An I2C attempt in progress (R155): its request, the bytes the part sends after the start condition, the
acknowledge bits it gives to the bytes it reads (`true` for an acknowledge), and the mark of an attempt whose
outcome is discarded (R157). -/
structure Attempt where
  request : LinkRequest
  sends : List Byte
  acks : List Bool
  discard : Bool
  deriving DecidableEq, Repr

/-- The link activity (R155), or a retry that begins once TUN_SCL is seen high (R156). -/
inductive LinkState where
  | idle
  | attempt (a : Attempt)
  | retry (r : LinkRequest)
  deriving DecidableEq, Repr

/-- The seek context (R154, R163, R165). -/
structure SeekContext where
  up : Bool
  threshold : Nat
  start : Nat
  wrapped : Bool
  stopPending : Bool
  returning : Bool
  deriving DecidableEq, Repr

/-- A recalled identity with its identity-known flag (R168). -/
structure RecalledIdentity where
  identity : BitVec 16
  known : Bool
  deriving DecidableEq, Repr

/-- The settle timer (R161), its remaining time in REF_CLK periods. -/
structure SettleTimer where
  running : Bool
  remaining : Nat
  deriving DecidableEq, Repr

/-- The Tuner Controller (R154). -/
structure TunerUnit where
  st : TunerState
  band : Option Band
  channel : Option Nat
  addr : BitVec 7
  fmStep : Nat
  amStep : Nat
  link : LinkState
  owed : Bool
  retry : Nat
  settle : SettleTimer
  quality : Nat
  seek : Option SeekContext
  tag : Option (BitVec 16)
  recalled : Option RecalledIdentity
  deriving DecidableEq, Repr

/-! ## Station Data Decoder -/

/-- The window that led to PROBE: its first bit and its position (section 10.2). -/
structure SyncCandidate where
  firstBit : Nat
  position : Fin 4
  deriving DecidableEq, Repr

/-- The text buffer (R183). -/
structure TextBuffer where
  chars : Vector Byte 64
  mask : BitVec 16
  version : Option Bool
  deriving DecidableEq, Repr

/-- A complete text: its version and its characters, as many as its length (R183). -/
structure StationText where
  version : Bool
  chars : List Byte
  deriving DecidableEq, Repr

/-- A group held by a capture slot: four information words and the block stamp (R185). -/
structure CapturedGroup where
  words : List (BitVec 16)
  stamp : Word
  deriving DecidableEq, Repr

/-- A capture slot (R185): EMPTY when it holds no group. -/
structure CaptureSlot where
  enable : Bool
  typeMatch : BitVec 4
  typeMask : BitVec 4
  varMatch : Bool
  varMask : Bool
  group : Option CapturedGroup
  overrun : Bool
  deriving DecidableEq, Repr

/-- The Station Data Decoder. The history holds the most recent bits, oldest first (R174); `due` says that
the window ending at the newest bit is still to be tested. -/
structure StationUnit where
  history : List Bool
  bitCount : Nat
  due : Bool
  sync : SyncState
  candidate : Option SyncCandidate
  expected : Fin 4
  badCount : Nat
  nextEnd : Nat
  partialGroup : List (BitVec 16)
  identity : Option (BitVec 16)
  changeCand : Option (BitVec 16)
  recalled : Option RecalledIdentity
  tunedChannel : Option Nat
  category : Option (BitVec 5)
  traffic : Bool
  text : TextBuffer
  wanted : StationText
  lastWritten : Option StationText
  writer : Option StationText
  slots : Vector CaptureSlot 8
  deriving DecidableEq, Repr

/-! ## The whole part -/

/-- The output pins that carry a level between steps (00 section 6): true is high. -/
structure Pins where
  irqN : Bool
  alertN : Bool
  ampEn : Vector Bool 4
  deriving DecidableEq, Repr

/-- The whole state: the model's queue of waiting commands, the model's count of free values, RESET_N, the
pins and the eleven units. -/
structure State where
  pending : List Instr
  freeUsed : Nat
  resetLow : Bool
  pins : Pins
  pu : PathUnit
  cu : CommandUnit
  ports : Vector PortState 6
  sc : SwitchUnit
  clock : ClockUnit
  re : RingEngine
  ru : RenderUnit
  du : DelayUnit
  ou : OutputUnit
  ap : Vector Pair 4
  tc : TunerUnit
  sd : StationUnit
  deriving DecidableEq, Repr

/-- The faults that end a run: none. The part's own faults (R48) are state, and every step of the table has
a next state, so no meaning raises one. Safe: nothing stops where the handbook goes on. -/
inductive Fault where
  deriving DecidableEq, Repr

/-- Why a step has no meaning. -/
inductive Refusal where
  /-- A row of the table whose meaning is not written. Raised by Dispatch alone, for no row at present;
  safe, since it stops. -/
  | notModelled (mnemonic : String)
  deriving DecidableEq, Repr

/-! ## The values after a hard reset -/

/-- 32 zero samples. -/
def zeroChan : Chan := List.replicate 32 0

/-- R11, R13, R15: a port at hard reset. -/
def PortState.reset : PortState :=
  { lock := .noSignal, candidate := none, miss := false, windowCount := 0, filling := [], offered := none,
    format := .pcm, change := false, mark := false }

/-- R17: a cleared source entry. -/
def Source.cleared : Source :=
  { valid := false, port := 0, path := .direct, preference := .stereo, trim := 0, lipSync := 0,
    fallback := none, holdTime := 0 }

/-- R31, R17: the Switch Controller at hard reset and at RESTART. -/
def SwitchUnit.reset : SwitchUnit :=
  { table := Vector.replicate 8 Source.cleared, st := .idle, connected := none, target := .absent,
    path := .direct, connectRequest := false, feed := false,
    timer := { running := false, remaining := 0, suspended := false }, cause := none }

/-- R68: silence with this channel count. -/
def HostedBlock.silence (channels : Nat) : HostedBlock :=
  { channels := channels, frames := List.replicate 32 (List.replicate channels 0), disc := false, last := false }

/-- R71: the Ring Engine at hard reset. -/
def RingEngine.reset : RingEngine :=
  { inProd := 0, outCons := 0, store := none, fetch := .free, last := HostedBlock.silence 2,
    ladder := .waiting, missRun := 0, disc := true, pendingDrops := 0, dropRun := false,
    dropped := 0, repeats := 0, silent := 0 }

/-- R74: the reset decoder state. -/
def Steering.reset : Steering :=
  { envL := 0, envR := 0, envS := 0, envD := 0, aTgt := 0, bTgt := 0, aApp := 0, bApp := 0 }

/-- R90: a speaker entry at hard reset and at RESTART. -/
def Speaker.reset : Speaker :=
  { presence := .absent, distance := 0, trim := 0, lane := 0, slot := 0, pair := some 0 }

/-- R108: the level state of a speaker at hard reset and at RESTART. -/
def Level.reset : Level :=
  { applied := 192, dip := .none, derated := false, derateFast := false, forced := false, release := false }

/-- R74, R90, R108: the Render Unit at hard reset and at RESTART. -/
def RenderUnit.reset : RenderUnit :=
  { steering := Steering.reset, lastMode := .stereo, heldCount := 2,
    speakers := Vector.replicate 8 Speaker.reset, lp := Vector.replicate 8 0, crossover := 80,
    master := 80, mute := true, levels := Vector.replicate 8 Level.reset }

/-- R122: the delay state of a speaker at hard reset and at RESTART. -/
def DelayLine.reset : DelayLine :=
  { history := 0, inUse := 0, effective := 0,
    prepared := some { generation := 0, frames := zeroChan, lines := [] },
    lastOut := zeroChan, late := false, take := false }

/-- R122: the Delay Unit at hard reset and at RESTART. -/
def DelayUnit.reset : DelayUnit :=
  { lines := false, writeIndex := 0, fill := 0, speakers := Vector.replicate 8 DelayLine.reset,
    changed := false, generation := 1, lateRuns := 0 }

/-- R129: a lane at hard reset. -/
def Lane.reset : Lane :=
  { running := false, count := 0, active := 0, pending := 0, map := Vector.replicate 8 none,
    sent := List.replicate 8 0 }

/-- R139: the record link at hard reset. -/
def RecordLink.reset : RecordLink :=
  { source := .off, cls := .k48, following := false, count := 0, active := 0, pending := 0,
    pendingFlag := false, level := false, mainBlock := [], mainNext := [], portBlock := [],
    portInvalid := false, sent := [] }

/-- R129, R139: the Output Unit at hard reset. -/
def OutputUnit.reset : OutputUnit :=
  { lanes := Vector.replicate 2 Lane.reset, delayed := Vector.replicate 8 none,
    pairs := Vector.replicate 8 none, link := RecordLink.reset }

/-- R152: a pair at hard reset. -/
def Pair.reset : Pair :=
  { st := .normal, counter := 0, latch := false, blockFault := false, windowBlocks := 0, windows := 0,
    recFaults := 0, first := false }

/-- R172: the Tuner Controller at hard reset and at RESTART. -/
def TunerUnit.reset : TunerUnit :=
  { st := .untuned, band := none, channel := none, addr := 0x11, fmStep := 100, amStep := 9,
    link := .idle, owed := false, retry := 0, settle := { running := false, remaining := 0 },
    quality := 0, seek := none, tag := none, recalled := none }

/-- R183: the cleared text buffer. -/
def TextBuffer.cleared : TextBuffer :=
  { chars := Vector.replicate 64 0, mask := 0, version := none }

/-- R184: the empty text. -/
def StationText.empty : StationText := { version := false, chars := [] }

/-- R191: a disabled, EMPTY capture slot. -/
def CaptureSlot.reset : CaptureSlot :=
  { enable := false, typeMatch := 0, typeMask := 0, varMatch := false, varMask := false, group := none,
    overrun := false }

/-- R191: the Station Data Decoder at hard reset and at RESTART; the expected position, for which no rule gives
a value, is 0 (log entry 54). -/
def StationUnit.reset : StationUnit :=
  { history := [], bitCount := 0, due := false, sync := .search, candidate := none, expected := 0,
    badCount := 0, nextEnd := 0, partialGroup := [], identity := none, changeCand := none,
    recalled := none, tunedChannel := none, category := none, traffic := false,
    text := TextBuffer.cleared, wanted := StationText.empty, lastWritten := none, writer := none,
    slots := Vector.replicate 8 CaptureSlot.reset }

/-- R205: the status block of the hard-reset values, as its sixteen words. -/
def resetImage : List Word :=
  [0x00FEFF00, 0x01015000, 0x1C1C1C1C, 0xFF001C1C, 0x0000FFFF, 0xFF00FFFF, 0, 0,
   0, 0, 0, 0, 0, 0, 0, 0]

/-- R39: the status block's lines 0x0C0..0x0FF for a strap base. -/
def statusLock (control : Nat) : Lock :=
  { owner := .statusWrite, startLine := (control + 0xC0) / 32, lines := 2 }

/-- R201: the Command Unit when RESET_N rises, its one owed status write begun (R199). -/
def CommandUnit.reset : CommandUnit :=
  { enabled := false, ringStatus := .ok, head := 0, tail := 0, evProd := 0, evCons := 0, inCons := 0,
    outProd := 0, irqEnable := false, evDropped := 0, exec := .idle, fetchDiscard := false,
    pendingEvents := [], evWrite := none,
    words := Vector.replicate 6 { inFlight := false, again := false },
    faultWriter := { inFlight := false, again := false }, producerFollows := false, image := resetImage,
    status := { writing := true, again := false, copy := resetImage }, quiesce := false }

/-- An empty queue. -/
def TransferQueue.empty : TransferQueue := { items := [], waiting := [] }

/-- The three empty queues (R43). -/
def Queues.empty : Queues :=
  { render := .empty, input := .empty, control := .empty }

/-- R54: the Path Unit when RESET_N rises with these straps. The memory port and the processor port are the
environment's and keep what they hold. -/
def PathUnit.reset (cb : BitVec 8) (port : MemPort) (proc : ProcPort) : PathUnit :=
  { regions := { control := cb.toNat * 0x100000, command := none, event := none, input := none,
                 output := none, delay := none, preset := none },
    shadow := Vector.replicate 10 0, locks := [], requests := [statusLock (cb.toNat * 0x100000)],
    queues := .empty, port := port, proc := proc, sliceH := 8, runCount := 0, faultRec := none }

/-- R29: the render clock at hard reset. -/
def ClockUnit.reset : ClockUnit :=
  { cls := .k48, following := false, own := false, stamp := 0, windowPos := 0 }

/-- The machine right after RESET_N has risen, with these straps (R54, R201). -/
def State.afterReset (cb : BitVec 8) (port : MemPort) (proc : ProcPort) (pending : List Instr)
    (freeUsed : Nat) : State :=
  { pending := pending, freeUsed := freeUsed, resetLow := false,
    pins := { irqN := true, alertN := true, ampEn := Vector.replicate 4 true },
    pu := PathUnit.reset cb port proc, cu := .reset, ports := Vector.replicate 6 .reset, sc := .reset,
    clock := .reset, re := .reset, ru := .reset, du := .reset, ou := .reset,
    ap := Vector.replicate 4 .reset, tc := .reset, sd := .reset }

/-- The machine right after a hard reset with CB = 0 (log entry 10), nothing on either port, no command
waiting. -/
def State.reset : State :=
  State.afterReset 0 .free { head := none, behind := [], answers := [] } [] 0

end Sys2Proof.Machine
end

