-- ==== Sys2Proof/Machine/Clock.lean ====
section
/-! DEFINITION. What one period of REF_CLK does while no command waits: the timers that measure time on it
count, and nothing acts (log entries 1 and 29). -/

namespace Sys2Proof.Machine

/-- R26: a running hold timer that is not suspended counts down. -/
def HoldTimer.tick (t : HoldTimer) : HoldTimer :=
  if t.running ∧ ¬ t.suspended then { t with remaining := t.remaining - 1 } else t

/-- R161: a running settle timer counts down. -/
def SettleTimer.tick (t : SettleTimer) : SettleTimer :=
  if t.running then { t with remaining := t.remaining - 1 } else t

/-- R10: the place in the measurement window, 24,576 periods long. -/
def windowTick (n : Nat) : Nat := (n + 1) % 24576

/-- One period of REF_CLK. While RESET_N is low nothing counts. -/
def clockTick (s : State) : State :=
  if s.resetLow then s
  else
    { s with sc := { s.sc with timer := s.sc.timer.tick },
             tc := { s.tc with settle := s.tc.settle.tick },
             clock := { s.clock with windowPos := windowTick s.clock.windowPos } }

end Sys2Proof.Machine
end

