-- ==== Sys2Proof/Machine/Operands.lean ====
section
/-! DEFINITION. How the part reads and writes values: the arithmetic of R3, the codes of the named sets
(R202), sample words (R212), the rate classes (R4, R10), the band plan (R158, R159), parameter words. -/

namespace Sys2Proof.Machine

/-! ## Arithmetic (R3) -/

/-- R3: a right shift of a signed value is floor division by 2^n. -/
def asr (x : Int) (n : Nat) : Int := x / ((2 ^ n : Nat) : Int)

/-- R3: clamp(v, lo, hi). -/
def clampInt (v lo hi : Int) : Int := max lo (min hi v)

/-- R3: sat24. -/
def sat24 (x : Int) : Int := clampInt x (-8388608) 8388607

/-- R79: the constant k = 23170 in Q15, and the floor shift of the product. -/
def kShare (x : Int) : Int := asr (x * 23170) 15

/-- R5, R6: a value moved toward a target by at most a rate (R103). -/
def stepToward (applied target rate : Nat) : Nat :=
  if applied ≤ target then min target (applied + rate) else max target (applied - rate)

/-- A counter that wraps at 2^32. -/
def wrapSucc (w : Word) : Word := w + 1

/-- A count that saturates at 65,535. -/
def satSucc16 (n : Nat) : Nat := min 65535 (n + 1)

/-! ## Parameter words (R202, R208) -/

/-- R202: a flag the processor supplies is bit 0 of its field. -/
def flagOf (w : Word) : Bool := w.getLsbD 0

/-- R202: NONE in a word. -/
def noneWord : Word := 0xFFFFFFFF

/-- A parameter word as a number below a bound, if it is one. -/
def finOf (n : Nat) (w : Word) : Option (Fin n) := if h : w.toNat < n then some ⟨w.toNat, h⟩ else none

/-- R202: a Boolean as a word's bit 0. -/
def flagWord (b : Bool) : Word := if b then 1 else 0

/-- A natural number as a word. -/
def natWord (n : Nat) : Word := BitVec.ofNat 32 n

/-- Four bytes as a little-endian word (00 section 7.1). -/
def word4 (b0 b1 b2 b3 : Nat) : Word :=
  BitVec.ofNat 32 (b0 % 256 + 256 * (b1 % 256) + 65536 * (b2 % 256) + 16777216 * (b3 % 256))

/-- Two halfwords as a little-endian word. -/
def word2 (h0 h1 : Nat) : Word := BitVec.ofNat 32 (h0 % 65536 + 65536 * (h1 % 65536))

/-- Byte b of a word. -/
def byteOf (w : Word) (b : Nat) : Byte := w.extractLsb' (8 * b) 8

/-! ## Samples (R2, R212) -/

/-- R212: a sample word, the 24-bit sample sign-extended. -/
def sampleWord (x : Int) : Word := BitVec.ofInt 32 x

/-- R212: the sample of a word read, bits 31:24 ignored. -/
def sampleOf (w : Word) : Int := (w.extractLsb' 0 24).toInt

/-- The number spelled by bits, the first bit most significant. -/
def bitsToNat (bits : List Bool) : Nat := bits.foldl (fun n b => 2 * n + b.toNat) 0

/-- R9: the first n bits of what is left, missing bits taken as 0. -/
def takeBits (n : Nat) (bits : List Bool) : List Bool :=
  bits.take n ++ List.replicate (n - bits.length) false

/-- R9: the sample of a 32-bit slot, its first 24 bits as a signed value. -/
def slotSample (bits : List Bool) : Int := (BitVec.ofNat 24 (bitsToNat (takeBits 24 bits))).toInt

/-- R9: the samples of a frame of n slots, filled in order from the data line. -/
def frameOfBits : Nat → List Bool → Frame
  | 0, _ => []
  | n + 1, bits => slotSample (bits.take 32) :: frameOfBits n (bits.drop 32)

/-- R9: IN0 carries eight slots, IN1 to IN5 two. -/
def portChannels (p : Fin 6) : Nat := if p = 0 then 8 else 2

/-- Channel c of a block of frames. -/
def channelOf (frames : List Frame) (c : Nat) : Chan := frames.map fun f => f.getD c 0

/-- The sample words of a block, in frame order (R59). -/
def sampleWords (frames : List Frame) : List Word := frames.flatMap fun f => f.map sampleWord

/-- R64: words read from a slot as frames of n channels. -/
def framesOfWords (n : Nat) : Nat → List Word → List Frame
  | 0, _ => []
  | k + 1, ws => (ws.take n).map sampleOf :: framesOfWords n k (ws.drop n)

/-- A list cut into lines of eight words; `k` bounds the number of lines. -/
def linesOf8 : Nat → List Word → List (List Word)
  | 0, _ => []
  | k + 1, ws => if ws.isEmpty then [] else ws.take 8 :: linesOf8 k (ws.drop 8)

/-- The words of an answer to a read of n beats: a word the command does not give is 0 (log entry 6). -/
def beatsOf (n : Nat) (data : List Word) : List Word := (data ++ List.replicate n 0).take n

/-! ## Rate classes (R4, R10) -/

/-- R4: the nominal rate in Hz. -/
def RateClass.rate : RateClass → Nat
  | .k32 => 32000
  | .k44 => 44100
  | .k48 => 48000
  | .k88 => 88200
  | .k96 => 96000

/-- R202: 32k 0 to 96k 4. -/
def RateClass.code : RateClass → Nat
  | .k32 => 0
  | .k44 => 1
  | .k48 => 2
  | .k88 => 3
  | .k96 => 4

/-- R10: the result of a window with this many frames. -/
def classify (frames : Nat) : WindowResult :=
  if frames ≤ 7 then .low
  else if 30 ≤ frames ∧ frames ≤ 34 then .cls .k32
  else if 42 ≤ frames ∧ frames ≤ 46 then .cls .k44
  else if 47 ≤ frames ∧ frames ≤ 50 then .cls .k48
  else if 85 ≤ frames ∧ frames ≤ 91 then .cls .k88
  else if 92 ≤ frames ∧ frames ≤ 100 then .cls .k96
  else .out

/-! ## Codes of named sets (R202) -/

/-- PCM 0, ENCODED 1. -/
def Format.code : Format → Nat
  | .pcm => 0
  | .encoded => 1

/-- The port states in the order of R11's table. -/
def LockState.code : LockState → Nat
  | .noSignal => 0
  | .measuring => 1
  | .unsupported => 2
  | .locked _ => 3

/-- R205: the rate class field of a port, 7 when it is not LOCKED. -/
def LockState.classCode : LockState → Nat
  | .locked c => c.code
  | _ => 7

/-- DIRECT 0, HOSTED 1. -/
def EffPath.code : EffPath → Nat
  | .direct => 0
  | .hosted => 1

/-- R17: the codes of the path parameter. -/
def pathOf (n : Nat) : Option PathChoice :=
  match n with
  | 0 => some .direct
  | 1 => some .hosted
  | 2 => some .auto
  | _ => none

/-- R17: the codes of the decode preference. -/
def preferenceOf (n : Nat) : Option Preference :=
  match n with
  | 0 => some .stereo
  | 1 => some .matrix
  | 2 => some .multi
  | 3 => some .downmix
  | 4 => some .auto
  | _ => none

/-- R74: the codes of the effective decode mode. -/
def DecodeMode.code : DecodeMode → Nat
  | .stereo => 0
  | .matrix => 1
  | .multi => 2
  | .downmix => 3

/-- The switch states in the order of section 1.3. -/
def SwitchState.code : SwitchState → Nat
  | .idle => 0
  | .drain => 1
  | .acquire => 2
  | .playRamp => 3
  | .playing => 4
  | .hold => 5
  | .blocked => 6

/-- FORMAT 0, REGION 1. -/
def BlockCause.code : BlockCause → Nat
  | .format => 0
  | .region => 1

/-- R202: ABSENT 0, SMALL 1, LARGE 2, PRESENT 3. -/
def presenceOf (n : Nat) : Option Presence :=
  match n with
  | 0 => some .absent
  | 1 => some .small
  | 2 => some .large
  | 3 => some .present
  | _ => none

/-- The pair states in the order of R140. -/
def PairState.code : PairState → Nat
  | .normal => 0
  | .warn => 1
  | .derate => 2
  | .shutdown => 3
  | .recovering => 4

/-- The tuner states in the order of R154. -/
def TunerState.code : TunerState → Nat
  | .untuned => 0
  | .tuning => 1
  | .settling => 2
  | .tuned => 3
  | .seeking => 4
  | .offline => 5

/-- FM 0, AM 1. -/
def Band.code : Band → Nat
  | .fm => 0
  | .am => 1

/-- R211: the band of a code. -/
def bandOf (n : Nat) : Option Band :=
  match n with
  | 0 => some .fm
  | 1 => some .am
  | _ => none

/-- TUNE_WRITE 0, STATUS_READ 1 (R156). -/
def LinkRequest.code : LinkRequest → Nat
  | .tuneWrite => 0
  | .statusRead => 1

/-- SEARCH 0, PROBE 1, SYNC 2. -/
def SyncState.code : SyncState → Nat
  | .search => 0
  | .probe => 1
  | .sync => 2

/-- R203: the ring status codes. -/
def RingStatus.code : RingStatus → Nat
  | .ok => 0
  | .cmdSize => 1
  | .evtSize => 2
  | .cmdBase => 3
  | .evtBase => 4
  | .cmdOverlap => 5
  | .evtOverlap => 6

/-- R48: the fault kinds in order. -/
def FaultKind.code : FaultKind → Nat
  | .guardWrite => 0
  | .partMemoryError => 1
  | .ringIndex => 2
  | .ringGeometry => 3
  | .badOutputSlot => 4

/-- R48: whether the severity of a kind is ERROR (otherwise NOTICE). -/
def FaultKind.isError : FaultKind → Bool
  | .partMemoryError => true
  | .ringGeometry => true
  | _ => false

/-- 00 section 7.10: DONE 0 to FAILED 9. -/
def ResultCode.code : ResultCode → Nat
  | .done => 0
  | .accepted => 1
  | .clamped => 2
  | .refusedRange => 3
  | .refusedState => 4
  | .refusedBusy => 5
  | .refusedOverlap => 6
  | .refusedEmpty => 7
  | .unknownCommand => 8
  | .failed => 9

/-- R30. -/
def SourceCode.code : SourceCode → Nat
  | .connected => 0
  | .playing => 1
  | .hold => 2
  | .fallback => 3
  | .lost => 4
  | .blocked => 5
  | .idle => 6

/-- R16. -/
def PortCode.code : PortCode → Nat
  | .locked => 0
  | .lost => 1
  | .unsupported => 2
  | .formatChanged => 3

/-- R70. -/
def RingCode.code : RingCode → Nat
  | .inputDropped => 0
  | .outputRepeat => 1
  | .outputStarved => 2
  | .outputResumed => 3
  | .outputDrained => 4

/-- R151. -/
def ProtectCode.code : ProtectCode → Nat
  | .normal => 0
  | .warn => 1
  | .derate => 2
  | .shutdown => 3
  | .recovering => 4
  | .recovered => 5
  | .recoveryFailed => 6

/-- R171. -/
def TunerCode.code : TunerCode → Nat
  | .tuned => 0
  | .notLocked => 1
  | .abandoned => 2
  | .seekFound => 3
  | .seekFailed => 4
  | .seekStopped => 5
  | .linkFailed => 6

/-- R190. -/
def StationCode.code : StationCode → Nat
  | .syncGained => 0
  | .syncLost => 1
  | .identity => 2
  | .identityChanged => 3
  | .identityMismatch => 4
  | .category => 5
  | .text => 6
  | .captured => 7
  | .captureOverrun => 8

/-- R208: the event kind byte. -/
def EventName.kind : EventName → Nat
  | .completion => 0
  | .source _ => 1
  | .port _ => 2
  | .ring _ => 3
  | .delayLate => 4
  | .protect _ => 5
  | .tuner _ => 6
  | .station _ => 7
  | .fault _ => 8

/-- R202, R208: the code byte within the kind. -/
def EventName.code : EventName → Nat
  | .completion => 0
  | .source c => c.code
  | .port c => c.code
  | .ring c => c.code
  | .delayLate => 0
  | .protect c => c.code
  | .tuner c => c.code
  | .station c => c.code
  | .fault k => k.code

/-- R208: the 16-byte event record. -/
def Event.words (e : Event) : List Word :=
  [word4 e.name.kind e.name.code 0 0 ||| (BitVec.setWidth 32 e.subject <<< 16), e.stamp, e.d1, e.d2]

/-- R202: an optional source identifier as an event subject, NONE all ones. -/
def sourceSubject : Option (Fin 8) → BitVec 16
  | none => 0xFFFF
  | some i => BitVec.ofNat 16 i.val

/-- R202: an optional number as a detail word, none all ones. -/
def optionWord : Option Nat → Word
  | none => noneWord
  | some n => natWord n

/-! ## Attenuation and crossover (R105, R98) -/

/-- R105: the step gains G[0..11]. -/
def stepGains : List Int :=
  [32768, 30935, 29205, 27571, 26029, 24573, 23198, 21900, 20675, 19519, 18427, 17396]

/-- R105: a sample scaled by an applied attenuation. -/
def gainSample (applied : Nat) (x : Int) : Int :=
  if applied < 192 then asr (x * stepGains.getD (applied % 12) 0) (15 + applied / 12) else 0

/-- R98: the crossover coefficient of a rate class and a frequency. -/
def crossoverAlpha (c : RateClass) (hz : Nat) : Int :=
  let row : List Int := match c with
    | .k32 => [384, 511, 637, 763]
    | .k44 => [279, 371, 464, 555]
    | .k48 => [256, 341, 426, 511]
    | .k88 => [140, 186, 233, 279]
    | .k96 => [128, 171, 214, 256]
  match hz with
  | 60 => row.getD 0 0
  | 80 => row.getD 1 0
  | 100 => row.getD 2 0
  | _ => row.getD 3 0

/-! ## The band plan (R158, R159) -/

/-- R158: the low edge of a band under a step in kHz. -/
def planLow (b : Band) (step : Nat) : Nat :=
  match b with
  | .fm => if step = 200 then 8790 else 8750
  | .am => if step = 10 then 520 else 522

/-- R158: the high edge. -/
def planHigh (b : Band) (step : Nat) : Nat :=
  match b with
  | .fm => if step = 200 then 10790 else 10800
  | .am => 1710

/-- R158: the step in channel units. -/
def planStep (b : Band) (step : Nat) : Nat :=
  match b with
  | .fm => step / 10
  | .am => step

/-- R159: a channel snapped onto the plan. -/
def snapChannel (b : Band) (step c : Nat) : Nat :=
  let lo := planLow b step
  let hi := planHigh b step
  let st := planStep b step
  if c ≤ lo then lo
  else if hi ≤ c then hi
  else
    let q := (c - lo) / st
    let r := (c - lo) % st
    if 2 * r ≤ st then lo + q * st else lo + (q + 1) * st

/-- R164: the candidate above a channel, and whether the step wrapped. -/
def planAbove (b : Band) (step c : Nat) : Nat × Bool :=
  let lo := planLow b step
  let hi := planHigh b step
  let st := planStep b step
  let n := if c < lo then lo else lo + ((c - lo) / st + 1) * st
  if n ≤ hi then (n, false) else (lo, true)

/-- R164: the candidate below a channel, and whether the step wrapped. -/
def planBelow (b : Band) (step c : Nat) : Nat × Bool :=
  let lo := planLow b step
  let hi := planHigh b step
  let st := planStep b step
  if c ≤ lo then (hi, true)
  else if hi < c then (hi, false)
  else (lo + ((c - lo - 1) / st) * st, false)

/-- R162: the quality of a status read. -/
def qualityOf (b : Band) (level multipath : Nat) : Nat :=
  match b with
  | .fm => (clampInt ((level : Int) - 4 * (multipath : Int)) 0 127).toNat
  | .am => level

/-! ## Delay (R7, R111) -/

/-- R111: a delay in units as frames at a rate. -/
def delayFrames (units : Nat) (c : RateClass) : Nat := units * c.rate / 10000

/-! ## Regions and lines (R32, R35, R38) -/

/-- Whether two ranges of bytes share one. -/
def Range.overlaps (a b : Range) : Bool :=
  decide (a.base < b.base + b.size) && decide (b.base < a.base + a.size)

/-- Whether a byte address lies in a range. -/
def Range.holds (a : Range) (addr : Nat) : Bool :=
  decide (a.base ≤ addr) && decide (addr < a.base + a.size)

/-- R38: whether two locks cover a common line. -/
def Lock.overlaps (a b : Lock) : Bool :=
  decide (a.startLine < b.startLine + b.lines) && decide (b.startLine < a.startLine + a.lines)

/-- R38: whether a lock covers a line. -/
def Lock.covers (a : Lock) (line : Nat) : Bool :=
  decide (a.startLine ≤ line) && decide (line < a.startLine + a.lines)

/-- The eight speaker identifiers (R90) in order. -/
def speakerIds : List (Fin 8) := [0, 1, 2, 3, 4, 5, 6, 7]

/-- The four pairs in order (R140). -/
def pairIds : List (Fin 4) := [0, 1, 2, 3]

/-- The six ports in order (R9). -/
def portIds : List (Fin 6) := [0, 1, 2, 3, 4, 5]

/-- R90: whether a speaker is present. -/
def Speaker.isPresent (s : Speaker) : Bool := decide (s.presence ≠ .absent)

end Sys2Proof.Machine
end

