-- ==== Sys2Proof/Machine/Ops.lean ====
section
/-! DEFINITION. The shared operations: placing a transfer, writing an index word, raising an event and a
fault, asking for a lock, completing a command and testing for the next fetch. -/

namespace Sys2Proof.Machine

/-! ## Updating one unit -/

/-- The state with its Path Unit changed. -/
def State.mapPu (s : State) (f : PathUnit → PathUnit) : State := { s with pu := f s.pu }

/-- The state with its Command Unit changed. -/
def State.mapCu (s : State) (f : CommandUnit → CommandUnit) : State := { s with cu := f s.cu }

/-- The state with its Switch Controller changed. -/
def State.mapSc (s : State) (f : SwitchUnit → SwitchUnit) : State := { s with sc := f s.sc }

/-- The state with its render clock changed. -/
def State.mapClock (s : State) (f : ClockUnit → ClockUnit) : State := { s with clock := f s.clock }

/-- The state with its Ring Engine changed. -/
def State.mapRe (s : State) (f : RingEngine → RingEngine) : State := { s with re := f s.re }

/-- The state with its Render Unit changed. -/
def State.mapRu (s : State) (f : RenderUnit → RenderUnit) : State := { s with ru := f s.ru }

/-- The state with its Delay Unit changed. -/
def State.mapDu (s : State) (f : DelayUnit → DelayUnit) : State := { s with du := f s.du }

/-- The state with its Output Unit changed. -/
def State.mapOu (s : State) (f : OutputUnit → OutputUnit) : State := { s with ou := f s.ou }

/-- The state with its Tuner Controller changed. -/
def State.mapTc (s : State) (f : TunerUnit → TunerUnit) : State := { s with tc := f s.tc }

/-- The state with its Station Data Decoder changed. -/
def State.mapSd (s : State) (f : StationUnit → StationUnit) : State := { s with sd := f s.sd }

/-- The state with one port changed. -/
def State.mapPort (s : State) (p : Fin 6) (f : PortState → PortState) : State :=
  { s with ports := s.ports.set p (f s.ports[p]) }

/-- The state with one amplifier pair changed. -/
def State.mapPair (s : State) (p : Fin 4) (f : Pair → Pair) : State :=
  { s with ap := s.ap.set p (f s.ap[p]) }

/-! ## Transfers and queues (R43) -/

/-- R43: the capacity of a queue. -/
def queueCapacity : Queue → Nat
  | .render => 32
  | .input => 16
  | .control => 16

/-- One of the three queues. -/
def Queues.get (qs : Queues) : Queue → TransferQueue
  | .render => qs.render
  | .input => qs.input
  | .control => qs.control

/-- The three queues with one replaced. -/
def Queues.put (qs : Queues) (q : Queue) (v : TransferQueue) : Queues :=
  match q with
  | .render => { qs with render := v }
  | .input => { qs with input := v }
  | .control => { qs with control := v }

/-- R43: a transfer joins its queue, or waits for room behind those already waiting (log entry 7). -/
def TransferQueue.place (tq : TransferQueue) (cap : Nat) (t : Transfer) : TransferQueue :=
  if tq.waiting = [] ∧ tq.items.length < cap then { tq with items := tq.items ++ [t] }
  else { tq with waiting := tq.waiting ++ [t] }

/-- R43: the first waiting transfer takes a place, if there is one. -/
def TransferQueue.takeWaiting (tq : TransferQueue) (cap : Nat) : TransferQueue :=
  match tq.waiting with
  | [] => tq
  | t :: rest => if tq.items.length < cap then { items := tq.items ++ [t], waiting := rest } else tq

/-- The transfers of a queue, placed and waiting, that a test keeps. -/
def TransferQueue.filter (tq : TransferQueue) (keep : Transfer → Bool) : TransferQueue :=
  { items := tq.items.filter keep, waiting := tq.waiting.filter keep }

/-- R43: a unit places a transfer in a queue. -/
def placeTransfer (q : Queue) (t : Transfer) (s : State) : State :=
  s.mapPu fun pu => { pu with queues := pu.queues.put q ((pu.queues.get q).place (queueCapacity q) t) }

/-- R43: a unit places several transfers in order. -/
def placeAll (q : Queue) (ts : List Transfer) (s : State) : State :=
  ts.foldl (fun s t => placeTransfer q t s) s

/-- A write transfer (R43). -/
def writeOf (r : Requester) (addr : Nat) (data : List Word) (sq : Option Sequence) : Transfer :=
  { requester := r, addr := addr, write := true, beats := data.length, data := data, sequence := sq,
    draining := false }

/-- A read transfer (R43). -/
def readOf (r : Requester) (addr beats : Nat) (sq : Option Sequence) : Transfer :=
  { requester := r, addr := addr, write := false, beats := beats, data := [], sequence := sq,
    draining := false }

/-- An address of the control block (R203). -/
def controlAddr (s : State) (off : Nat) : Nat := s.pu.regions.control + off

/-- R38: a sequence asks for its lock and joins the lock request list. -/
def requestLock (l : Lock) (s : State) : State :=
  s.mapPu fun pu => { pu with requests := pu.requests ++ [l] }

/-! ## Index words (R195) -/

/-- The place of an index word among the six. -/
def IndexWord.place : IndexWord → Fin 6
  | .ringStatus => 0
  | .commandHead => 1
  | .eventProducer => 2
  | .inputProducer => 3
  | .outputConsumer => 4
  | .eventsDropped => 5

/-- R195: the offset of an index word in the control block. -/
def IndexWord.offset (w : IndexWord) : Nat := 0x40 + 4 * w.place.val

/-- R195: what an index word carries now. -/
def indexValue (s : State) : IndexWord → Word
  | .ringStatus => natWord s.cu.ringStatus.code
  | .commandHead => s.cu.head.setWidth 32
  | .eventProducer => s.cu.evProd.setWidth 32
  | .inputProducer => s.re.inProd.setWidth 32
  | .outputConsumer => s.re.outCons.setWidth 32
  | .eventsDropped => s.cu.evDropped

/-- The writer of an index word set. -/
def setWriter (w : IndexWord) (v : WordWriter) (s : State) : State :=
  s.mapCu fun cu => { cu with words := cu.words.set w.place v }

/-- R195: the write of an index word is placed. -/
def placeIndexWord (w : IndexWord) (s : State) : State :=
  placeTransfer .control (writeOf (.indexWord w) (controlAddr s w.offset) [indexValue s w] none)
    (setWriter w { inFlight := true, again := false } s)

/-- R195: an index word changed. With a write of it in flight one more write is owed; while RESTART
quiesces the part the write is owed too (R200). -/
def writeIndexWord (w : IndexWord) (s : State) : State :=
  if s.cu.words[w.place].inFlight then setWriter w { inFlight := true, again := true } s
  else if s.cu.quiesce then setWriter w { inFlight := false, again := true } s
  else placeIndexWord w s

/-- R197, R200: an event write ended, and its producer word write follows it, in a quiesce too; behind a write
of the word in flight it is owed. -/
def followEventWrite (s : State) : State :=
  if s.cu.words[IndexWord.eventProducer.place].inFlight then
    setWriter .eventProducer { inFlight := true, again := true }
      (s.mapCu fun cu => { cu with producerFollows := true })
  else placeIndexWord .eventProducer s

/-- R197, R200: the owed write of an index word follows an event write, so a quiesce does not hold it back. -/
def wordFollows (s : State) (w : IndexWord) : Bool := s.cu.producerFollows && decide (w = .eventProducer)

/-- R195: the write of an index word is no longer in flight, and nothing more of it is owed. -/
def idleWriter (w : IndexWord) (s : State) : State :=
  setWriter w { inFlight := false, again := false }
    (s.mapCu fun cu => { cu with producerFollows := cu.producerFollows && decide (w ≠ .eventProducer) })

/-- R195: the write of an index word ended, OK or not, and the one owed behind it is placed. -/
def indexWordEnded (w : IndexWord) (s : State) : State :=
  if s.cu.words[w.place].again then
    if wordFollows s w then placeIndexWord w (idleWriter w s) else writeIndexWord w (idleWriter w s)
  else idleWriter w s

/-! ## Events (R197) -/

/-- R192: the slot count of the event ring. -/
def eventSlots (s : State) : Nat := (s.pu.regions.event.map fun r => r.size / 16).getD 0

/-- R192: the base of the event ring. -/
def eventBase (s : State) : Nat := (s.pu.regions.event.map fun r => r.base).getD 0

/-- R197: an event is dropped and counted. -/
def dropEvent (s : State) : State :=
  writeIndexWord .eventsDropped (s.mapCu fun cu => { cu with evDropped := wrapSucc cu.evDropped })

/-- R197: whether the event ring is full. -/
def eventRingFull (s : State) : Bool := decide ((s.cu.evProd - s.cu.evCons).toNat = eventSlots s)

/-- R197: the write of an event record is placed. -/
def placeEventWrite (e : Event) (s : State) : State :=
  placeTransfer .control
    (writeOf .eventWrite (eventBase s + 16 * (s.cu.evProd.toNat % eventSlots s)) e.words none)
    (s.mapCu fun cu => { cu with evWrite := some { event := e, stale := false } })

/-- R197: the oldest of these events is written, or dropped when the ring is full, and then the next. -/
def writeOldest : List Event → State → State
  | [], s => s.mapCu fun cu => { cu with pendingEvents := [] }
  | e :: rest, s =>
    if eventRingFull s then writeOldest rest (dropEvent s)
    else placeEventWrite e (s.mapCu fun cu => { cu with pendingEvents := rest })

/-- R197, R200: with no event write under way, and the part not quiescing, the CU goes on to the oldest
pending event. -/
def pumpEvents (s : State) : State :=
  if s.cu.quiesce ∨ s.cu.evWrite.isSome then s else writeOldest s.cu.pendingEvents s

/-- R197: an event raised is dropped while the rings are disabled or the list is full, and joins the
pending list otherwise. -/
def queueEvent (e : Event) (s : State) : State :=
  if s.cu.enabled ∧ s.cu.pendingEvents.length < 32 then
    pumpEvents (s.mapCu fun cu => { cu with pendingEvents := cu.pendingEvents ++ [e] })
  else dropEvent s

/-- R197: a unit raises an event, stamped with the boundary in force. -/
def raiseEvent (name : EventName) (subject : BitVec 16) (d1 d2 : Word) (s : State) : State :=
  queueEvent { name := name, subject := subject, stamp := s.clock.stamp, d1 := d1, d2 := d2,
               ofEventWrite := false } s

/-! ## Faults (R48) -/

/-- R204: the words of the fault record. -/
def faultRecordWords : Option FaultRecord → List Word
  | none => [0, 0, 0, 0]
  | some r => [word4 1 r.kind.isError.toNat r.kind.code 0, natWord r.addr, r.stamp, 0]

/-- R48: the write of the fault record is placed. -/
def placeFaultRecord (s : State) : State :=
  placeTransfer .control (writeOf .faultRecord (controlAddr s 0x80) (faultRecordWords s.pu.faultRec) none)
    (s.mapCu fun cu => { cu with faultWriter := { inFlight := true, again := false } })

/-- R48: the record changed; with a write in flight, or while quiescing, one more write is owed. -/
def writeFaultRecord (s : State) : State :=
  if s.cu.faultWriter.inFlight ∨ s.cu.quiesce then
    s.mapCu fun cu => { cu with faultWriter := { cu.faultWriter with again := true } }
  else placeFaultRecord s

/-- R48: the write of the fault record ended, OK or not. -/
def faultRecordEnded (s : State) : State :=
  let again := s.cu.faultWriter.again
  let s := s.mapCu fun cu => { cu with faultWriter := { inFlight := false, again := false } }
  if again then writeFaultRecord s else s

/-- R48: whether a new fault takes the place of what the record holds. -/
def faultReplaces (held : Option FaultRecord) (k : FaultKind) : Bool :=
  match held with
  | none => true
  | some r => !r.kind.isError && k.isError

/-- R48, R50: a fault is raised: its FAULT event, and the fault record by severity. `ofEventWrite` marks the
fault of a failed event write. -/
def raiseFaultMarked (ofEventWrite : Bool) (k : FaultKind) (addr : Nat) (s : State) : State :=
  let replaces := faultReplaces s.pu.faultRec k
  let s := queueEvent { name := .fault k, subject := 0, stamp := s.clock.stamp, d1 := natWord addr,
                        d2 := flagWord k.isError, ofEventWrite := ofEventWrite } s
  if replaces then
    writeFaultRecord
      (s.mapPu fun pu => { pu with faultRec := some { kind := k, addr := addr, stamp := s.clock.stamp } })
  else s

/-- R48: a fault is raised. -/
def raiseFault (k : FaultKind) (addr : Nat) (s : State) : State := raiseFaultMarked false k addr s

/-! ## Commands (R196) -/

/-- R192: the slot count of the command ring. -/
def commandSlots (s : State) : Nat := (s.pu.regions.command.map fun r => r.size / 32).getD 0

/-- R192: the base of the command ring. -/
def commandBase (s : State) : Nat := (s.pu.regions.command.map fun r => r.base).getD 0

/-- R196: whether a fetch begins. -/
def fetchDue (s : State) : Bool :=
  s.cu.enabled && decide (s.cu.exec = .idle) && decide (s.cu.tail ≠ s.cu.head) && !s.cu.quiesce

/-- R196: the fetch test: a read of the command slot at the head is placed. -/
def testFetch (s : State) : State :=
  if fetchDue s then
    placeTransfer .control
      (readOf .commandFetch (commandBase s + 32 * (s.cu.head.toNat % commandSlots s)) 8 none)
      (s.mapCu fun cu => { cu with exec := .fetching, fetchDiscard := false })
  else s

/-- R196: a record is taken: the CU is BUSY with its tag and kind, at the ring index of the head. -/
def beginCommand (tag kind : BitVec 16) (s : State) : State :=
  s.mapCu fun cu =>
    { cu with exec := .busy { tag := tag, kind := kind, index := cu.head, counts := true, work := .atOnce },
              fetchDiscard := false }

/-- The command being run waits for this work to end. -/
def holdFor (w : BusyWork) (s : State) : State :=
  match s.cu.exec with
  | .busy b => s.mapCu fun cu => { cu with exec := .busy { b with work := w } }
  | _ => s

/-- R196: the head advances and is written, but for a command taken before the last enable (R193). -/
def advanceHead (counts : Bool) (s : State) : State :=
  if counts then writeIndexWord .commandHead (s.mapCu fun cu => { cu with head := cu.head + 1 }) else s

/-- R196, R208: a completion: the COMPLETION event, the head, IDLE, the next fetch. -/
def complete (r : ResultCode) (s : State) : State :=
  match s.cu.exec with
  | .busy b =>
    testFetch
      ((advanceHead b.counts
        (raiseEvent .completion b.tag (natWord r.code) (word2 b.kind.toNat b.index.toNat) s)).mapCu
          fun cu => { cu with exec := .idle })
  | _ => s

/-- The tag of the command being run. -/
def busyTag (s : State) : BitVec 16 :=
  match s.cu.exec with
  | .busy b => b.tag
  | _ => 0

/-- Whether a transfer is the command fetch. -/
def isFetch (t : Transfer) : Bool := decide (t.requester = .commandFetch)

/-- The read of the fetch under way is answered: it leaves the queue, or the port. -/
def endFetchRead (s : State) : State :=
  s.mapPu fun pu =>
    { pu with
      queues := pu.queues.put .control (pu.queues.control.filter fun t => !isFetch t)
      port := match pu.port with
        | .part t => if isFetch t then .free else .part t
        | p => p }

/-- R193: the data of a fetch begun before a disable are discarded, and the next fetch is tested (log
entry 33). -/
def discardFetch (s : State) : State :=
  testFetch (s.mapCu fun cu => { cu with exec := .idle, fetchDiscard := false })

/-- R196: a command record of this kind and tag reaches the CU and is taken, and `work` is what its owner
does. While the CU is BUSY no later command is taken (R53); a fetch begun before a disable is discarded
(R193). Log entry 4. -/
def takeRecord (tag kind : BitVec 16) (work : State → State) (s : State) : State :=
  match s.cu.exec with
  | .busy _ => s
  | .idle => work (beginCommand tag kind s)
  | .fetching =>
    if s.cu.fetchDiscard then discardFetch (endFetchRead s) else work (beginCommand tag kind (endFetchRead s))

end Sys2Proof.Machine
end

