-- ==== Sys2Proof/Machine/Flags.lean ====
section
/-! DEFINITION. What the part shows of its state: the status block (R199, R205) and the pins IRQ_N, ALERT_N
and AMP_EN (R198, R49, R145), and the end of every step, which brings both up to date. -/

namespace Sys2Proof.Machine

/-! ## The status image (R205) -/

/-- R205: an optional source identifier in a byte, 0xFF for NONE. -/
def sourceByte : Option (Fin 8) → Nat
  | none => 0xFF
  | some i => i.val

/-- R205: the pending target in a byte, 0xFE absent, 0xFF NONE. -/
def targetByte : Target → Nat
  | .absent => 0xFE
  | .none => 0xFF
  | .source i => i.val

/-- R205: the byte of a port. -/
def portByte (p : PortState) : Nat := p.lock.code + 4 * p.lock.classCode + 32 * p.format.code

/-- R205: the sixteen words of the status block, from what the units hold. How far a recovery got is not among them,
as R151 and R205 have it, against a sentence of R150 (DESIGN CHOICE, log entry 64). -/
def statusImage (s : State) : List Word :=
  [ word4 s.sc.st.code (sourceByte s.sc.connected) (targetByte s.sc.target) s.sc.path.code,
    word4 s.ru.lastMode.code s.ru.master s.ru.mute.toNat (!s.du.lines).toNat,
    word4 (portByte s.ports[0]) (portByte s.ports[1]) (portByte s.ports[2]) (portByte s.ports[3]),
    word4 (portByte s.ports[4]) (portByte s.ports[5]) s.tc.st.code ((s.tc.band.map Band.code).getD 0xFF),
    word4 (s.tc.channel.getD 0xFFFF) (s.tc.channel.getD 0xFFFF / 256) s.tc.quality s.sd.sync.code,
    word4 ((s.sd.identity.getD 0xFFFF).toNat) ((s.sd.identity.getD 0xFFFF).toNat / 256)
      (s.sd.identity.isSome.toNat + 2 * s.sd.traffic.toNat) ((s.sd.category.map BitVec.toNat).getD 0xFF),
    word4 s.ap[0].st.code s.ap[1].st.code s.ap[2].st.code s.ap[3].st.code,
    0,
    word2 s.ap[0].counter s.ap[1].counter,
    word2 s.ap[2].counter s.ap[3].counter,
    s.re.dropped, s.re.repeats, s.re.silent, s.du.lateRuns, 0, 0 ]

/-- R199: a write of the status block begins with a copy of the image and asks for its lock. -/
def beginStatusWrite (s : State) : State :=
  requestLock (statusLock s.pu.regions.control)
    (s.mapCu fun cu => { cu with status := { writing := true, again := false, copy := cu.image } })

/-- R199: a change of the image begins a write, or sets the again flag while one is under way. While
RESTART quiesces the part no write begins (R200), and the flag keeps that one is owed. -/
def imageChanged (s : State) : State :=
  if s.cu.status.writing ∨ s.cu.quiesce then
    s.mapCu fun cu => { cu with status := { cu.status with again := true } }
  else beginStatusWrite s

/-- R199: the units' reports of a step reach the image together, and a changed image acts (log entry 8). -/
def updateStatus (s : State) : State :=
  if statusImage s = s.cu.image then s
  else imageChanged (s.mapCu fun cu => { cu with image := statusImage s })

/-- R199: the second line of the status block is in memory: one more write begins if the flag is set. -/
def statusWriteEnded (s : State) : State :=
  if s.cu.status.again ∧ ¬ s.cu.quiesce then beginStatusWrite s
  else s.mapCu fun cu => { cu with status := { cu.status with writing := false } }

/-- R199: an abort of the status write: IDLE, the again flag cleared. -/
def statusWriteAborted (s : State) : State :=
  s.mapCu fun cu => { cu with status := { cu.status with writing := false, again := false } }

/-! ## The pins -/

/-- R198: IRQ_N, high unless the rings are enabled, the enable bit is 1 and an event is unconsumed. -/
def irqLevel (s : State) : Bool :=
  !(s.cu.enabled && s.cu.irqEnable && decide (s.cu.evProd ≠ s.cu.evCons))

/-- R49: ALERT_N, low while the fault record is LATCHED with an ERROR fault. -/
def alertLevel (s : State) : Bool :=
  match s.pu.faultRec with
  | none => true
  | some r => !r.kind.isError

/-- R145: AMP_EN of a pair, low exactly in SHUTDOWN (or with RESET_N low, R152). -/
def ampEnLevel (p : Pair) : Bool := decide (p.st ≠ .shutdown)

/-- The pin levels that go with a state; with RESET_N low they are R49's, R201's and R152's. -/
def pinLevels (s : State) : Pins :=
  if s.resetLow then { irqN := true, alertN := true, ampEn := Vector.replicate 4 false }
  else { irqN := irqLevel s, alertN := alertLevel s,
         ampEn := #v[ampEnLevel s.ap[0], ampEnLevel s.ap[1], ampEnLevel s.ap[2], ampEnLevel s.ap[3]] }

/-- The pins driven to the levels that go with the state. -/
def drivePins (s : State) : State := { s with pins := pinLevels s }

/-- The end of a step of the running part: the status image and the pins are brought up to date. -/
def finish (s : State) : State := drivePins (updateStatus s)

/-- A step of the part's units. While RESET_N is low the units are held in reset and the step changes
nothing (R54, R201; log entry 2). -/
def live (f : State → State) (s : State) : Host.Outcome State Fault Refusal :=
  .next (if s.resetLow then s else finish (f s))

end Sys2Proof.Machine
end

