-- ==== Sys2Proof/Machine/Render.lean ====
section
/-! DEFINITION. The Render Unit: surround decoding (04), fold, bass management and level (05), and its
commands SET_VOLUME, CONFIG_SPEAKER and SET_CROSSOVER. -/

namespace Sys2Proof.Machine

/-! ## What the Render Unit reads of the other units -/

/-- R19: the switch-mute is raised in every switch state but PLAY_RAMP and PLAYING. -/
def switchMute (s : State) : Bool := decide (s.sc.st ≠ .playRamp) && decide (s.sc.st ≠ .playing)

/-- The entry of the connected source. -/
def connectedSource (s : State) : Option Source := s.sc.connected.map fun i => s.sc.table[i]

/-- R90: whether a speaker is present in the table. -/
def speakerPresent (s : State) (i : Fin 8) : Bool := s.ru.speakers[i].isPresent

/-- R101: the pair a present speaker belongs to. -/
def speakerPair (sp : Speaker) : Option (Fin 4) := if sp.isPresent then sp.pair else none

/-- R101: a speaker's pair is in DERATE. -/
def speakerDerated (s : State) (sp : Speaker) : Bool :=
  match speakerPair sp with
  | none => false
  | some p => decide (s.ap[p].st = .derate)

/-- R103, R125: a pair state that gives its speakers no signal. -/
def PairState.silences (p : PairState) : Bool := decide (p = .shutdown) || decide (p = .recovering)

/-- R103: a speaker is forced to zero. -/
def speakerForced (s : State) (sp : Speaker) : Bool :=
  match speakerPair sp with
  | none => false
  | some p => s.ap[p].st.silences

/-! ## Decoding (04) -/

/-- A block inside the render: eight speaker channels, the LFE, and the eight saturation marks (R72, R93).
The SW channel is zero until bass management. -/
structure RenderBlock where
  chans : Vector Chan 8
  lfe : Chan
  marks : Vector Bool 8
  deriving DecidableEq, Repr

/-- R80: a channel through sat24, and whether one sample was changed. -/
def satChan (xs : Chan) : Chan × Bool := (xs.map sat24, xs.any fun x => decide (sat24 x ≠ x))

/-- Sample-wise sum. -/
def addChan (a b : Chan) : Chan := List.zipWith (· + ·) a b

/-- Sample-wise difference. -/
def subChan (a b : Chan) : Chan := List.zipWith (· - ·) a b

/-- R74: the decoder state reset. -/
def resetSteering (s : State) : State := s.mapRu fun ru => { ru with steering := Steering.reset }

/-- R95: the crossover states reset. -/
def resetCrossover (s : State) : State := s.mapRu fun ru => { ru with lp := Vector.replicate 8 0 }

/-- R74, R95: what a connect resets in the Render Unit. -/
def renderConnect (s : State) : State :=
  (resetCrossover (resetSteering s)).mapRu fun ru => { ru with heldCount := 2 }

/-- R75: whether one of C, SL, SR is present. -/
def surroundPresent (s : State) : Bool := speakerPresent s 2 || speakerPresent s 4 || speakerPresent s 5

/-- R75: the decode preference in force. -/
def preferenceNow (s : State) : Preference :=
  match connectedSource s with
  | none => .stereo
  | some src => src.preference

/-- R75: the effective decode mode of a block. -/
def chooseMode (p : Preference) (surround : Bool) (channels : Nat) : DecodeMode :=
  if channels = 2 then
    match p with
    | .matrix => .matrix
    | .auto => if surround then .matrix else .stereo
    | _ => .stereo
  else
    match p with
    | .stereo => .downmix
    | .downmix => .downmix
    | .auto => if surround then .multi else .downmix
    | _ => .multi

/-- R77: STEREO. -/
def decodeStereo (frames : List Frame) : RenderBlock :=
  { chans := #v[channelOf frames 0, channelOf frames 1, zeroChan, zeroChan, zeroChan, zeroChan, zeroChan, zeroChan],
    lfe := zeroChan, marks := Vector.replicate 8 false }

/-- R78: MULTI; a six-channel block leaves BL and BR at 0. -/
def decodeMulti (frames : List Frame) : RenderBlock :=
  { chans := #v[channelOf frames 0, channelOf frames 1, channelOf frames 2, zeroChan, channelOf frames 4,
                channelOf frames 5, channelOf frames 6, channelOf frames 7],
    lfe := channelOf frames 3, marks := Vector.replicate 8 false }

/-- R79: the exact sum of a front with its shares of C, side and back. -/
def downmixSum (front c side back : Chan) : Chan :=
  addChan (addChan (addChan front (c.map kShare)) (side.map kShare)) (back.map kShare)

/-- R79: DOWNMIX. -/
def decodeDownmix (frames : List Frame) : RenderBlock :=
  let ch := channelOf frames
  let l := satChan (downmixSum (ch 0) (ch 2) (ch 4) (ch 6))
  let r := satChan (downmixSum (ch 1) (ch 2) (ch 5) (ch 7))
  { chans := #v[l.1, r.1, zeroChan, zeroChan, zeroChan, zeroChan, zeroChan, zeroChan],
    lfe := ch 3, marks := #v[l.2, r.2, false, false, false, false, false, false] }

/-- R82: the block magnitude. -/
def blockMagnitude (xs : Chan) : Int := asr ((xs.map fun x => max x (-x)).sum) 5

/-- R83: an envelope moves toward its block magnitude. -/
def envelope (e m : Int) : Int := if e ≤ m then e + asr (m - e) 2 else e - asr (e - m) 5

/-- R84: a steering target from two envelopes. -/
def steeringTarget (prev x y : Int) : Int :=
  if x + y < 256 then prev else clampInt (((x - y) * 32768).tdiv (x + y)) (-32767) 32767

/-- R85: an applied steering value moves toward its target. -/
def slew (app tgt : Int) : Int := app + clampInt (tgt - app) (-1024) 1024

/-- R81: the sum signal. -/
def sumSignal (l r : Chan) : Chan := List.zipWith (fun a b => asr (a + b) 1) l r

/-- R81: the difference signal. -/
def diffSignal (l r : Chan) : Chan := List.zipWith (fun a b => asr (a - b) 1) l r

/-- R81 to R85: the matrix update of one block. -/
def steer (st : Steering) (l r : Chan) : Steering :=
  let eL := envelope st.envL (blockMagnitude l)
  let eR := envelope st.envR (blockMagnitude r)
  let eS := envelope st.envS (blockMagnitude (sumSignal l r))
  let eD := envelope st.envD (blockMagnitude (diffSignal l r))
  let a := steeringTarget st.aTgt eL eR
  let b := steeringTarget st.bTgt eS eD
  { envL := eL, envR := eR, envS := eS, envD := eD, aTgt := a, bTgt := b, aApp := slew st.aApp a,
    bApp := slew st.bApp b }

/-- R86: the centre lifted out of the sum. -/
def matrixCentre (bApp : Int) (sum : Chan) : Chan := sum.map fun x => asr (max bApp 0 * x) 15

/-- R87: the surround signal Sd. -/
def surroundSignal (bApp : Int) (diff : Chan) : Chan :=
  let ks := 23170 + asr (max (-bApp) 0 * 9598) 15
  diff.map fun d => asr (ks * d) 15

/-- R86 to R89: the decoded block of MATRIX from the steering just updated. -/
def decodeMatrix (st : Steering) (backPair : Bool) (l r : Chan) : RenderBlock :=
  let c := matrixCentre st.bApp (sumSignal l r)
  let fl := satChan (subChan l c)
  let fr := satChan (subChan r c)
  let sd := surroundSignal st.bApp (diffSignal l r)
  let gL := 32767 - max (-st.aApp) 0
  let gR := 32767 - max st.aApp 0
  let sl := satChan (sd.map fun x => asr (gL * x) 15)
  let sr := satChan (sd.map fun x => -(asr (gR * x) 15))
  let marks := #v[fl.2, fr.2, false, false, sl.2, sr.2, false, false]
  if backPair then
    let sl' := sl.1.map kShare
    let sr' := sr.1.map kShare
    { chans := #v[fl.1, fr.1, c, zeroChan, sl', sr', sl', sr'], lfe := zeroChan, marks := marks }
  else
    { chans := #v[fl.1, fr.1, c, zeroChan, sl.1, sr.1, zeroChan, zeroChan], lfe := zeroChan, marks := marks }

/-- R72 stages 2 to 4: the decoded block of an input block, and the decoder state it leaves (R73, R76). -/
def decodeBlock (live : Bool) (input : HostedBlock) (s : State) : RenderBlock × State :=
  let s := if input.disc then resetCrossover (resetSteering s) else s
  let mode := chooseMode (preferenceNow s) (surroundPresent s) input.channels
  let s := if mode = .matrix ∧ s.ru.lastMode ≠ .matrix then resetSteering s else s
  let s := s.mapRu fun ru =>
    { ru with lastMode := mode, heldCount := if live then input.channels else ru.heldCount }
  match mode with
  | .stereo => (decodeStereo input.frames, s)
  | .multi => (decodeMulti input.frames, s)
  | .downmix => (decodeDownmix input.frames, s)
  | .matrix =>
    let l := channelOf input.frames 0
    let r := channelOf input.frames 1
    let st := steer s.ru.steering l r
    (decodeMatrix st (speakerPresent s 6 && speakerPresent s 7) l r,
      s.mapRu fun ru => { ru with steering := st })

/-! ## Fold (R94) -/

/-- R94: k times a channel added to a speaker's, through sat24 with its mark. -/
def foldShare (src dst : Fin 8) (b : RenderBlock) : RenderBlock :=
  let r := satChan (addChan b.chans[dst] (b.chans[src].map kShare))
  { b with chans := b.chans.set dst r.1, marks := b.marks.set dst (b.marks[dst] || r.2) }

/-- A channel set to zero. -/
def clearChan (i : Fin 8) (b : RenderBlock) : RenderBlock := { b with chans := b.chans.set i zeroChan }

/-- R94: one line of steps 1 and 2. -/
def foldAbsent (s : State) (src dst : Fin 8) (b : RenderBlock) : RenderBlock :=
  if speakerPresent s src then b else clearChan src (foldShare src dst b)

/-- R94: step 3. -/
def foldCentre (s : State) (b : RenderBlock) : RenderBlock :=
  if speakerPresent s 2 then b else clearChan 2 (foldShare 2 1 (foldShare 2 0 b))

/-- R94: a front that is absent is silenced after the fold. -/
def dropAbsentFront (s : State) (i : Fin 8) (b : RenderBlock) : RenderBlock :=
  if speakerPresent s i then b else clearChan i b

/-- R94: the fold. -/
def foldBlock (s : State) (b : RenderBlock) : RenderBlock :=
  let b := foldAbsent s 7 5 (foldAbsent s 6 4 b)
  let b := foldAbsent s 5 1 (foldAbsent s 4 0 b)
  dropAbsentFront s 1 (dropAbsentFront s 0 (foldCentre s b))

/-! ## Bass management (R95 to R99) -/

/-- R95: whether a speaker is filtered. -/
def speakerFiltered (s : State) (i : Fin 8) : Bool :=
  decide (s.ru.speakers[i].presence = .small) && decide (i ≠ 3)
    && (speakerPresent s 3 || (decide (i ≠ 0) && decide (i ≠ 1)))

/-- R96: the crossover state after each frame, from the state before the block. -/
def lowPass (alpha : Int) : Int → Chan → Chan
  | _, [] => []
  | lp, x :: xs =>
    let lp' := lp + asr ((x - lp) * alpha) 15
    lp' :: lowPass alpha lp' xs

/-- R96: one speaker at the bass stage: its channel, its state, and what it gives the bass sum. -/
def bassSpeaker (alpha : Int) (filtered : Bool) (i : Fin 8) (acc : RenderBlock × Vector Int 8 × Chan) :
    RenderBlock × Vector Int 8 × Chan :=
  let (b, lps, sum) := acc
  if filtered then
    let low := lowPass alpha lps[i] b.chans[i]
    let r := satChan (subChan b.chans[i] low)
    ({ b with chans := b.chans.set i r.1, marks := b.marks.set i (b.marks[i] || r.2) },
      lps.set i (low.getLastD lps[i]), addChan sum low)
  else (b, lps.set i 0, sum)

/-- R97: a channel put in a speaker's place through sat24 with its mark. -/
def putSat (i : Fin 8) (xs : Chan) (b : RenderBlock) : RenderBlock :=
  let r := satChan xs
  { b with chans := b.chans.set i r.1, marks := b.marks.set i (b.marks[i] || r.2) }

/-- R97: the bass goes to SW, or to the fronts. -/
def placeBass (s : State) (b : RenderBlock) (sum : Chan) : RenderBlock :=
  if speakerPresent s 3 then putSat 3 (addChan (sum.map fun x => asr x 1) b.lfe) b
  else
    let half := (addChan sum b.lfe).map fun x => asr x 1
    let b := if speakerPresent s 0 then putSat 0 (addChan b.chans[0] half) b else b
    if speakerPresent s 1 then putSat 1 (addChan b.chans[1] half) b else b

/-- R95 to R99: bass management, with the marks of absent speakers cleared. -/
def bassBlock (b : RenderBlock) (s : State) : RenderBlock × State :=
  let alpha := crossoverAlpha s.clock.cls s.ru.crossover
  let acc := speakerIds.foldl (fun acc i => bassSpeaker alpha (speakerFiltered s i) i acc)
    (b, s.ru.lp, zeroChan)
  let b := placeBass s acc.1 acc.2.2
  ({ b with marks := Vector.ofFn fun i => b.marks[i] && speakerPresent s i },
    s.mapRu fun ru => { ru with lp := acc.2.1 })

/-! ## Level (R101 to R107) -/

/-- R101: the target attenuation of a speaker. -/
def targetAttenuation (s : State) (sp : Speaker) (dip : Dip) : Nat :=
  if !sp.isPresent || s.ru.mute || switchMute s || decide (dip = .down) then 192
  else
    min 192 (s.ru.master + sp.trim + ((connectedSource s).map Source.trim).getD 0
      + (if speakerDerated s sp then 12 else 0))

/-- R102: the rate of a speaker, with its two flags as they stand at this boundary. -/
def attenuationRate (s : State) (dip : Dip) (derateFast release : Bool) : Nat :=
  if switchMute s || decide (dip = .down) || derateFast then 8
  else if decide (s.sc.st = .playRamp) || decide (dip = .up) || release then 2
  else 1

/-- R104: the dip after the level stage's step. A target of 192 ends UP at once, wherever the applied attenuation
stands (log entry 50). -/
def dipAfter (present : Bool) (dip : Dip) (applied target : Nat) : Dip :=
  if present then
    match dip with
    | .none => .none
    | .down => if applied = 192 then .up else .down
    | .up => if applied = target ∨ target = 192 then .none else .up
  else .none

/-- R101 to R104: the level state of a speaker after this boundary's level stage. -/
def levelStep (s : State) (sp : Speaker) (lv : Level) : Level :=
  let derated := speakerDerated s sp
  let forced := speakerForced s sp
  let fast := lv.derateFast || (derated != lv.derated)
  let release := lv.release || (lv.forced && !forced)
  let target := targetAttenuation s sp lv.dip
  let stepped := stepToward lv.applied target (attenuationRate s lv.dip fast release)
  let applied := if !sp.isPresent || forced then 192 else stepped
  { applied := applied,
    dip := dipAfter sp.isPresent lv.dip applied target,
    derated := derated,
    derateFast := fast && !decide (applied = target) && !forced,
    forced := forced,
    release := release && !decide (applied = target) }

/-- R104: whether the level stage hands the speaker's distance to the Delay Unit (a swap). -/
def dipSwaps (sp : Speaker) (before after : Level) : Bool :=
  sp.isPresent && decide (before.dip = .down) && decide (after.dip = .up)

/-- R105, R106: the pre-delay block of a speaker. -/
def preDelay (sp : Speaker) (lv : Level) (xs : Chan) : Option Chan :=
  if sp.isPresent then some (xs.map (gainSample lv.applied)) else none

/-- What the render hands on (R106) and hands over (R104). -/
structure HandOn where
  blocks : Vector (Option Chan) 8
  swaps : Vector Bool 8
  deriving DecidableEq, Repr

/-- R101 to R106: the level stage of the whole render. -/
def levelStage (b : RenderBlock) (s : State) : HandOn × State :=
  let after : Vector Level 8 := Vector.ofFn fun i => levelStep s s.ru.speakers[i] s.ru.levels[i]
  ({ blocks := Vector.ofFn fun i => preDelay s.ru.speakers[i] after[i] b.chans[i],
     swaps := Vector.ofFn fun i => dipSwaps s.ru.speakers[i] s.ru.levels[i] after[i] },
    s.mapRu fun ru => { ru with levels := after })

/-- R107: every speaker's applied attenuation is 192. -/
def muteReached (s : State) : Bool := speakerIds.all fun i => decide (s.ru.levels[i].applied = 192)

/-- R107: every speaker's applied attenuation equals its target, a forced speaker counting as there. The dip
a target depends on is the one the level stage used. -/
def targetsReached (before s : State) : Bool :=
  speakerIds.all fun i =>
    s.ru.levels[i].forced
      || decide (s.ru.levels[i].applied = targetAttenuation s s.ru.speakers[i] before.ru.levels[i].dip)

/-! ## Commands -/

/-- SET_VOLUME (R100). -/
def setVolumeEffect (master mute : Word) (s : State) : State :=
  complete (if 191 < master.toNat then .clamped else .done)
    (s.mapRu fun ru => { ru with master := min 191 master.toNat, mute := flagOf mute })

/-- SET_CROSSOVER (R98). -/
def setCrossoverEffect (freq : Word) (s : State) : State :=
  if freq.toNat = 60 ∨ freq.toNat = 80 ∨ freq.toNat = 100 ∨ freq.toNat = 120 then
    complete .done (s.mapRu fun ru => { ru with crossover := freq.toNat })
  else complete .refusedRange s

/-- R91 check 2: the presence of an identifier. -/
def presenceFor (id : Fin 8) (w : Word) : Option Presence :=
  match presenceOf w.toNat with
  | some .absent => some .absent
  | some .present => if id = 3 then some .present else none
  | some p => if id = 3 then none else some p
  | none => none

/-- R91: the pair parameter, 0..3 or none. -/
def pairFor (w : Word) : Option (Option (Fin 4)) :=
  if w = noneWord then some none else (finOf 4 w).map some

/-- R91 checks 1 and 2: the entry a CONFIG_SPEAKER names, its quantities brought into range (check 4). -/
def speakerOf (id presence distance trim lane slot pair : Word) : Option (Fin 8 × Speaker) :=
  match finOf 8 id with
  | none => none
  | some i =>
    match presenceFor i presence, finOf 2 lane, finOf 8 slot, pairFor pair with
    | some p, some l, some t, some q =>
      some (i, { presence := p, distance := min 300 distance.toNat, trim := min 24 trim.toNat, lane := l,
                 slot := t, pair := q })
    | _, _, _, _ => none

/-- R91 check 3: another present speaker holds the lane and slot. -/
def slotTaken (s : State) (i : Fin 8) (sp : Speaker) : Bool :=
  speakerIds.any fun j =>
    decide (j ≠ i) && speakerPresent s j && decide (s.ru.speakers[j].lane = sp.lane)
      && decide (s.ru.speakers[j].slot = sp.slot)

/-- R92, R104: a changed distance starts a dip. -/
def startsDip (s : State) (i : Fin 8) (sp : Speaker) : Bool :=
  speakerPresent s i && sp.isPresent && decide (s.ru.speakers[i].distance ≠ sp.distance)
    && s.sc.connected.isSome

/-- R104: an unchanged distance of a speaker whose dip is in DOWN: its swap still comes (log entry 58). -/
def swapComes (s : State) (i : Fin 8) (sp : Speaker) : Bool :=
  decide (s.ru.levels[i].dip = .down) && speakerPresent s i && sp.isPresent
    && decide (s.ru.speakers[i].distance = sp.distance)

/-- R92, R118: in every case but a dip the distance written, changed or not, is taken at the next boundary. -/
def startsTake (s : State) (i : Fin 8) (sp : Speaker) : Bool := !startsDip s i sp && !swapComes s i sp

/-- R91, R92: the entry is written whole, with the dip or the take its distance calls for. A dip that starts while
an earlier command's take is still due leaves the take standing: the new distance is then taken at the next
boundary, before the swap of the dip (DESIGN CHOICE, log entry 61). -/
def writeSpeaker (i : Fin 8) (sp : Speaker) (s : State) : State :=
  let dips := startsDip s i sp
  let takes := startsTake s i sp
  let s := s.mapRu fun ru =>
    { ru with speakers := ru.speakers.set i sp,
              levels := if dips then ru.levels.set i { ru.levels[i] with dip := .down } else ru.levels }
  if takes then
    s.mapDu fun du => { du with speakers := du.speakers.set i { du.speakers[i] with take := true } }
  else s

/-- CONFIG_SPEAKER (R91). -/
def configSpeakerEffect (id presence distance trim lane slot pair : Word) (s : State) : State :=
  match speakerOf id presence distance trim lane slot pair with
  | none => complete .refusedRange s
  | some (i, sp) =>
    if sp.isPresent && slotTaken s i sp then complete .refusedOverlap s
    else
      complete (if 300 < distance.toNat ∨ 24 < trim.toNat then .clamped else .done) (writeSpeaker i sp s)

end Sys2Proof.Machine
end

