-- ==== Sys2Proof/Machine/Amp.lean ====
section
/-! DEFINITION. The Amplifier Protection Monitor (08): fault latches, stress counters, pair states, recovery,
the step AMP_FAULT_SAMPLE and the command AMP_RECOVER. -/

namespace Sys2Proof.Machine

/-- The cause of a PROTECT event (R151, R202). -/
inductive ProtectCause where
  | fault
  | saturation
  | decay
  | recovery
  deriving DecidableEq, Repr

/-- R202: FAULT 0, SATURATION 1, DECAY 2, RECOVERY 3. -/
def ProtectCause.code : ProtectCause → Nat
  | .fault => 0
  | .saturation => 1
  | .decay => 2
  | .recovery => 3

/-- A PROTECT event of a pair (R151). -/
def raiseProtect (p : Fin 4) (c : ProtectCode) (d1 d2 : Nat) (s : State) : State :=
  raiseEvent (.protect c) (BitVec.ofNat 16 p.val) (natWord d1) (natWord d2) s

/-- R141: a high sample sets the pair's fault latch. -/
def sampleFault (p : Fin 4) (s : State) : State := s.mapPair p fun q => { q with latch := true }

/-- AMP_FAULT_SAMPLE (R141). -/
def execAmpFaultSample (p : Fin 4) (s : State) : Host.Outcome State Fault Refusal := live (sampleFault p) s

/-- R141: at a boundary each latch becomes the block fault and is cleared. -/
def takeLatches (s : State) : State :=
  { s with ap := Vector.ofFn fun p => { s.ap[p] with blockFault := s.ap[p].latch, latch := false } }

/-- R142: a pair's saturation: a speaker belonging to it has its mark set. -/
def pairSaturated (s : State) (marks : Vector Bool 8) (p : Fin 4) : Bool :=
  speakerIds.any fun i => marks[i] && decide (speakerPair s.ru.speakers[i] = some p)

/-- R143: the counter after an update, before the limit of 256, and the case that applied. -/
def stressStep (counter : Nat) (fault saturated : Bool) : Nat × ProtectCause :=
  if fault then (counter + 16, .fault)
  else if saturated then (counter + 2, .saturation)
  else (counter - 1, .decay)

/-- R144: the pair state of a counter. -/
def pairStateOf (counter : Nat) : PairState :=
  if counter ≤ 63 then .normal
  else if counter ≤ 127 then .warn
  else if counter ≤ 255 then .derate
  else .shutdown

/-- R144, R151: the event of a change to a state at an update. -/
def raiseStateEvent (p : Fin 4) (st : PairState) (counter : Nat) (c : ProtectCause) (s : State) : State :=
  match st with
  | .normal => raiseProtect p .normal counter 0 s
  | .warn => raiseProtect p .warn counter c.code s
  | .derate => raiseProtect p .derate counter c.code s
  | .shutdown => raiseProtect p .shutdown 256 c.code s
  | .recovering => s

/-- R143, R144, R146: a pair in NORMAL, WARN or DERATE is stepped. -/
def stepActive (p : Fin 4) (saturated : Bool) (s : State) : State :=
  let r := stressStep s.ap[p].counter s.ap[p].blockFault saturated
  let counter := min 256 r.1
  let st := pairStateOf counter
  let s' := s.mapPair p fun q => { q with counter := counter, st := st }
  if st = s.ap[p].st then s' else raiseStateEvent p st counter r.2 s'

/-- R150: a recovery fails. -/
def failRecovery (p : Fin 4) (s : State) : State :=
  raiseProtect p .shutdown 256 ProtectCause.recovery.code
    ((raiseProtect p .recoveryFailed s.ap[p].windows 8 s).mapPair p
      fun q => { q with st := .shutdown, counter := 256 })

/-- R149: a recovery succeeds. -/
def succeedRecovery (p : Fin 4) (s : State) : State :=
  raiseProtect p .recovered s.ap[p].recFaults 32
    (s.mapPair p fun q => { q with st := .normal, counter := 0 })

/-- R148: a recovery fault. -/
def recoveryFault (p : Fin 4) (s : State) : State :=
  let s := s.mapPair p fun q => { q with recFaults := q.recFaults + 1, windowBlocks := 0 }
  if 8 ≤ s.ap[p].recFaults then failRecovery p s else s

/-- R148: a quiet block. -/
def recoveryQuiet (p : Fin 4) (s : State) : State :=
  if 16 ≤ s.ap[p].windowBlocks + 1 then
    let s := s.mapPair p fun q => { q with windowBlocks := 0, windows := q.windows + 1 }
    if 32 ≤ s.ap[p].windows then succeedRecovery p s else s
  else s.mapPair p fun q => { q with windowBlocks := q.windowBlocks + 1 }

/-- R148: a pair in RECOVERING is stepped. -/
def stepRecovering (p : Fin 4) (s : State) : State :=
  let first := s.ap[p].first
  let fault := s.ap[p].blockFault
  let s := s.mapPair p fun q => { q with first := false }
  if fault then recoveryFault p s else if first then s else recoveryQuiet p s

/-- R142: one pair at the update. -/
def stepPair (marks : Vector Bool 8) (p : Fin 4) (s : State) : State :=
  match s.ap[p].st with
  | .shutdown => s
  | .recovering => stepRecovering p s
  | .normal => stepActive p (pairSaturated s marks p) s
  | .warn => stepActive p (pairSaturated s marks p) s
  | .derate => stepActive p (pairSaturated s marks p) s

/-- R142: the update. -/
def ampUpdate (marks : Vector Bool 8) (s : State) : State :=
  pairIds.foldl (fun s p => stepPair marks p s) s

/-- R147: a recovery begins. -/
def beginRecovery (p : Fin 4) (s : State) : State :=
  raiseProtect p .recovering 0 0
    (s.mapPair p fun q =>
      { q with st := .recovering, latch := false, windowBlocks := 0, windows := 0, recFaults := 0,
               first := true })

/-- AMP_RECOVER (R147). -/
def ampRecoverEffect (pair : Word) (s : State) : State :=
  match finOf 4 pair with
  | none => complete .refusedRange s
  | some p => if s.ap[p].st = .shutdown then complete .done (beginRecovery p s) else complete .refusedState s

end Sys2Proof.Machine
end

