-- ==== Sys2Proof/Machine/Output.lean ====
section
/-! DEFINITION. The Output Unit (07): the two speaker lanes, the record link, and the commands SET_LANES and
CONFIG_RECORD_OUT, with the steps LANE_FRAME and RECORD_FRAME. -/

namespace Sys2Proof.Machine

/-- The record link changed. -/
def mapLink (f : RecordLink → RecordLink) (s : State) : State := s.mapOu fun ou => { ou with link := f ou.link }

/-! ## Lanes (R123 to R129) -/

/-- R124: the speaker mapped to a slot of a lane: the first present one the table places there. -/
def slotSpeaker (s : State) (lane : Fin 2) (slot : Fin 8) : Option (Fin 8) :=
  speakerIds.find? fun i =>
    speakerPresent s i && decide (s.ru.speakers[i].lane = lane) && decide (s.ru.speakers[i].slot = slot)

/-- R126, R127: a lane at a block boundary takes its mask, its slot map and its state. -/
def laneBoundary (s : State) (lane : Fin 2) (l : Lane) : Lane :=
  { l with active := l.pending, running := decide (l.pending ≠ 0), count := 0,
           map := Vector.ofFn fun slot => slotSpeaker s lane slot }

/-- R124, R134: the Output Unit at a block boundary: the delayed blocks, the lanes, and the MAIN block of the
period that begins, with the block just rendered to follow it. -/
def outputBoundary (delayed : Vector (Option Chan) 8) (rendered : List (Int × Int)) (s : State) : State :=
  s.mapOu fun ou =>
    { ou with
      delayed := delayed,
      pairs := Vector.ofFn fun i => speakerPair s.ru.speakers[i],
      lanes := Vector.ofFn fun lane => laneBoundary s lane ou.lanes[lane],
      link := { ou.link with mainBlock := ou.link.mainNext, mainNext := rendered } }

/-- R125: the pair of a mapped speaker gives its slot no signal. -/
def slotSilenced (s : State) (i : Fin 8) : Bool :=
  match s.ou.pairs[i] with
  | none => false
  | some p => s.ap[p].st.silences

/-- R125: the sample a slot of a lane carries in a frame. -/
def slotValue (s : State) (l : Lane) (slot : Fin 8) : Int :=
  if l.active.getLsbD slot.val then
    match l.map[slot] with
    | none => 0
    | some i => if slotSilenced s i then 0 else ((s.ou.delayed[i]).getD zeroChan).getD l.count 0
  else 0

/-- R2, section 7.1: a 32-bit slot: the 24-bit sample first, then eight bits of 0. -/
def slotWord (x : Int) : Word := BitVec.ofInt 32 (x * 256)

/-- R125: the eight slots of a frame. -/
def laneSlots (s : State) (l : Lane) : List Word := speakerIds.map fun slot => slotWord (slotValue s l slot)

/-- R123: a running lane begins a frame; no 33rd frame of a block is sent (log entry 23). -/
def laneFrameWork (lane : Fin 2) (s : State) : State :=
  let l := s.ou.lanes[lane]
  if l.running ∧ l.count < 32 then
    s.mapOu fun ou =>
      { ou with lanes := ou.lanes.set lane { l with sent := laneSlots s l, count := l.count + 1 } }
  else s

/-- LANE_FRAME (R125). -/
def execLaneFrame (lane : Fin 2) (s : State) : Host.Outcome State Fault Refusal := live (laneFrameWork lane) s

/-- SET_LANES (R126). -/
def setLanesEffect (mask0 mask1 : Word) (s : State) : State :=
  if mask0.toNat < 256 ∧ mask1.toNat < 256 then
    complete .done
      (s.mapOu fun ou =>
        { ou with lanes := #v[{ ou.lanes[0] with pending := mask0.setWidth 8 },
                              { ou.lanes[1] with pending := mask1.setWidth 8 }] })
  else complete .refusedRange s

/-! ## The record link (R130 to R139) -/

/-- R137: a forced block restart. -/
def forceStart (s : State) : State := mapLink (fun k => { k with count := 0 }) s

/-- R134: the two-channel fold of a decoded block. -/
def mainFold (b : RenderBlock) : List (Int × Int) :=
  let l := (downmixSum b.chans[0] b.chans[2] b.chans[4] b.chans[6]).map fun x => asr (sat24 x) 1
  let r := (downmixSum b.chans[1] b.chans[2] b.chans[5] b.chans[7]).map fun x => asr (sat24 x) 1
  List.zip l r

/-- R135: the link takes a completed block of its port. -/
def takePortBlock (cls : RateClass) (format : Format) (frames : List Frame) (s : State) : State :=
  mapLink (fun k =>
    { k with portBlock := frames.map fun f => (f.getD 0 0, f.getD 1 0),
             portInvalid := decide (format = .encoded), cls := cls, following := true }) s

/-- R136: the link set to this port drops what is unsent and sends FREE. -/
def linkLosesPort (p : Fin 6) (s : State) : State :=
  if s.ou.link.source = .port p then
    mapLink (fun k => { k with portBlock := [], following := false }) s
  else s

/-- R133, R137: an output restart, with the class in force already changed: with source MAIN the link takes
the class and restarts its block. -/
def linkOutputRestart (s : State) : State :=
  if s.ou.link.source = .main then
    mapLink (fun k => { k with cls := s.clock.cls, count := 0 }) s
  else s

/-- R128: an output restart returns the lanes' frame counts to 0. -/
def lanesOutputRestart (s : State) : State :=
  s.mapOu fun ou => { ou with lanes := Vector.ofFn fun l => { ou.lanes[l] with count := 0 } }

/-- The source parameter of CONFIG_RECORD_OUT (R138): OFF 0, MAIN 1, PORT 2 with its port. -/
def recordSourceOf (source port : Word) : Option RecordSource :=
  match source.toNat with
  | 0 => some .off
  | 1 => some .main
  | 2 => (finOf 6 port).map .port
  | _ => none

/-- R133, R137: the link changes its source, with a forced block restart. Its timing becomes FREE, also with MAIN and
OFF, for which R133 gives none (DESIGN CHOICE, log entry 67). -/
def changeRecordSource (r : RecordSource) (s : State) : State :=
  mapLink (fun k =>
    { k with source := r, count := 0, portBlock := [], portInvalid := false, following := false,
             level := if r = .off then false else k.level,
             cls := if r = .main then s.clock.cls else k.cls }) s

/-- CONFIG_RECORD_OUT (R138). -/
def configRecordOutEffect (source port w0 w1 w2 w3 : Word) (s : State) : State :=
  match recordSourceOf source port with
  | none => complete .refusedRange s
  | some r =>
    let s := mapLink (fun k => { k with pending := w3 ++ w2 ++ w1 ++ w0, pendingFlag := true }) s
    complete .done (if s.ou.link.source = r then s else changeRecordSource r s)

/-- R130: the 24 bits of a sample, most significant first. -/
def sampleBits (x : Int) : List Bool := (List.range 24).map fun i => (BitVec.ofInt 24 x).getMsbD i

/-- R130: the 28 bit cells of a subframe: sample, validity, user bit, status bit, parity. -/
def subframeCells (x : Int) (invalid status : Bool) : List Bool :=
  let body := sampleBits x ++ [invalid, false, status]
  body ++ [decide ((body.filter id).length % 2 = 1)]

/-- R131: the preambles. -/
inductive Preamble where
  | start
  | left
  | right
  deriving DecidableEq, Repr

/-- R131: the half-cells of a preamble; true is the level opposite to the one held before it. -/
def Preamble.halves : Preamble → List Bool
  | .start => [true, true, true, true, false, false, false, true]
  | .left => [true, true, true, true, false, true, false, false]
  | .right => [true, true, true, true, false, false, true, false]

/-- R131: bit cells in biphase from a level: two half-cells each. -/
def biphase : Bool → List Bool → List Bool
  | _, [] => []
  | level, b :: rest =>
    let first := !level
    let second := if b then !first else first
    first :: second :: biphase second rest

/-- R130, R131: the 64 half-cells of a subframe from the level held before it. -/
def subframe (level : Bool) (p : Preamble) (x : Int) (invalid status : Bool) : List Bool :=
  let pre := p.halves.map fun h => if h then !level else level
  pre ++ biphase (pre.getLastD level) (subframeCells x invalid status)

/-- R131: the 128 half-cells of a frame. -/
def recordFrameHalves (level : Bool) (count : Nat) (l r : Int) (invalid status : Bool) : List Bool :=
  let first := subframe level (if count = 0 then .start else .left) l invalid status
  first ++ subframe (first.getLastD level) .right r invalid status

/-- R134 to R136: what the next frame carries: its two samples and its validity bit. -/
def recordContent (s : State) : (Int × Int) × Bool :=
  match s.ou.link.source with
  | .off => ((0, 0), true)
  | .main =>
    match s.ou.link.mainBlock with
    | [] => ((0, 0), true)
    | x :: _ => if s.sc.st = .playing then (x, false) else ((0, 0), true)
  | .port _ =>
    match s.ou.link.portBlock with
    | [] => ((0, 0), true)
    | x :: _ => if s.ou.link.following then (x, s.ou.link.portInvalid) else ((0, 0), true)

/-- R132: at a START the pending status record becomes active when its flag is set. -/
def startSwap (k : RecordLink) : RecordLink :=
  if k.count = 0 ∧ k.pendingFlag then { k with active := k.pending, pendingFlag := false } else k

/-- The blocks being sent, less the frame just sent. Frames pass only while their source is selected, so a change
to MAIN within a block starts at its frame 0 (log entry 52). -/
def dropSentFrame (k : RecordLink) : RecordLink :=
  match k.source with
  | .off => k
  | .main => { k with mainBlock := k.mainBlock.drop 1 }
  | .port _ => { k with portBlock := k.portBlock.drop 1 }

/-- R131, R132: one frame of the record link. -/
def recordFrameWork (s : State) : State :=
  if s.ou.link.source = .off then s
  else
    let content := recordContent s
    mapLink (fun k =>
      let k := startSwap k
      let halves := recordFrameHalves k.level k.count content.1.1 content.1.2 content.2
        (k.active.getLsbD k.count)
      { dropSentFrame k with sent := halves, level := halves.getLastD k.level,
                             count := (k.count + 1) % 128 }) s

/-- RECORD_FRAME (R131). -/
def execRecordFrame (s : State) : Host.Outcome State Fault Refusal := live recordFrameWork s

/-! ## RESTART -/

/-- R129: a lane at RESTART: both masks clear; the lane parks at the next boundary and sends until then what
it holds. A SET_LANES taken before that boundary has it run on with the new mask, as R127 says of a running lane
(DESIGN CHOICE, log entry 66). -/
def laneRestart (l : Lane) : Lane := { l with pending := 0 }

/-- R139: the record link at RESTART; the link class keeps its value. -/
def linkRestart (k : RecordLink) : RecordLink := { RecordLink.reset with cls := k.cls }

/-- R129, R139: the Output Unit at RESTART. -/
def outputRestartValues (ou : OutputUnit) : OutputUnit :=
  { ou with lanes := Vector.ofFn fun l => laneRestart ou.lanes[l], link := linkRestart ou.link }

end Sys2Proof.Machine
end

