-- ==== Sys2Proof/Machine/Station.lean ====
section
/-! DEFINITION. The Station Data Decoder (10): bits and windows, synchronisation, groups, identity, text,
capture slots, the tune notice, and the steps and commands of the unit. -/

namespace Sys2Proof.Machine

/-! ## Bits, windows and the check (R174, R175) -/

/-- R175: the mask of a position. -/
def positionMask (p : Fin 4) : Byte := [(0x3C : Byte), 0x5A, 0x96, 0xE1].getD p.val 0

/-- R175: one information bit fed to the register. -/
def crcFeed (reg : Byte) (bit : Bool) : Byte :=
  if xor reg.msb bit then (reg <<< 1) ^^^ 0x07 else reg <<< 1

/-- R175: the CRC of information bits, most significant first. -/
def crcOf (bits : List Bool) : Byte := bits.foldl crcFeed 0

/-- R174: the information word of a window. -/
def infoWord (window : List Bool) : BitVec 16 := BitVec.ofNat 16 (bitsToNat (window.take 16))

/-- R174: the check byte of a window. -/
def checkByte (window : List Bool) : Byte := BitVec.ofNat 8 (bitsToNat ((window.drop 16).take 8))

/-- The four positions in order. -/
def positions : List (Fin 4) := [0, 1, 2, 3]

/-- R175: the position a window is valid at, if any. -/
def validPosition (window : List Bool) : Option (Fin 4) :=
  positions.find? fun p => decide (checkByte window = crcOf (window.take 16) ^^^ positionMask p)

/-- R174: the window whose first bit has this number, out of the history. -/
def windowFrom (sd : StationUnit) (first : Nat) : List Bool :=
  (sd.history.drop (first + sd.history.length - sd.bitCount)).take 24

/-- R174: a bit appended to the history, the oldest of 48 pushed out. -/
def appendBit (history : List Bool) (b : Bool) : List Bool :=
  if history.length < 48 then history ++ [b] else history.drop 1 ++ [b]

/-! ## Captures (R185 to R188) -/

/-- R185: a group matches a slot. -/
def CaptureSlot.accepts (c : CaptureSlot) (type : BitVec 4) (variant : Bool) : Bool :=
  c.enable && decide ((type ^^^ c.typeMatch) &&& c.typeMask = 0) && (!c.varMask || decide (variant = c.varMatch))

/-- R187, R206: the words of a slot's record. -/
def captureRecordWords (c : CaptureSlot) : List Word :=
  match c.group with
  | none => []
  | some g =>
    [ (g.words.getD 0 0).setWidth 32, (g.words.getD 1 0).setWidth 32, (g.words.getD 2 0).setWidth 32,
      (g.words.getD 3 0).setWidth 32, g.stamp, flagWord c.overrun, 0, 0 ]

/-- R187: the record of a slot is written; while RESTART quiesces the part no write begins (R200). -/
def writeCaptureRecord (n : Fin 8) (s : State) : State :=
  if s.cu.quiesce then s
  else placeTransfer .control
    (writeOf (.captureRecord n) (controlAddr s (0x100 + 32 * n.val)) (captureRecordWords s.sd.slots[n]) none) s

/-- R186: a group placed in a slot, with its record and its event. -/
def placeGroup (n : Fin 8) (overrun : Bool) (g : CapturedGroup) (type : BitVec 4) (variant : Bool)
    (s : State) : State :=
  let s := s.mapSd fun sd =>
    { sd with slots := sd.slots.set n { sd.slots[n] with group := some g, overrun := overrun } }
  raiseEvent (.station (if overrun then .captureOverrun else .captured)) (BitVec.ofNat 16 n.val)
    (type.setWidth 32) (flagWord variant) (writeCaptureRecord n s)

/-- R186: the first matching slot that is EMPTY, and the first that matches. -/
def captureChoice (s : State) (type : BitVec 4) (variant : Bool) : Option (Fin 8) × Option (Fin 8) :=
  (speakerIds.find? fun n => s.sd.slots[n].accepts type variant && s.sd.slots[n].group.isNone,
   speakerIds.find? fun n => s.sd.slots[n].accepts type variant)

/-- R186: stage 3 of a complete group. -/
def captureGroup (g : CapturedGroup) (type : BitVec 4) (variant : Bool) (s : State) : State :=
  match captureChoice s type variant with
  | (some n, _) => placeGroup n false g type variant s
  | (none, some n) => placeGroup n true g type variant s
  | (none, none) => s

/-- CONFIG_CAPTURE (R185). -/
def configCaptureEffect (slot enable typeMatch typeMask varMatch varMask : Word) (s : State) : State :=
  match finOf 8 slot with
  | none => complete .refusedRange s
  | some n =>
    if 15 < typeMatch.toNat ∨ 15 < typeMask.toNat ∨ 1 < varMatch.toNat ∨ 1 < varMask.toNat then
      complete .refusedRange s
    else
      complete .done (s.mapSd fun sd =>
        { sd with slots := sd.slots.set n
                    { enable := flagOf enable, typeMatch := typeMatch.setWidth 4,
                      typeMask := typeMask.setWidth 4, varMatch := flagOf varMatch, varMask := flagOf varMask,
                      group := none, overrun := false } })

/-- RELEASE_CAPTURE (R188). -/
def releaseCaptureEffect (slot : Word) (s : State) : State :=
  match finOf 8 slot with
  | none => complete .refusedRange s
  | some n =>
    if s.sd.slots[n].group.isNone then complete .refusedState s
    else
      complete .done (s.mapSd fun sd =>
        { sd with slots := sd.slots.set n { sd.slots[n] with group := none, overrun := false } })

/-! ## Station text (R183, R184) -/

/-- R39: the station text area, three lines. -/
def textLock (control : Nat) : Lock :=
  { owner := .textWrite, startLine := (control + 0x200) / 32, lines := 3 }

/-- R184: the test for a text write; while RESTART quiesces the part none begins (R200). -/
def testText (s : State) : State :=
  if s.sd.writer.isNone ∧ s.sd.lastWritten ≠ some s.sd.wanted ∧ ¬ s.cu.quiesce then
    requestLock (textLock s.pu.regions.control)
      (s.mapSd fun sd => { sd with writer := some sd.wanted })
  else s

/-- Byte k of a text's 64 characters, 0x00 at and above its length (R184). -/
def StationText.charAt (t : StationText) (k : Nat) : Nat := (t.chars.getD k 0).toNat

/-- R207: the eight words of 32 characters from position `start`. -/
def textWords (t : StationText) (start : Nat) : List Word :=
  (List.range 8).map fun i =>
    let k := start + 4 * i
    word4 (t.charAt k) (t.charAt (k + 1)) (t.charAt (k + 2)) (t.charAt (k + 3))

/-- R184, R207: the three writes of a text, the header line last. -/
def textTransfers (s : State) (t : StationText) : List Transfer :=
  [ writeOf (.textLine false) (controlAddr s 0x220) (textWords t 0) (some .textWrite),
    writeOf (.textLine false) (controlAddr s 0x240) (textWords t 32) (some .textWrite),
    writeOf (.textLine true) (controlAddr s 0x200)
      [word4 t.chars.length t.version.toNat 0 0, 0, 0, 0, 0, 0, 0, 0] (some .textWrite) ]

/-- R184: the text writer's lock is granted. -/
def textGranted (s : State) : State :=
  match s.sd.writer with
  | none => s
  | some t => placeAll .control (textTransfers s t) s

/-- R184: the OK end of a text write. -/
def textEnded (s : State) : State :=
  match s.sd.writer with
  | none => s
  | some t =>
    testText (raiseEvent (.station .text) 0 (natWord t.chars.length) (flagWord t.version)
      (s.mapSd fun sd => { sd with writer := none, lastWritten := some t }))

/-- R184: the abort of a text write. -/
def textAborted (s : State) : State := s.mapSd fun sd => { sd with writer := none, lastWritten := none }

/-- R183 step 1: the buffer as a group of this variant finds it. -/
def TextBuffer.forVersion (t : TextBuffer) (v : Bool) : TextBuffer :=
  if t.version = some v then t else { TextBuffer.cleared with version := some v }

/-- R183 step 2: a byte at a position of the buffer. -/
def putChar (chars : Vector Byte 64) (k : Nat) (b : Byte) : Vector Byte 64 := chars.set! k b

/-- R183 step 2: four characters at a segment. -/
def TextBuffer.store (t : TextBuffer) (seg : Nat) (w2 w3 : BitVec 16) : TextBuffer :=
  let c := putChar t.chars (4 * seg) (w2.extractLsb' 8 8)
  let c := putChar c (4 * seg + 1) (w2.extractLsb' 0 8)
  let c := putChar c (4 * seg + 2) (w3.extractLsb' 8 8)
  let c := putChar c (4 * seg + 3) (w3.extractLsb' 0 8)
  { t with chars := c, mask := t.mask ||| (1 <<< seg) }

/-- R183: the end of the text, the lowest received position that holds 0x0D. -/
def TextBuffer.endOf (t : TextBuffer) : Option Nat :=
  (List.range 64).find? fun k => t.mask.getLsbD (k / 4) && decide (t.chars.toList.getD k 0 = 0x0D)

/-- R183: the length of a complete buffer. -/
def TextBuffer.completeLength (t : TextBuffer) : Option Nat :=
  match t.endOf with
  | some e => if (List.range (e / 4 + 1)).all fun g => t.mask.getLsbD g then some e else none
  | none => if t.mask = 0xFFFF then some 64 else none

/-- R183: the complete text, if the buffer is complete. -/
def TextBuffer.complete (t : TextBuffer) : Option StationText :=
  t.completeLength.map fun n => { version := t.version.getD false, chars := t.chars.toList.take n }

/-- R183: a group of type 1. -/
def textGroup (w1 w2 w3 : BitVec 16) (s : State) : State :=
  let t := (s.sd.text.forVersion (w1.getLsbD 11)).store (w1.extractLsb' 0 4).toNat w2 w3
  s.mapSd fun sd => { sd with text := t, wanted := t.complete.getD sd.wanted }

/-! ## Identity, category and groups (R179 to R182) -/

/-- R181: a learned identity that differs from a known recalled one. -/
def checkRecalled (i : BitVec 16) (s : State) : State :=
  match s.sd.recalled with
  | none => s
  | some r =>
    if r.known ∧ r.identity ≠ i then
      raiseEvent (.station .identityMismatch) 0 (i.setWidth 32) (r.identity.setWidth 32) s
    else s

/-- R181: the identity of a complete group. -/
def identityGroup (i : BitVec 16) (s : State) : State :=
  match s.sd.identity with
  | none =>
    checkRecalled i
      (raiseEvent (.station .identity) 0 (i.setWidth 32) (optionWord s.sd.tunedChannel)
        (s.mapSd fun sd => { sd with identity := some i, changeCand := none }))
  | some old =>
    if i = old then s.mapSd fun sd => { sd with changeCand := none }
    else if s.sd.changeCand = some i then
      checkRecalled i
        (raiseEvent (.station .identityChanged) 0 (i.setWidth 32) (old.setWidth 32)
          (s.mapSd fun sd => { sd with identity := some i, changeCand := none }))
    else s.mapSd fun sd => { sd with changeCand := some i }

/-- R182: a group of type 0. -/
def categoryGroup (w1 : BitVec 16) (s : State) : State :=
  let cat := w1.extractLsb' 5 5
  let traffic := w1.getLsbD 10
  if s.sd.category = some cat ∧ s.sd.traffic = traffic then s
  else
    raiseEvent (.station .category) 0 (cat.setWidth 32) (flagWord traffic)
      (s.mapSd fun sd => { sd with category := some cat, traffic := traffic })

/-- R180: stage 2 of a complete group. -/
def typeGroup (w1 w2 w3 : BitVec 16) (s : State) : State :=
  match (w1.extractLsb' 12 4).toNat with
  | 0 => categoryGroup w1 s
  | 1 => textGroup w1 w2 w3 s
  | _ => s

/-- R180: a complete group, its four stages in order. -/
def groupComplete (words : List (BitVec 16)) (s : State) : State :=
  let w1 := words.getD 1 0
  let s := identityGroup (words.getD 0 0) s
  let s := typeGroup w1 (words.getD 2 0) (words.getD 3 0) s
  let s := captureGroup { words := words, stamp := s.clock.stamp } (w1.extractLsb' 12 4) (w1.getLsbD 11) s
  testText s

/-- R179: a good block in group assembly. -/
def assembleGood (p : Fin 4) (w : BitVec 16) (s : State) : State :=
  if p = 0 then s.mapSd fun sd => { sd with partialGroup := [w] }
  else if s.sd.partialGroup.length = p.val then
    if p = 3 then groupComplete (s.sd.partialGroup ++ [w]) (s.mapSd fun sd => { sd with partialGroup := [] })
    else s.mapSd fun sd => { sd with partialGroup := sd.partialGroup ++ [w] }
  else s

/-- R179: a bad block in group assembly. -/
def assembleBad (s : State) : State := s.mapSd fun sd => { sd with partialGroup := [] }

/-! ## Finding and keeping the framing (R176 to R178) -/

/-- R176: a valid window makes a candidate. -/
def enterProbe (first : Nat) (p : Fin 4) (s : State) : State :=
  s.mapSd fun sd =>
    { sd with sync := .probe, candidate := some { firstBit := first, position := p }, expected := p + 1 }

/-- R176, R177: the first valid window of those beginning at these bits makes a candidate; with none the
unit is in SEARCH. -/
def searchFrom : List Nat → State → State
  | [], s => s.mapSd fun sd => { sd with sync := .search, candidate := none }
  | first :: rest, s =>
    match validPosition (windowFrom s.sd first) with
    | some p => enterProbe first p s
    | none => searchFrom rest s

/-- R176: the window ending at the newest bit is tested in SEARCH. -/
def searchTest (s : State) : State :=
  if s.sd.sync = .search ∧ s.sd.due ∧ 24 ≤ s.sd.bitCount then
    searchFrom [s.sd.bitCount - 24] (s.mapSd fun sd => { sd with due := false })
  else s

/-- R177: the probe confirms the candidate. -/
def gainSync (c : SyncCandidate) (s : State) : State :=
  let first := infoWord (windowFrom s.sd c.firstBit)
  let second := infoWord (windowFrom s.sd (c.firstBit + 24))
  let p := s.sd.expected
  let s := s.mapSd fun sd =>
    { sd with sync := .sync, badCount := 0, candidate := none, nextEnd := c.firstBit + 72, expected := p + 1 }
  let s := raiseEvent (.station .syncGained) 0 (natWord p.val) (optionWord s.sd.tunedChannel) s
  assembleGood p second (assembleGood c.position first s)

/-- R177: the windows a failed probe resumes at. -/
def resumeFrom (first : Nat) : List Nat := (List.range 24).map fun k => first + 1 + k

/-- R177: the window 24 bits after the candidate is judged in PROBE. -/
def probeTest (s : State) : State :=
  match s.sd.candidate with
  | none => s
  | some c =>
    if s.sd.sync = .probe ∧ s.sd.due ∧ s.sd.bitCount = c.firstBit + 48 then
      let s := s.mapSd fun sd => { sd with due := false }
      if validPosition (windowFrom s.sd (c.firstBit + 24)) = some s.sd.expected then gainSync c s
      else searchFrom (resumeFrom c.firstBit) s
    else s

/-- R178: a bad block in SYNC. -/
def judgeBad (s : State) : State :=
  let s := assembleBad
    (s.mapSd fun sd => { sd with badCount := sd.badCount + 1, expected := sd.expected + 1 })
  if 6 ≤ s.sd.badCount then
    raiseEvent (.station .syncLost) 0 0 0
      (s.mapSd fun sd => { sd with sync := .search, candidate := none, partialGroup := [] })
  else s

/-- R178: a good block in SYNC. -/
def judgeGood (w : BitVec 16) (s : State) : State :=
  let p := s.sd.expected
  assembleGood p w (s.mapSd fun sd => { sd with badCount := 0, expected := p + 1 })

/-- R178: the block that has just completed is judged in SYNC. -/
def syncTest (s : State) : State :=
  if s.sd.sync = .sync ∧ s.sd.due ∧ s.sd.bitCount = s.sd.nextEnd then
    let window := windowFrom s.sd (s.sd.bitCount - 24)
    let s := s.mapSd fun sd => { sd with due := false, nextEnd := sd.nextEnd + 24 }
    if validPosition window = some s.sd.expected then judgeGood (infoWord window) s else judgeBad s
  else s

/-- The test that a bit not yet tested calls for, in the sync state it finds (log entry 24). -/
def overdueTest (s : State) : State :=
  match s.sd.sync with
  | .search => searchTest s
  | .probe => probeTest s
  | .sync => syncTest s

/-- R174: the unit takes bits while the tuner is settled on FM. -/
def takesBits (s : State) : Bool := decide (s.tc.st = .tuned) && decide (s.tc.band = some .fm)

/-- R174: a bit is taken. -/
def takeBit (b : Bool) (s : State) : State :=
  if takesBits s then
    (overdueTest s).mapSd fun sd =>
      { sd with history := appendBit sd.history b, bitCount := sd.bitCount + 1, due := true }
  else s

/-- R175: the unit tests no window while it takes no bits. -/
def whileTakingBits (f : State → State) (s : State) : State := if takesBits s then f s else s

/-- STATION_DATA_BIT (R174). -/
def execStationDataBit (b : Bool) (s : State) : Host.Outcome State Fault Refusal := live (takeBit b) s

/-- SEARCH_WINDOW (R176). -/
def execSearchWindow (s : State) : Host.Outcome State Fault Refusal := live (whileTakingBits searchTest) s

/-- PROBE_WINDOW (R177). -/
def execProbeWindow (s : State) : Host.Outcome State Fault Refusal := live (whileTakingBits probeTest) s

/-- SYNC_BLOCK (R178). -/
def execSyncBlock (s : State) : Host.Outcome State Fault Refusal := live (whileTakingBits syncTest) s

/-! ## The tune notice (R189) -/

/-- R189: the values a tune notice leaves; the capture slots and the text writer are kept. -/
def StationUnit.afterNotice (sd : StationUnit) (channel : Nat) (recalled : Option RecalledIdentity) :
    StationUnit :=
  { StationUnit.reset with
    recalled := recalled, tunedChannel := some channel, lastWritten := sd.lastWritten, writer := sd.writer,
    slots := sd.slots }

/-- R189: a tune notice. -/
def tuneNotice (channel : Nat) (recalled : Option RecalledIdentity) (s : State) : State :=
  let wasSync := decide (s.sd.sync = .sync)
  let s := s.mapSd fun sd => sd.afterNotice channel recalled
  testText (if wasSync then raiseEvent (.station .syncLost) 0 1 0 s else s)

end Sys2Proof.Machine
end

