-- ==== Sys2Proof/Machine/Delay.lean ====
section
/-! DEFINITION. The Delay Unit (06): its work at each block boundary, late data, restarts of its histories,
and the answers to its reads. -/

namespace Sys2Proof.Machine

/-- The Delay Unit's state with one speaker's part changed. -/
def mapLine (i : Fin 8) (f : DelayLine → DelayLine) (s : State) : State :=
  s.mapDu fun du => { du with speakers := du.speakers.set i (f du.speakers[i]) }

/-- The Delay Unit's state with every speaker's part changed. -/
def mapLines (f : DelayLine → DelayLine) (s : State) : State :=
  s.mapDu fun du => { du with
        speakers := Vector.ofFn fun i => f du.speakers[i] }

/-- A transfer of the Delay Unit. -/
def isDelayTransfer (t : Transfer) : Bool :=
  match t.requester with
  | .delayWrite _ => true
  | .delayRead _ _ _ => true
  | _ => false

/-- A write of one speaker's delay line. -/
def isDelayWriteOf (i : Fin 8) (t : Transfer) : Bool := decide (t.requester = .delayWrite i)

/-- R117, R120, R121: the Delay Unit's transfers still unplaced are never placed. -/
def dropUnplacedDelay (s : State) : State :=
  s.mapPu fun pu =>
    let kept := pu.queues.render.waiting.filter fun t => !isDelayTransfer t
    { pu with queues := pu.queues.put .render { pu.queues.render with waiting := kept } }

/-! ## Stage 1: hand-on (R115 to R117, R119) -/

/-- R117: writes of a speaker are still unplaced. -/
def writesUnplaced (s : State) (i : Fin 8) : Bool := s.pu.queues.render.waiting.any (isDelayWriteOf i)

/-- R117: what the boundary finds unplaced is abandoned, and a speaker that lost a write has its history
restarted. -/
def abandonUnplaced (s : State) : State :=
  dropUnplacedDelay
    (s.mapDu fun du =>
      { du with
        speakers := Vector.ofFn fun i =>
          if writesUnplaced s i then { du.speakers[i] with history := 0 } else du.speakers[i] })

/-- The cause of a late block (R115). -/
inductive LateCause where
  | notReady
  | readFailed
  deriving DecidableEq, Repr

/-- NOT_READY 0, READ_FAILED 1. -/
def LateCause.code : LateCause → Nat
  | .notReady => 0
  | .readFailed => 1

/-- A line of this status is among those read for a prepared block. -/
def Prepared.hasLine (p : Prepared) (st : ReadStatus) : Bool := p.lines.any fun l => decide (l.status = st)

/-- R115, R120: the condition of a prepared block: late for a cause, or on time. A block with a read abandoned
at a change of the DELAY entry counts on time, whatever its other reads (log entry 59). -/
def lateCause (p : Prepared) : Option LateCause :=
  if p.hasLine .abandoned then none
  else if p.hasLine .pending then some .notReady
  else if p.hasLine .error then some .readFailed
  else none

/-- R115: the block handed on. -/
def handedBlock (l : DelayLine) : Chan :=
  match l.prepared with
  | none => zeroChan
  | some p => if lateCause p = some .notReady then l.lastOut else p.frames

/-- R116: a late block and a clear flag begin a late run. -/
def beginLateRun (i : Fin 8) (c : LateCause) (s : State) : State :=
  raiseEvent .delayLate (BitVec.ofNat 16 i.val) (natWord c.code) (natWord s.du.speakers[i].effective)
    ((mapLine i (fun l => { l with late := true }) s).mapDu fun du =>
      { du with lateRuns := wrapSucc du.lateRuns })

/-- R116: the late flag of a speaker after its hand-on. -/
def noteLateness (i : Fin 8) (c : Option LateCause) (s : State) : State :=
  match c with
  | none => mapLine i (fun l => { l with late := false }) s
  | some c => if s.du.speakers[i].late then s else beginLateRun i c s

/-- R119: a speaker absent at this boundary. -/
def lineAbsent (l : DelayLine) : DelayLine :=
  { l with history := 0, prepared := none, lastOut := zeroChan, late := false }

/-- R113 stage 1 for one speaker: the block handed on, put in its place. -/
def handOnSpeaker (i : Fin 8) (acc : Vector (Option Chan) 8 × State) : Vector (Option Chan) 8 × State :=
  let (out, s) := acc
  if speakerPresent s i then
    let l := s.du.speakers[i]
    let b := handedBlock l
    (out.set i (some b),
      noteLateness i (l.prepared.bind lateCause) (mapLine i (fun l => { l with lastOut := b }) s))
  else (out.set i none, mapLine i lineAbsent s)

/-- R113 stage 1: the blocks handed to the Output Unit. Where several speakers are late at one boundary their
LATE events come in increasing speaker identifier (log entry 51). -/
def delayHandOn (s : State) : Vector (Option Chan) 8 × State :=
  speakerIds.foldl (fun acc i => handOnSpeaker i acc) (Vector.replicate 8 none, abandonUnplaced s)

/-! ## Stages 2 and 3: mode, restarts and delays (R111, R112, R118, R120) -/

/-- R120, R200: the mode of this boundary. -/
def delayModeNow (s : State) : Bool := s.pu.regions.delay.isSome && !s.cu.quiesce

/-- R120: stage 2; an entry to LINES restarts the fill count and every history. -/
def takeDelayMode (s : State) : State :=
  let enters := delayModeNow s && (!s.du.lines || s.du.changed)
  let s := s.mapDu fun du => { du with lines := delayModeNow s, changed := false }
  if enters then mapLines (fun l => { l with history := 0 }) (s.mapDu fun du => { du with fill := 0 }) else s

/-- R118: the distance of a speaker is taken, by a swap, a take, or its absence. -/
def takeDistance (sp : Speaker) (swap : Bool) (l : DelayLine) : DelayLine :=
  if swap || l.take || !sp.isPresent then { l with inUse := sp.distance, history := 0, take := false } else l

/-- R111: the lip-sync in force. -/
def lipSyncNow (s : State) : Nat := ((connectedSource s).map Source.lipSync).getD 0

/-- R111, R118: stage 3. -/
def takeDistances (swaps : Vector Bool 8) (s : State) : State :=
  s.mapDu fun du =>
    { du with
        speakers := Vector.ofFn fun i =>
        let l := takeDistance s.ru.speakers[i] swaps[i] du.speakers[i]
        { l with effective := delayFrames (l.inUse + lipSyncNow s) s.clock.cls } }

/-! ## Stages 4 and 5: writes and reads (R113, R114) -/

/-- R109: the address of a position of a speaker's delay line. -/
def lineAddress (base : Nat) (i : Fin 8) (position : Nat) : Nat := base + 16384 * i.val + 4 * position

/-- R113: the four writes of a pre-delay block at the write index. -/
def delayWrites (base w : Nat) (i : Fin 8) (p : Chan) : List Transfer :=
  [0, 1, 2, 3].map fun k =>
    writeOf (.delayWrite i) (lineAddress base i (w + 8 * k)) (((p.drop (8 * k)).take 8).map sampleWord) none

/-- R114: the position of frame j of a prepared block. -/
def readPosition (w d j : Nat) : Nat := (w + 4096 - d + j) % 4096

/-- R114: whether frame j lies within the history: it is d + 31 − j frames behind the newest. -/
def frameReadable (d history j : Nat) : Bool := decide (d + 31 - j < history)

/-- R114: one frame joins the reads: a new line of memory, or the line before it. Newest run first. -/
def addFrame (w d history : Nat) (runs : List (Nat × Nat)) (j : Nat) : List (Nat × Nat) :=
  if frameReadable d history j then
    match runs with
    | [] => [(j, 1)]
    | (k, n) :: rest =>
      if readPosition w d j % 8 = 0 then (j, 1) :: (k, n) :: rest else (k, n + 1) :: rest
  else runs

/-- R114: the reads of a prepared block, each a first frame and a number of beats, in frame order. -/
def readRuns (w d history : Nat) : List (Nat × Nat) :=
  ((List.range 32).foldl (addFrame w d history) []).reverse

/-- R114: the read transfers of a prepared block. -/
def delayReads (base w generation : Nat) (i : Fin 8) (l : DelayLine) : List Transfer :=
  (readRuns w l.effective l.history).map fun (j, n) =>
    readOf (.delayRead i generation j) (lineAddress base i (readPosition w l.effective j)) n none

/-- R113 stage 4 for one speaker. -/
def placeWrites (base w : Nat) (i : Fin 8) (p : Option Chan) (s : State) : State :=
  match p with
  | none => s
  | some p => placeAll .render (delayWrites base w i p) s

/-- R110: the fill count and the histories after the writes. -/
def countWritten (blocks : Vector (Option Chan) 8) (s : State) : State :=
  s.mapDu fun du =>
    let fill := min (du.fill + 32) 4096
    { du with
      fill := fill, writeIndex := (du.writeIndex + 32) % 4096,
      speakers := Vector.ofFn fun i =>
        if blocks[i].isSome then { du.speakers[i] with history := min (du.speakers[i].history + 32) fill }
        else du.speakers[i] }

/-- R110, R114: the lines of memory a prepared block reads, none of them read yet. -/
def pendingLines (w : Nat) (l : DelayLine) : List LineRead :=
  (readRuns w l.effective l.history).map fun (j, _) => { start := j, status := .pending }

/-- A prepared block that needs no read. -/
def readyBlock (generation : Nat) (frames : Chan) : Prepared :=
  { generation := generation, frames := frames, lines := [] }

/-- R114 stage 5 for one speaker: its reads placed, its prepared block begun. -/
def placeReads (base w : Nat) (i : Fin 8) (s : State) : State :=
  let g := s.du.generation
  placeAll .render (delayReads base w g i s.du.speakers[i])
    (mapLine i (fun l =>
      { l with prepared := some { generation := g, frames := zeroChan, lines := pendingLines w l } }) s)

/-- R113 stages 4 and 5 in LINES mode. -/
def delayLinesWork (base : Nat) (blocks : Vector (Option Chan) 8) (s : State) : State :=
  let w := s.du.writeIndex
  let s := speakerIds.foldl (fun s i => placeWrites base w i blocks[i] s) s
  let s := countWritten blocks s
  speakerIds.foldl (fun s i => if blocks[i].isSome then placeReads base w i s else s) s

/-- R120: stage 5 in BYPASS mode: the pre-delay block is the prepared block. -/
def bypassWork (blocks : Vector (Option Chan) 8) (s : State) : State :=
  s.mapDu fun du =>
    { du with
        speakers := Vector.ofFn fun i =>
        match blocks[i] with
        | none => du.speakers[i]
        | some p => { du.speakers[i] with prepared := some (readyBlock du.generation p) } }

/-- R113: the Delay Unit at a block boundary, with the pre-delay blocks and the swaps of the render. -/
def delayBoundary (h : HandOn) (s : State) : Vector (Option Chan) 8 × State :=
  let (out, s) := delayHandOn s
  let s := takeDistances h.swaps (takeDelayMode s)
  let s := match s.du.lines, s.pu.regions.delay with
    | true, some r => delayLinesWork r.base h.blocks s
    | _, _ => bypassWork h.blocks s
  (out, s.mapDu fun du => { du with generation := du.generation + 1 })

/-! ## Restarts, the region, and answers -/

/-- R112: a connect restarts every history. -/
def delayConnect (s : State) : State := mapLines (fun l => { l with history := 0 }) s

/-- R121: an output restart: every prepared block discarded, zeros in its place, the histories and the fill
count at 0. -/
def delayOutputRestart (s : State) : State :=
  let g := s.du.generation
  (mapLines (fun l =>
      { l with history := 0, lastOut := zeroChan, late := false,
               prepared := some (readyBlock g zeroChan) })
    (dropUnplacedDelay s)).mapDu fun du => { du with fill := 0, generation := g + 1 }

/-- R120: a line of a speaker's prepared block whose read is still unplaced. -/
def readUnplaced (s : State) (i : Fin 8) (generation start : Nat) : Bool :=
  s.pu.queues.render.waiting.any fun t => decide (t.requester = .delayRead i generation start)

/-- R120: the lines of a speaker's prepared block whose reads are unplaced are abandoned. -/
def abandonReads (s : State) (i : Fin 8) (p : Prepared) : Prepared :=
  { p with
    lines := p.lines.map fun l =>
      if readUnplaced s i p.generation l.start then { l with status := .abandoned } else l }

/-- R120: the DELAY entry changed: what is unplaced is abandoned, its reads' frames being 0 and on time. -/
def delayRegionChanged (set : Bool) (s : State) : State :=
  dropUnplacedDelay
    (s.mapDu fun du =>
      { du with
        changed := du.changed || set,
        speakers := Vector.ofFn fun i =>
          { du.speakers[i] with
            prepared := du.speakers[i].prepared.map (abandonReads s i) } })

/-- The frames of a block from `start` on replaced. -/
def putFrames (start : Nat) (xs frames : Chan) : Chan :=
  frames.take start ++ xs ++ frames.drop (start + xs.length)

/-- R110: the status of the line that begins at frame `start` is settled. -/
def settleLine (start : Nat) (st : ReadStatus) (lines : List LineRead) : List LineRead :=
  lines.map fun l => if l.start = start then { l with status := st } else l

/-- R115: a read of a prepared block ended: its samples, or its frames left 0 and its line in ERROR. -/
def Prepared.readEnded (p : Prepared) (start : Nat) (data : Option (List Word)) : Prepared :=
  match data with
  | some ws =>
    { p with frames := putFrames start (ws.map sampleOf) p.frames, lines := settleLine start .ok p.lines }
  | none => { p with lines := settleLine start .error p.lines }

/-- R115, R46: a delay read ended; data of an abandoned block are discarded. -/
def delayReadEnded (i : Fin 8) (generation start : Nat) (data : Option (List Word)) (s : State) : State :=
  mapLine i (fun l =>
    { l with
      prepared := l.prepared.map fun p =>
        if p.generation = generation then p.readEnded start data else p }) s

end Sys2Proof.Machine
end

