-- ==== Sys2Proof/Machine/RingEngine.lean ====
section
/-! DEFINITION. The Ring Engine (03): storing captured blocks, fetching decoded blocks, the underrun ladder,
and what a connect does to both sides. -/

namespace Sys2Proof.Machine

/-- R56: the served source: the connected one, on the HOSTED path. -/
def servedSource (s : State) : Option (Fin 8) :=
  match s.sc.path with
  | .hosted => s.sc.connected
  | .direct => none

/-- R70: the subject of a RING event. -/
def ringSubject (s : State) : BitVec 16 := sourceSubject (servedSource s)

/-- R32: the slot count of a ring region. -/
def slotCount (r : Range) : Nat := r.size / 2048

/-- R8: the address of the slot an index names. -/
def slotAddress (r : Range) (i : Index) : Nat := r.base + 2048 * (i.toNat % slotCount r)

/-- R39: the whole slot, 64 lines. -/
def slotLock (owner : Sequence) (addr : Nat) : Lock := { owner := owner, startLine := addr / 32, lines := 64 }

/-! ## Storing (R58 to R62) -/

/-- The cause of a drop (R62). -/
inductive DropCause where
  | ringFull
  | storeBusy
  | storeFailed
  deriving DecidableEq, Repr

/-- R202: RING_FULL 0, STORE_BUSY 1, STORE_FAILED 2. -/
def DropCause.code : DropCause → Nat
  | .ringFull => 0
  | .storeBusy => 1
  | .storeFailed => 2

/-- R62: a drop. -/
def dropBlock (cause : DropCause) (s : State) : State :=
  let starts := !s.re.dropRun
  let s := s.mapRe fun re =>
    { re with dropped := wrapSucc re.dropped, pendingDrops := satSucc16 re.pendingDrops, disc := true,
              dropRun := true }
  if starts then
    raiseEvent (.ring .inputDropped) (ringSubject s) (natWord cause.code) (s.re.inProd.setWidth 32) s
  else s

/-- R58: the mark of a broken run of blocks. -/
def markDiscontinuity (s : State) : State := s.mapRe fun re => { re with disc := true }

/-- R58 step 3: the block and its header facts go to the store buffer, and the store asks for its lock. -/
def beginStore (src : Fin 8) (port : Fin 6) (cls : RateClass) (format : Format) (frames : List Frame)
    (r : Range) (s : State) : State :=
  let addr := slotAddress r s.re.inProd
  requestLock (slotLock .inputStore addr)
    (s.mapRe fun re =>
      { re with
        store := some { frames := frames, source := src, port := port, cls := cls, format := format,
                        channels := portChannels port, stamp := s.clock.stamp, disc := re.disc,
                        drops := re.pendingDrops, slotAddr := addr },
        disc := false, pendingDrops := 0, dropRun := false })

/-- R58: what the Ring Engine does with a completed block of the served source's port. While RESTART
quiesces the part it begins no store (R200), and a block that finds the store buffer free and the ring with
room is then not stored and is no drop (log entry 32). -/
def offerToStore (src : Fin 8) (port : Fin 6) (cls : RateClass) (format : Format) (frames : List Frame)
    (s : State) : State :=
  match s.pu.regions.input with
  | none => s
  | some r =>
    if s.re.store.isSome then dropBlock .storeBusy s
    else if (s.re.inProd - s.cu.inCons).toNat = slotCount r then dropBlock .ringFull s
    else if s.cu.quiesce then s
    else beginStore src port cls format frames r s

/-- R209: the header line of a stored slot. -/
def inputHeader (j : StoreJob) : List Word :=
  [ word4 j.source.val j.port.val j.cls.code j.format.code,
    word4 j.channels j.disc.toNat j.drops (j.drops / 256),
    j.stamp, 0, 0, 0, 0, 0 ]

/-- R59: the sample lines of a stored slot, from offset 64. -/
def inputLines (j : StoreJob) : List Transfer :=
  (linesOf8 32 (sampleWords j.frames)).zipIdx.map fun (line, i) =>
    writeOf .inputLine (j.slotAddr + 64 + 32 * i) line (some .inputStore)

/-- R60: the transfers of a store: sample lines, header, producer. The producer write is placed whether or not the
Command Unit's own write of the word (R57, R195) is still in flight (DESIGN CHOICE, log entry 63). -/
def storeTransfers (s : State) (j : StoreJob) : List Transfer :=
  inputLines j ++
    [ writeOf .inputHeader j.slotAddr (inputHeader j) (some .inputStore),
      writeOf .inputProducer (controlAddr s 0x4C) [(s.re.inProd + 1).setWidth 32] (some .inputStore) ]

/-- R60: the store's lock is granted, and its transfers are placed. -/
def storeGranted (s : State) : State :=
  match s.re.store with
  | none => s
  | some j => placeAll .input (storeTransfers s j) s

/-- R60: the producer write completed: the new producer, and the store buffer free. It is no change after which
the Command Unit writes the word again, even with an earlier write of it in flight (DESIGN CHOICE, log entry 63). -/
def storeEnded (s : State) : State :=
  s.mapRe fun re => { re with inProd := re.inProd + 1, store := none }

/-- R61: the slot is abandoned. -/
def storeAborted (s : State) : State :=
  dropBlock .storeFailed (s.mapRe fun re => { re with store := none })

/-! ## Fetching (R63 to R65) -/

/-- R63: the test for a fetch. -/
def testSlotFetch (s : State) : State :=
  match servedSource s, s.pu.regions.output, s.re.fetch with
  | some _, some r, .free =>
    if s.cu.outProd ≠ s.re.outCons ∧ ¬ s.cu.quiesce then
      requestLock (slotLock .outputFetch (slotAddress r s.re.outCons))
        (s.mapRe fun re =>
          { re with fetch := .fetching { slotAddr := slotAddress r re.outCons, channels := 0, disc := false,
                                         last := false, words := [], left := 0, discard := false } })
    else s
  | _, _, _ => s

/-- R64 step 1: the fetch's lock is granted, and the header read is placed. -/
def fetchGranted (s : State) : State :=
  match s.re.fetch with
  | .fetching j => placeTransfer .render (readOf .fetchHeader j.slotAddr 8 (some .outputFetch)) s
  | _ => s

/-- R64: the sample reads of a slot of n channels, 4n lines from offset 64. -/
def sampleReads (addr n : Nat) : List Transfer :=
  (List.range (4 * n)).map fun i => readOf .fetchSamples (addr + 64 + 32 * i) 8 (some .outputFetch)

/-- R64 step 2: whether a channel count is good. -/
def goodChannelCount (n : Nat) : Bool := decide (n = 2) || decide (n = 6) || decide (n = 8)

/-- R64, R69: a fetch ended: the buffer takes its end, or is freed when a connect cut the fetch off. -/
def endFetch (discard : Bool) (b : FetchBuffer) (s : State) : State :=
  if discard then testSlotFetch (s.mapRe fun re => { re with fetch := .free })
  else s.mapRe fun re => { re with fetch := b }

/-- R64 step 2: the channel count is good, and the sample reads are placed. -/
def placeSampleReads (j : FetchJob) (header : Word) (s : State) : State :=
  let n := (byteOf header 0).toNat
  placeAll .render (sampleReads j.slotAddr n)
    (s.mapRe fun re =>
      { re with fetch := .fetching { j with channels := n, disc := (byteOf header 1).getLsbD 0,
                                            last := (byteOf header 1).getLsbD 1, words := [], left := 4 * n } })

/-- R64 step 2: the slot is bad. -/
def fetchBad (j : FetchJob) (s : State) : State :=
  endFetch j.discard .bad (raiseFault .badOutputSlot j.slotAddr s)

/-- R64 step 3: the block a complete fetch holds. -/
def fetchedBlock (j : FetchJob) : HostedBlock :=
  { channels := j.channels, frames := framesOfWords j.channels 32 j.words, disc := j.disc, last := j.last }

/-- R65: the fetch failed. -/
def fetchAborted (s : State) : State :=
  match s.re.fetch with
  | .fetching j => endFetch j.discard .failed s
  | _ => s

/-! ## The boundary (R66 to R68) -/

/-- R68: a block handed on becomes the last block; a repeat does not come here. -/
def handOn (b : HostedBlock) (s : State) : HostedBlock × State :=
  (b, s.mapRe fun re => { re with last := { b with disc := false, last := false } })

/-- R68: silence with the last block's channel count. -/
def silenceNow (s : State) : HostedBlock := HostedBlock.silence s.re.last.channels

/-- R66: the consumer advances past a slot, and the buffer is freed. -/
def advanceConsumer (s : State) : State :=
  writeIndexWord .outputConsumer
    (s.mapRe fun re => { re with outCons := re.outCons + 1, fetch := .free })

/-- R67: a taken boundary moves the ladder to FLOWING, with OUTPUT_RESUMED out of REPEATED and STARVED. -/
def ladderTaken (s : State) : State :=
  let resumes := decide (s.re.ladder = .repeated) || decide (s.re.ladder = .starved)
  let s' := s.mapRe fun re => { re with ladder := .flowing, missRun := 0 }
  if resumes then
    raiseEvent (.ring .outputResumed) (ringSubject s) (s.re.outCons.setWidth 32) (natWord s.re.missRun) s'
  else s'

/-- R67: a taken block with END. -/
def ladderEnd (s : State) : State :=
  raiseEvent (.ring .outputDrained) (ringSubject s) (s.re.outCons.setWidth 32) 0
    (s.mapRe fun re => { re with ladder := .drained })

/-- R67: a miss, and the block it hands on. Its event carries the consumer as it stands, which a FAILED slot
has already moved on (log entry 49). -/
def ladderMiss (s : State) : HostedBlock × State :=
  let s := s.mapRe fun re => { re with missRun := satSucc16 re.missRun }
  match s.re.ladder with
  | .waiting => handOn (silenceNow s) s
  | .drained => handOn (silenceNow s) s
  | .flowing =>
    (s.re.last,
      raiseEvent (.ring .outputRepeat) (ringSubject s) (s.re.outCons.setWidth 32) 0
        (s.mapRe fun re => { re with ladder := .repeated, repeats := wrapSucc re.repeats }))
  | .repeated =>
    handOn (silenceNow s)
      (raiseEvent (.ring .outputStarved) (ringSubject s) (s.re.outCons.setWidth 32) 0
        (s.mapRe fun re => { re with ladder := .starved, silent := wrapSucc re.silent }))
  | .starved => handOn (silenceNow s) (s.mapRe fun re => { re with silent := wrapSucc re.silent })

/-- R66: a COMPLETE block is taken. -/
def takeComplete (b : HostedBlock) (s : State) : HostedBlock × State :=
  let s := ladderTaken (advanceConsumer s)
  handOn b (if b.last then ladderEnd s else s)

/-- R66, R67: a BAD slot is taken as silence. -/
def takeBad (s : State) : HostedBlock × State :=
  let s := ladderTaken (advanceConsumer s)
  handOn (silenceNow s) (s.mapRe fun re => { re with silent := wrapSucc re.silent })

/-- R66: a slot in the buffer that the processor withdrew by rewinding its producer is freed. -/
def freeWithdrawn (s : State) : State :=
  match s.re.fetch with
  | .fetching _ => s
  | _ => s.mapRe fun re => { re with fetch := .free }

/-- R66: the boundary's outcome and the block handed on. A FAILED slot is passed before its miss moves the
ladder (log entry 49). -/
def consumeSlot (s : State) : HostedBlock × State :=
  if s.cu.outProd = s.re.outCons then ladderMiss (freeWithdrawn s)
  else
    match s.re.fetch with
    | .complete b => takeComplete b s
    | .bad => takeBad s
    | .failed => ladderMiss (advanceConsumer s)
    | .fetching _ => ladderMiss s
    | .free => ladderMiss s

/-- R66: the Ring Engine at a block boundary; it hands on a block while it serves a source with the OUTPUT
region set, and then tests for the next fetch. -/
def ringBoundary (s : State) : Option HostedBlock × State :=
  match servedSource s, s.pu.regions.output with
  | some _, some _ =>
    let r := consumeSlot s
    (some r.1, testSlotFetch r.2)
  | _, _ => (none, s)

/-! ## Connects and regions (R57, R69) -/

/-- R69: what any connect does: the buffer is freed but for a fetch in flight, whose block is discarded. -/
def dropFetched (b : FetchBuffer) : FetchBuffer :=
  match b with
  | .fetching j => .fetching { j with discard := true }
  | _ => .free

/-- R69: the flush of a connect to a HOSTED source. -/
def flushOutputRing (s : State) : State :=
  testSlotFetch
    (writeIndexWord .outputConsumer
      (s.mapRe fun re =>
        { re with outCons := s.cu.outProd, disc := true, pendingDrops := 0, dropRun := false }))

/-- R69: the Ring Engine at a connect, with the new source already connected. -/
def ringConnect (s : State) : State :=
  let s := s.mapRe fun re =>
    { re with fetch := dropFetched re.fetch, last := HostedBlock.silence 2, ladder := .waiting, missRun := 0 }
  if (servedSource s).isSome then flushOutputRing s else s

/-- R57: SET_REGION of INPUT has drained: the producer takes the processor's consumer. -/
def resetInputRing (s : State) : State :=
  writeIndexWord .inputProducer (s.mapRe fun re => { re with inProd := s.cu.inCons })

/-- R57: SET_REGION of OUTPUT has drained: the consumer takes the processor's producer. -/
def resetOutputRing (s : State) : State :=
  writeIndexWord .outputConsumer (s.mapRe fun re => { re with outCons := s.cu.outProd })

end Sys2Proof.Machine
end

