-- ==== Sys2Proof/Machine/Region.lean ====
section
/-! DEFINITION. The Path Unit's commands (02): SET_REGION and its drain, SET_ARBITER and CLEAR_FAULT. -/

namespace Sys2Proof.Machine

/-! ## The region table (R32) -/

/-- R32: the size of the 28-bit space. -/
def spaceSize : Nat := 268435456

/-- R32: CONTROL, 4 KiB at the strap base. -/
def controlRange (r : Regions) : Range := { base := r.control, size := 4096 }

/-- R32: the entry of a role, CONTROL 0 to PRESET 6. -/
def Regions.role (r : Regions) (n : Fin 7) : Option Range :=
  match n with
  | 0 => some (controlRange r)
  | 1 => r.command
  | 2 => r.event
  | 3 => r.input
  | 4 => r.output
  | 5 => r.delay
  | 6 => r.preset

/-- R52: the entry of INPUT, OUTPUT, DELAY or PRESET set or unset; no other role is SET_REGION's. -/
def Regions.withRole (r : Regions) (n : Fin 7) (v : Option Range) : Regions :=
  match n with
  | 3 => { r with input := v }
  | 4 => { r with output := v }
  | 5 => { r with delay := v }
  | 6 => { r with preset := v }
  | _ => r

/-- The seven roles in order. -/
def roleIds : List (Fin 7) := [0, 1, 2, 3, 4, 5, 6]

/-- R52 check 5: a range overlaps the set region of another role. -/
def overlapsOther (r : Regions) (n : Fin 7) (v : Range) : Bool :=
  roleIds.any fun m =>
    decide (m ≠ n) && (match r.role m with
      | none => false
      | some w => v.overlaps w)

/-! ## SET_REGION (R52, R53) -/

/-- R52 check 1: a role that SET_REGION sets. -/
def settableRole (w : Word) : Option (Fin 7) :=
  match finOf 7 w with
  | none => none
  | some n => if 3 ≤ n.val then some n else none

/-- R52 check 2: the role is free to change. -/
def roleFree (s : State) (n : Fin 7) : Bool :=
  match n with
  | 3 => (servedSource s).isNone
  | 4 => (servedSource s).isNone
  | 5 => s.sc.connected.isNone
  | _ => true

/-- R52: a slot count SET_REGION takes. -/
def goodSlotCount (n : Nat) : Bool := [4, 8, 16, 32, 64, 128, 256].contains n

/-- R32, R52 check 4: the size of a role's region, if its slot count is good. -/
def regionSize (n : Fin 7) (slots : Nat) : Option Nat :=
  match n with
  | 3 => if goodSlotCount slots then some (2048 * slots) else none
  | 4 => if goodSlotCount slots then some (2048 * slots) else none
  | 5 => some 131072
  | 6 => some 1024
  | _ => none

/-- R52 check 4: the new range, if it is in range. -/
def newRange (n : Fin 7) (base slots : Nat) : Option Range :=
  match regionSize n slots with
  | none => none
  | some size =>
    if base % 4096 = 0 ∧ base + size ≤ spaceSize then some { base := base, size := size } else none

/-- R53: the transfers addressed to a range are marked as the ones the command waits for. -/
def markDraining (old : Range) (t : Transfer) : Transfer :=
  { t with draining := t.draining || old.holds t.addr }

/-- The transfers of a queue, placed and waiting, each changed. -/
def TransferQueue.map (tq : TransferQueue) (f : Transfer → Transfer) : TransferQueue :=
  { items := tq.items.map f, waiting := tq.waiting.map f }

/-- R53: every transfer addressed to the old range is marked. -/
def markOld (old : Option Range) (s : State) : State :=
  match old with
  | none => s
  | some r =>
    s.mapPu fun pu =>
      { pu with
        queues := { render := pu.queues.render.map (markDraining r), input := pu.queues.input.map (markDraining r),
                    control := pu.queues.control.map (markDraining r) },
        port := match pu.port with
          | .part t => .part (markDraining r t)
          | p => p }

/-- R53: the entry changes at once, and the command waits for the old transfers to end. -/
def changeRegion (n : Fin 7) (v : Option Range) (s : State) : State :=
  let s := markOld (s.pu.regions.role n)
    (if n = 5 then delayRegionChanged v.isSome s else s)
  holdFor (.drain n) (s.mapPu fun pu => { pu with regions := pu.regions.withRole n v })

/-- SET_REGION (R52). -/
def setRegionEffect (role clear base slots : Word) (s : State) : State :=
  match settableRole role with
  | none => complete .refusedRange s
  | some n =>
    if roleFree s n = false then complete .refusedState s
    else if flagOf clear then changeRegion n none s
    else
      match newRange n base.toNat slots.toNat with
      | none => complete .refusedRange s
      | some v => if overlapsOther s.pu.regions n v then complete .refusedOverlap s else changeRegion n (some v) s

/-- The transfers of a queue, those waiting included. -/
def TransferQueue.all (tq : TransferQueue) : List Transfer := tq.items ++ tq.waiting

/-- Every transfer placed or waiting to be placed. -/
def Queues.all (qs : Queues) : List Transfer := qs.render.all ++ qs.input.all ++ qs.control.all

/-- The part transfer on the memory port, if there is one. -/
def MemPort.transfer : MemPort → Option Transfer
  | .part t => some t
  | _ => none

/-- R57: the sequences of the Ring Engine on the old ring have ended. -/
def ringDrained (s : State) (n : Fin 7) : Bool :=
  match n with
  | 3 => s.re.store.isNone
  | 4 => match s.re.fetch with
    | .fetching _ => false
    | _ => true
  | _ => true

/-- R53: every transfer to the old range, placed before the change, has completed. -/
def regionDrained (s : State) (n : Fin 7) : Bool :=
  (s.pu.queues.all ++ s.pu.port.transfer.toList).all (fun t => !t.draining) && ringDrained s n

/-- R57: what the end of a SET_REGION does to a ring's index. -/
def resetRingIndex (n : Fin 7) (s : State) : State :=
  match n with
  | 3 => resetInputRing s
  | 4 => resetOutputRing s
  | _ => s

/-- R53: the old transfers have ended. -/
def setRegionDrainedWork (s : State) : State :=
  match s.cu.exec with
  | .busy { work := .drain n, .. } => if regionDrained s n then complete .done (resetRingIndex n s) else s
  | _ => s

/-- SET_REGION_DRAINED (R53). -/
def execSetRegionDrained (s : State) : Host.Outcome State Fault Refusal := live setRegionDrainedWork s

/-! ## SET_ARBITER and CLEAR_FAULT (R45, R51) -/

/-- SET_ARBITER (R45). -/
def setArbiterEffect (h : Word) (s : State) : State :=
  complete (if h.toNat = 0 ∨ 64 < h.toNat then .clamped else .done)
    (s.mapPu fun pu => { pu with sliceH := max 1 (min 64 h.toNat) })

/-- R51: a LATCHED record is emptied and written. -/
def emptyFaultRecord (s : State) : State :=
  if s.pu.faultRec.isSome then writeFaultRecord (s.mapPu fun pu => { pu with faultRec := none }) else s

/-- CLEAR_FAULT (R51). -/
def clearFaultEffect (s : State) : State := complete .done (emptyFaultRecord s)

end Sys2Proof.Machine
end

