-- ==== Sys2Proof/Machine/Taps.lean ====
section
/-! DEFINITION. The tapped anchor words (R37) and what the Command Unit does with each: ring enable and
disable (R192, R193), the index checks (R194, R57), the interrupt enable (R198), and the steps of the table
that write one of them. -/

namespace Sys2Proof.Machine

/-! ## The tap shadow (R37) -/

/-- One byte of a merge: the new byte where its enable is set. -/
def mergeByte (old new : Word) (be : BitVec 4) (b : Nat) : Byte :=
  if be.getLsbD b then byteOf new b else byteOf old b

/-- R37: a word merged byte by byte under its byte enables. -/
def mergeWord (old new : Word) (be : BitVec 4) : Word :=
  mergeByte old new be 3 ++ mergeByte old new be 2 ++ mergeByte old new be 1 ++ mergeByte old new be 0

/-- R37: a shadow word merged. -/
def mergeShadow (n : Fin 10) (w : Word) (be : BitVec 4) (s : State) : State :=
  s.mapPu fun pu => { pu with shadow := pu.shadow.set n (mergeWord pu.shadow[n] w be) }

/-- R203: the address of an anchor word. -/
def anchorAddress (s : State) (n : Nat) : Nat := controlAddr s (4 * n)

/-! ## Enable and disable (R192, R193) -/

/-- The ring geometry the shadow words spell (R192). -/
structure Geometry where
  cmdBase : Nat
  cmdLog : Nat
  evtBase : Nat
  evtLog : Nat
  deriving DecidableEq, Repr

/-- R192: the geometry as it stands in the shadow. -/
def geometryOf (s : State) : Geometry :=
  { cmdBase := s.pu.shadow[0].toNat, cmdLog := s.pu.shadow[1].toNat, evtBase := s.pu.shadow[2].toNat,
    evtLog := s.pu.shadow[3].toNat }

/-- R192: the command ring, 32 bytes a slot. -/
def Geometry.command (g : Geometry) : Range := { base := g.cmdBase, size := 32 * 2 ^ g.cmdLog }

/-- R192: the event ring, 16 bytes a slot. -/
def Geometry.event (g : Geometry) : Range := { base := g.evtBase, size := 16 * 2 ^ g.evtLog }

/-- R192: a range overlaps CONTROL or a set region. -/
def overlapsSet (r : Regions) (v : Range) : Bool :=
  roleIds.any fun n => match r.role n with
    | none => false
    | some w => v.overlaps w

/-- R192: the first check of the geometry that fails, or OK. -/
def geometryStatus (r : Regions) (g : Geometry) : RingStatus :=
  if ¬ (4 ≤ g.cmdLog ∧ g.cmdLog ≤ 10) then .cmdSize
  else if ¬ (6 ≤ g.evtLog ∧ g.evtLog ≤ 12) then .evtSize
  else if ¬ (g.cmdBase % 32 = 0 ∧ g.cmdBase + g.command.size ≤ spaceSize) then .cmdBase
  else if ¬ (g.evtBase % 16 = 0 ∧ g.evtBase + g.event.size ≤ spaceSize) then .evtBase
  else if overlapsSet r g.command then .cmdOverlap
  else if overlapsSet r g.event || g.event.overlaps g.command then .evtOverlap
  else .ok

/-- R193: a command taken before an enable no longer advances the head. -/
def ExecState.uncounted : ExecState → ExecState
  | .busy b => .busy { b with counts := false }
  | e => e

/-- R192: the rings are enabled with a valid geometry, the indices at 0. -/
def enableRings (g : Geometry) (s : State) : State :=
  let s := s.mapPu fun pu =>
    { pu with regions := { pu.regions with command := some g.command, event := some g.event } }
  s.mapCu fun cu =>
    { cu with enabled := true, ringStatus := .ok, head := 0, tail := 0, evProd := 0, evCons := 0, evDropped := 0,
              exec := cu.exec.uncounted, evWrite := cu.evWrite.map fun e => { e with stale := true } }

/-- R192, R195: the four words written at an enable. -/
def writeEnableWords (s : State) : State :=
  writeIndexWord .eventsDropped (writeIndexWord .eventProducer
    (writeIndexWord .commandHead (writeIndexWord .ringStatus s)))

/-- R194: an index word is rejected. -/
def rejectIndex (n : Nat) (s : State) : State := raiseFault .ringIndex (anchorAddress s n) s

/-- The index a word carries (R202). -/
def indexOf (w : Word) : Index := w.setWidth 16

/-- R194: a tapped command tail. A slot already being fetched or run goes on when the tail moves back to the
head (log entry 55). -/
def takeTail (w : Word) (s : State) : State :=
  let v := indexOf w
  if s.cu.enabled ∧ commandSlots s < (v - s.cu.head).toNat then rejectIndex 5 s
  else testFetch (s.mapCu fun cu => { cu with tail := v })

/-- R194: a tapped event consumer. -/
def takeConsumer (w : Word) (s : State) : State :=
  let v := indexOf w
  if s.cu.enabled ∧ eventSlots s < (s.cu.evProd - v).toNat then rejectIndex 6 s
  else pumpEvents (s.mapCu fun cu => { cu with evCons := v })

/-- R192: an enable request with valid geometry. -/
def enableValid (g : Geometry) (s : State) : State :=
  let s := writeEnableWords (enableRings g s)
  takeConsumer s.pu.shadow[6] (takeTail s.pu.shadow[5] s)

/-- R192: an enable request with invalid geometry. -/
def enableInvalid (st : RingStatus) (s : State) : State :=
  raiseFault .ringGeometry (anchorAddress s 4)
    (writeIndexWord .ringStatus (s.mapCu fun cu => { cu with ringStatus := st }))

/-- R192: an enable request. -/
def enableRequest (s : State) : State :=
  let g := geometryOf s
  match geometryStatus s.pu.regions g with
  | .ok => enableValid g s
  | st => enableInvalid st s

/-- The write of an event record that still waits for room (R193). -/
def isEventWrite (t : Transfer) : Bool := decide (t.requester = .eventWrite)

/-- R193: an event whose write is not placed yet is counted in events-dropped. -/
def dropUnplacedEvent (s : State) : State :=
  if s.pu.queues.control.waiting.any isEventWrite then
    dropEvent
      ((s.mapPu fun pu =>
        { pu with queues := pu.queues.put .control
                    { pu.queues.control with
                      waiting := pu.queues.control.waiting.filter fun t => !isEventWrite t } }).mapCu
        fun cu => { cu with evWrite := none })
  else s

/-- R193: the events that wait to be written are counted in events-dropped. -/
def dropPending (s : State) : State :=
  s.cu.pendingEvents.foldl (fun s _ => dropEvent s) (s.mapCu fun cu => { cu with pendingEvents := [] })

/-- R193: the rings are disabled. A fetch whose read still waits for room goes on too, its data discarded (log
entry 56). -/
def disableRings (s : State) : State :=
  let s := s.mapPu fun pu => { pu with regions := { pu.regions with command := none, event := none } }
  let s := s.mapCu fun cu =>
    { cu with enabled := false, fetchDiscard := cu.fetchDiscard || decide (cu.exec = .fetching) }
  dropPending (dropUnplacedEvent s)

/-- R192, R193: a tapped ring control word. -/
def takeRingControl (w : Word) (s : State) : State :=
  if w.getLsbD 0 ∧ ¬ s.cu.enabled then enableRequest s
  else if ¬ w.getLsbD 0 ∧ s.cu.enabled then disableRings s
  else s

/-! ## The other words (R57, R198) -/

/-- R57: a new pair of indices leaves a ring with 0 to its slot count in use; an unset region takes any. -/
def ringAccepts (r : Option Range) (prod cons : Index) : Bool :=
  match r with
  | none => true
  | some r => decide ((prod - cons).toNat ≤ slotCount r)

/-- R57: a tapped input-ring consumer. -/
def takeInputConsumer (w : Word) (s : State) : State :=
  let v := indexOf w
  if ringAccepts s.pu.regions.input s.re.inProd v then s.mapCu fun cu => { cu with inCons := v }
  else rejectIndex 7 s

/-- R57, R63: a tapped output-ring producer. -/
def takeOutputProducer (w : Word) (s : State) : State :=
  let v := indexOf w
  if ringAccepts s.pu.regions.output v s.re.outCons then
    testSlotFetch (s.mapCu fun cu => { cu with outProd := v })
  else rejectIndex 8 s

/-- R198: a tapped interrupt enable word. -/
def takeIrqEnable (w : Word) (s : State) : State := s.mapCu fun cu => { cu with irqEnable := w.getLsbD 0 }

/-- R37: a merged word is handed to its owner. The geometry words are used where they stand, in the shadow. -/
def handOver (n : Fin 10) (s : State) : State :=
  match n with
  | 4 => takeRingControl s.pu.shadow[4] s
  | 5 => takeTail s.pu.shadow[5] s
  | 6 => takeConsumer s.pu.shadow[6] s
  | 7 => takeInputConsumer s.pu.shadow[7] s
  | 8 => takeOutputProducer s.pu.shadow[8] s
  | 9 => takeIrqEnable s.pu.shadow[9] s
  | _ => s

/-! ## The steps that write one anchor word (log entry 5) -/

/-- R35, R37: one tapped beat: merged and handed over; with no byte enabled it is no tapped beat. -/
def tapWord (n : Fin 10) (w : Word) (be : BitVec 4) (s : State) : State :=
  if be = 0 then s else handOver n (mergeShadow n w be s)

/-- R35, R36: a write beat at a word of the anchor: the geometry is guarded while the rings are enabled, the
spare words are only forwarded. -/
def anchorWord (off : Fin 16) (w : Word) (be : BitVec 4) (s : State) : State :=
  if be = 0 then s
  else if off.val < 4 ∧ s.cu.enabled then raiseFault .guardWrite (anchorAddress s off.val) s
  else if h : off.val < 10 then tapWord ⟨off.val, h⟩ w be s
  else s

/-- RING_ENABLE (R192). -/
def execRingEnable (upper : BitVec 31) (s : State) : Host.Outcome State Fault Refusal :=
  live (tapWord 4 (upper ++ (1 : BitVec 1)) 0xF) s

/-- RING_DISABLE (R193). -/
def execRingDisable (upper : BitVec 31) (s : State) : Host.Outcome State Fault Refusal :=
  live (tapWord 4 (upper ++ (0 : BitVec 1)) 0xF) s

/-- COMMAND_TAIL_WRITE (R194). -/
def execCommandTailWrite (w : Word) (be : BitVec 4) (s : State) : Host.Outcome State Fault Refusal :=
  live (tapWord 5 w be) s

/-- EVENT_CONSUMER_WRITE (R194). -/
def execEventConsumerWrite (w : Word) (be : BitVec 4) (s : State) : Host.Outcome State Fault Refusal :=
  live (tapWord 6 w be) s

/-- INPUT_RING_CONSUMER_WRITE (R57). -/
def execInputRingConsumerWrite (w : Word) (be : BitVec 4) (s : State) : Host.Outcome State Fault Refusal :=
  live (tapWord 7 w be) s

/-- OUTPUT_RING_PRODUCER_WRITE (R57). -/
def execOutputRingProducerWrite (w : Word) (be : BitVec 4) (s : State) : Host.Outcome State Fault Refusal :=
  live (tapWord 8 w be) s

/-- INTERRUPT_ENABLE_WRITE (R198). -/
def execInterruptEnableWrite (w : Word) (be : BitVec 4) (s : State) : Host.Outcome State Fault Refusal :=
  live (tapWord 9 w be) s

/-- ANCHOR_WORD_WRITE (R37). -/
def execAnchorWordWrite (off : Fin 16) (w : Word) (be : BitVec 4) (s : State) :
    Host.Outcome State Fault Refusal :=
  live (anchorWord off w be) s

end Sys2Proof.Machine
end

