-- ==== Sys2Proof/Machine/Switch.lean ====
section
/-! DEFINITION. The Switch Controller (01): connects, readiness, losses and regains of the signal, the hold
timer, and the commands CONFIG_SOURCE and SELECT_SOURCE with the step HOLD_TIMER_EXPIRY. -/

namespace Sys2Proof.Machine

/-! ## Reading the connected source -/

/-- Section 1.1: a source on IN4 is a radio source. -/
def Source.isRadio (src : Source) : Bool := decide (src.port = 4)

/-- R167: the tuner is settled. -/
def tunerSettled (s : State) : Bool := decide (s.tc.st = .tuned)

/-- R18: a signal suits the effective path. -/
def signalSuits (s : State) (src : Source) : Bool :=
  decide (s.sc.path = .hosted) || decide (s.ports[src.port].format = .pcm)

/-- R18: the port of the source is LOCKED at the class in force. -/
def lockedInForce (s : State) (src : Source) : Bool := decide (s.ports[src.port].lock = .locked s.clock.cls)

/-- R18: the INPUT and OUTPUT regions are set. -/
def hostedRegionsSet (s : State) : Bool := s.pu.regions.input.isSome && s.pu.regions.output.isSome

/-- R18: every readiness condition but the format's. -/
def readyButFormat (s : State) (src : Source) : Bool :=
  lockedInForce s src && (decide (s.sc.path = .direct) || hostedRegionsSet s)
    && (!src.isRadio || tunerSettled s)

/-- R18: the connected source is ready. -/
def sourceReady (s : State) (src : Source) : Bool := readyButFormat s src && signalSuits s src

/-- R30: the subject of the connected source's events. -/
def connectedSubject (s : State) : BitVec 16 := sourceSubject s.sc.connected

/-! ## The hold timer (R26) -/

/-- R26: one unit of hold time, 100 ms, in REF_CLK periods. -/
def holdUnit : Nat := 2457600

/-- The hold timer stopped. -/
def stoppedTimer : HoldTimer := { running := false, remaining := 0, suspended := false }

/-- R26: the hold timer stops. -/
def stopHoldTimer (s : State) : State := s.mapSc fun sc => { sc with timer := stoppedTimer }

/-- R26: the hold timer as it starts for a source. -/
def startedTimer (settled : Bool) (src : Source) : HoldTimer :=
  if src.holdTime = 0 then stoppedTimer
  else { running := true, remaining := src.holdTime * holdUnit, suspended := src.isRadio && !settled }

/-- R26: the hold timer starts for the connected source. -/
def startHoldTimer (s : State) : State :=
  match connectedSource s with
  | none => s
  | some src => s.mapSc fun sc => { sc with timer := startedTimer (tunerSettled s) src }

/-- R26: a radio source's running timer is suspended, or counts on. -/
def suspendTimer (b : Bool) (s : State) : State :=
  if s.sc.timer.running then s.mapSc fun sc => { sc with timer := { sc.timer with suspended := b } } else s

/-! ## State changes -/

/-- R22, R25, R28: the Switch Controller enters PLAY_RAMP. -/
def enterPlayRamp (s : State) : State :=
  s.mapSc fun sc => { sc with st := .playRamp, feed := true, timer := stoppedTimer, cause := none }

/-- The format code of the connected source's port. -/
def connectedFormatCode (s : State) : Nat :=
  ((connectedSource s).map fun src => s.ports[src.port].format.code).getD 0

/-- R21, R22, R25, R20a: the Switch Controller enters BLOCKED. -/
def enterBlocked (c : BlockCause) (s : State) : State :=
  let s := s.mapSc fun sc => { sc with st := .blocked, feed := false, timer := stoppedTimer, cause := some c }
  raiseEvent (.source .blocked) (connectedSubject s) (natWord c.code) (natWord (connectedFormatCode s)) s

/-- R20, R25, R27, R20a: the Switch Controller enters DRAIN; the feed stays as it is (R19). -/
def enterDrain (t : Target) (s : State) : State :=
  s.mapSc fun sc => { sc with st := .drain, target := t, timer := stoppedTimer, cause := none }

/-- The connected source as a pending target. -/
def selfTarget (s : State) : Target :=
  match s.sc.connected with
  | none => .none
  | some i => .source i

/-- The cause of a loss (R24). -/
inductive LossCause where
  | signal
  | tuner
  deriving DecidableEq, Repr

/-- SIGNAL 0, TUNER 1. -/
def LossCause.code : LossCause → Nat
  | .signal => 0
  | .tuner => 1

/-- R24: entry to HOLD. -/
def enterHold (c : LossCause) (s : State) : State :=
  let s := startHoldTimer
    (s.mapSc fun sc => { sc with st := .hold, feed := false, timer := stoppedTimer, cause := none })
  raiseEvent (.source .hold) (connectedSubject s) (natWord c.code)
    (natWord (((connectedSource s).map Source.holdTime).getD 0)) s

/-- R29: the clock stops following. -/
def stopFollowing (s : State) : State := s.mapClock fun c => { c with following := false, own := false }

/-- R24: the connected source loses its signal. -/
def loseSignal (c : LossCause) (s : State) : State :=
  let s := stopFollowing s
  match s.sc.st with
  | .playing => enterHold c s
  | .playRamp => enterHold c s
  | .blocked => enterHold c s
  | .acquire => if c = .tuner then suspendTimer true s else s
  | .hold => if c = .tuner then suspendTimer true s else s
  | .drain => s.mapSc fun sc => { sc with feed := false }
  | .idle => s

/-- The connected source plays this port. -/
def connectedOnPort (s : State) (p : Fin 6) : Bool :=
  match connectedSource s with
  | none => false
  | some src => decide (src.port = p)

/-- R25: a regain at a class, in HOLD. At another class than the one in force the SC goes to DRAIN, with the
connected source as its own target; at the class in force it stays, and the hold timer stops at the regain
(log entry 57). -/
def regain (c : RateClass) (s : State) : State :=
  match s.sc.st with
  | .hold => if c = s.clock.cls then stopHoldTimer s else enterDrain (selfTarget s) s
  | _ => s

/-- R20a and the paragraph after it: the connected source's port changed its format. -/
def formatChanged (src : Source) (f : Format) (s : State) : State :=
  match s.sc.st with
  | .playing =>
    if src.path = .auto then enterDrain (selfTarget s) s
    else if s.sc.path = .direct ∧ f = .encoded then enterBlocked .format s else s
  | .playRamp =>
    if src.path = .auto then enterDrain (selfTarget s) s
    else if s.sc.path = .direct ∧ f = .encoded then enterBlocked .format s else s
  | .acquire =>
    if src.path = .auto ∧ ¬ s.sc.connectRequest then
      s.mapSc fun sc => { sc with connectRequest := true, target := selfTarget s }
    else s
  | .blocked => if src.path = .auto then enterDrain (selfTarget s) s else s
  | .hold => if src.path = .auto then enterDrain (selfTarget s) s else s
  | .drain =>
    if s.sc.path = .direct ∧ f = .encoded then s.mapSc fun sc => { sc with feed := false } else s
  | .idle => s

/-! ## Connecting (R21, R29) -/

/-- R29: an output restart: the class in force changes, and the Delay Unit, the lanes and the record link
start afresh. -/
def outputRestart (c : RateClass) (s : State) : State :=
  linkOutputRestart (lanesOutputRestart (delayOutputRestart
    (s.mapClock fun k => { k with cls := c, following := false, own := false })))

/-- R18: the effective path of a source at a connect. -/
def pathAtConnect (s : State) (src : Source) : EffPath :=
  match src.path with
  | .direct => .direct
  | .hosted => .hosted
  | .auto => if s.ports[src.port].format = .pcm then .direct else .hosted

/-- R21 step 1: the pending target becomes the connected source. -/
def takeTarget (s : State) : State :=
  s.mapSc fun sc =>
    { sc with
      connected := match sc.target with
        | .source i => some i
        | _ => none,
      target := .absent, connectRequest := false, timer := stoppedTimer, feed := false, cause := none }

/-- R21 step 5: the class in force takes the class of a port LOCKED at another. -/
def connectClass (src : Source) (s : State) : State :=
  match s.ports[src.port].lock with
  | .locked c => if c = s.clock.cls then s else outputRestart c s
  | _ => s

/-- R29: the clock goes on following at a connect only if the new source plays the port it follows. With any other
port it free-runs until that port's next block completion, also when the port is already LOCKED at the class in force
(DESIGN CHOICE, log entry 65). -/
def connectFollowing (samePort : Bool) (s : State) : State := if samePort then s else stopFollowing s

/-- R21 step 2: a connect to NONE. -/
def connectNone (previous : BitVec 16) (s : State) : State :=
  let s := ringConnect (delayConnect (renderConnect (stopFollowing (s.mapSc fun sc => { sc with st := .idle }))))
  raiseEvent (.source .idle) previous 0 0 s

/-- R21 step 8: a HOSTED source without its regions is BLOCKED; any other goes to ACQUIRE. -/
def connectEnter (s : State) : State :=
  if s.sc.path = .hosted ∧ ¬ hostedRegionsSet s then enterBlocked .region s
  else startHoldTimer (s.mapSc fun sc => { sc with st := .acquire })

/-- R21 steps 3 to 8: a connect to a source. -/
def connectSource (samePort : Bool) (src : Source) (s : State) : State :=
  let s := s.mapSc fun sc => { sc with path := pathAtConnect s src }
  let s := delayConnect (renderConnect (connectFollowing samePort s))
  let s := ringConnect (connectClass src s)
  connectEnter
    (raiseEvent (.source .connected) (connectedSubject s) (natWord s.sc.path.code) (natWord s.clock.cls.code) s)

/-- R21: the connect. -/
def connect (s : State) : State :=
  let previous := connectedSource s
  let subject := connectedSubject s
  let s := takeTarget s
  match connectedSource s with
  | none => connectNone subject s
  | some src => connectSource (decide (previous.map Source.port = some src.port)) src s

/-! ## The Switch Controller at a block boundary -/

/-- R22, R25: the readiness test of ACQUIRE and HOLD. -/
def testReadiness (s : State) : State :=
  match connectedSource s with
  | none => s
  | some src =>
    if sourceReady s src then enterPlayRamp s
    else if readyButFormat s src then enterBlocked .format s
    else s

/-- R28: the readiness test of BLOCKED with cause FORMAT. -/
def testBlocked (s : State) : State :=
  match connectedSource s with
  | none => s
  | some src => if s.sc.cause = some .format ∧ sourceReady s src then enterPlayRamp s else s

/-- R21, R22, R25, R28: before the render of a boundary: a connect that was requested, or the readiness test.
After a requested connect the test waits for the next boundary (log entry 16), and in HOLD it is made while
the clock follows the port (log entry 18). -/
def switchBefore (s : State) : State :=
  match s.sc.st with
  | .idle => if s.sc.connectRequest then connect s else s
  | .acquire => if s.sc.connectRequest then connect s else testReadiness s
  | .hold => if s.clock.following then testReadiness s else s
  | .blocked => testBlocked s
  | _ => s

/-- R22: a connect made at mute reached in DRAIN is followed by the test at the same boundary. -/
def connectAtMute (s : State) : State :=
  let s := connect s
  if s.sc.st = .acquire then testReadiness s else s

/-- R23: PLAY_RAMP to PLAYING. -/
def enterPlaying (s : State) : State :=
  raiseEvent (.source .playing) (connectedSubject s) (natWord s.sc.path.code) 0
    (s.mapSc fun sc => { sc with st := .playing })

/-- R21, R23, R107: after the level stage of a boundary, with the state before that stage: mute reached, or
targets reached. -/
def switchAfter (before s : State) : State :=
  match s.sc.st with
  | .drain => if muteReached s then connectAtMute s else s
  | .playRamp => if targetsReached before s then enterPlaying s else s
  | _ => s

/-! ## HOLD_TIMER_EXPIRY and the commands -/

/-- R27: the fallback names a valid entry. -/
def validFallback (s : State) (src : Source) : Option (Fin 8) :=
  match src.fallback with
  | none => none
  | some i => if s.sc.table[i].valid then some i else none

/-- R27: an expiry. -/
def expireHold (src : Source) (s : State) : State :=
  match validFallback s src with
  | some i =>
    raiseEvent (.source .fallback) (connectedSubject s) (natWord i.val) 0 (enterDrain (.source i) s)
  | none =>
    raiseEvent (.source .lost) (connectedSubject s) (optionWord (src.fallback.map Fin.val)) 0 (stopHoldTimer s)

/-- R26, R27: the hold timer reaches 0: it must be running, not suspended, in ACQUIRE or HOLD. -/
def holdExpiry (s : State) : State :=
  match connectedSource s with
  | none => s
  | some src =>
    if s.sc.timer.running ∧ ¬ s.sc.timer.suspended ∧ (s.sc.st = .acquire ∨ s.sc.st = .hold) then
      expireHold src s
    else s

/-- HOLD_TIMER_EXPIRY (R27). -/
def execHoldTimerExpiry (s : State) : Host.Outcome State Fault Refusal := live holdExpiry s

/-- R20: an accepted SELECT_SOURCE by switch state. -/
def selectByState (t : Target) (s : State) : State :=
  match s.sc.st with
  | .idle => s.mapSc fun sc => { sc with target := t, connectRequest := true }
  | .acquire => s.mapSc fun sc => { sc with target := t, connectRequest := true, timer := stoppedTimer }
  | .drain => s.mapSc fun sc => { sc with target := t }
  | _ => enterDrain t s

/-- SELECT_SOURCE (R20). -/
def selectSourceEffect (target : Word) (s : State) : State :=
  if target = noneWord then
    if s.sc.st = .idle then complete .done s else complete .accepted (selectByState .none s)
  else
    match finOf 8 target with
    | none => complete .refusedRange s
    | some i =>
      if s.sc.table[i].valid then complete .accepted (selectByState (.source i) s)
      else complete .refusedEmpty s

/-- R17: the fallback parameter, a source or none. -/
def fallbackOf (w : Word) : Option (Option (Fin 8)) :=
  if w = noneWord then some none else (finOf 8 w).map some

/-- R17: the entry a CONFIG_SOURCE with the valid flag set writes, its quantities brought into range. -/
def sourceOf (port path : BitVec 16) (pref trim lipSync fallback hold : Word) : Option Source :=
  match finOf 6 (port.setWidth 32), pathOf path.toNat, preferenceOf pref.toNat, fallbackOf fallback with
  | some p, some c, some d, some f =>
    some { valid := true, port := p, path := c, preference := d, trim := min 24 trim.toNat,
           lipSync := min 100 lipSync.toNat, fallback := f, holdTime := min 100 hold.toNat }
  | _, _, _, _ => none

/-- R17: the entry is the connected source or the pending target. -/
def sourceInUse (s : State) (i : Fin 8) : Bool :=
  decide (s.sc.connected = some i) || decide (s.sc.target = .source i)

/-- An entry of the source table written. -/
def writeSource (i : Fin 8) (src : Source) (s : State) : State :=
  s.mapSc fun sc => { sc with table := sc.table.set i src }

/-- CONFIG_SOURCE (R17). -/
def configSourceEffect (id : BitVec 16) (valid : Bool) (port path : BitVec 16)
    (pref trim lipSync fallback hold : Word) (s : State) : State :=
  match finOf 8 (id.setWidth 32) with
  | none => complete .refusedRange s
  | some i =>
    if sourceInUse s i then complete .refusedState s
    else if !valid then complete .done (writeSource i Source.cleared s)
    else
      match sourceOf port path pref trim lipSync fallback hold with
      | none => complete .refusedRange s
      | some src =>
        complete (if 24 < trim.toNat ∨ 100 < lipSync.toNat ∨ 100 < hold.toNat then .clamped else .done)
          (writeSource i src s)

end Sys2Proof.Machine
end

