-- ==== Sys2Proof/Machine/Tuner.lean ====
section
/-! DEFINITION. The Tuner Controller (09): the link and its retries, tuning, settling, seeking, the settled
condition, presets, and the unit's steps and commands. -/

namespace Sys2Proof.Machine

/-! ## The settled condition (R167) -/

/-- R167: the connected source is a radio source. -/
def connectedRadio (s : State) : Bool := ((connectedSource s).map Source.isRadio).getD false

/-- R167: the condition falls: the mark of IN4's block is cleared, the record link set to IN4 sends zero
frames, and a connected radio source loses its signal. -/
def settledFalls (s : State) : State :=
  let s := linkLosesPort 4 (s.mapPort 4 fun p => { p with mark := false })
  if connectedRadio s then loseSignal .tuner s else s

/-- R25: the tuner's return is a regain when IN4 is still LOCKED. -/
def regainByTuner (s : State) : State :=
  match s.ports[4].lock with
  | .locked c => regain c s
  | _ => s

/-- R167, R26: the condition rises: a connected radio source's hold timer counts on. -/
def settledRises (s : State) : State :=
  if connectedRadio s then regainByTuner (suspendTimer false s) else s

/-- R167: the tuner state changes, and the neighbours learn of the settled condition. -/
def setTunerState (st : TunerState) (s : State) : State :=
  let was := tunerSettled s
  let s := s.mapTc fun tc => { tc with st := st }
  if was && !tunerSettled s then settledFalls s
  else if !was && tunerSettled s then settledRises s
  else s

/-! ## The link (R155 to R157) -/

/-- R155: the address byte, its direction bit last: 0 for a write, 1 for a read (log entry 60). -/
def addressByte (addr : BitVec 7) (r : LinkRequest) : Byte :=
  match r with
  | .tuneWrite => addr ++ 0#1
  | .statusRead => addr ++ 1#1

/-- R155: what a tune write sends after its address byte: the band, channel bits 15:8 and channel bits 7:0. -/
def tuneBytes (b : Band) (channel : BitVec 16) : List Byte :=
  [BitVec.ofNat 8 b.code, channel.extractLsb' 8 8, channel.extractLsb' 0 8]

/-- R155: the bytes the part sends in an attempt. -/
def TunerUnit.sentBytes (tc : TunerUnit) (r : LinkRequest) : List Byte :=
  match r with
  | .tuneWrite =>
    addressByte tc.addr r :: tuneBytes (tc.band.getD .fm) (BitVec.ofNat 16 (tc.channel.getD 0))
  | .statusRead => [addressByte tc.addr r]

/-- R155: the part acknowledges the first byte of a status read and not the second. -/
def readAcks : LinkRequest → List Bool
  | .tuneWrite => []
  | .statusRead => [true, false]

/-- R155: an attempt with the address in force and the current band and channel. -/
def TunerUnit.attemptOf (tc : TunerUnit) (r : LinkRequest) : Attempt :=
  { request := r, sends := tc.sentBytes r, acks := readAcks r, discard := false }

/-- R156, R157: a request begins, at once on an idle link; behind an attempt in progress, whose outcome is
then discarded, it is owed. -/
def TunerUnit.begin (tc : TunerUnit) (r : LinkRequest) : TunerUnit :=
  match tc.link with
  | .attempt a => { tc with retry := 0, link := .attempt { a with discard := true }, owed := true }
  | _ => { tc with retry := 0, link := .attempt (tc.attemptOf r), owed := false }

/-- R200: while RESTART quiesces the part no link attempt begins. -/
def beginRequest (r : LinkRequest) (s : State) : State :=
  if s.cu.quiesce then s else s.mapTc fun tc => tc.begin r

/-- R157: a discarded attempt has ended, and the TC begins what the new work calls for: a tune write. -/
def endDiscarded (s : State) : State :=
  let owed := s.tc.owed
  let s := s.mapTc fun tc => { tc with link := .idle, owed := false }
  if owed then beginRequest .tuneWrite s else s

/-- The cause of a failed attempt (R156). -/
inductive AttemptFailure where
  | nak
  | timeout
  deriving DecidableEq, Repr

/-- NAK 0, TIMEOUT 1. -/
def AttemptFailure.code : AttemptFailure → Nat
  | .nak => 0
  | .timeout => 1

/-- R171: a TUNER event about the work under way. -/
def raiseTuner (c : TunerCode) (d1 d2 : Word) (s : State) : State :=
  raiseEvent (.tuner c) (s.tc.tag.getD 0xFFFF) d1 d2 s

/-- The settle timer, stopped. -/
def stoppedSettle : SettleTimer := { running := false, remaining := 0 }

/-- R156: the link has failed. -/
def linkFailed (r : LinkRequest) (f : AttemptFailure) (s : State) : State :=
  let s := setTunerState .offline
    (s.mapTc fun tc => { tc with link := .idle, owed := false, settle := stoppedSettle, seek := none })
  (raiseTuner .linkFailed (natWord r.code) (natWord f.code) s).mapTc fun tc => { tc with tag := none }

/-- R156: an attempt of a request failed; while RESTART quiesces the part it is not retried (R200). -/
def attemptFailed (r : LinkRequest) (f : AttemptFailure) (s : State) : State :=
  if s.cu.quiesce then s.mapTc fun tc => { tc with link := .idle }
  else if 3 ≤ s.tc.retry then linkFailed r f s
  else s.mapTc fun tc => { tc with retry := tc.retry + 1, link := .retry r }

/-! ## Tuning (R160, R161) -/

/-- R161: the settle time of a band in REF_CLK periods: 10 ms and 40 ms. -/
def settleTime : Band → Nat
  | .fm => 245760
  | .am => 983040

/-- R158: the step in force for a band, in kHz. -/
def TunerUnit.stepOf (tc : TunerUnit) (b : Band) : Nat :=
  match b with
  | .fm => tc.fmStep
  | .am => tc.amStep

/-- What replaces the work under way (R171): TUNE (and RECALL_PRESET) or SEEK. -/
inductive Replacement where
  | tune
  | seek
  deriving DecidableEq, Repr

/-- TUNE 0, SEEK 1. -/
def Replacement.code : Replacement → Nat
  | .tune => 0
  | .seek => 1

/-- The cause of SEEK_STOPPED (R171). -/
inductive StopCause where
  | stop
  | tune
  deriving DecidableEq, Repr

/-- STOP 0, TUNE 1. -/
def StopCause.code : StopCause → Nat
  | .stop => 0
  | .tune => 1

/-- The current channel as a detail word. -/
def channelWord (s : State) : Word := optionWord s.tc.channel

/-- R160: the event of the work that a new tune or seek ends. -/
def reportReplaced (r : Replacement) (s : State) : State :=
  match s.tc.st with
  | .tuning => raiseTuner .abandoned (channelWord s) (natWord r.code) s
  | .settling => raiseTuner .abandoned (channelWord s) (natWord r.code) s
  | .seeking => raiseTuner .seekStopped (channelWord s) (natWord StopCause.tune.code) s
  | _ => s

/-- R160: what becomes of the old work: its event, its timer, its seek context. -/
def endOldWork (r : Replacement) (s : State) : State :=
  (reportReplaced r s).mapTc fun tc => { tc with settle := stoppedSettle, seek := none }

/-- R160: the TC begins a tune. -/
def beginTune (b : Band) (channel : Nat) (tag : BitVec 16) (recalled : Option RecalledIdentity) (s : State) :
    State :=
  let s := (endOldWork .tune s).mapTc fun tc =>
    { tc with band := some b, channel := some channel, tag := some tag, recalled := recalled }
  beginRequest .tuneWrite (tuneNotice channel recalled (setTunerState .tuning s))

/-- R159, R160: a tune to a channel not yet snapped, and its result. -/
def acceptTune (b : Band) (channel : Nat) (recalled : Option RecalledIdentity) (s : State) : State :=
  let snapped := snapChannel b (s.tc.stepOf b) channel
  complete (if snapped = channel then .accepted else .clamped) (beginTune b snapped (busyTag s) recalled s)

/-- TUNE (R160). -/
def tuneEffect (band channel : Word) (s : State) : State :=
  match bandOf band.toNat with
  | none => complete .refusedRange s
  | some b => acceptTune b channel.toNat none s

/-- R158: the parameters of CONFIG_TUNER are in range. -/
def tunerConfigInRange (addr fmStep amStep : Word) : Bool :=
  decide (addr.toNat ≤ 127) && (decide (fmStep = 50) || decide (fmStep = 100) || decide (fmStep = 200))
    && (decide (amStep = 9) || decide (amStep = 10))

/-- The tuner is at work (R158): TUNING, SETTLING or SEEKING. -/
def tunerBusy (s : State) : Bool :=
  decide (s.tc.st = .tuning) || decide (s.tc.st = .settling) || decide (s.tc.st = .seeking)

/-- CONFIG_TUNER (R158), its checks in the order the rule lists them (log entry 53). -/
def configTunerEffect (addr fmStep amStep : Word) (s : State) : State :=
  if tunerConfigInRange addr fmStep amStep = false then complete .refusedRange s
  else if tunerBusy s then complete .refusedBusy s
  else
    complete .done (s.mapTc fun tc =>
      { tc with addr := addr.setWidth 7, fmStep := fmStep.toNat, amStep := amStep.toNat })

/-! ## Seeking (R163 to R166) -/

/-- R164: the candidate from a channel, and whether the step wrapped. -/
def seekCandidate (up : Bool) (b : Band) (step channel : Nat) : Nat × Bool :=
  if up then planAbove b step channel else planBelow b step channel

/-- R164: whether the seek has gone round the band, by the rule's tests. From a start channel outside the plan's
edges they let an edge channel be tuned twice, which its sentence on one try of each channel does not (DESIGN
CHOICE, log entry 62). -/
def goneRound (ctx : SeekContext) (candidate : Nat) (wraps : Bool) : Bool :=
  decide (candidate = ctx.start)
    || (ctx.wrapped && (wraps || (if ctx.up then decide (ctx.start < candidate) else decide (candidate < ctx.start))))

/-- R164, R165: a step of a seek begins: its candidate, or the return to the start channel. -/
def seekStep (s : State) : State :=
  match s.tc.seek, s.tc.band, s.tc.channel with
  | some ctx, some b, some c =>
    let cand := seekCandidate ctx.up b (s.tc.stepOf b) c
    let round := goneRound ctx cand.1 cand.2
    let channel := if round then ctx.start else cand.1
    let s := s.mapTc fun tc =>
      { tc with channel := some channel,
                seek := some { ctx with wrapped := ctx.wrapped || cand.2, returning := round } }
    beginRequest .tuneWrite (tuneNotice channel none s)
  | _, _, _ => s

/-- R163: an accepted seek. -/
def beginSeek (up : Bool) (threshold channel : Nat) (s : State) : State :=
  let tag := busyTag s
  let s := (endOldWork .seek s).mapTc fun tc =>
    { tc with tag := some tag, recalled := none,
              seek := some { up := up, threshold := threshold, start := channel, wrapped := false,
                             stopPending := false, returning := false } }
  seekStep (setTunerState .seeking s)

/-- SEEK (R163): direction UP 0, DOWN 1; its checks in the order the rule lists them (log entry 53). -/
def seekEffect (direction threshold : Word) (s : State) : State :=
  if 1 < direction.toNat then complete .refusedRange s
  else
    match s.tc.channel with
    | none => complete .refusedState s
    | some c =>
      if s.tc.st = .seeking then complete .refusedBusy s
      else
        complete (if 127 < threshold.toNat then .clamped else .accepted)
          (beginSeek (decide (direction = 0)) (min 127 threshold.toNat) c s)

/-- STOP_SEEK (R166). -/
def stopSeekEffect (s : State) : State :=
  match s.tc.st, s.tc.seek with
  | .seeking, some ctx =>
    if ctx.stopPending then complete .refusedState s
    else complete .accepted (s.mapTc fun tc => { tc with seek := some { ctx with stopPending := true } })
  | _, _ => complete .refusedState s

/-! ## The end of an attempt (R155, R161, R162, R165, R166) -/

/-- What a status read returned (R155, R162). -/
structure ReadOut where
  tuned : Bool
  stereo : Bool
  level : Nat
  quality : Nat
  deriving DecidableEq, Repr

/-- R155, R162: the two bytes of a status read, judged for a band. -/
def readOut (b : Band) (b0 b1 : Byte) : ReadOut :=
  let level := (b1.extractLsb' 0 7).toNat
  let multipath := (b0.extractLsb' 0 4).toNat
  { tuned := b0.getLsbD 7,
    stereo := match b with
      | .fm => b0.getLsbD 6
      | .am => false,
    level := level, quality := qualityOf b level multipath }

/-- The tuner state that a tuned flag leaves (R161, R165). -/
def lockedState (tuned : Bool) : TunerState := if tuned then .tuned else .untuned

/-- The work ends: no seek context and no work tag. -/
def endWork (s : State) : State := s.mapTc fun tc => { tc with seek := none, tag := none }

/-- R161 stage 4: a tune ends. -/
def endTune (b : Band) (r : ReadOut) (s : State) : State :=
  let s := setTunerState (lockedState r.tuned) s
  endWork
    (if r.tuned then
      raiseTuner .tuned (word2 (s.tc.channel.getD 0) b.code) (word2 r.quality r.stereo.toNat) s
    else raiseTuner .notLocked (channelWord s) (natWord r.level) s)

/-- R165, R166: a seek ends on its channel with this event. -/
def endSeek (c : TunerCode) (tuned : Bool) (d2 : Nat) (s : State) : State :=
  let s := setTunerState (lockedState tuned) s
  endWork (raiseTuner c (channelWord s) (natWord d2) s)

/-- R165: the status read of a seek step. -/
def endSeekStep (ctx : SeekContext) (r : ReadOut) (s : State) : State :=
  if ctx.returning then endSeek .seekFailed r.tuned r.quality s
  else if ctx.stopPending then endSeek .seekStopped r.tuned StopCause.stop.code s
  else if r.tuned ∧ ctx.threshold ≤ r.quality then endSeek .seekFound true r.quality s
  else seekStep s

/-- R161, R165: a status read succeeded. -/
def statusReadDone (b : Band) (b0 b1 : Byte) (s : State) : State :=
  let r := readOut b b0 b1
  let s := s.mapTc fun tc => { tc with quality := r.quality }
  match s.tc.st, s.tc.seek with
  | .settling, _ => endTune b r s
  | .seeking, some ctx => endSeekStep ctx r s
  | _, _ => s

/-- R161 stages 1 and 2: a tune write succeeded: the settle timer starts. -/
def tuneWriteDone (b : Band) (s : State) : State :=
  let s := s.mapTc fun tc => { tc with settle := { running := true, remaining := settleTime b } }
  if s.tc.st = .tuning then setTunerState .settling s else s

/-- R155: an attempt whose outcome counts succeeded. -/
def attemptSucceeded (r : LinkRequest) (b0 b1 : Byte) (s : State) : State :=
  let s := s.mapTc fun tc => { tc with link := .idle, retry := 0 }
  match r, s.tc.band with
  | .tuneWrite, some b => tuneWriteDone b s
  | .statusRead, some b => statusReadDone b b0 b1 s
  | _, none => s

/-- R155 to R157: the attempt in progress ends. -/
def attemptEnd (ack : Bool) (b0 b1 : Byte) (s : State) : State :=
  match s.tc.link with
  | .attempt a =>
    if a.discard then endDiscarded s
    else if ack then attemptSucceeded a.request b0 b1 s
    else attemptFailed a.request .nak s
  | _ => s

/-- LINK_ATTEMPT_END (R155). -/
def execLinkAttemptEnd (ack : Bool) (b0 b1 : Byte) (s : State) : Host.Outcome State Fault Refusal :=
  live (attemptEnd ack b0 b1) s

/-- R156: TUN_SCL stayed low for 25 ms, in an attempt or where a retry wishes to begin. -/
def attemptTimeout (s : State) : State :=
  match s.tc.link with
  | .attempt a => if a.discard then endDiscarded s else attemptFailed a.request .timeout s
  | .retry r => attemptFailed r .timeout s
  | .idle => s

/-- LINK_TIMEOUT (R156). -/
def execLinkTimeout (s : State) : Host.Outcome State Fault Refusal := live attemptTimeout s

/-- R156: TUN_SCL is seen high, and the same request begins again as a new attempt. -/
def retryBegins (s : State) : State :=
  match s.tc.link with
  | .retry r => if s.cu.quiesce then s else s.mapTc fun tc => { tc with link := .attempt (tc.attemptOf r) }
  | _ => s

/-- LINK_RETRY (R156). -/
def execLinkRetry (s : State) : Host.Outcome State Fault Refusal := live retryBegins s

/-- R161 stage 3: the settle timer expires, and the status read begins. -/
def settleExpiry (s : State) : State :=
  if s.tc.settle.running then beginRequest .statusRead (s.mapTc fun tc => { tc with settle := stoppedSettle })
  else s

/-- SETTLE_TIMER_EXPIRY (R161). -/
def execSettleTimerExpiry (s : State) : Host.Outcome State Fault Refusal := live settleExpiry s

/-! ## Presets (R168 to R170, R211) -/

/-- R168: the address of an entry. -/
def presetAddress (base : Nat) (entry : Fin 64) : Nat := base + 16 * entry.val

/-- R168: the address of the line that holds an entry. -/
def presetLineAddress (base : Nat) (entry : Fin 64) : Nat := base + 32 * (entry.val / 2)

/-- R39: the line that holds the entry. -/
def presetLock (base : Nat) (entry : Fin 64) : Lock :=
  { owner := .presetStore, startLine := presetLineAddress base entry / 32, lines := 1 }

/-- RECALL_PRESET (R169), up to the read of the entry. -/
def recallPresetEffect (entry : Word) (s : State) : State :=
  match finOf 64 entry with
  | none => complete .refusedRange s
  | some i =>
    match s.pu.regions.preset with
    | none => complete .refusedState s
    | some r => placeTransfer .control (readOf .presetRead (presetAddress r.base i) 4 none) (holdFor (.recall i) s)

/-- R169, R211: the entry has been read: its first two words are judged. -/
def recallEntry (w0 w1 : Word) (s : State) : State :=
  if w0.getLsbD 0 = false then complete .refusedEmpty s
  else
    match bandOf (byteOf w0 1).toNat with
    | none => complete .refusedRange s
    | some b =>
      acceptTune b (w0.extractLsb' 16 16).toNat
        (some { identity := w1.extractLsb' 0 16, known := w1.getLsbD 16 }) s

/-- STORE_PRESET (R170), up to the request for the lock. -/
def storePresetEffect (entry : Word) (s : State) : State :=
  match finOf 64 entry with
  | none => complete .refusedRange s
  | some i =>
    match s.pu.regions.preset with
    | none => complete .refusedState s
    | some r =>
      if s.tc.st = .tuned then requestLock (presetLock r.base i) (holdFor (.store i) s)
      else complete .refusedState s

/-- The entry that a store under way stores, with the base of the table. -/
def storeTarget (s : State) : Option (Nat × Fin 64) :=
  match s.cu.exec, s.pu.regions.preset with
  | .busy { work := .store i, .. }, some r => some (r.base, i)
  | _, _ => none

/-- R170 step 2: the lock is granted, and the read of the line is placed. -/
def presetGranted (s : State) : State :=
  match storeTarget s with
  | some (base, i) =>
    placeTransfer .control (readOf .storeRead (presetLineAddress base i) 8 (some .presetStore)) s
  | none => s

/-- R170 step 3, R211: the first two words of the stored entry. -/
def storedWords (s : State) : List Word :=
  [ word4 1 ((s.tc.band.map Band.code).getD 0) (s.tc.channel.getD 0) (s.tc.channel.getD 0 / 256),
    (s.sd.identity.getD 0xFFFF).setWidth 32 ||| (if s.sd.identity.isSome then 0x10000 else 0) ]

/-- R170 step 3: the line as read, with the entry's first eight bytes replaced. -/
def storedLine (s : State) (entry : Fin 64) (line : List Word) : List Word :=
  if entry.val % 2 = 0 then storedWords s ++ line.drop 2 else line.take 4 ++ storedWords s ++ line.drop 6

/-- R170 steps 3 and 4: the line has been read, and its write is placed. -/
def storeLineRead (line : List Word) (s : State) : State :=
  match storeTarget s with
  | some (base, i) =>
    placeTransfer .control
      (writeOf .storeWrite (presetLineAddress base i) (storedLine s i line) (some .presetStore)) s
  | none => s

/-! ## RESTART (R173, R200) -/

/-- R157, R200: RESTART is taken: an attempt in progress runs on with its outcome discarded, and a retry not
yet begun is dropped. -/
def quiesceLink (s : State) : State :=
  s.mapTc fun tc =>
    match tc.link with
    | .attempt a => { tc with link := .attempt { a with discard := true }, owed := false }
    | _ => { tc with link := .idle, owed := false }

end Sys2Proof.Machine
end

