-- ==== Sys2Proof/Machine/Path.lean ====
section
/-! DEFINITION. The Path Unit (02): classification, the processor port, range locks and the arbiter, with the
steps PROCESSOR_TRANSACTION, LOCK_GRANT, QUEUE_ROOM_FREED, ARBITER_GRANT and PROCESSOR_MEMORY_ANSWER. -/

namespace Sys2Proof.Machine

/-! ## Classification (R35) -/

/-- R35: the action of a beat. -/
inductive BeatAction where
  | forward
  | tap
  | guard
  deriving DecidableEq, Repr

/-- The word address of a beat of a line (R1). -/
def beatAddr (line : BitVec 23) (b : Beat) : Nat := 32 * line.toNat + 4 * b.off.toNat

/-- R35: the action of a write beat at an offset in CONTROL. -/
def controlAction (enabled : Bool) (off : Nat) : BeatAction :=
  if off < 0x10 then (if enabled then .guard else .tap)
  else if off < 0x28 then .tap
  else if off < 0x40 then .forward
  else if off < 0x90 then .guard
  else if off < 0xC0 then .forward
  else if off < 0x260 then .guard
  else .forward

/-- An address lies in a set region. -/
def inRegion (r : Option Range) (addr : Nat) : Bool :=
  match r with
  | none => false
  | some v => v.holds addr

/-- R35: the action of a write beat at an address. -/
def writeAction (enabled : Bool) (r : Regions) (addr : Nat) : BeatAction :=
  if (controlRange r).holds addr then controlAction enabled (addr - r.control)
  else if inRegion r.event addr || inRegion r.delay addr then .guard
  else .forward

/-- R35: the action of a beat of a transaction: a read beat is forwarded, and so is a write beat with no byte
enabled. -/
def beatAction (s : State) (tx : ProcTx) (b : Beat) : BeatAction :=
  if tx.write = false ∨ b.be = 0 then .forward
  else writeAction s.cu.enabled s.pu.regions (beatAddr tx.line b)

/-- R36: a write whose every enabled beat is guarded. -/
def allGuarded (s : State) (tx : ProcTx) : Bool :=
  tx.beats.any (fun b => decide (beatAction s tx b = .guard))
    && tx.beats.all (fun b => decide (b.be = 0) || decide (beatAction s tx b = .guard))

/-- R36: the guard drops beats, and the transaction raises one GUARD_WRITE at the first of them. -/
def guardFault (tx : ProcTx) (s : State) : State :=
  match tx.beats.find? (fun b => decide (beatAction s tx b = .guard)) with
  | none => s
  | some b => raiseFault .guardWrite (beatAddr tx.line b) s

/-- R36: the transaction as it is sent: the enables of guarded beats cleared. -/
def forwarded (s : State) (tx : ProcTx) : ProcTx :=
  { tx with beats := tx.beats.map fun b => if beatAction s tx b = .guard then { b with be := 0 } else b }

/-! ## The processor port (R34, R40) -/

/-- The processor port changed. -/
def mapProc (f : ProcPort → ProcPort) (s : State) : State := s.mapPu fun pu => { pu with proc := f pu.proc }

/-- R34: an answer is given to the processor. -/
def giveAnswer (a : Answer) (s : State) : State := mapProc (fun p => { p with answers := p.answers ++ [a] }) s

/-- R34, R36: the answer OK given at the port to a guarded write. -/
def answerGuarded (tx : ProcTx) (s : State) : State :=
  giveAnswer { ok := true, data := [] } (guardFault tx s)

/-- R40: a lock holds a transaction: it touches the line, in a direction the lock holds. -/
def Lock.stops (l : Lock) (tx : ProcTx) : Bool :=
  l.covers tx.line.toNat && (tx.write || decide (l.owner ≠ .outputFetch))

/-- R40: the sequence whose lock holds a transaction. -/
def stoppedBy (s : State) (tx : ProcTx) : Option Sequence :=
  (s.pu.locks.find? fun l => l.stops tx).map Lock.owner

/-- The three conditions of R34. -/
inductive Judgement where
  | held (owner : Sequence)
  | answered
  | waiting
  deriving DecidableEq, Repr

/-- R34: the condition of a transaction at the head; while RESET_N is low it is waiting (R54). -/
def judge (s : State) (tx : ProcTx) : Judgement :=
  if s.resetLow then .waiting
  else
    match stoppedBy s tx with
    | some o => .held o
    | none => if allGuarded s tx then .answered else .waiting

/-- R34: the transactions at the port, the first at the head: it is judged, and one answered at the port
gives way to the next. -/
def reachHead : List ProcTx → State → State
  | [], s => mapProc (fun p => { p with head := none, behind := [] }) s
  | tx :: rest, s =>
    match judge s tx with
    | .answered => reachHead rest (answerGuarded tx s)
    | .held o => mapProc (fun p => { p with head := some (tx, .held o), behind := rest }) s
    | .waiting => mapProc (fun p => { p with head := some (tx, .waiting), behind := rest }) s

/-- R34: the processor issues a transaction: it reaches the head of an empty port, or waits behind. -/
def issueTransaction (tx : ProcTx) (s : State) : State :=
  match s.pu.proc.head with
  | none => reachHead [tx] s
  | some _ => mapProc (fun p => { p with behind := p.behind ++ [tx] }) s

/-- A step of the Path Unit that goes on while RESET_N is low (R54): the pins alone are driven then. -/
def always (f : State → State) (s : State) : Host.Outcome State Fault Refusal :=
  .next (if s.resetLow then drivePins (f s) else finish (f s))

/-- PROCESSOR_TRANSACTION (R34). -/
def execProcessorTransaction (tx : ProcTx) (s : State) : Host.Outcome State Fault Refusal :=
  always (issueTransaction tx) s

/-- R34: the head has been answered, and the transaction behind it reaches the head. -/
def nextHead (s : State) : State := reachHead s.pu.proc.behind s

/-! ## Locks (R38 to R42) -/

/-- R42: the transaction held on a released lock is judged anew. -/
def rejudgeHead (o : Sequence) (s : State) : State :=
  match s.pu.proc.head with
  | some (tx, .held h) => if h = o then reachHead (tx :: s.pu.proc.behind) s else s
  | _ => s

/-- R42: a lock is released. -/
def releaseLock (o : Sequence) (s : State) : State :=
  rejudgeHead o (s.mapPu fun pu => { pu with locks := pu.locks.filter fun l => decide (l.owner ≠ o) })

/-- R38: a request can be granted: an entry is free, and no held entry covers a common line. -/
def lockFits (s : State) (l : Lock) : Bool :=
  decide (s.pu.locks.length < 4) && s.pu.locks.all (fun h => !l.overlaps h)

/-- R34: a waiting transaction becomes held when a lock that stops it is taken. -/
def holdWaiting (l : Lock) (s : State) : State :=
  match s.pu.proc.head with
  | some (tx, .waiting) =>
    if l.stops tx then mapProc (fun p => { p with head := some (tx, .held l.owner) }) s else s
  | _ => s

/-- R199: the two writes of the status block, the line at 0x0E0 first. -/
def statusTransfers (s : State) : List Transfer :=
  [ writeOf (.statusLine false) (controlAddr s 0xE0) (s.cu.status.copy.drop 8) (some .statusWrite),
    writeOf (.statusLine true) (controlAddr s 0xC0) (s.cu.status.copy.take 8) (some .statusWrite) ]

/-- R199: the status writer's lock is granted. -/
def statusGranted (s : State) : State := placeAll .control (statusTransfers s) s

/-- R38, R39: what each sequence does when its lock is granted. -/
def sequenceGranted (o : Sequence) (s : State) : State :=
  match o with
  | .outputFetch => fetchGranted s
  | .inputStore => storeGranted s
  | .statusWrite => statusGranted s
  | .textWrite => textGranted s
  | .presetStore => presetGranted s

/-- R38: a lock is entered in the table, from the head of the request list. -/
def enterLock (l : Lock) (s : State) : State :=
  s.mapPu fun pu => { pu with locks := pu.locks ++ [l], requests := pu.requests.drop 1 }

/-- R38: the request at the head of the list is granted, if it fits. -/
def lockGrantWork (s : State) : State :=
  match s.pu.requests with
  | [] => s
  | l :: _ => if lockFits s l then sequenceGranted l.owner (holdWaiting l (enterLock l s)) else s

/-- LOCK_GRANT (R38). -/
def execLockGrant (s : State) : Host.Outcome State Fault Refusal := live lockGrantWork s

/-- R43: a place of a queue is free, and the first transfer waiting for it is placed. -/
def queueRoom (q : Queue) (s : State) : State :=
  s.mapPu fun pu => { pu with queues := pu.queues.put q ((pu.queues.get q).takeWaiting (queueCapacity q)) }

/-- QUEUE_ROOM_FREED (R43). -/
def execQueueRoomFreed (q : Queue) (s : State) : Host.Outcome State Fault Refusal := live (queueRoom q) s

/-! ## The arbiter (R44, R45) -/

/-- R39: the queue of a locked sequence. -/
def sequenceQueue : Sequence → Queue
  | .outputFetch => .render
  | .inputStore => .input
  | .statusWrite => .control
  | .textWrite => .control
  | .presetStore => .control

/-- R41: the queue that a promoted lock serves ahead of everything else. -/
def promotedQueue (s : State) : Option Queue :=
  match s.pu.proc.head with
  | some (_, .held o) => some (sequenceQueue o)
  | _ => none

/-- A queue has a transfer waiting for a grant. -/
def queueWaiting (s : State) (q : Queue) : Bool := !(s.pu.queues.get q).items.isEmpty

/-- A part transfer waits for a grant. -/
def partWaiting (s : State) : Bool := queueWaiting s .render || queueWaiting s .input || queueWaiting s .control

/-- R44 case 3: the queue served in the ordinary order. -/
def ordinaryQueue (s : State) : Option Queue :=
  if queueWaiting s .render then some .render
  else if queueWaiting s .input then some .input
  else if queueWaiting s .control then some .control
  else none

/-- What the arbiter grants. -/
inductive Grant where
  | part (q : Queue)
  | processor (tx : ProcTx)
  | nothing
  deriving DecidableEq, Repr

/-- R44 cases 2 and 3. -/
def ordinaryGrant (s : State) : Grant :=
  let part : Grant := match ordinaryQueue s with
    | some q => .part q
    | none => .nothing
  match s.pu.proc.head with
  | some (tx, .waiting) => if partWaiting s && decide (s.pu.sliceH ≤ s.pu.runCount) then part else .processor tx
  | _ => part

/-- R44: the arbiter's choice. -/
def arbiterChoice (s : State) : Grant :=
  match promotedQueue s with
  | some q => if queueWaiting s q then .part q else ordinaryGrant s
  | none => ordinaryGrant s

/-- R44, R45: the head of a queue is granted. -/
def grantPart (q : Queue) (s : State) : State :=
  match (s.pu.queues.get q).items with
  | [] => s
  | t :: rest =>
    s.mapPu fun pu =>
      { pu with queues := pu.queues.put q { pu.queues.get q with items := rest }, port := .part t, runCount := 0 }

/-- R45: the run count at a grant to the processor. -/
def countRun (s : State) : State :=
  if partWaiting s then s.mapPu fun pu => { pu with runCount := pu.runCount + 1 } else s

/-- A processor transaction goes to memory. -/
def sendProcessor (tx : ProcTx) (s : State) : State :=
  (mapProc (fun p => { p with head := some (tx, .granted) }) s).mapPu fun pu => { pu with port := .processor tx }

/-- R37: the shadow word of a tapped beat, if the beat is tapped. -/
def tappedWord (s : State) (tx : ProcTx) (b : Beat) : Option (Fin 10) :=
  if beatAction s tx b = .tap then
    let n := (beatAddr tx.line b - s.pu.regions.control) / 4
    if h : n < 10 then some ⟨n, h⟩ else none
  else none

/-- R37: the tapped beats of a transaction with their words. -/
def tappedBeats (s : State) (tx : ProcTx) : List (Fin 10 × Beat) :=
  tx.beats.filterMap fun b => (tappedWord s tx b).map fun n => (n, b)

/-- R37: every tapped beat is merged, and then the words touched are handed over in address order. -/
def takeTaps (s : State) (tx : ProcTx) : State :=
  let taps := tappedBeats s tx
  let s := taps.foldl (fun s nb => mergeShadow nb.1 nb.2.data nb.2.be s) s
  taps.foldl (fun s nb => handOver nb.1 s) s

/-- R34 to R37, R45: the processor's transaction is granted and classified (log entry 28). -/
def grantProcessor (tx : ProcTx) (s : State) : State :=
  if s.resetLow then sendProcessor tx (countRun s)
  else if allGuarded s tx then nextHead (answerGuarded tx (countRun s))
  else takeTaps (guardFault tx (sendProcessor (forwarded s tx) (countRun s))) tx

/-- R44: the arbiter makes one grant on a free memory port. -/
def arbiterWork (s : State) : State :=
  if s.pu.port = .free then
    match arbiterChoice s with
    | .part q => grantPart q s
    | .processor tx => grantProcessor tx s
    | .nothing => s
  else s

/-- ARBITER_GRANT (R44). -/
def execArbiterGrant (s : State) : Host.Outcome State Fault Refusal := always arbiterWork s

/-! ## Memory's answer to the processor (R34) -/

/-- The memory port is free. -/
def freePort (s : State) : State := s.mapPu fun pu => { pu with port := .free }

/-- R34: the answer passed on unchanged: the words of a read, as many as its beats. -/
def answerOf (tx : ProcTx) (ok : Bool) (data : List Word) : Answer :=
  { ok := ok, data := if tx.write then [] else beatsOf tx.beats.length data }

/-- R34: memory answers the processor's transaction. -/
def processorAnswered (ok : Bool) (data : List Word) (s : State) : State :=
  match s.pu.port with
  | .processor tx => nextHead (giveAnswer (answerOf tx ok data) (freePort s))
  | _ => s

/-- PROCESSOR_MEMORY_ANSWER (R34). -/
def execProcessorMemoryAnswer (ok : Bool) (data : List Word) (s : State) :
    Host.Outcome State Fault Refusal :=
  always (processorAnswered ok data) s

end Sys2Proof.Machine
end

