-- ==== Sys2Proof/Machine/Restart.lean ====
section
/-! DEFINITION. RESTART (R200): the quiesce, and the RESTART values every unit takes. -/

namespace Sys2Proof.Machine

/-- RESTART (R200): the units quiesce, and the command waits. -/
def restartEffect (s : State) : State :=
  holdFor .restart (quiesceLink (s.mapCu fun cu => { cu with quiesce := true }))

/-- No link attempt is in progress (R200). -/
def linkIdle (s : State) : Bool :=
  match s.tc.link with
  | .attempt _ => false
  | _ => true

/-- R200: the queues are empty with no transfer of the part on the memory port, every lock is free, the lock
request list is empty, and no link attempt is in progress. -/
def partQuiet (s : State) : Bool :=
  s.pu.queues.all.isEmpty && s.pu.port.transfer.isNone && s.pu.locks.isEmpty && s.pu.requests.isEmpty && linkIdle s

/-- R55: the Path Unit's RESTART values. -/
def PathUnit.atRestart (pu : PathUnit) : PathUnit :=
  { pu with regions := { pu.regions with input := none, output := none, delay := none, preset := none },
            sliceH := 8, runCount := 0 }

/-- R71: the Ring Engine's RESTART values: the table's, the processor's indices, whatever a store that has just
completed made of the producer (log entry 48). -/
def restartRings (cu : CommandUnit) : RingEngine :=
  { RingEngine.reset with inProd := cu.inCons, outCons := cu.outProd }

/-- R29: the render clock free-runs, with its class and its stamp kept. -/
def ClockUnit.atRestart (c : ClockUnit) : ClockUnit := { c with following := false, own := false }

/-- R200: every unit takes its RESTART values. The amplifier protection keeps its own, and so do the ports but
for IN4's mark, which the tuner's leaving TUNED clears (R14, R167). -/
def restartValues (s : State) : State :=
  { s with pu := s.pu.atRestart, sc := SwitchUnit.reset, clock := s.clock.atRestart, re := restartRings s.cu,
           ru := RenderUnit.reset, du := DelayUnit.reset, ou := outputRestartValues s.ou,
           tc := TunerUnit.reset, sd := StationUnit.reset,
           ports := s.ports.set 4 { s.ports[4] with mark := false } }

/-- R200, R195: an index word write that the quiesce held back. -/
def releaseOwedWord (w : IndexWord) (s : State) : State :=
  if s.cu.words[w.place].again ∧ ¬ s.cu.words[w.place].inFlight then placeIndexWord w s else s

/-- R200, R48: a fault record write that the quiesce held back. -/
def releaseOwedRecord (s : State) : State :=
  if s.cu.faultWriter.again ∧ ¬ s.cu.faultWriter.inFlight then placeFaultRecord s else s

/-- R195: the part index words in order. -/
def indexWords : List IndexWord :=
  [.ringStatus, .commandHead, .eventProducer, .inputProducer, .outputConsumer, .eventsDropped]

/-- The quiesce ends, and the writes it held back are placed. -/
def endQuiesce (s : State) : State :=
  releaseOwedRecord (indexWords.foldl (fun s w => releaseOwedWord w s)
    (s.mapCu fun cu => { cu with quiesce := false }))

/-- R71: the two ring indices are written. -/
def writeRingIndices (s : State) : State := writeIndexWord .outputConsumer (writeIndexWord .inputProducer s)

/-- R200: the status block is written with the new image. -/
def writeNewImage (s : State) : State := beginStatusWrite (s.mapCu fun cu => { cu with image := statusImage s })

/-- R200: the restart is done: the ring indices are among the words the end of the quiesce writes, the
COMPLETION joins the events that waited, and event writing resumes. -/
def restartDone (s : State) : State :=
  writeNewImage (pumpEvents (complete .done (endQuiesce (writeRingIndices (restartValues s)))))

/-- R200: the part has quiesced. -/
def restartQuiescedWork (s : State) : State :=
  match s.cu.exec with
  | .busy { work := .restart, .. } => if partQuiet s then restartDone s else s
  | _ => s

/-- RESTART_QUIESCED (R200). -/
def execRestartQuiesced (s : State) : Host.Outcome State Fault Refusal := live restartQuiescedWork s

end Sys2Proof.Machine
end

