-- ==== Sys2Proof/Machine/Records.lean ====
section
/-! DEFINITION. The steps of the command records (R196, R208): each record, with its tag and parameter words,
is taken by the Command Unit and handed to the unit that owns it. -/

namespace Sys2Proof.Machine

/-- R196: a kind that names no command. -/
def unknownCommandEffect (s : State) : State := complete .unknownCommand s

/-- SET_REGION (R52). -/
def execSetRegion (tag : BitVec 16) (role clear base slots : Word) (s : State) :
    Host.Outcome State Fault Refusal :=
  live (takeRecord tag 0x01 (setRegionEffect role clear base slots)) s

/-- SET_ARBITER (R45). -/
def execSetArbiter (tag : BitVec 16) (h : Word) (s : State) : Host.Outcome State Fault Refusal :=
  live (takeRecord tag 0x02 (setArbiterEffect h)) s

/-- CLEAR_FAULT (R51). -/
def execClearFault (tag : BitVec 16) (s : State) : Host.Outcome State Fault Refusal :=
  live (takeRecord tag 0x03 clearFaultEffect) s

/-- RESTART (R200). -/
def execRestart (tag : BitVec 16) (s : State) : Host.Outcome State Fault Refusal :=
  live (takeRecord tag 0x04 restartEffect) s

/-- CONFIG_SOURCE (R17). -/
def execConfigSource (tag : BitVec 16) (id : BitVec 16) (valid : Bool) (port path : BitVec 16)
    (pref trim lipSync fallback hold : Word) (s : State) : Host.Outcome State Fault Refusal :=
  live (takeRecord tag 0x05 (configSourceEffect id valid port path pref trim lipSync fallback hold)) s

/-- SELECT_SOURCE (R20). -/
def execSelectSource (tag : BitVec 16) (target : Word) (s : State) : Host.Outcome State Fault Refusal :=
  live (takeRecord tag 0x06 (selectSourceEffect target)) s

/-- SET_VOLUME (R100). -/
def execSetVolume (tag : BitVec 16) (master mute : Word) (s : State) : Host.Outcome State Fault Refusal :=
  live (takeRecord tag 0x07 (setVolumeEffect master mute)) s

/-- CONFIG_SPEAKER (R91). -/
def execConfigSpeaker (tag : BitVec 16) (id presence distance trim lane slot pair : Word) (s : State) :
    Host.Outcome State Fault Refusal :=
  live (takeRecord tag 0x08 (configSpeakerEffect id presence distance trim lane slot pair)) s

/-- SET_CROSSOVER (R98). -/
def execSetCrossover (tag : BitVec 16) (freq : Word) (s : State) : Host.Outcome State Fault Refusal :=
  live (takeRecord tag 0x09 (setCrossoverEffect freq)) s

/-- SET_LANES (R126). -/
def execSetLanes (tag : BitVec 16) (mask0 mask1 : Word) (s : State) : Host.Outcome State Fault Refusal :=
  live (takeRecord tag 0x0A (setLanesEffect mask0 mask1)) s

/-- CONFIG_RECORD_OUT (R138). -/
def execConfigRecordOut (tag : BitVec 16) (source port w0 w1 w2 w3 : Word) (s : State) :
    Host.Outcome State Fault Refusal :=
  live (takeRecord tag 0x0B (configRecordOutEffect source port w0 w1 w2 w3)) s

/-- AMP_RECOVER (R147). -/
def execAmpRecover (tag : BitVec 16) (pair : Word) (s : State) : Host.Outcome State Fault Refusal :=
  live (takeRecord tag 0x0C (ampRecoverEffect pair)) s

/-- CONFIG_TUNER (R158). -/
def execConfigTuner (tag : BitVec 16) (addr fmStep amStep : Word) (s : State) :
    Host.Outcome State Fault Refusal :=
  live (takeRecord tag 0x0D (configTunerEffect addr fmStep amStep)) s

/-- TUNE (R160). -/
def execTune (tag : BitVec 16) (band channel : Word) (s : State) : Host.Outcome State Fault Refusal :=
  live (takeRecord tag 0x0E (tuneEffect band channel)) s

/-- SEEK (R163). -/
def execSeek (tag : BitVec 16) (direction threshold : Word) (s : State) :
    Host.Outcome State Fault Refusal :=
  live (takeRecord tag 0x0F (seekEffect direction threshold)) s

/-- STOP_SEEK (R166). -/
def execStopSeek (tag : BitVec 16) (s : State) : Host.Outcome State Fault Refusal :=
  live (takeRecord tag 0x10 stopSeekEffect) s

/-- RECALL_PRESET (R169). -/
def execRecallPreset (tag : BitVec 16) (entry : Word) (s : State) : Host.Outcome State Fault Refusal :=
  live (takeRecord tag 0x11 (recallPresetEffect entry)) s

/-- STORE_PRESET (R170). -/
def execStorePreset (tag : BitVec 16) (entry : Word) (s : State) : Host.Outcome State Fault Refusal :=
  live (takeRecord tag 0x12 (storePresetEffect entry)) s

/-- CONFIG_CAPTURE (R185). -/
def execConfigCapture (tag : BitVec 16) (slot enable typeMatch typeMask varMatch varMask : Word)
    (s : State) : Host.Outcome State Fault Refusal :=
  live (takeRecord tag 0x13 (configCaptureEffect slot enable typeMatch typeMask varMatch varMask)) s

/-- RELEASE_CAPTURE (R188). -/
def execReleaseCapture (tag : BitVec 16) (slot : Word) (s : State) : Host.Outcome State Fault Refusal :=
  live (takeRecord tag 0x14 (releaseCaptureEffect slot)) s

/-- UNKNOWN_COMMAND (R196). -/
def execUnknownCommand (tag kind : BitVec 16) (s : State) : Host.Outcome State Fault Refusal :=
  live (takeRecord tag kind unknownCommandEffect) s

/-- R196: what the owner of a command does with it; a step that is no command record has none. -/
def commandEffect (i : Instr) : State → State :=
  match i with
  | .setRegion _ role clear base slots => setRegionEffect role clear base slots
  | .setArbiter _ h => setArbiterEffect h
  | .clearFault _ => clearFaultEffect
  | .restart _ => restartEffect
  | .configSource _ id valid port path pref trim lipSync fallback hold => configSourceEffect id valid port path pref trim lipSync fallback hold
  | .selectSource _ target => selectSourceEffect target
  | .setVolume _ master mute => setVolumeEffect master mute
  | .configSpeaker _ id presence distance trim lane slot pair => configSpeakerEffect id presence distance trim lane slot pair
  | .setCrossover _ freq => setCrossoverEffect freq
  | .setLanes _ mask0 mask1 => setLanesEffect mask0 mask1
  | .configRecordOut _ source port w0 w1 w2 w3 => configRecordOutEffect source port w0 w1 w2 w3
  | .ampRecover _ pair => ampRecoverEffect pair
  | .configTuner _ addr fmStep amStep => configTunerEffect addr fmStep amStep
  | .tune _ band channel => tuneEffect band channel
  | .seek _ direction threshold => seekEffect direction threshold
  | .stopSeek _ => stopSeekEffect
  | .recallPreset _ entry => recallPresetEffect entry
  | .storePreset _ entry => storePresetEffect entry
  | .configCapture _ slot enable typeMatch typeMask varMatch varMask => configCaptureEffect slot enable typeMatch typeMask varMatch varMask
  | .releaseCapture _ slot => releaseCaptureEffect slot
  | .unknownCommand _ _ => unknownCommandEffect
  | .hardResetAssert => id
  | .hardResetRelease _ => id
  | .processorTransaction _ => id
  | .arbiterGrant => id
  | .processorMemoryAnswer _ _ => id
  | .partTransferAnswer _ _ => id
  | .lockGrant => id
  | .queueRoomFreed _ => id
  | .ringEnable _ => id
  | .ringDisable _ => id
  | .commandTailWrite _ _ => id
  | .eventConsumerWrite _ _ => id
  | .inputRingConsumerWrite _ _ => id
  | .outputRingProducerWrite _ _ => id
  | .interruptEnableWrite _ _ => id
  | .anchorWordWrite _ _ _ => id
  | .setRegionDrained => id
  | .restartQuiesced => id
  | .rateWindowEnd => id
  | .portFrame _ _ _ => id
  | .freeRunBoundary => id
  | .followTimeout => id
  | .holdTimerExpiry => id
  | .laneFrame _ => id
  | .recordFrame => id
  | .linkAttemptEnd _ _ _ => id
  | .linkTimeout => id
  | .linkRetry => id
  | .settleTimerExpiry => id
  | .searchWindow => id
  | .probeWindow => id
  | .syncBlock => id
  | .ampFaultSample _ => id
  | .stationDataBit _ => id

end Sys2Proof.Machine
end

