-- ==== Sys2Proof/Machine/Answers.lean ====
section
/-! DEFINITION. Memory's answers to the part's own transfers (R46, R47): what the Path Unit and the requester
do at OK and at ERROR. -/

namespace Sys2Proof.Machine

/-! ## The command fetch (R196) -/

/-- R196: the record is read, and the command is taken. -/
def commandTaken (words : List Word) (s : State) : State :=
  commandEffect (decodeCommand words) (beginCommand (recordTag words) (recordKind words) s)

/-- R196, R193: the fetch read completed OK; a fetch begun before a disable is discarded. -/
def fetchEnded (words : List Word) (s : State) : State :=
  if s.cu.fetchDiscard then discardFetch s else commandTaken words s

/-- R196: the record could not be read: FAILED with tag 0, and a kind that R196 does not state (log entry
9). -/
def fetchFailed (s : State) : State :=
  if s.cu.fetchDiscard then discardFetch s
  else complete .failed ({ beginCommand 0 (Config.freeKind s.freeUsed) s with freeUsed := s.freeUsed + 1 })

/-! ## Event writes (R197, R50) -/

/-- R197: an event record is in memory: the producer rises, its word is written, and the next event is
taken. -/
def eventWritten (s : State) : State :=
  match s.cu.evWrite with
  | none => s
  | some e =>
    let s := s.mapCu fun cu => { cu with evWrite := none }
    pumpEvents
      (if e.stale then s
       else followEventWrite (s.mapCu fun cu => { cu with evProd := cu.evProd + 1 }))

/-- R197: an event record could not be written: the event is dropped and counted. -/
def eventFailed (s : State) : State := pumpEvents (dropEvent (s.mapCu fun cu => { cu with evWrite := none }))

/-- R50: the event whose write this is reports a failed event write itself. -/
def eventOfEventWrite (s : State) : Bool :=
  match s.cu.evWrite with
  | none => false
  | some e => e.event.ofEventWrite

/-! ## Fetched slots (R64) -/

/-- R64 step 2: the header read completed. -/
def fetchHeaderRead (data : List Word) (s : State) : State :=
  match s.re.fetch with
  | .fetching j =>
    let header := data.getD 0 0
    if goodChannelCount (byteOf header 0).toNat then placeSampleReads j header s
    else fetchBad j (releaseLock .outputFetch s)
  | _ => s

/-- R64 step 3: a sample read completed; after the last the lock is released and the slot is COMPLETE. -/
def fetchSamplesRead (data : List Word) (s : State) : State :=
  match s.re.fetch with
  | .fetching j =>
    let j := { j with words := j.words ++ data, left := j.left - 1 }
    let s := s.mapRe fun re => { re with fetch := .fetching j }
    if j.left = 0 then endFetch j.discard (.complete (fetchedBlock j)) (releaseLock .outputFetch s) else s
  | _ => s

/-! ## OK -/

/-- The last line of a status write ended (R199). -/
def statusLineWritten (last : Bool) (s : State) : State :=
  if last then statusWriteEnded (releaseLock .statusWrite s) else s

/-- The last line of a text write ended (R184). -/
def textLineWritten (last : Bool) (s : State) : State :=
  if last then textEnded (releaseLock .textWrite s) else s

/-- R46: memory answered a part transfer OK, and the requester goes on. -/
def transferDone (t : Transfer) (data : List Word) (s : State) : State :=
  match t.requester with
  | .commandFetch => fetchEnded data s
  | .eventWrite => eventWritten s
  | .indexWord w => indexWordEnded w s
  | .faultRecord => faultRecordEnded s
  | .statusLine last => statusLineWritten last s
  | .textLine last => textLineWritten last s
  | .captureRecord _ => s
  | .presetRead => recallEntry (data.getD 0 0) (data.getD 1 0) s
  | .storeRead => storeLineRead data s
  | .storeWrite => complete .done (releaseLock .presetStore s)
  | .inputLine => s
  | .inputHeader => releaseLock .inputStore s
  | .inputProducer => storeEnded s
  | .fetchHeader => fetchHeaderRead data s
  | .fetchSamples => fetchSamplesRead data s
  | .delayWrite _ => s
  | .delayRead i g start => delayReadEnded i g start (some data) s

/-! ## ERROR (R46, R47) -/

/-- R46, R50: the fault of a failed transfer: none for the write of the event that reports a failed event
write. -/
def transferFault (t : Transfer) (s : State) : State :=
  if t.requester = .eventWrite then
    if eventOfEventWrite s then s else raiseFaultMarked true .partMemoryError t.addr s
  else raiseFault .partMemoryError t.addr s

/-- R47: the transfers of a sequence not yet granted are removed from its queue. -/
def removeSequence (o : Sequence) (s : State) : State :=
  let q := sequenceQueue o
  s.mapPu fun pu =>
    { pu with queues := pu.queues.put q
                ((pu.queues.get q).filter fun t => decide (t.sequence ≠ some o)) }

/-- R47, R42: a sequence is aborted, and its lock released. -/
def abortSequence (sq : Option Sequence) (s : State) : State :=
  match sq with
  | none => s
  | some o => releaseLock o (removeSequence o s)

/-- R47: what the requester does at a failure. -/
def transferFailed (t : Transfer) (s : State) : State :=
  match t.requester with
  | .commandFetch => fetchFailed s
  | .eventWrite => eventFailed s
  | .indexWord w => indexWordEnded w s
  | .faultRecord => faultRecordEnded s
  | .statusLine _ => statusWriteAborted s
  | .textLine _ => textAborted s
  | .captureRecord _ => s
  | .presetRead => complete .failed s
  | .storeRead => complete .failed s
  | .storeWrite => complete .failed s
  | .inputLine => storeAborted s
  | .inputHeader => storeAborted s
  | .inputProducer => storeAborted s
  | .fetchHeader => fetchAborted s
  | .fetchSamples => fetchAborted s
  | .delayWrite _ => s
  | .delayRead i g start => delayReadEnded i g start none s

/-- R46, R47: memory answered a part transfer ERROR. -/
def transferError (t : Transfer) (s : State) : State :=
  transferFailed t (abortSequence t.sequence (transferFault t s))

/-- R46, R54: memory answers the part transfer on the port; the answer of one cut off by RESET_N is
discarded. -/
def partAnswered (ok : Bool) (data : List Word) (s : State) : State :=
  match s.pu.port with
  | .part t =>
    if ok then transferDone t (beatsOf t.beats data) (freePort s) else transferError t (freePort s)
  | .orphan _ => freePort s
  | _ => s

/-- PART_TRANSFER_ANSWER (R46). -/
def execPartTransferAnswer (ok : Bool) (data : List Word) (s : State) : Host.Outcome State Fault Refusal :=
  always (partAnswered ok data) s

end Sys2Proof.Machine
end

