-- ==== Sys2Proof/Machine/Boundary.lean ====
section
/-! DEFINITION. The block boundary (R5, R29): what every unit does at it, in order (log entry 14), and the
steps FREE_RUN_BOUNDARY and FOLLOW_TIMEOUT. -/

namespace Sys2Proof.Machine

/-- The block a port's completion offers at a boundary. -/
structure OfferedBlock where
  port : Fin 6
  frames : List Frame
  deriving DecidableEq, Repr

/-- R73: a DIRECT input block: the block the port offers at this completion, or zero samples. -/
def directInput (offered : Option OfferedBlock) (port : Fin 6) : HostedBlock :=
  match offered with
  | some b =>
    if b.port = port then { channels := portChannels port, frames := b.frames, disc := false, last := false }
    else HostedBlock.silence (portChannels port)
  | none => HostedBlock.silence (portChannels port)

/-- R73: the input block of a live feed. -/
def liveInput (offered : Option OfferedBlock) (hosted : Option HostedBlock) (src : Source) (s : State) :
    HostedBlock :=
  match s.sc.path with
  | .direct => directInput offered src.port
  | .hosted => hosted.getD (HostedBlock.silence s.ru.heldCount)

/-- R73: the input block of a boundary. -/
def inputBlock (offered : Option OfferedBlock) (hosted : Option HostedBlock) (s : State) : HostedBlock :=
  match connectedSource s with
  | some src => if s.sc.feed then liveInput offered hosted src s else HostedBlock.silence s.ru.heldCount
  | none => HostedBlock.silence s.ru.heldCount

/-- R72 stages 1 to 4: the input block taken and decoded. -/
def renderDecode (offered : Option OfferedBlock) (hosted : Option HostedBlock) (s : State) :
    RenderBlock × State :=
  decodeBlock (s.sc.feed && s.sc.connected.isSome) (inputBlock offered hosted s) s

/-- R72 stage 6, R99: fold, bass management, the marks to the AP, and the level stage. -/
def renderLevel (b : RenderBlock) (s : State) : HandOn × State :=
  let r := bassBlock (foldBlock s b) s
  levelStage r.1 (ampUpdate r.1.marks r.2)

/-- The work of every unit at a block boundary whose stamp is already in force. -/
def boundaryWork (offered : Option OfferedBlock) (s : State) : State :=
  let ring := ringBoundary (switchBefore (takeLatches s))
  let decoded := renderDecode offered ring.1 ring.2
  let main := mainFold decoded.1
  let level := renderLevel decoded.1 decoded.2
  let delay := delayBoundary level.1 (switchAfter decoded.2 level.2)
  outputBoundary delay.1 main delay.2

/-- R5: the block stamp rises at a boundary, whether it is the clock's own, and the boundary is made. -/
def clockBoundary (own : Bool) (s : State) : State :=
  boundaryWork none
    (s.mapClock fun c => { c with stamp := wrapSucc c.stamp, own := own || c.own })

/-- R29: a boundary of the free-running clock, or the next of the clock's own boundaries while it follows a
port that has gone quiet (log entry 19). -/
def freeRun (s : State) : State :=
  if s.clock.following ∧ ¬ s.clock.own then s else clockBoundary false s

/-- FREE_RUN_BOUNDARY (R29). -/
def execFreeRunBoundary (s : State) : Host.Outcome State Fault Refusal := live freeRun s

/-- R29: the followed port gave no completion within 40 frame periods. -/
def followTimeout (s : State) : State := if s.clock.following then clockBoundary true s else s

/-- FOLLOW_TIMEOUT (R29). -/
def execFollowTimeout (s : State) : Host.Outcome State Fault Refusal := live followTimeout s

end Sys2Proof.Machine
end

