-- ==== Sys2Proof/Machine/Ports.lean ====
section
/-! DEFINITION. The input ports (01 section 1.1): rate measurement and lock, frames and blocks, the format, and
the steps RATE_WINDOW_END and PORT_FRAME. -/

namespace Sys2Proof.Machine

/-! ## Lock (R10, R11, R16) -/

/-- R11: the lock state and the miss mark after a window with this result. -/
def lockStep (p : PortState) (r : WindowResult) : LockState × Bool :=
  match p.lock, r with
  | .noSignal, .low => (.noSignal, false)
  | .noSignal, _ => (.measuring, false)
  | .measuring, .low => (.noSignal, false)
  | .measuring, .cls c => (if p.candidate = some (.cls c) then .locked c else .measuring, false)
  | .measuring, .out => (if p.candidate = some .out then .unsupported else .measuring, false)
  | .unsupported, .low => (.noSignal, false)
  | .unsupported, .cls _ => (.measuring, false)
  | .unsupported, .out => (.unsupported, false)
  | .locked c, .low => if p.miss then (.noSignal, false) else (.locked c, true)
  | .locked c, .cls d =>
    if d = c then (.locked c, false) else if p.miss then (.measuring, false) else (.locked c, true)
  | .locked c, .out => if p.miss then (.measuring, false) else (.locked c, true)

/-- A PORT event of a port (R16). -/
def raisePort (p : Fin 6) (c : PortCode) (d1 d2 : Nat) (s : State) : State :=
  raiseEvent (.port c) (BitVec.ofNat 16 p.val) (natWord d1) (natWord d2) s

/-- R58: the served source plays this port. -/
def servedOnPort (s : State) (p : Fin 6) : Bool := (servedSource s).isSome && connectedOnPort s p

/-- R58: the run of blocks of a port is broken; it matters to the Ring Engine if it serves the port. -/
def breakRun (p : Fin 6) (s : State) : State := if servedOnPort s p then markDiscontinuity s else s

/-- R11, R12, R15, R16, R24, R136: a port has left LOCKED. -/
def portLost (p : Fin 6) (had : RateClass) (s : State) : State :=
  let s := s.mapPort p fun q => { q with filling := [], change := false, mark := false }
  let s := raisePort p .lost had.code s.ports[p].lock.code s
  let s := linkLosesPort p (breakRun p s)
  if connectedOnPort s p then loseSignal .signal s else s

/-- R12, R16, R25: a port has entered LOCKED. -/
def portLocked (p : Fin 6) (c : RateClass) (s : State) : State :=
  let s := s.mapPort p fun q => { q with filling := [], mark := false }
  let s := raisePort p .locked c.code s.ports[p].format.code s
  if connectedOnPort s p then regain c s else s

/-- R11, R16: what a change of a port's lock state sets off. -/
def lockChanged (p : Fin 6) (count : Nat) (before after : LockState) (s : State) : State :=
  match before, after with
  | .locked _, .locked _ => s
  | .locked c, _ => portLost p c s
  | _, .locked c => portLocked p c s
  | .unsupported, .unsupported => s
  | _, .unsupported => raisePort p .unsupported count 0 s
  | _, _ => s

/-- R10, R11: the window of one port ends. -/
def portWindow (p : Fin 6) (s : State) : State :=
  let q := s.ports[p]
  let r := classify q.windowCount
  let next := lockStep q r
  lockChanged p q.windowCount q.lock next.1
    (s.mapPort p fun q =>
      { q with lock := next.1, miss := next.2, candidate := some r, windowCount := 0 })

/-- R10: the measurement window ends for all six ports. The rules give no order among them; the model judges
IN0 to IN5 in turn (log entry 46). -/
def windowEnd (s : State) : State :=
  portIds.foldl (fun s p => portWindow p s) (s.mapClock fun c => { c with windowPos := 0 })

/-- RATE_WINDOW_END (R10). -/
def execRateWindowEnd (s : State) : Host.Outcome State Fault Refusal := live windowEnd s

/-! ## Blocks (R12 to R15) -/

/-- R14: IN4's mark after a frame: set at a block's first frame and kept while the tuner is TUNED. -/
def frameMark (p : Fin 6) (settled : Bool) (q : PortState) : Bool :=
  decide (p = 4) && settled && (q.filling.isEmpty || q.mark)

/-- R12: the port is LOCKED. -/
def LockState.isLocked : LockState → Bool
  | .locked _ => true
  | _ => false

/-- R9, R10, R12: a frame is counted and, in LOCKED, joins the block being assembled. -/
def takeFrame (p : Fin 6) (bits : List Bool) (s : State) : State :=
  let settled := tunerSettled s
  s.mapPort p fun q =>
    if q.lock.isLocked then
      { q with windowCount := q.windowCount + 1, mark := frameMark p settled q,
               filling := q.filling ++ [frameOfBits (portChannels p) bits] }
    else { q with windowCount := q.windowCount + 1 }

/-- R15: the format on an FMT line. -/
def formatOnLine (fmt : Bool) : Format := if fmt then .encoded else .pcm

/-- R15, R20a: a port's format changes. -/
def changeFormat (p : Fin 6) (f : Format) (cls : RateClass) (s : State) : State :=
  let s := raisePort p .formatChanged f.code cls.code
    (s.mapPort p fun q => { q with format := f, change := false })
  match connectedSource s with
  | some src => if src.port = p then formatChanged src f s else s
  | none => s

/-- R15: the FMT line is sampled at a block completion. -/
def sampleFormat (p : Fin 6) (fmt : Bool) (cls : RateClass) (s : State) : State :=
  let f := formatOnLine fmt
  if s.ports[p].format = f then s.mapPort p fun q => { q with change := false }
  else if s.ports[p].change then changeFormat p f cls s
  else s.mapPort p fun q => { q with change := true }

/-- R29: whether a completion of this port is a block boundary: the connected source plays the port, which is
LOCKED at the class in force, or at any class in ACQUIRE, and a radio source's tuner is TUNED; until it is, a
change of class waits (log entry 47). -/
def completionIsBoundary (p : Fin 6) (cls : RateClass) (s : State) : Bool :=
  match connectedSource s with
  | none => false
  | some src =>
    decide (src.port = p) && (decide (cls = s.clock.cls) || decide (s.sc.st = .acquire))
      && (!src.isRadio || tunerSettled s)

/-- R29: the clock follows this completion: in ACQUIRE another class is taken with an output restart, the
clock follows, and the block stamp rises. -/
def followCompletion (cls : RateClass) (s : State) : State :=
  let s := if cls = s.clock.cls then s else outputRestart cls s
  s.mapClock fun c => { c with stamp := wrapSucc c.stamp, following := true, own := false }

/-- R13: the halves of the capture buffer exchange roles. -/
def swapHalves (p : Fin 6) (s : State) : State :=
  s.mapPort p fun q => { q with offered := some q.filling, filling := [], mark := false }

/-- R14, R58: the block goes to the Ring Engine if it serves the port. -/
def offerToRing (p : Fin 6) (cls : RateClass) (frames : List Frame) (s : State) : State :=
  match servedSource s with
  | some i => if connectedOnPort s p then offerToStore i p cls s.ports[p].format frames s else s
  | none => s

/-- R14, R135: the block goes to the record link if it is set to this port. -/
def offerToLink (p : Fin 6) (cls : RateClass) (frames : List Frame) (s : State) : State :=
  if s.ou.link.source = .port p then takePortBlock cls s.ports[p].format frames s else s

/-- R14: the completed block is offered to its consumers, or discarded at IN4. -/
def offerBlock (discarded : Bool) (p : Fin 6) (cls : RateClass) (frames : List Frame) (s : State) : State :=
  if discarded then breakRun p s else offerToLink p cls frames (offerToRing p cls frames s)

/-- R12 to R15, R29: a block completion; its order is log entry 15. -/
def completeBlock (p : Fin 6) (cls : RateClass) (fmt : Bool) (s : State) : State :=
  let frames := s.ports[p].filling
  let discarded := decide (p = 4) && !s.ports[p].mark
  let boundary := completionIsBoundary p cls s
  let s := if boundary then followCompletion cls s else s
  let s := offerBlock discarded p cls frames (sampleFormat p fmt cls (swapHalves p s))
  if boundary then boundaryWork (if discarded then none else some { port := p, frames := frames }) s else s

/-- R9, R12: one frame at a port, and the block it completes. -/
def portFrameWork (p : Fin 6) (bits : List Bool) (fmt : Bool) (s : State) : State :=
  let s := takeFrame p bits s
  match s.ports[p].lock with
  | .locked c => if s.ports[p].filling.length = 32 then completeBlock p c fmt s else s
  | _ => s

/-- PORT_FRAME (R9). -/
def execPortFrame (p : Fin 6) (bits : List Bool) (fmt : Bool) (s : State) :
    Host.Outcome State Fault Refusal :=
  live (portFrameWork p bits fmt) s

end Sys2Proof.Machine
end

