-- ==== Sys2Proof/Machine/Reset.lean ====
section
/-! DEFINITION. Hard reset (R54): RESET_N falls, and RESET_N rises. -/

namespace Sys2Proof.Machine

/-- R54: a part transfer on the memory port runs on to an answer that is discarded. -/
def MemPort.cutOff : MemPort → MemPort
  | .part t => .orphan t
  | p => p

/-- R54: a held processor transaction becomes waiting. -/
def ProcPort.unheld (p : ProcPort) : ProcPort :=
  { p with head := match p.head with
      | some (tx, .held _) => some (tx, .waiting)
      | h => h }

/-- R54: the Path Unit while RESET_N is low: no lock, no queue, no request. -/
def PathUnit.inReset (pu : PathUnit) : PathUnit :=
  { pu with locks := [], requests := [], queues := Queues.empty, port := pu.port.cutOff,
            proc := pu.proc.unheld }

/-- R129: the lanes are held low. -/
def Lane.inReset (l : Lane) : Lane := { l with running := false }

/-- R129, R139: the lanes and REC_OUT are held low. -/
def OutputUnit.inReset (ou : OutputUnit) : OutputUnit :=
  { ou with lanes := Vector.ofFn fun i => ou.lanes[i].inReset, link := { ou.link with level := false, sent := [] } }

/-- R172: an attempt on the tuner link is cut off, and its lines released. -/
def TunerUnit.inReset (tc : TunerUnit) : TunerUnit := { tc with link := .idle, owed := false }

/-- R54, R129, R139, R172: RESET_N falls. The other values of the units stand until it rises, out of sight
(log entry 11). -/
def assertReset (s : State) : State :=
  drivePins { s with resetLow := true, pu := s.pu.inReset, ou := s.ou.inReset, tc := s.tc.inReset }

/-- HARD_RESET_ASSERT (R54). -/
def execHardResetAssert (s : State) : Host.Outcome State Fault Refusal := .next (assertReset s)

/-- R54: RESET_N rises, with these straps sampled; it is a rise only when RESET_N was low. -/
def releaseReset (cb : BitVec 8) (s : State) : State :=
  if s.resetLow then State.afterReset cb s.pu.port s.pu.proc s.pending s.freeUsed else s

/-- HARD_RESET_RELEASE (R54). -/
def execHardResetRelease (cb : BitVec 8) (s : State) : Host.Outcome State Fault Refusal :=
  .next (releaseReset cb s)

end Sys2Proof.Machine
end

