-- ==== Sys2Proof/Machine/Dispatch.lean ====
section
/-! DEFINITION. The dispatch of every step of the table to its meaning. -/

namespace Sys2Proof.Machine

def exec (i : Instr) (s : State) : Host.Outcome State Fault Refusal :=
  match i with
  | .hardResetAssert => Sys2Proof.Machine.execHardResetAssert s
  | .hardResetRelease cb => Sys2Proof.Machine.execHardResetRelease cb s
  | .processorTransaction tx => Sys2Proof.Machine.execProcessorTransaction tx s
  | .arbiterGrant => Sys2Proof.Machine.execArbiterGrant s
  | .processorMemoryAnswer ok data => Sys2Proof.Machine.execProcessorMemoryAnswer ok data s
  | .partTransferAnswer ok data => Sys2Proof.Machine.execPartTransferAnswer ok data s
  | .lockGrant => Sys2Proof.Machine.execLockGrant s
  | .queueRoomFreed q => Sys2Proof.Machine.execQueueRoomFreed q s
  | .ringEnable upper => Sys2Proof.Machine.execRingEnable upper s
  | .ringDisable upper => Sys2Proof.Machine.execRingDisable upper s
  | .commandTailWrite w be => Sys2Proof.Machine.execCommandTailWrite w be s
  | .eventConsumerWrite w be => Sys2Proof.Machine.execEventConsumerWrite w be s
  | .inputRingConsumerWrite w be => Sys2Proof.Machine.execInputRingConsumerWrite w be s
  | .outputRingProducerWrite w be => Sys2Proof.Machine.execOutputRingProducerWrite w be s
  | .interruptEnableWrite w be => Sys2Proof.Machine.execInterruptEnableWrite w be s
  | .anchorWordWrite off w be => Sys2Proof.Machine.execAnchorWordWrite off w be s
  | .setRegion tag role clear base slots => Sys2Proof.Machine.execSetRegion tag role clear base slots s
  | .setRegionDrained => Sys2Proof.Machine.execSetRegionDrained s
  | .setArbiter tag h => Sys2Proof.Machine.execSetArbiter tag h s
  | .clearFault tag => Sys2Proof.Machine.execClearFault tag s
  | .restart tag => Sys2Proof.Machine.execRestart tag s
  | .restartQuiesced => Sys2Proof.Machine.execRestartQuiesced s
  | .configSource tag id valid port path pref trim lipSync fallback hold => Sys2Proof.Machine.execConfigSource tag id valid port path pref trim lipSync fallback hold s
  | .selectSource tag target => Sys2Proof.Machine.execSelectSource tag target s
  | .setVolume tag master mute => Sys2Proof.Machine.execSetVolume tag master mute s
  | .configSpeaker tag id presence distance trim lane slot pair => Sys2Proof.Machine.execConfigSpeaker tag id presence distance trim lane slot pair s
  | .setCrossover tag freq => Sys2Proof.Machine.execSetCrossover tag freq s
  | .setLanes tag mask0 mask1 => Sys2Proof.Machine.execSetLanes tag mask0 mask1 s
  | .configRecordOut tag source port w0 w1 w2 w3 => Sys2Proof.Machine.execConfigRecordOut tag source port w0 w1 w2 w3 s
  | .ampRecover tag pair => Sys2Proof.Machine.execAmpRecover tag pair s
  | .configTuner tag addr fmStep amStep => Sys2Proof.Machine.execConfigTuner tag addr fmStep amStep s
  | .tune tag band channel => Sys2Proof.Machine.execTune tag band channel s
  | .seek tag direction threshold => Sys2Proof.Machine.execSeek tag direction threshold s
  | .stopSeek tag => Sys2Proof.Machine.execStopSeek tag s
  | .recallPreset tag entry => Sys2Proof.Machine.execRecallPreset tag entry s
  | .storePreset tag entry => Sys2Proof.Machine.execStorePreset tag entry s
  | .configCapture tag slot enable typeMatch typeMask varMatch varMask => Sys2Proof.Machine.execConfigCapture tag slot enable typeMatch typeMask varMatch varMask s
  | .releaseCapture tag slot => Sys2Proof.Machine.execReleaseCapture tag slot s
  | .unknownCommand tag kind => Sys2Proof.Machine.execUnknownCommand tag kind s
  | .rateWindowEnd => Sys2Proof.Machine.execRateWindowEnd s
  | .portFrame port bits fmt => Sys2Proof.Machine.execPortFrame port bits fmt s
  | .freeRunBoundary => Sys2Proof.Machine.execFreeRunBoundary s
  | .followTimeout => Sys2Proof.Machine.execFollowTimeout s
  | .holdTimerExpiry => Sys2Proof.Machine.execHoldTimerExpiry s
  | .laneFrame lane => Sys2Proof.Machine.execLaneFrame lane s
  | .recordFrame => Sys2Proof.Machine.execRecordFrame s
  | .linkAttemptEnd ack b0 b1 => Sys2Proof.Machine.execLinkAttemptEnd ack b0 b1 s
  | .linkTimeout => Sys2Proof.Machine.execLinkTimeout s
  | .linkRetry => Sys2Proof.Machine.execLinkRetry s
  | .settleTimerExpiry => Sys2Proof.Machine.execSettleTimerExpiry s
  | .searchWindow => Sys2Proof.Machine.execSearchWindow s
  | .probeWindow => Sys2Proof.Machine.execProbeWindow s
  | .syncBlock => Sys2Proof.Machine.execSyncBlock s
  | .ampFaultSample pair => Sys2Proof.Machine.execAmpFaultSample pair s
  | .stationDataBit bit => Sys2Proof.Machine.execStationDataBit bit s

end Sys2Proof.Machine
end

