-- ==== Sys2Proof/Safety.lean ====
section
/-! DEFINITION. What claims about the part are stated in: the state a report never touches, and the
properties that every run of the part keeps. -/

namespace Sys2Proof.Machine

/-- Everything in the state that no report touches. A report is what a unit sends out of the part: an event,
an index word, the fault record, the status block, a transfer placed in a queue, a lock asked for, a command
completed, a pin driven. -/
structure Kept where
  pending : List Instr
  freeUsed : Nat
  resetLow : Bool
  regions : Regions
  shadow : Vector Word 10
  locks : List Lock
  port : MemPort
  proc : ProcPort
  sliceH : Nat
  runCount : Nat
  enabled : Bool
  ringStatus : RingStatus
  tail : Index
  evCons : Index
  inCons : Index
  outProd : Index
  irqEnable : Bool
  quiesce : Bool
  ports : Vector PortState 6
  sc : SwitchUnit
  clock : ClockUnit
  re : RingEngine
  ru : RenderUnit
  du : DelayUnit
  ou : OutputUnit
  ap : Vector Pair 4
  tc : TunerUnit
  sd : StationUnit
  deriving DecidableEq, Repr

/-- What a state holds besides its reports. -/
def State.kept (s : State) : Kept :=
  { pending := s.pending, freeUsed := s.freeUsed, resetLow := s.resetLow, regions := s.pu.regions,
    shadow := s.pu.shadow, locks := s.pu.locks, port := s.pu.port, proc := s.pu.proc, sliceH := s.pu.sliceH,
    runCount := s.pu.runCount, enabled := s.cu.enabled, ringStatus := s.cu.ringStatus, tail := s.cu.tail,
    evCons := s.cu.evCons, inCons := s.cu.inCons, outProd := s.cu.outProd, irqEnable := s.cu.irqEnable,
    quiesce := s.cu.quiesce, ports := s.ports, sc := s.sc, clock := s.clock, re := s.re, ru := s.ru, du := s.du,
    ou := s.ou, ap := s.ap, tc := s.tc, sd := s.sd }

/-- R49, R145, R198: the pins carry the levels that go with the state. -/
def State.pinsFollow (s : State) : Prop := s.pins = pinLevels s

/-- R199: while RESET_N is high the status image holds what the units hold. -/
def State.imageCurrent (s : State) : Prop := s.resetLow = false → s.cu.image = statusImage s

/-- R38: at most four locks are held, and no two cover a common line. -/
def State.locksApart (s : State) : Prop :=
  s.pu.locks.length ≤ 4 ∧ s.pu.locks.Pairwise fun a b => a.overlaps b = false

/-- R43: no queue holds more transfers than its capacity. -/
def State.queuesFit (s : State) : Prop :=
  ∀ q : Queue, (s.pu.queues.get q).items.length ≤ queueCapacity q

/-- R45: the slice lies in 1..64 and the run count in 0..64. -/
def State.arbiterInRange (s : State) : Prop :=
  1 ≤ s.pu.sliceH ∧ s.pu.sliceH ≤ 64 ∧ s.pu.runCount ≤ 64

/-- R197: the pending event list holds at most 32 events. -/
def State.eventsFit (s : State) : Prop := s.cu.pendingEvents.length ≤ 32

/-- R38, R43, R45, R197: the tables, queues and counts of the memory path and the event list are within their
bounds. -/
def State.pathSound (s : State) : Prop := s.locksApart ∧ s.queuesFit ∧ s.arbiterInRange ∧ s.eventsFit

/-- The command unit is ready for a record: RESET_N is high and no command is being fetched or run. -/
def State.ready (s : State) : Prop := s.resetLow = false ∧ s.cu.exec = .idle

/-- The rings are enabled, no event waits or is being written, the event ring has room, and no RESTART is
under way: an event raised now is the next one written. -/
def State.eventRoom (s : State) : Prop :=
  s.cu.enabled = true ∧ s.cu.quiesce = false ∧ s.cu.evWrite = none ∧ s.cu.pendingEvents = []
    ∧ eventRingFull s = false

/-! ## Commands that complete at once (R196) -/

/-- R197: the event a unit raises in this state, stamped with the boundary in force. -/
def eventNow (s : State) (name : EventName) (subject : BitVec 16) (d1 d2 : Word) : Event :=
  { name := name, subject := subject, stamp := s.clock.stamp, d1 := d1, d2 := d2, ofEventWrite := false }

/-- R196, R208: the COMPLETION event of a command record taken in this state. -/
def completionEvent (s : State) (tag kind : BitVec 16) (r : ResultCode) : Event :=
  eventNow s .completion tag (natWord r.code) (word2 kind.toNat s.cu.head.toNat)

/-- R196, R208: the COMPLETION event of a command that holds the Command Unit. -/
def busyCompletion (s : State) (b : Busy) (r : ResultCode) : Event :=
  eventNow s .completion b.tag (natWord r.code) (word2 b.kind.toNat b.index.toNat)

/-- R197: the events on their way to the event ring: the one being written, and those that wait. -/
def State.eventsOut (s : State) : List Event :=
  s.cu.evWrite.toList.map EventWrite.event ++ s.cu.pendingEvents

/-- A transfer that a completion itself may place: the event, the head or the dropped count, the next fetch. -/
def isCompletionTransfer (t : Transfer) : Bool :=
  match t.requester with
  | .eventWrite => true
  | .indexWord w => decide (w = .commandHead) || decide (w = .eventsDropped)
  | .commandFetch => true
  | _ => false

/-- `t` is `s` after a command record that was taken, completed at once with this result, and raised no event
but its COMPLETION, as far as the reports go: what `State.kept` leaves out, but for the status block and the pins,
which `State.imageCurrent` and `State.pinsFollow` give. -/
def State.completedAtOnce (s t : State) (tag kind : BitVec 16) (r : ResultCode) : Prop :=
  t.cu.head = s.cu.head + 1
    ∧ (t.cu.exec = .idle ∨ t.cu.exec = .fetching)
    ∧ (s.eventRoom →
        t.cu.evWrite = some { event := completionEvent s tag kind r, stale := false }
          ∧ t.cu.pendingEvents = [] ∧ t.cu.evDropped = s.cu.evDropped)
    ∧ (s.cu.enabled = false →
        t.cu.evWrite = s.cu.evWrite ∧ t.cu.pendingEvents = s.cu.pendingEvents
          ∧ t.cu.evDropped = s.cu.evDropped + 1)
    ∧ t.cu.evProd = s.cu.evProd
    ∧ t.pu.faultRec = s.pu.faultRec ∧ t.cu.faultWriter = s.cu.faultWriter
    ∧ t.pu.queues.render = s.pu.queues.render ∧ t.pu.queues.input = s.pu.queues.input
    ∧ ∃ ts : List Transfer, t.pu.queues.control.all = s.pu.queues.control.all ++ ts
        ∧ ∀ x ∈ ts, isCompletionTransfer x = true

/-! ## What a boundary of the clock's own leaves -/

/-- R29: a FREE_RUN_BOUNDARY step makes a boundary: the clock free-runs, or goes on by itself after a
FOLLOW_TIMEOUT. -/
def State.freeBoundary (s : State) : Prop :=
  s.resetLow = false ∧ (s.clock.following = false ∨ s.clock.own = true)

/-- R5, R29: a command that makes a boundary in the class in force: a boundary of the clock's own, a
FOLLOW_TIMEOUT while the clock follows, or the PORT_FRAME that completes a block of the connected source's port, LOCKED
at the class in force, with the tuner TUNED for a radio source. -/
def State.boundaryBy (s : State) (cmd : Instr) : Prop :=
  s.resetLow = false ∧
    match cmd with
    | .freeRunBoundary => s.freeBoundary
    | .followTimeout => s.clock.following = true
    | .portFrame p _ _ =>
      s.ports[p].lock = .locked s.clock.cls ∧ s.ports[p].filling.length = 31
        ∧ (∃ i, s.sc.connected = some i ∧ s.sc.table[i].port = p) ∧ (p = 4 → s.tc.st = .tuned)
    | _ => False

/-- R29: a boundary that the render clock makes itself. -/
def clocksOwn (cmd : Instr) : Bool :=
  match cmd with
  | .freeRunBoundary => true
  | .followTimeout => true
  | _ => false

/-- R29: whether the clock follows a port once the boundary falls: at a completion it does. -/
def State.followsAt (s : State) (cmd : Instr) : Bool :=
  match cmd with
  | .portFrame _ _ _ => true
  | _ => s.clock.following

/-- R29: whether the clock makes its own boundaries while it follows: after a FOLLOW_TIMEOUT, until a completion. -/
def State.ownAt (s : State) (cmd : Instr) : Bool :=
  match cmd with
  | .portFrame _ _ _ => false
  | .followTimeout => true
  | _ => s.clock.own

/-- R13, R14: the block that a completion offers at its boundary; IN4 offers none that its mark does not cover. -/
def State.offeredAt (s : State) (cmd : Instr) : Option (List Frame) :=
  match cmd with
  | .portFrame p bits _ =>
    if p = 4 ∧ s.ports[p].mark = false then none
    else some (s.ports[p].filling ++ [frameOfBits (if p = 0 then 8 else 2) bits])
  | _ => none

/-- R15: the format of a port once a completion has sampled its line. -/
def State.formatAt (s : State) (cmd : Instr) (p : Fin 6) : Format :=
  match cmd with
  | .portFrame q _ fmt =>
    if p = q ∧ s.ports[q].change = true then (if fmt then .encoded else .pcm) else s.ports[p].format
  | _ => s.ports[p].format

/-- R15: the completion changes the format of the connected source's port. -/
def State.formatMoves (s : State) (cmd : Instr) : Bool :=
  match s.sc.connected with
  | none => false
  | some i => decide (s.formatAt cmd s.sc.table[i].port ≠ s.ports[s.sc.table[i].port].format)

/-- R20a: the format of an AUTO source changes. -/
def State.autoMoves (s : State) (cmd : Instr) : Bool :=
  match s.sc.connected with
  | none => false
  | some i => s.formatMoves cmd && decide (s.sc.table[i].path = .auto)

/-- R20a: the signal of a source on the DIRECT path that is not AUTO becomes ENCODED. -/
def State.directLost (s : State) (cmd : Instr) : Bool :=
  match s.sc.connected with
  | none => false
  | some i =>
    s.formatMoves cmd && decide (s.sc.table[i].path ≠ .auto) && decide (s.sc.path = .direct)
      && decide (s.formatAt cmd s.sc.table[i].port = .encoded)

/-- R20, R20a: the boundary finds the Switch Controller in DRAIN, which an AUTO source's change of format enters. -/
def State.drainsAt (s : State) (cmd : Instr) : Bool :=
  decide (s.sc.st = .drain) || (decide (s.sc.st ≠ .idle) && decide (s.sc.st ≠ .acquire) && s.autoMoves cmd)

/-- R20, R20a: the target of the DRAIN that the boundary finds: the pending one, or the AUTO source itself. -/
def State.drainTarget (s : State) : Target :=
  if s.sc.st = .drain then s.sc.target
  else
    match s.sc.connected with
    | some i => .source i
    | none => .none

/-- R21: the boundary from `s` to `t` makes a connect: one that was requested, or one at mute reached in DRAIN. -/
def State.connectsAt (s : State) (cmd : Instr) (t : State) : Prop :=
  (s.sc.st = .idle ∧ s.sc.connectRequest = true)
    ∨ (s.sc.st = .acquire ∧ (s.sc.connectRequest = true ∨ s.autoMoves cmd = true))
    ∨ (s.drainsAt cmd = true ∧ ∀ i : Fin 8, t.ru.levels[i].applied = 192)

/-- R19: the switch-mute as the level stage of the boundary from `s` to `t` finds it: raised in DRAIN, and otherwise
as the state then entered has it. -/
def State.mutedAt (s : State) (cmd : Instr) (t : State) : Bool :=
  s.drainsAt cmd
    || (if s.sc.st = .playing ∨ s.sc.st = .playRamp then s.directLost cmd
        else decide (t.sc.st ≠ .playRamp) && decide (t.sc.st ≠ .playing))

/-- R58: what the Ring Engine holds before the boundary from `s` to `t`: a completion has offered its block, which
may have changed the store and the drops. -/
def State.ringOffered (s : State) (cmd : Instr) (t : State) : RingEngine :=
  if clocksOwn cmd then s.re
  else
    { s.re with store := t.re.store, disc := t.re.disc, pendingDrops := t.re.pendingDrops,
                dropRun := t.re.dropRun, dropped := t.re.dropped }

/-- R30, R70: an event that the boundary raises, with the stamp of that boundary: at a boundary of the clock's own no
event comes before it. -/
def State.raisesAt (s : State) (cmd : Instr) (t : State) (e : Event) : Prop :=
  s.eventRoom →
    { e with stamp := s.clock.stamp + 1 } ∈ t.eventsOut
      ∧ (clocksOwn cmd = true → t.eventsOut.head? = some { e with stamp := s.clock.stamp + 1 })

/-- R101: the target attenuation of a speaker at the boundary from `s` to `t`, under the switch-mute or not: the
settings are those before the boundary, and the pair states those its update left. -/
def targetAt (muted : Bool) (s t : State) (i : Fin 8) : Nat :=
  let sp := s.ru.speakers[i]
  if sp.presence = .absent ∨ s.ru.mute = true ∨ muted = true ∨ s.ru.levels[i].dip = .down then 192
  else
    min 192 (s.ru.master + sp.trim
      + (match s.sc.connected with
        | some k => s.sc.table[k].trim
        | none => 0)
      + match sp.pair with
        | some p => if t.ap[p].st = .derate then 12 else 0
        | none => 0)

/-! ## Link attempts -/

/-- R155: a tune write: the address byte with the direction write, the band byte and the two channel bytes. -/
def tuneWriteOf (addr : BitVec 7) (b : Band) (channel : Nat) : Attempt :=
  { request := .tuneWrite,
    sends := [addr ++ (0 : BitVec 1), if b = .fm then 0x00 else 0x01,
              (BitVec.ofNat 16 channel).extractLsb' 8 8, (BitVec.ofNat 16 channel).extractLsb' 0 8],
    acks := [], discard := false }

/-- R155: a status read: the address byte with the direction read, an acknowledge after the first byte read and
none after the second. -/
def statusReadOf (addr : BitVec 7) : Attempt :=
  { request := .statusRead, sends := [addr ++ (1 : BitVec 1)], acks := [true, false], discard := false }

/-! ## Ranges of the units' values -/

/-- R140, R143, R144: a pair's counter lies in 0..256, and its state is the one its counter gives, RECOVERING
standing at 256 like SHUTDOWN. -/
def Pair.sound (p : Pair) : Prop :=
  p.counter ≤ 256 ∧ (p.st = .recovering ∧ p.counter = 256 ∨ p.st = pairStateOf p.counter)

/-- R140, R144: every amplifier pair is sound. -/
def State.pairsSound (s : State) : Prop := ∀ p : Fin 4, s.ap[p].sound

/-- R90, R98, R100, R101: the render's settings and attenuations lie in their ranges. -/
def State.levelsInRange (s : State) : Prop :=
  s.ru.master ≤ 191
    ∧ (s.ru.crossover = 60 ∨ s.ru.crossover = 80 ∨ s.ru.crossover = 100 ∨ s.ru.crossover = 120)
    ∧ (∀ i : Fin 8, s.ru.levels[i].applied ≤ 192)
    ∧ ∀ i : Fin 8, s.ru.speakers[i].distance ≤ 300 ∧ s.ru.speakers[i].trim ≤ 24

end Sys2Proof.Machine
end

