-- ==== Sys2Proof/WellFormed.lean ====
section
/-! DEFINITION. What an operand must satisfy for a command to be one the block can be given. -/

namespace Sys2Proof

/-- R1: the beats of a transaction stand at increasing word addresses. -/
def beatsRising : List Beat → Bool
  | [] => true
  | [_] => true
  | a :: b :: rest => decide (a.off < b.off) && beatsRising (b :: rest)

/-- R1: 1 to 8 beats, at increasing word addresses (the line is one by construction). -/
def ProcTx.wellFormed (tx : ProcTx) : Bool :=
  decide (1 ≤ tx.beats.length) && decide (tx.beats.length ≤ 8) && beatsRising tx.beats

/-- R208: a kind code that names a command. -/
def knownKind (kind : BitVec 16) : Bool := decide (1 ≤ kind.toNat) && decide (kind.toNat ≤ 0x14)

/-- Well-formed commands. A parameter word out of range is no ill-formed command: its own rule answers
it. A frame's data line gives at most the bits the slots of its port hold, or more that R9 ignores. -/
def Instr.wellFormed : Instr → Bool
  | .processorTransaction tx => tx.wellFormed
  | .partTransferAnswer _ data => decide (data.length ≤ 8)
  | .processorMemoryAnswer _ data => decide (data.length ≤ 8)
  | .unknownCommand _ kind => !knownKind kind
  | .hardResetAssert => true
  | .hardResetRelease _ => true
  | .arbiterGrant => true
  | .lockGrant => true
  | .queueRoomFreed _ => true
  | .ringEnable _ => true
  | .ringDisable _ => true
  | .commandTailWrite _ _ => true
  | .eventConsumerWrite _ _ => true
  | .inputRingConsumerWrite _ _ => true
  | .outputRingProducerWrite _ _ => true
  | .interruptEnableWrite _ _ => true
  | .anchorWordWrite _ _ _ => true
  | .setRegion _ _ _ _ _ => true
  | .setRegionDrained => true
  | .setArbiter _ _ => true
  | .clearFault _ => true
  | .restart _ => true
  | .restartQuiesced => true
  | .configSource _ _ _ _ _ _ _ _ _ _ => true
  | .selectSource _ _ => true
  | .setVolume _ _ _ => true
  | .configSpeaker _ _ _ _ _ _ _ _ => true
  | .setCrossover _ _ => true
  | .setLanes _ _ _ => true
  | .configRecordOut _ _ _ _ _ _ _ => true
  | .ampRecover _ _ => true
  | .configTuner _ _ _ _ => true
  | .tune _ _ _ => true
  | .seek _ _ _ => true
  | .stopSeek _ => true
  | .recallPreset _ _ => true
  | .storePreset _ _ => true
  | .configCapture _ _ _ _ _ _ _ => true
  | .releaseCapture _ _ => true
  | .rateWindowEnd => true
  | .portFrame _ _ _ => true
  | .freeRunBoundary => true
  | .followTimeout => true
  | .holdTimerExpiry => true
  | .laneFrame _ => true
  | .recordFrame => true
  | .linkAttemptEnd _ _ _ => true
  | .linkTimeout => true
  | .linkRetry => true
  | .settleTimerExpiry => true
  | .searchWindow => true
  | .probeWindow => true
  | .syncBlock => true
  | .ampFaultSample _ => true
  | .stationDataBit _ => true

end Sys2Proof
end

