-- ==== Sys2Proof/Certificates/Slice0/Obligations.lean ====
section
/-! DEFINITION. The statements for the provers. -/

open Sys2Proof Sys2Proof.Machine

/-! ## The queue of commands and the whole step -/

/-- A step runs the command at the front of the queue on the state with the queue's rest. -/
def Obligations.StepRunsFrontCommand : Prop :=
  ∀ (c : Instr) (rest : List Instr) (s : State), s.pending = c :: rest →
    step s = exec c { s with pending := rest }

/-- With no command waiting, one REF_CLK period passes (the model's choice, log entry 1): the two timers count
when they run, the window position moves on, and nothing else changes; while RESET_N is low nothing does. -/
def Obligations.IdleStepPassesOnePeriod : Prop :=
  ∀ s : State, s.pending = [] → ∃ t, step s = .next t
    ∧ (s.resetLow = true → t = s)
    ∧ (s.resetLow = false →
        t = { s with sc := t.sc, tc := t.tc, clock := t.clock }
        ∧ t.clock = { s.clock with windowPos := (s.clock.windowPos + 1) % 24576 }
        ∧ t.sc = { s.sc with timer := t.sc.timer }
        ∧ t.sc.timer = { s.sc.timer with
            remaining := s.sc.timer.remaining
              - (if s.sc.timer.running = true ∧ s.sc.timer.suspended = false then 1 else 0) }
        ∧ t.tc = { s.tc with settle := t.tc.settle }
        ∧ t.tc.settle = { s.tc.settle with
            remaining := s.tc.settle.remaining - (if s.tc.settle.running = true then 1 else 0) })

/-- Every command answers a next state: it leaves the rest of the queue alone, and only the two reset steps
move RESET_N. -/
def Obligations.EveryCommandAnswersAndKeepsQueue : Prop :=
  ∀ (i : Instr) (s : State), ∃ t, exec i s = .next t ∧ t.pending = s.pending
    ∧ t.resetLow = (match i with
        | .hardResetAssert => true
        | .hardResetRelease _ => false
        | _ => s.resetLow)

/-- While RESET_N is low no step of the units changes anything; only the two edges of RESET_N, the processor's
traffic, the arbiter and memory's answers go on. R54 and R201 say so of taps, transfers, pins and the processor's
port; of the units' other steps it is DEDUCED (log entry 2). -/
def Obligations.ResetLowHoldsTheUnits : Prop :=
  ∀ (i : Instr) (s : State), s.resetLow = true →
    exec i s = .next s ∨ i = .hardResetAssert ∨ (∃ cb, i = .hardResetRelease cb)
      ∨ (∃ tx, i = .processorTransaction tx) ∨ i = .arbiterGrant
      ∨ (∃ ok d, i = .processorMemoryAnswer ok d) ∨ ∃ ok d, i = .partTransferAnswer ok d

/-- R49, R145, R198: every step keeps the pins at the levels that go with the state. -/
def Obligations.StepKeepsPinsFollowing : Prop :=
  ∀ s t : State, s.pinsFollow → step s = .next t → t.pinsFollow

/-- R199, R205: every step keeps the status image equal to what the units hold; that recovery progress is no part of
it is the model's choice (log entry 64). -/
def Obligations.StepKeepsImageCurrent : Prop :=
  ∀ s t : State, s.imageCurrent → step s = .next t → t.imageCurrent

/-- R38, R43, R45, R197: every step keeps the lock table, the queues, the arbiter's counts and the pending event
list within their bounds. -/
def Obligations.StepKeepsPathSound : Prop :=
  ∀ s t : State, s.pathSound → step s = .next t → t.pathSound

/-- R90, R98, R100, R101, R140, R143, R144: every step keeps each amplifier pair's state the one its stress counter
gives, and the render's settings and applied attenuations in their ranges. -/
def Obligations.StepKeepsPairsAndLevelsInRange : Prop :=
  (∀ s t : State, s.pairsSound → step s = .next t → t.pairsSound)
  ∧ (∀ s t : State, s.levelsInRange → step s = .next t → t.levelsInRange)

/-- The state after reset has every invariant above. -/
def Obligations.ResetMeetsTheInvariants : Prop :=
  State.reset.pinsFollow ∧ State.reset.imageCurrent ∧ State.reset.pathSound ∧ State.reset.pairsSound
    ∧ State.reset.levelsInRange

/-! ## Records (R208) -/

/-- R208: a record written for a well-formed command decodes to that command. -/
def Obligations.DecodeOfEncodeIsTheCommand : Prop :=
  ∀ (i : Instr) (ws : List Word), i.wellFormed = true → encodeCommand i = some ws → decodeCommand ws = i

/-- R196: when the read of a command slot completes OK, the part does what the row of the record's command does
in a state whose memory port is free and whose Command Unit is idle. -/
def Obligations.FetchedRecordRunsAsItsCommand : Prop :=
  ∀ (s : State) (tr : Transfer) (data : List Word), s.resetLow = false → s.pu.port = .part tr →
    tr.requester = .commandFetch → s.cu.fetchDiscard = false →
    exec (.partTransferAnswer true data) s =
      exec (decodeCommand (beatsOf tr.beats data))
        ((s.mapPu fun pu => { pu with port := .free }).mapCu fun cu => { cu with exec := .idle })

/-! ## Command records that complete at once

Each statement starts in a ready state (RESET_N high, no command being fetched or run). `State.completedAtOnce`
gives the head, the COMPLETION event and the transfers; the equation of `kept` gives the new values and says that
no other unit changes. -/

/-- R45, R98, R100, R196: SET_ARBITER, SET_VOLUME and SET_CROSSOVER, the coefficient of each class and frequency, and
the values that hard reset and RESTART give: slice 8 and run count 0, master 80 with MUTE set, crossover 80 Hz. -/
def Obligations.SettingCommandsWriteTheirValues : Prop :=
  (∀ (s : State) (tag : BitVec 16) (h : Word), s.ready → ∃ t, exec (.setArbiter tag h) s = .next t
     ∧ t.kept = { s.kept with
         sliceH := if h.toNat = 0 then 1 else if 64 < h.toNat then 64 else h.toNat }
     ∧ s.completedAtOnce t tag 0x02 (if h.toNat = 0 ∨ 64 < h.toNat then .clamped else .done))
  ∧ (∀ (s : State) (tag : BitVec 16) (master mute : Word), s.ready →
    ∃ t, exec (.setVolume tag master mute) s = .next t
      ∧ t.kept = { s.kept with ru := { s.ru with
          master := if 191 < master.toNat then 191 else master.toNat, mute := mute.getLsbD 0 } }
      ∧ t.cu.image = statusImage t
      ∧ s.completedAtOnce t tag 0x07 (if 191 < master.toNat then .clamped else .done))
  ∧ (∀ (s : State) (tag : BitVec 16) (f : Word), s.ready →
    ∃ t, exec (.setCrossover tag f) s = .next t
      ∧ (if f.toNat = 60 ∨ f.toNat = 80 ∨ f.toNat = 100 ∨ f.toNat = 120 then
          t.kept = { s.kept with ru := { s.ru with crossover := f.toNat } } ∧ s.completedAtOnce t tag 0x09 .done
        else t.kept = s.kept ∧ s.completedAtOnce t tag 0x09 .refusedRange))
  ∧ [RateClass.k32, .k44, .k48, .k88, .k96].map (fun c => [60, 80, 100, 120].map (crossoverAlpha c))
      = [[384, 511, 637, 763], [279, 371, 464, 555], [256, 341, 426, 511], [140, 186, 233, 279],
         [128, 171, 214, 256]]
  ∧ (∀ cb port proc q n,
      (let t := State.afterReset cb port proc q n
       t.pu.sliceH = 8 ∧ t.pu.runCount = 0 ∧ t.ru.master = 80 ∧ t.ru.mute = true ∧ t.ru.crossover = 80))
  ∧ ∀ s : State,
    (let t := restartValues s
     t.pu.sliceH = 8 ∧ t.pu.runCount = 0 ∧ t.ru.master = 80 ∧ t.ru.mute = true ∧ t.ru.crossover = 80)

/-- R51: CLEAR_FAULT on an EMPTY record changes nothing, and on a LATCHED one empties it, drives ALERT_N high and
writes the empty record. With a write of it in flight one more is owed (R48), and so it is, with none in flight,
while RESTART quiesces the part (DEDUCED from R200, log entry 32). -/
def Obligations.ClearFaultEmptiesRecord : Prop :=
  ∀ (s : State) (tag : BitVec 16), s.ready → ∃ t, exec (.clearFault tag) s = .next t
    ∧ t.kept = s.kept ∧ t.pu.faultRec = none ∧ t.pins.alertN = true ∧ t.cu.head = s.cu.head + 1
    ∧ (s.pu.faultRec = none → s.completedAtOnce t tag 0x03 .done)
    ∧ (s.pu.faultRec.isSome = true → s.eventRoom →
        t.cu.evWrite = some { event := completionEvent s tag 0x03 .done, stale := false })
    ∧ (s.pu.faultRec.isSome = true → s.cu.faultWriter.inFlight = true →
        t.cu.faultWriter = { inFlight := true, again := true })
    ∧ (s.pu.faultRec.isSome = true → s.cu.faultWriter.inFlight = false → s.cu.quiesce = true →
        t.cu.faultWriter = { inFlight := false, again := true })
    ∧ (s.pu.faultRec.isSome = true → s.cu.faultWriter.inFlight = false → s.cu.quiesce = false →
        t.cu.faultWriter = { inFlight := true, again := false }
          ∧ writeOf .faultRecord (s.pu.regions.control + 0x80) [0, 0, 0, 0] none ∈ t.pu.queues.control.all)

/-- R17: CONFIG_SOURCE on an entry that is neither connected nor the pending target: with the valid flag set it
writes the entry, its quantities brought into range, and with the flag clear it clears the entry. R20: SELECT_SOURCE
accepted, by switch state; NONE in IDLE completes DONE and changes nothing. -/
def Obligations.SourceCommandsSetTableAndTarget : Prop :=
  (∀ (s : State) (tag id port path : BitVec 16) (pref trim lip fb hold : Word) (i : Fin 8) (p : Fin 6)
     (c : PathChoice) (d : Preference) (f : Option (Fin 8)),
     s.ready → s.sc.connected ≠ some i → s.sc.target ≠ .source i → id.toNat = i.val → port.toNat = p.val →
     pathOf path.toNat = some c → preferenceOf pref.toNat = some d →
     (match f with
       | none => fb = 0xFFFFFFFF
       | some j => fb.toNat = j.val) →
     ∃ t, exec (.configSource tag id true port path pref trim lip fb hold) s = .next t
       ∧ t.kept = { s.kept with sc := { s.sc with
           table := s.sc.table.set i
             ({ valid := true, port := p, path := c, preference := d, trim := min 24 trim.toNat,
                lipSync := min 100 lip.toNat, fallback := f, holdTime := min 100 hold.toNat } : Source) } }
       ∧ s.completedAtOnce t tag 0x05
           (if 24 < trim.toNat ∨ 100 < lip.toNat ∨ 100 < hold.toNat then .clamped else .done))
  ∧ (∀ (s : State) (tag id port path : BitVec 16) (pref trim lip fb hold : Word) (i : Fin 8),
     s.ready → s.sc.connected ≠ some i → s.sc.target ≠ .source i → id.toNat = i.val →
     ∃ t, exec (.configSource tag id false port path pref trim lip fb hold) s = .next t
       ∧ t.kept = { s.kept with sc := { s.sc with
           table := s.sc.table.set i
             ({ valid := false, port := 0, path := .direct, preference := .stereo, trim := 0, lipSync := 0,
                fallback := none, holdTime := 0 } : Source) } }
       ∧ s.completedAtOnce t tag 0x05 .done)
  ∧ (∀ (s : State) (tag : BitVec 16) (w : Word) (x : Target), s.ready →
     (match x with
       | .absent => False
       | .none => w = 0xFFFFFFFF
       | .source i => w.toNat = i.val ∧ s.sc.table[i].valid = true) →
     ∃ t, exec (.selectSource tag w) s = .next t
       ∧ t.kept = { s.kept with sc :=
           match s.sc.st with
           | .idle => if x = .none then s.sc else { s.sc with target := x, connectRequest := true }
           | .acquire => { s.sc with target := x, connectRequest := true,
                                     timer := { running := false, remaining := 0, suspended := false } }
           | .drain => { s.sc with target := x }
           | _ => { s.sc with st := .drain, target := x, cause := none,
                              timer := { running := false, remaining := 0, suspended := false } } }
       ∧ s.completedAtOnce t tag 0x06 (if s.sc.st = .idle ∧ x = .none then .done else .accepted))

/-- R91, R92, R104, R118: CONFIG_SPEAKER writes the entry whole; a changed distance starts a dip when the speaker is
present before and after and a source is connected. In every other case the distance written, changed or not, is
taken at the next boundary, but for an unchanged one of a speaker in DOWN, which the swap takes (DEDUCED, log entry
58). A dip leaves a take that is still due as it stands (the model's choice, log entry 61). -/
def Obligations.ConfigSpeakerWritesEntry : Prop :=
  ∀ (s : State) (tag : BitVec 16) (id presence distance trim lane slot pair : Word) (i : Fin 8) (pr : Presence)
    (l : Fin 2) (t8 : Fin 8) (q : Option (Fin 4)),
    s.ready → id.toNat = i.val → presenceOf presence.toNat = some pr →
    (if i = 3 then pr = .absent ∨ pr = .present else pr ≠ .present) →
    lane.toNat = l.val → slot.toNat = t8.val →
    (match q with
      | none => pair = 0xFFFFFFFF
      | some p => pair.toNat = p.val) →
    (pr = .absent ∨ ∀ j : Fin 8, j ≠ i → s.ru.speakers[j].presence ≠ .absent →
      ¬ (s.ru.speakers[j].lane = l ∧ s.ru.speakers[j].slot = t8)) →
    ∃ t, exec (.configSpeaker tag id presence distance trim lane slot pair) s = .next t
      ∧ (let sp : Speaker := { presence := pr, distance := min 300 distance.toNat, trim := min 24 trim.toNat,
                               lane := l, slot := t8, pair := q }
         let moved := decide (s.ru.speakers[i].distance ≠ sp.distance)
         let swaps := !moved && decide (s.ru.levels[i].dip = .down)
                        && decide (s.ru.speakers[i].presence ≠ .absent) && decide (pr ≠ .absent)
         let dips := moved && decide (s.ru.speakers[i].presence ≠ .absent) && decide (pr ≠ .absent)
                       && s.sc.connected.isSome
         t.kept = { s.kept with
           ru := { s.ru with
             speakers := s.ru.speakers.set i sp,
             levels := if dips then s.ru.levels.set i { s.ru.levels[i] with dip := .down } else s.ru.levels },
           du := if !dips && !swaps then
               { s.du with speakers := s.du.speakers.set i { s.du.speakers[i] with take := true } }
             else s.du })
      ∧ s.completedAtOnce t tag 0x08 (if 300 < distance.toNat ∨ 24 < trim.toNat then .clamped else .done)

/-- R126: SET_LANES. R132, R137, R138: CONFIG_RECORD_OUT loads the pending status record and, when the source changes,
forces a block restart; with OFF REC_OUT is low, and MAIN takes the class in force. That a change to MAIN or OFF
leaves the timing FREE is the model's choice (log entry 67). -/
def Obligations.OutputCommandsSetMasksAndLink : Prop :=
  (∀ (s : State) (tag : BitVec 16) (m0 m1 : Word), s.ready →
     ∃ t, exec (.setLanes tag m0 m1) s = .next t
       ∧ (if m0.toNat < 256 ∧ m1.toNat < 256 then
           t.kept = { s.kept with ou := { s.ou with lanes :=
             #v[{ s.ou.lanes[0] with pending := m0.setWidth 8 }, { s.ou.lanes[1] with pending := m1.setWidth 8 }] } }
           ∧ s.completedAtOnce t tag 0x0A .done
         else t.kept = s.kept ∧ s.completedAtOnce t tag 0x0A .refusedRange))
  ∧ (∀ (s : State) (tag : BitVec 16) (source port w0 w1 w2 w3 : Word) (r : RecordSource), s.ready →
     (match r with
       | .off => source.toNat = 0
       | .main => source.toNat = 1
       | .port p => source.toNat = 2 ∧ port.toNat = p.val) →
     ∃ t, exec (.configRecordOut tag source port w0 w1 w2 w3) s = .next t
       ∧ t.kept = { s.kept with ou := { s.ou with link :=
           if s.ou.link.source = r then
             { s.ou.link with pending := w3 ++ w2 ++ w1 ++ w0, pendingFlag := true }
           else
             { s.ou.link with
               pending := w3 ++ w2 ++ w1 ++ w0, pendingFlag := true, source := r, count := 0, portBlock := [],
               portInvalid := false, following := false,
               level := if r = .off then false else s.ou.link.level,
               cls := if r = .main then s.clock.cls else s.ou.link.cls } } }
       ∧ s.completedAtOnce t tag 0x0B .done)

/-- R147, R196: AMP_RECOVER of a pair in SHUTDOWN begins a recovery, drives AMP_EN high and raises PROTECT
RECOVERING before its COMPLETION. -/
def Obligations.AmpRecoverBeginsRecovery : Prop :=
  ∀ (s : State) (tag : BitVec 16) (w : Word) (p : Fin 4), s.ready → w.toNat = p.val → s.ap[p].st = .shutdown →
    ∃ t, exec (.ampRecover tag w) s = .next t
      ∧ t.kept = { s.kept with ap := s.ap.set p { s.ap[p] with
          st := .recovering, latch := false, windowBlocks := 0, windows := 0, recFaults := 0, first := true } }
      ∧ t.pins.ampEn[p] = true ∧ t.cu.head = s.cu.head + 1 ∧ t.pu.faultRec = s.pu.faultRec
      ∧ (s.eventRoom →
          t.eventsOut = [eventNow s (.protect .recovering) (BitVec.ofNat 16 p.val) 0 0,
                         completionEvent s tag 0x0C .done])

/-- R158: CONFIG_TUNER in UNTUNED, TUNED or OFFLINE writes its three values. R166: STOP_SEEK sets the stop-pending flag
of a seek under way, and is refused otherwise. -/
def Obligations.TunerCommandsSetValuesAndStop : Prop :=
  (∀ (s : State) (tag : BitVec 16) (a f m : Word), s.ready →
     (s.tc.st = .untuned ∨ s.tc.st = .tuned ∨ s.tc.st = .offline) → a.toNat ≤ 127 →
     (f.toNat = 50 ∨ f.toNat = 100 ∨ f.toNat = 200) → (m.toNat = 9 ∨ m.toNat = 10) →
     ∃ t, exec (.configTuner tag a f m) s = .next t
       ∧ t.kept = { s.kept with tc := { s.tc with
           addr := BitVec.ofNat 7 a.toNat, fmStep := f.toNat, amStep := m.toNat } }
       ∧ s.completedAtOnce t tag 0x0D .done)
  ∧ (∀ (s : State) (tag : BitVec 16), s.ready →
     ∃ t, exec (.stopSeek tag) s = .next t
       ∧ (match s.tc.st, s.tc.seek with
         | .seeking, some ctx =>
           if ctx.stopPending = true then t.kept = s.kept ∧ s.completedAtOnce t tag 0x10 .refusedState
           else t.kept = { s.kept with tc := { s.tc with seek := some { ctx with stopPending := true } } }
             ∧ s.completedAtOnce t tag 0x10 .accepted
         | _, _ => t.kept = s.kept ∧ s.completedAtOnce t tag 0x10 .refusedState))

/-- R185, R188: CONFIG_CAPTURE writes the five settings and empties the slot. RELEASE_CAPTURE: a number out of range
and an EMPTY slot are refused; a FULL slot becomes EMPTY with its overrun flag clear. Neither places a transfer but
its completion's, so the record in memory is not rewritten. -/
def Obligations.CaptureCommandsSetSlots : Prop :=
  (∀ (s : State) (tag : BitVec 16) (slot en tm tk vm vk : Word) (n : Fin 8), s.ready → slot.toNat = n.val →
     tm.toNat ≤ 15 → tk.toNat ≤ 15 → vm.toNat ≤ 1 → vk.toNat ≤ 1 →
     ∃ t, exec (.configCapture tag slot en tm tk vm vk) s = .next t
       ∧ t.kept = { s.kept with sd := { s.sd with
           slots := s.sd.slots.set n
             ({ enable := en.getLsbD 0, typeMatch := BitVec.ofNat 4 tm.toNat, typeMask := BitVec.ofNat 4 tk.toNat,
                varMatch := decide (vm.toNat = 1), varMask := decide (vk.toNat = 1), group := none,
                overrun := false } : CaptureSlot) } }
       ∧ s.completedAtOnce t tag 0x13 .done)
  ∧ (∀ (s : State) (tag : BitVec 16) (slot : Word), s.ready →
     ∃ t, exec (.releaseCapture tag slot) s = .next t
       ∧ (8 ≤ slot.toNat → t.kept = s.kept ∧ s.completedAtOnce t tag 0x14 .refusedRange)
       ∧ ∀ n : Fin 8, slot.toNat = n.val →
           (s.sd.slots[n].group = none → t.kept = s.kept ∧ s.completedAtOnce t tag 0x14 .refusedState)
           ∧ (s.sd.slots[n].group.isSome = true →
               t.kept = { s.kept with sd := { s.sd with
                 slots := s.sd.slots.set n { s.sd.slots[n] with group := none, overrun := false } } }
               ∧ s.completedAtOnce t tag 0x14 .done))

/-- R17, R20, R91, R138, R147, R158, R160, R163, R169, R170, R185, R196: a command refused by a check of its rule
completes with the check's result and changes nothing; a record whose kind names no command completes
UNKNOWN_COMMAND. The step UNKNOWN_COMMAND answers so for a kind that names a command too (the model's choice, log
entry 41), of which nothing is said here; the order of two refusals that hold together is log entry 53's. -/
def Obligations.RefusedCommandsChangeNothing : Prop :=
  ∀ (s : State) (tag : BitVec 16), s.ready →
    (let refuses := fun (i : Instr) (kind : BitVec 16) (r : ResultCode) =>
      ∃ t, exec i s = .next t ∧ t.kept = s.kept ∧ s.completedAtOnce t tag kind r
    (∀ (id port path : BitVec 16) (valid : Bool) (pref trim lip fb hold : Word), 8 ≤ id.toNat →
      refuses (.configSource tag id valid port path pref trim lip fb hold) 0x05 .refusedRange)
    ∧ (∀ (id port path : BitVec 16) (valid : Bool) (pref trim lip fb hold : Word) (i : Fin 8), id.toNat = i.val →
      (s.sc.connected = some i ∨ s.sc.target = .source i) →
      refuses (.configSource tag id valid port path pref trim lip fb hold) 0x05 .refusedState)
    ∧ (∀ (id port path : BitVec 16) (pref trim lip fb hold : Word) (i : Fin 8), id.toNat = i.val →
      s.sc.connected ≠ some i → s.sc.target ≠ .source i →
      (6 ≤ port.toNat ∨ 3 ≤ path.toNat ∨ 5 ≤ pref.toNat ∨ (8 ≤ fb.toNat ∧ fb ≠ 0xFFFFFFFF)) →
      refuses (.configSource tag id true port path pref trim lip fb hold) 0x05 .refusedRange)
    ∧ (∀ w : Word, 8 ≤ w.toNat → w ≠ 0xFFFFFFFF → refuses (.selectSource tag w) 0x06 .refusedRange)
    ∧ (∀ (w : Word) (i : Fin 8), w.toNat = i.val → s.sc.table[i].valid = false →
      refuses (.selectSource tag w) 0x06 .refusedEmpty)
    ∧ (∀ id presence distance trim lane slot pair : Word,
      (8 ≤ id.toNat ∨ 4 ≤ presence.toNat ∨ 2 ≤ lane.toNat ∨ 8 ≤ slot.toNat ∨ (4 ≤ pair.toNat ∧ pair ≠ 0xFFFFFFFF)
        ∨ (id.toNat = 3 ∧ (presence.toNat = 1 ∨ presence.toNat = 2)) ∨ (id.toNat ≠ 3 ∧ presence.toNat = 3)) →
      refuses (.configSpeaker tag id presence distance trim lane slot pair) 0x08 .refusedRange)
    ∧ (∀ (id presence distance trim lane slot pair : Word) (i j : Fin 8) (pr : Presence) (l : Fin 2) (t8 : Fin 8),
      id.toNat = i.val → presenceOf presence.toNat = some pr → (if i = 3 then pr = .present else
        pr = .small ∨ pr = .large) → lane.toNat = l.val → slot.toNat = t8.val →
      (pair.toNat < 4 ∨ pair = 0xFFFFFFFF) → j ≠ i → s.ru.speakers[j].presence ≠ .absent →
      s.ru.speakers[j].lane = l → s.ru.speakers[j].slot = t8 →
      refuses (.configSpeaker tag id presence distance trim lane slot pair) 0x08 .refusedOverlap)
    ∧ (∀ source port w0 w1 w2 w3 : Word, (3 ≤ source.toNat ∨ (source.toNat = 2 ∧ 6 ≤ port.toNat)) →
      refuses (.configRecordOut tag source port w0 w1 w2 w3) 0x0B .refusedRange)
    ∧ (∀ w : Word, 4 ≤ w.toNat → refuses (.ampRecover tag w) 0x0C .refusedRange)
    ∧ (∀ (w : Word) (p : Fin 4), w.toNat = p.val → s.ap[p].st ≠ .shutdown →
      refuses (.ampRecover tag w) 0x0C .refusedState)
    ∧ (∀ a f m : Word,
      (127 < a.toNat ∨ (f.toNat ≠ 50 ∧ f.toNat ≠ 100 ∧ f.toNat ≠ 200) ∨ (m.toNat ≠ 9 ∧ m.toNat ≠ 10)) →
      refuses (.configTuner tag a f m) 0x0D .refusedRange)
    ∧ (∀ a f m : Word, (s.tc.st = .tuning ∨ s.tc.st = .settling ∨ s.tc.st = .seeking) → a.toNat ≤ 127 →
      (f.toNat = 50 ∨ f.toNat = 100 ∨ f.toNat = 200) → (m.toNat = 9 ∨ m.toNat = 10) →
      refuses (.configTuner tag a f m) 0x0D .refusedBusy)
    ∧ (∀ b c : Word, 2 ≤ b.toNat → refuses (.tune tag b c) 0x0E .refusedRange)
    ∧ (∀ d h : Word, 2 ≤ d.toNat → refuses (.seek tag d h) 0x0F .refusedRange)
    ∧ (∀ d h : Word, d.toNat ≤ 1 → s.tc.channel = none → refuses (.seek tag d h) 0x0F .refusedState)
    ∧ (∀ d h : Word, d.toNat ≤ 1 → s.tc.channel.isSome = true → s.tc.st = .seeking →
      refuses (.seek tag d h) 0x0F .refusedBusy)
    ∧ (∀ e : Word, 64 ≤ e.toNat → refuses (.recallPreset tag e) 0x11 .refusedRange
        ∧ refuses (.storePreset tag e) 0x12 .refusedRange)
    ∧ (∀ e : Word, e.toNat < 64 → s.pu.regions.preset = none → refuses (.recallPreset tag e) 0x11 .refusedState
        ∧ refuses (.storePreset tag e) 0x12 .refusedState)
    ∧ (∀ e : Word, e.toNat < 64 → s.pu.regions.preset.isSome = true → s.tc.st ≠ .tuned →
      refuses (.storePreset tag e) 0x12 .refusedState)
    ∧ (∀ slot en tm tk vm vk : Word,
      (8 ≤ slot.toNat ∨ 15 < tm.toNat ∨ 15 < tk.toNat ∨ 1 < vm.toNat ∨ 1 < vk.toNat) →
      refuses (.configCapture tag slot en tm tk vm vk) 0x13 .refusedRange)
    ∧ ∀ kind : BitVec 16, knownKind kind = false → refuses (.unknownCommand tag kind) kind .unknownCommand)

/-! ## Command records that hold the Command Unit or begin work -/

/-- R32, R52, R53, R120: a SET_REGION that passes its checks changes the entry at once, marks the transfers to the old
range, placed and waiting (DEDUCED, log entry 43), changes no other transfer but for dropping the Delay Unit's
unplaced ones at a change of DELAY, and holds the Command Unit. `v` is the new entry: none with CLEAR. R53, R57: when
the last marked transfer and the ring's own sequence have ended (DEDUCED, log entry 43) the command completes DONE, and
a ring's part index takes the processor's; until then the step changes nothing (the model's choice, log entry 2). -/
def Obligations.SetRegionChangesEntryThenDrains : Prop :=
  (∀ (s : State) (tag : BitVec 16) (role clear base slots : Word) (n : Fin 7) (v : Option Range), s.ready →
     3 ≤ n.val → role.toNat = n.val →
     (n = 3 ∨ n = 4 → s.sc.path = .direct ∨ s.sc.connected = none) → (n = 5 → s.sc.connected = none) →
     (match v with
       | none => clear.getLsbD 0 = true
       | some r => clear.getLsbD 0 = false ∧ r.base = base.toNat ∧ r.base % 4096 = 0 ∧ r.base + r.size ≤ 2 ^ 28
           ∧ (n = 3 ∨ n = 4 → slots.toNat ∈ [4, 8, 16, 32, 64, 128, 256] ∧ r.size = 2048 * slots.toNat)
           ∧ (n = 5 → r.size = 131072) ∧ (n = 6 → r.size = 1024)
           ∧ ∀ (m : Fin 7) (w : Range), m ≠ n → s.pu.regions.role m = some w →
               r.base + r.size ≤ w.base ∨ w.base + w.size ≤ r.base) →
     ∃ t, exec (.setRegion tag role clear base slots) s = .next t
       ∧ t.kept = { s.kept with regions := t.pu.regions, port := t.pu.port, du := t.du }
       ∧ (∀ m : Fin 7, t.pu.regions.role m = if m = n then v else s.pu.regions.role m)
       ∧ t.cu.exec = .busy { tag := tag, kind := 0x01, index := s.cu.head, counts := true, work := .drain n }
       ∧ t.cu.head = s.cu.head ∧ t.eventsOut = s.eventsOut ∧ t.pu.faultRec = s.pu.faultRec
       ∧ (let mark := fun x : Transfer =>
            { x with draining := x.draining || (match s.pu.regions.role n with
              | none => false
              | some r => decide (r.base ≤ x.addr) && decide (x.addr < r.base + r.size)) }
          let waits := fun x : Transfer => match x.requester with
            | .delayWrite _ => decide (n ≠ 5)
            | .delayRead _ _ _ => decide (n ≠ 5)
            | _ => true
          t.pu.port = (match s.pu.port with
            | .part x => .part (mark x)
            | p => p)
          ∧ t.pu.queues = {
              render := { items := s.pu.queues.render.items.map mark,
                          waiting := (s.pu.queues.render.waiting.filter waits).map mark },
              input := { items := s.pu.queues.input.items.map mark, waiting := s.pu.queues.input.waiting.map mark },
              control := { items := s.pu.queues.control.items.map mark,
                           waiting := s.pu.queues.control.waiting.map mark } })
       ∧ (n ≠ 5 → t.du = s.du)
       ∧ (n = 5 → t.du = { s.du with changed := s.du.changed || v.isSome, speakers := t.du.speakers }
           ∧ ∀ i : Fin 8, t.du.speakers[i] = { s.du.speakers[i] with
               prepared := s.du.speakers[i].prepared.map fun p =>
                 { p with lines := p.lines.map fun l =>
                     if s.pu.queues.render.waiting.any fun x => decide (x.requester = .delayRead i p.generation l.start)
                     then { l with status := .abandoned } else l } }))
  ∧ (∀ (s : State) (b : Busy) (n : Fin 7), s.resetLow = false → s.cu.exec = .busy b → b.work = .drain n →
     ∃ t, exec .setRegionDrained s = .next t
       ∧ (regionDrained s n = false → t.kept = s.kept ∧ t.cu.exec = s.cu.exec ∧ t.cu.head = s.cu.head
           ∧ t.eventsOut = s.eventsOut)
       ∧ (regionDrained s n = true →
           t.kept = { s.kept with re :=
             if n = 3 then { s.re with inProd := s.cu.inCons }
             else if n = 4 then { s.re with outCons := s.cu.outProd } else s.re }
           ∧ t.cu.head = (if b.counts then s.cu.head + 1 else s.cu.head)
           ∧ (t.cu.exec = .idle ∨ t.cu.exec = .fetching)
           ∧ (s.eventRoom → t.eventsOut = [busyCompletion s b .done])))

/-- R52: each check of SET_REGION that fails gives its result with nothing changed, the checks in order. -/
def Obligations.SetRegionRefusals : Prop :=
  ∀ (s : State) (tag : BitVec 16) (role clear base slots : Word), s.ready →
    (let refuses := fun (r : ResultCode) => ∃ t, exec (.setRegion tag role clear base slots) s = .next t
        ∧ t.kept = s.kept ∧ s.completedAtOnce t tag 0x01 r
    ((role.toNat < 3 ∨ 6 < role.toNat) → refuses .refusedRange)
    ∧ ((role.toNat = 3 ∨ role.toNat = 4) → s.sc.path = .hosted → s.sc.connected.isSome = true →
        refuses .refusedState)
    ∧ (role.toNat = 5 → s.sc.connected.isSome = true → refuses .refusedState)
    ∧ ((role.toNat = 3 ∨ role.toNat = 4) → (s.sc.path = .direct ∨ s.sc.connected = none) → clear.getLsbD 0 = false →
        (slots.toNat ∉ [4, 8, 16, 32, 64, 128, 256] ∨ base.toNat % 4096 ≠ 0
          ∨ 2 ^ 28 < base.toNat + 2048 * slots.toNat) → refuses .refusedRange)
    ∧ (role.toNat = 5 → s.sc.connected = none → clear.getLsbD 0 = false →
        (base.toNat % 4096 ≠ 0 ∨ 2 ^ 28 < base.toNat + 131072) → refuses .refusedRange)
    ∧ (role.toNat = 6 → clear.getLsbD 0 = false →
        (base.toNat % 4096 ≠ 0 ∨ 2 ^ 28 < base.toNat + 1024) → refuses .refusedRange)
    ∧ ∀ n : Fin 7, 3 ≤ n.val → role.toNat = n.val →
        (n = 3 ∨ n = 4 → (s.sc.path = .direct ∨ s.sc.connected = none)
          ∧ slots.toNat ∈ [4, 8, 16, 32, 64, 128, 256]) → (n = 5 → s.sc.connected = none) →
        (let size := if n = 5 then 131072 else if n = 6 then 1024 else 2048 * slots.toNat
         clear.getLsbD 0 = false → base.toNat % 4096 = 0 → base.toNat + size ≤ 2 ^ 28 →
         (∃ (m : Fin 7) (w : Range), m ≠ n ∧ s.pu.regions.role m = some w ∧ base.toNat < w.base + w.size
           ∧ w.base < base.toNat + size) → refuses .refusedOverlap))

/-- R157, R200: RESTART is taken: the part quiesces, the outcome of a link attempt in progress is discarded, a retry
not yet begun is dropped (DEDUCED, log entry 34), and the command holds the Command Unit. R55, R71, R200: once the
part is quiet RESTART is done: the regions but CONTROL, COMMAND and EVENT are emptied and the units take their RESTART
values, a running lane keeping its active mask until the next boundary (DEDUCED, log entry 37), and the input-ring
producer taking the processor's consumer also when a store completed in the quiesce (the model's choice, log entry
48); the ports but for IN4's mark (R14), the rings, the accepted indices and the amplifier protection are kept, and
the COMPLETION stands behind the events that waited. Until then the step changes nothing (the model's choice, log
entry 2). -/
def Obligations.RestartQuiescesThenRestores : Prop :=
  (∀ (s : State) (tag : BitVec 16), s.ready →
     ∃ t, exec (.restart tag) s = .next t
       ∧ t.kept = { s.kept with
           quiesce := true,
           tc := { s.tc with
             owed := false,
             link := match s.tc.link with
               | .attempt a => .attempt { a with discard := true }
               | _ => .idle } }
       ∧ t.cu.exec = .busy { tag := tag, kind := 0x04, index := s.cu.head, counts := true, work := .restart }
       ∧ t.cu.head = s.cu.head ∧ t.eventsOut = s.eventsOut ∧ t.pu.faultRec = s.pu.faultRec
       ∧ t.pu.queues = s.pu.queues)
  ∧ (∀ (s : State) (b : Busy), s.resetLow = false → s.cu.exec = .busy b → b.work = .restart →
     ∃ t, exec .restartQuiesced s = .next t
       ∧ (partQuiet s = false → t.kept = s.kept ∧ t.cu.exec = s.cu.exec ∧ t.cu.head = s.cu.head
           ∧ t.eventsOut = s.eventsOut)
       ∧ (partQuiet s = true →
           t.kept = { s.kept with
             regions := { s.pu.regions with input := none, output := none, delay := none, preset := none },
             sliceH := 8, runCount := 0, quiesce := false, sc := SwitchUnit.reset,
             clock := { s.clock with following := false, own := false },
             re := { RingEngine.reset with inProd := s.cu.inCons, outCons := s.cu.outProd },
             ru := RenderUnit.reset, du := DelayUnit.reset,
             ou := { s.ou with
               lanes := #v[{ s.ou.lanes[0] with pending := 0 }, { s.ou.lanes[1] with pending := 0 }],
               link := { RecordLink.reset with cls := s.ou.link.cls } },
             tc := TunerUnit.reset, sd := StationUnit.reset,
             ports := s.ports.set 4 { s.ports[(4 : Fin 6)] with mark := false } }
           ∧ t.pu.faultRec = s.pu.faultRec ∧ t.cu.evProd = s.cu.evProd
           ∧ t.cu.head = (if b.counts then s.cu.head + 1 else s.cu.head)
           ∧ (t.cu.exec = .idle ∨ t.cu.exec = .fetching)
           ∧ (s.cu.enabled = true → s.cu.evWrite = none → s.cu.pendingEvents.length < 32 → eventRingFull s = false →
               t.eventsOut = s.cu.pendingEvents ++ [busyCompletion s b .done])))

/-- R157, R159, R160, R171, R189, R202: an accepted TUNE, in any tuner state. The detail codes of the event that ends
the old work (TUNE 0 of ABANDONED, TUNE 1 of SEEK_STOPPED) are DEDUCED (log entry 30), the direction bit of the
address byte is PRESUMED (log entry 60), and what that event says where the tuner holds no tag or channel, which no
run reaches, is the model's choice (log entry 45). -/
def Obligations.TuneBeginsTune : Prop :=
  ∀ (s : State) (tag : BitVec 16) (bw cw : Word) (b : Band), s.ready → s.cu.quiesce = false →
    bandOf bw.toNat = some b →
    ∃ t, exec (.tune tag bw cw) s = .next t
      ∧ (let ch := snapChannel b (s.tc.stepOf b) cw.toNat
         let link : LinkState := match s.tc.link with
           | .attempt a => .attempt { a with discard := true }
           | _ => .attempt (tuneWriteOf s.tc.addr b ch)
         let owed := match s.tc.link with
           | .attempt _ => true
           | _ => false
         t.tc = { s.tc with
           st := .tuning, band := some b, channel := some ch, tag := some tag, recalled := none, seek := none,
           settle := { running := false, remaining := 0 }, retry := 0, owed := owed, link := link }
         ∧ t.sd.tunedChannel = some ch ∧ t.sd.recalled = none ∧ t.sd.identity = none ∧ t.sd.history = []
         ∧ t.sd.bitCount = 0 ∧ t.sd.sync = .search ∧ t.sd.slots = s.sd.slots
         ∧ (s.eventRoom →
             t.eventsOut.getLast? = some (completionEvent s tag 0x0E (if ch = cw.toNat then .accepted else .clamped))
             ∧ (s.tc.st = .tuning ∨ s.tc.st = .settling →
                 t.eventsOut.head? =
                   some (eventNow s (.tuner .abandoned) (s.tc.tag.getD 0xFFFF) (optionWord s.tc.channel) 0))
             ∧ (s.tc.st = .seeking →
                 t.eventsOut.head? =
                   some (eventNow s (.tuner .seekStopped) (s.tc.tag.getD 0xFFFF) (optionWord s.tc.channel) 1))))
      ∧ t.kept = { s.kept with tc := t.tc, sd := t.sd, sc := t.sc, clock := t.clock, ports := t.ports, ou := t.ou }
      ∧ (s.tc.st ≠ .tuned → t.sc = s.sc ∧ t.clock = s.clock ∧ t.ports = s.ports ∧ t.ou = s.ou)
      ∧ t.cu.head = s.cu.head + 1 ∧ (t.cu.exec = .idle ∨ t.cu.exec = .fetching)

/-- R163, R164: an accepted SEEK sets up its context and begins its first step. R160, R171: a tune it ends is reported
first, by the event ABANDONED with its tag and channel and the replacing command SEEK, whose code is DEDUCED (log
entry 30). The direction bit of the address byte is PRESUMED (log entry 60), and the subject of the event of a tune
with no tag, which no run reaches, is the model's choice (log entry 45). -/
def Obligations.SeekBeginsFirstStep : Prop :=
  ∀ (s : State) (tag : BitVec 16) (dw hw : Word) (b : Band) (c : Nat), s.ready → s.cu.quiesce = false →
    dw.toNat ≤ 1 → s.tc.band = some b → s.tc.channel = some c → s.tc.st ≠ .seeking →
    ∃ t, exec (.seek tag dw hw) s = .next t
      ∧ (let up := decide (dw.toNat = 0)
         let cand := if up then planAbove b (s.tc.stepOf b) c else planBelow b (s.tc.stepOf b) c
         t.tc.st = .seeking ∧ t.tc.band = some b ∧ t.tc.channel = some cand.1 ∧ t.tc.tag = some tag
         ∧ t.tc.recalled = none ∧ t.tc.settle = { running := false, remaining := 0 } ∧ t.tc.retry = 0
         ∧ t.tc.seek = some { up := up, threshold := min 127 hw.toNat, start := c, wrapped := cand.2,
                              stopPending := false, returning := decide (cand.1 = c) }
         ∧ t.tc.link = (match s.tc.link with
             | .attempt a => .attempt { a with discard := true }
             | _ => .attempt (tuneWriteOf s.tc.addr b cand.1))
         ∧ t.sd.tunedChannel = some cand.1 ∧ t.sd.sync = .search
         ∧ (s.eventRoom → t.eventsOut.getLast? =
             some (completionEvent s tag 0x0F (if 127 < hw.toNat then .clamped else .accepted)))
         ∧ (s.eventRoom → (s.tc.st = .tuning ∨ s.tc.st = .settling) → t.eventsOut.head? =
             some (eventNow s (.tuner .abandoned) (s.tc.tag.getD 0xFFFF) (natWord c) 1)))
      ∧ t.tc.addr = s.tc.addr ∧ t.tc.fmStep = s.tc.fmStep ∧ t.tc.amStep = s.tc.amStep
      ∧ t.tc.quality = s.tc.quality
      ∧ t.kept = { s.kept with tc := t.tc, sd := t.sd, sc := t.sc, clock := t.clock, ports := t.ports, ou := t.ou }
      ∧ (s.tc.st ≠ .tuned → t.sc = s.sc ∧ t.clock = s.clock ∧ t.ports = s.ports ∧ t.ou = s.ou)
      ∧ t.cu.head = s.cu.head + 1

/-- R39, R168, R169, R170: RECALL_PRESET that passes its checks places the read of its entry, and STORE_PRESET asks
for the lock over its entry's line; each holds the Command Unit. R169, R211: of the entry read by a recall, one not
valid or of no band is refused, and the work under way is untouched; a good one is tuned to as a TUNE does, with its
identity recalled. -/
def Obligations.PresetCommandsReachMemoryAndRecall : Prop :=
  (∀ (s : State) (tag : BitVec 16) (w : Word) (e : Fin 64) (r : Range), s.ready → w.toNat = e.val →
     s.pu.regions.preset = some r →
     ∃ t, exec (.recallPreset tag w) s = .next t ∧ t.kept = s.kept
       ∧ t.cu.exec = .busy { tag := tag, kind := 0x11, index := s.cu.head, counts := true, work := .recall e }
       ∧ t.pu.queues.control.all =
           s.pu.queues.control.all ++ [readOf .presetRead (r.base + 16 * e.val) 4 none]
       ∧ t.pu.queues.render = s.pu.queues.render ∧ t.pu.queues.input = s.pu.queues.input
       ∧ t.cu.head = s.cu.head ∧ t.eventsOut = s.eventsOut ∧ t.pu.faultRec = s.pu.faultRec)
  ∧ (∀ (s : State) (tag : BitVec 16) (w : Word) (e : Fin 64) (r : Range), s.ready → s.imageCurrent →
     w.toNat = e.val → s.pu.regions.preset = some r → s.tc.st = .tuned →
     ∃ t, exec (.storePreset tag w) s = .next t ∧ t.kept = s.kept
       ∧ t.cu.exec = .busy { tag := tag, kind := 0x12, index := s.cu.head, counts := true, work := .store e }
       ∧ t.pu.requests = s.pu.requests
           ++ [{ owner := .presetStore, startLine := (r.base + 32 * (e.val / 2)) / 32, lines := 1 }]
       ∧ t.pu.queues = s.pu.queues ∧ t.cu.head = s.cu.head ∧ t.eventsOut = s.eventsOut
       ∧ t.pu.faultRec = s.pu.faultRec)
  ∧ (∀ (s : State) (b : Busy) (e : Fin 64) (tr : Transfer) (w0 w1 w2 w3 : Word), s.resetLow = false →
     s.cu.exec = .busy b → b.work = .recall e → b.counts = true → s.cu.quiesce = false →
     s.pu.port = .part tr → tr.requester = .presetRead → tr.beats = 4 →
     ∃ t, exec (.partTransferAnswer true [w0, w1, w2, w3]) s = .next t ∧ t.cu.head = s.cu.head + 1
       ∧ t.pu.port = .free
       ∧ (w0.getLsbD 0 = false →
           t.kept = { s.kept with port := .free } ∧ (s.eventRoom → t.eventsOut = [busyCompletion s b .refusedEmpty]))
       ∧ (w0.getLsbD 0 = true → 2 ≤ (byteOf w0 1).toNat →
           t.kept = { s.kept with port := .free } ∧ (s.eventRoom → t.eventsOut = [busyCompletion s b .refusedRange]))
       ∧ ∀ bd : Band, w0.getLsbD 0 = true → bandOf (byteOf w0 1).toNat = some bd →
           (let c := (w0.extractLsb' 16 16).toNat
            let ch := snapChannel bd (s.tc.stepOf bd) c
            t.tc.st = .tuning ∧ t.tc.band = some bd ∧ t.tc.channel = some ch ∧ t.tc.tag = some b.tag
            ∧ t.tc.recalled = some { identity := w1.extractLsb' 0 16, known := w1.getLsbD 16 }
            ∧ t.sd.recalled = some { identity := w1.extractLsb' 0 16, known := w1.getLsbD 16 }
            ∧ t.sd.tunedChannel = some ch
            ∧ (s.eventRoom →
                t.eventsOut.getLast? = some (busyCompletion s b (if ch = c then .accepted else .clamped)))))

/-! ## The memory path (02) -/

/-- R54, R129, R139, R152, R172: RESET_N falls. That the other units' values stand until it rises is the model's choice
(log entry 11). R5, R11, R29, R31, R32, R38, R43, R45, R71, R98, R100, R140, R154, R192, R199, R201: RESET_N rises: the
values the handbook gives, with CONTROL at the straps, and one write of the status block owed, which has already asked
for its lock; the two ports keep their transactions (DEDUCED, log entry 11). -/
def Obligations.HardResetClearsThenSetsValues : Prop :=
  (∀ s : State, ∃ t, exec .hardResetAssert s = .next t
     ∧ t.resetLow = true
     ∧ t.pu = { s.pu with locks := [], requests := [], queues := Queues.empty, port := t.pu.port, proc := t.pu.proc }
     ∧ t.pu.port = (match s.pu.port with
         | .part x => .orphan x
         | p => p)
     ∧ t.pu.proc.behind = s.pu.proc.behind ∧ t.pu.proc.answers = s.pu.proc.answers
     ∧ t.pu.proc.head = (match s.pu.proc.head with
         | some (tx, .held _) => some (tx, .waiting)
         | h => h)
     ∧ t.pins.irqN = true ∧ t.pins.alertN = true ∧ (∀ p : Fin 4, t.pins.ampEn[p] = false)
     ∧ (∀ l : Fin 2, t.ou.lanes[l].running = false) ∧ t.ou.link.level = false
     ∧ t.tc = { s.tc with link := .idle, owed := false }
     ∧ t = { s with resetLow := true, pu := t.pu, ou := t.ou, tc := t.tc, pins := t.pins })
  ∧ (∀ (s : State) (cb : BitVec 8), s.resetLow = true → ∃ t, exec (.hardResetRelease cb) s = .next t
     ∧ t.resetLow = false ∧ t.pending = s.pending ∧ t.pu.port = s.pu.port ∧ t.pu.proc = s.pu.proc
     ∧ t.pu.regions = { control := cb.toNat * 0x100000, command := none, event := none, input := none,
                        output := none, delay := none, preset := none }
     ∧ (∀ n : Fin 10, t.pu.shadow[n] = 0) ∧ t.pu.locks = [] ∧ t.pu.queues = Queues.empty
     ∧ t.pu.requests = [{ owner := .statusWrite, startLine := (cb.toNat * 0x100000 + 0xC0) / 32, lines := 2 }]
     ∧ t.pu.sliceH = 8 ∧ t.pu.runCount = 0 ∧ t.pu.faultRec = none
     ∧ t.cu.enabled = false ∧ t.cu.head = 0 ∧ t.cu.tail = 0 ∧ t.cu.evProd = 0 ∧ t.cu.evCons = 0
     ∧ t.cu.irqEnable = false ∧ t.cu.evDropped = 0 ∧ t.cu.exec = .idle ∧ t.cu.pendingEvents = []
     ∧ t.cu.image = statusImage t
     ∧ (∀ p : Fin 6, t.ports[p].lock = .noSignal ∧ t.ports[p].miss = false ∧ t.ports[p].candidate = none
         ∧ t.ports[p].format = .pcm)
     ∧ t.sc.st = .idle ∧ t.sc.connected = none ∧ t.sc.target = .absent ∧ (∀ i : Fin 8, t.sc.table[i].valid = false)
     ∧ t.clock.cls = .k48 ∧ t.clock.following = false ∧ t.clock.stamp = 0 ∧ t.clock.windowPos = 0
     ∧ t.re.inProd = 0 ∧ t.re.outCons = 0 ∧ t.re.ladder = .waiting ∧ t.re.store = none ∧ t.re.fetch = .free
     ∧ t.ru.master = 80 ∧ t.ru.mute = true ∧ t.ru.crossover = 80 ∧ t.ru.lastMode = .stereo ∧ t.ru.heldCount = 2
     ∧ (∀ i : Fin 8, t.ru.speakers[i].presence = .absent ∧ t.ru.levels[i].applied = 192)
     ∧ t.du.lines = false ∧ t.du.writeIndex = 0 ∧ t.du.fill = 0
     ∧ (∀ l : Fin 2, t.ou.lanes[l].running = false ∧ t.ou.lanes[l].active = 0 ∧ t.ou.lanes[l].pending = 0)
     ∧ t.ou.link.source = .off ∧ t.ou.link.level = false
     ∧ (∀ p : Fin 4, t.ap[p].st = .normal ∧ t.ap[p].counter = 0 ∧ t.pins.ampEn[p] = true)
     ∧ t.tc.st = .untuned ∧ t.tc.band = none ∧ t.tc.channel = none ∧ t.tc.addr = 0x11 ∧ t.tc.fmStep = 100
     ∧ t.tc.amStep = 9 ∧ t.sd.sync = .search ∧ t.sd.identity = none)

/-- R34, R36, R40, R48, R54: a transaction issued reaches the head of an empty port, where it is held on a lock,
answered at the port with a GUARD_WRITE fault at its first guarded beat, or waiting; behind another it waits in
order. -/
def Obligations.ProcessorTransactionIsJudged : Prop :=
  ∀ (s : State) (tx : ProcTx),
    (let stops := fun l : Lock => l.startLine ≤ tx.line.toNat ∧ tx.line.toNat < l.startLine + l.lines
        ∧ (tx.write = true ∨ l.owner ≠ .outputFetch)
     ∃ t, exec (.processorTransaction tx) s = .next t
      ∧ (s.pu.proc.head.isSome = true →
          t.kept = { s.kept with proc := { s.pu.proc with behind := s.pu.proc.behind ++ [tx] } })
      ∧ (s.pu.proc.head = none → s.resetLow = true →
          t.kept = { s.kept with proc := { s.pu.proc with head := some (tx, .waiting), behind := [] } })
      ∧ (s.pu.proc.head = none → s.resetLow = false → (∃ l ∈ s.pu.locks, stops l) →
          ∃ l ∈ s.pu.locks, stops l
            ∧ t.kept = { s.kept with proc := { s.pu.proc with head := some (tx, .held l.owner), behind := [] } })
      ∧ (s.pu.proc.head = none → s.resetLow = false → (∀ l ∈ s.pu.locks, ¬ stops l) → allGuarded s tx = false →
          t.kept = { s.kept with proc := { s.pu.proc with head := some (tx, .waiting), behind := [] } })
      ∧ (s.pu.proc.head = none → s.resetLow = false → (∀ l ∈ s.pu.locks, ¬ stops l) → allGuarded s tx = true →
          t.kept = { s.kept with proc :=
            { head := none, behind := [], answers := s.pu.proc.answers ++ [{ ok := true, data := [] }] } }
          ∧ ∃ b, tx.beats.find? (fun b => decide (beatAction s tx b = .guard)) = some b
              ∧ (s.pu.faultRec = none → t.pu.faultRec = some
                  { kind := .guardWrite, addr := 32 * tx.line.toNat + 4 * b.off.toNat, stamp := s.clock.stamp })
              ∧ (s.eventRoom → t.eventsOut =
                  [eventNow s (.fault .guardWrite) 0 (natWord (32 * tx.line.toNat + 4 * b.off.toNat)) 0])))

/-- R35, R36: where the guard and the taps stand: a write beat in CONTROL by its offset, and in the EVENT and
DELAY regions; every read beat, and every write beat with no byte enabled, is forwarded. -/
def Obligations.BeatsAreClassified : Prop :=
  ∀ (s : State) (tx : ProcTx) (b : Beat),
    ((tx.write = false ∨ b.be = 0) → beatAction s tx b = .forward)
    ∧ (tx.write = true → b.be ≠ 0 →
        (let a := 32 * tx.line.toNat + 4 * b.off.toNat
         let o := a - s.pu.regions.control
         let within := fun r : Option Range => ∃ v, r = some v ∧ v.base ≤ a ∧ a < v.base + v.size
         (s.pu.regions.control ≤ a → o < 0x10 → beatAction s tx b = if s.cu.enabled then .guard else .tap)
         ∧ (s.pu.regions.control ≤ a → 0x10 ≤ o → o < 0x28 → beatAction s tx b = .tap)
         ∧ (s.pu.regions.control ≤ a → 0x28 ≤ o → o < 0x40 → beatAction s tx b = .forward)
         ∧ (s.pu.regions.control ≤ a → 0x40 ≤ o → o < 0x90 → beatAction s tx b = .guard)
         ∧ (s.pu.regions.control ≤ a → 0x90 ≤ o → o < 0xC0 → beatAction s tx b = .forward)
         ∧ (s.pu.regions.control ≤ a → 0xC0 ≤ o → o < 0x260 → beatAction s tx b = .guard)
         ∧ (s.pu.regions.control ≤ a → 0x260 ≤ o → o < 0x1000 → beatAction s tx b = .forward)
         ∧ ((a < s.pu.regions.control ∨ s.pu.regions.control + 0x1000 ≤ a) →
             (within s.pu.regions.event ∨ within s.pu.regions.delay) → beatAction s tx b = .guard)
         ∧ ((a < s.pu.regions.control ∨ s.pu.regions.control + 0x1000 ≤ a) →
             ¬ within s.pu.regions.event → ¬ within s.pu.regions.delay → beatAction s tx b = .forward)))

/-- R36, R41, R44, R45: the grant of a free memory port: a promoted lock's queue first; then the processor, while no
part transfer waits or its run is below H; then RENDER, INPUT and CONTROL. A processor transaction whose beats are all
forwarded goes to memory as it is, and a write with guarded beats among others goes with their enables cleared and one
GUARD_WRITE at the first of them. One found all guarded at its grant is answered without the port, and counts in the
run (DEDUCED, log entry 28). With the port taken, or nothing to grant, the step does nothing (the model's choice, log
entry 2). -/
def Obligations.ArbiterGrantsInOrder : Prop :=
  ∀ s : State, s.resetLow = false → ∃ t, exec .arbiterGrant s = .next t
    ∧ (s.pu.port ≠ .free → t.kept = s.kept ∧ t.pu.queues = s.pu.queues)
    ∧ (s.pu.port = .free →
        (let parts := s.pu.queues.render.items ++ s.pu.queues.input.items ++ s.pu.queues.control.items
         let granted := fun (q : Queue) (x : Transfer) (rest : List Transfer) =>
            t.kept = { s.kept with port := .part x, runCount := 0 }
            ∧ t.pu.queues = s.pu.queues.put q { s.pu.queues.get q with items := rest }
         let processorNext := (∃ tx, s.pu.proc.head = some (tx, .waiting)) ∧ (parts = [] ∨ s.pu.runCount < s.pu.sliceH)
         let promotedNext := ∃ tx o, s.pu.proc.head = some (tx, .held o)
            ∧ (s.pu.queues.get (sequenceQueue o)).items ≠ []
         (∀ tx o x rest, s.pu.proc.head = some (tx, .held o) →
            (s.pu.queues.get (sequenceQueue o)).items = x :: rest → granted (sequenceQueue o) x rest)
         ∧ (∀ tx, s.pu.proc.head = some (tx, .waiting) → (parts = [] ∨ s.pu.runCount < s.pu.sliceH) →
            (∀ b ∈ tx.beats, beatAction s tx b = .forward) →
            t.kept = { s.kept with
              port := .processor tx, proc := { s.pu.proc with head := some (tx, .granted) },
              runCount := if parts = [] then s.pu.runCount else s.pu.runCount + 1 }
            ∧ t.pu.queues = s.pu.queues)
         ∧ (∀ tx, s.pu.proc.head = some (tx, .waiting) → (parts = [] ∨ s.pu.runCount < s.pu.sliceH) →
            allGuarded s tx = true → s.pu.proc.behind = [] →
            t.kept = { s.kept with
              proc := { head := none, behind := [],
                        answers := s.pu.proc.answers ++ [{ ok := true, data := [] }] },
              runCount := if parts = [] then s.pu.runCount else s.pu.runCount + 1 })
         ∧ (∀ tx b, s.pu.proc.head = some (tx, .waiting) → (parts = [] ∨ s.pu.runCount < s.pu.sliceH) →
            allGuarded s tx = false → tx.beats.find? (fun b => decide (beatAction s tx b = .guard)) = some b →
            (let sent := { tx with beats := tx.beats.map (fun x =>
               if beatAction s tx x = .guard then { x with be := 0 } else x) }
             let a := 32 * tx.line.toNat + 4 * b.off.toNat
             t.pu.port = .processor sent ∧ t.pu.proc = { s.pu.proc with head := some (sent, .granted) }
             ∧ t.pu.runCount = (if parts = [] then s.pu.runCount else s.pu.runCount + 1)
             ∧ ((∀ x ∈ tx.beats, beatAction s tx x ≠ .tap) →
                 t.kept = { s.kept with
                   port := .processor sent, proc := { s.pu.proc with head := some (sent, .granted) },
                   runCount := if parts = [] then s.pu.runCount else s.pu.runCount + 1 }
                 ∧ (s.pu.faultRec = none →
                     t.pu.faultRec = some { kind := .guardWrite, addr := a, stamp := s.clock.stamp })
                 ∧ (s.eventRoom → t.eventsOut = [eventNow s (.fault .guardWrite) 0 (natWord a) 0]))))
         ∧ (¬ promotedNext → ¬ processorNext →
            (∀ x rest, s.pu.queues.render.items = x :: rest → granted .render x rest)
            ∧ (∀ x rest, s.pu.queues.render.items = [] → s.pu.queues.input.items = x :: rest →
                granted .input x rest)
            ∧ (∀ x rest, s.pu.queues.render.items = [] → s.pu.queues.input.items = [] →
                s.pu.queues.control.items = x :: rest → granted .control x rest)
            ∧ (parts = [] → t.kept = s.kept ∧ t.pu.queues = s.pu.queues))))

/-- R37, R44: a processor write of one anchor word, granted the memory port with no part transfer waiting, does
what the row of that word does, with the transaction on its way to memory. -/
def Obligations.GrantedAnchorWriteActsAsItsRow : Prop :=
  ∀ (s : State) (line : BitVec 23) (b : Beat) (off : Fin 16), s.resetLow = false → s.pu.port = .free →
    s.pu.proc.head = some ({ write := true, line := line, beats := [b] }, .waiting) →
    (∀ q : Queue, (s.pu.queues.get q).items = []) → b.be ≠ 0 →
    32 * line.toNat + 4 * b.off.toNat = s.pu.regions.control + 4 * off.val →
    (off.val < 4 → s.cu.enabled = false) →
    exec .arbiterGrant s = exec (.anchorWordWrite off b.data b.be)
      (s.mapPu fun pu =>
        { pu with port := .processor { write := true, line := line, beats := [b] },
                  proc := { pu.proc with
                    head := some ({ write := true, line := line, beats := [b] }, .granted) } })

/-- R34: memory's answer to the processor's transaction is passed on unchanged, a read with the words of its beats (a
word the answer does not give is 0, the model's choice, log entry 6), and the next transaction reaches the head, where
it waits, is held, or is answered at the port; with RESET_N low it waits (R54). An answer with no transaction of the
processor on the port does nothing (the model's choice, log entry 2). -/
def Obligations.ProcessorAnswerIsPassedOn : Prop :=
  ∀ (s : State) (ok : Bool) (data : List Word),
    ∃ t, exec (.processorMemoryAnswer ok data) s = .next t
      ∧ ((∀ tx, s.pu.port ≠ .processor tx) → t.kept = s.kept)
      ∧ (∀ tx, s.pu.port = .processor tx →
          (let given : Answer :=
             { ok := ok,
               data := if tx.write then [] else (data ++ List.replicate tx.beats.length 0).take tx.beats.length }
           let answers := s.pu.proc.answers ++ [given]
           let stops := fun (l : Lock) (nx : ProcTx) => l.startLine ≤ nx.line.toNat
              ∧ nx.line.toNat < l.startLine + l.lines ∧ (nx.write = true ∨ l.owner ≠ .outputFetch)
           (s.pu.proc.behind = [] →
             t.kept = { s.kept with port := .free, proc := { head := none, behind := [], answers := answers } })
           ∧ (∀ nx rest, s.pu.proc.behind = nx :: rest →
               ((s.resetLow = true ∨ ((∀ l ∈ s.pu.locks, ¬ stops l nx) ∧ allGuarded s nx = false)) →
                 t.kept = { s.kept with
                   port := .free, proc := { head := some (nx, .waiting), behind := rest, answers := answers } })
               ∧ (s.resetLow = false → (∃ l ∈ s.pu.locks, stops l nx) → ∃ l ∈ s.pu.locks, stops l nx
                   ∧ t.kept = { s.kept with
                       port := .free,
                       proc := { head := some (nx, .held l.owner), behind := rest, answers := answers } })
               ∧ (s.resetLow = false → (∀ l ∈ s.pu.locks, ¬ stops l nx) → allGuarded s nx = true → rest = [] →
                   t.kept = { s.kept with
                     port := .free,
                     proc := { head := none, behind := [], answers := answers ++ [{ ok := true, data := [] }] } }
                   ∧ ∃ b, nx.beats.find? (fun b => decide (beatAction s nx b = .guard)) = some b
                     ∧ (s.pu.faultRec = none → t.pu.faultRec = some
                         { kind := .guardWrite, addr := 32 * nx.line.toNat + 4 * b.off.toNat,
                           stamp := s.clock.stamp })))))

/-- R46, R48, R54, R169, R170, R184, R195, R197, R199, R200: what the Command Unit, the tuner's presets and the station
data do when memory answers a transfer OK, but for a command record (stated by itself) and the entry of a recall. A
word the answer does not give is 0 (log entry 6), and an answer with no part transfer on the port does nothing (log
entry 2): the model's choices. That a quiesce leaves the fault record owed is DEDUCED (log entry 32), and that the
write of an event of rings enabled anew since moves no index is log entry 13's; that the next fetch begins at once
when a discarded one ends is DEDUCED (log entry 33). -/
def Obligations.PartAnswerOkServesControl : Prop :=
  ∀ (s : State) (data : List Word), s.resetLow = false →
    ∃ t, exec (.partTransferAnswer true data) s = .next t
      ∧ (∀ x, s.pu.port = .orphan x → t.kept = { s.kept with port := .free } ∧ t.pu.queues = s.pu.queues
          ∧ t.cu.exec = s.cu.exec ∧ t.eventsOut = s.eventsOut)
      ∧ ((∀ x, s.pu.port ≠ .part x ∧ s.pu.port ≠ .orphan x) → t.kept = s.kept ∧ t.pu.queues = s.pu.queues)
      ∧ ∀ x, s.pu.port = .part x →
        (let given := (data ++ List.replicate x.beats 0).take x.beats
         let notHeld := fun o : Sequence => ∀ tx, s.pu.proc.head ≠ some (tx, .held o)
         let without := fun o : Sequence => s.pu.locks.filter fun l => decide (l.owner ≠ o)
         (∀ w : IndexWord, x.requester = .indexWord w →
            t.kept = { s.kept with port := .free }
            ∧ t.cu.producerFollows = (s.cu.producerFollows && decide (w ≠ .eventProducer))
            ∧ (s.cu.words[w.place] = { inFlight := true, again := false } →
                t.pu.queues = s.pu.queues
                ∧ t.cu.words = s.cu.words.set w.place { inFlight := false, again := false })
            ∧ (s.cu.words[w.place] = { inFlight := true, again := true } →
                (s.cu.quiesce = false ∨ (w = .eventProducer ∧ s.cu.producerFollows = true) →
                  t.cu.words = s.cu.words.set w.place { inFlight := true, again := false }
                  ∧ t.pu.queues.control.all = s.pu.queues.control.all
                      ++ [writeOf (.indexWord w) (s.pu.regions.control + w.offset) [indexValue s w] none])
                ∧ (s.cu.quiesce = true → ¬ (w = .eventProducer ∧ s.cu.producerFollows = true) →
                    t.pu.queues = s.pu.queues
                    ∧ t.cu.words = s.cu.words.set w.place { inFlight := false, again := true })))
         ∧ (∀ e : EventWrite, x.requester = .eventWrite → s.cu.evWrite = some e → s.cu.pendingEvents = [] →
            t.kept = { s.kept with port := .free } ∧ t.cu.evWrite = none ∧ t.cu.pendingEvents = []
            ∧ t.cu.evDropped = s.cu.evDropped
            ∧ (e.stale = true → t.cu.evProd = s.cu.evProd ∧ t.pu.queues = s.pu.queues)
            ∧ (e.stale = false → t.cu.evProd = s.cu.evProd + 1
                ∧ (s.cu.words[(2 : Fin 6)].inFlight = true → t.pu.queues = s.pu.queues
                    ∧ t.cu.words = s.cu.words.set 2 { inFlight := true, again := true }
                    ∧ t.cu.producerFollows = true)
                ∧ (s.cu.words[(2 : Fin 6)].inFlight = false →
                    t.cu.words = s.cu.words.set 2 { inFlight := true, again := false }
                    ∧ t.pu.queues.control.all = s.pu.queues.control.all
                        ++ [writeOf (.indexWord .eventProducer) (s.pu.regions.control + 0x48)
                              [(s.cu.evProd + 1).setWidth 32] none])))
         ∧ (x.requester = .faultRecord →
            t.kept = { s.kept with port := .free } ∧ t.pu.faultRec = s.pu.faultRec
            ∧ (s.cu.faultWriter.again = false → t.pu.queues = s.pu.queues
                ∧ t.cu.faultWriter = { inFlight := false, again := false })
            ∧ (s.cu.faultWriter.again = true → s.cu.quiesce = true → t.pu.queues = s.pu.queues
                ∧ t.cu.faultWriter = { inFlight := false, again := true })
            ∧ (s.cu.faultWriter.again = true → s.cu.quiesce = false →
                t.cu.faultWriter = { inFlight := true, again := false }
                ∧ t.pu.queues.control.all = s.pu.queues.control.all
                    ++ [writeOf .faultRecord (s.pu.regions.control + 0x80)
                          (match s.pu.faultRec with
                            | none => [0, 0, 0, 0]
                            | some r => [word4 1 (if r.kind = .partMemoryError ∨ r.kind = .ringGeometry then 1 else 0)
                                           r.kind.code 0, natWord r.addr, r.stamp, 0]) none]))
         ∧ (((∃ n, x.requester = .captureRecord n) ∨ x.requester = .statusLine false ∨ x.requester = .textLine false) →
            t.kept = { s.kept with port := .free } ∧ t.pu.queues = s.pu.queues ∧ t.eventsOut = s.eventsOut)
         ∧ (x.requester = .statusLine true → notHeld .statusWrite →
            t.kept = { s.kept with port := .free, locks := without .statusWrite }
            ∧ (s.imageCurrent → (s.cu.status.again = false ∨ s.cu.quiesce = true) → t.cu.status.writing = false)
            ∧ (s.imageCurrent → s.cu.status.again = true → s.cu.quiesce = false →
                t.cu.status = { writing := true, again := false, copy := s.cu.image }
                ∧ t.pu.requests = s.pu.requests
                    ++ [{ owner := .statusWrite, startLine := (s.pu.regions.control + 0xC0) / 32, lines := 2 }]))
         ∧ (∀ y, x.requester = .textLine true → s.sd.writer = some y → notHeld .textWrite → s.imageCurrent →
            (let again := decide (s.sd.wanted ≠ y) && !s.cu.quiesce
             t.kept = { s.kept with
               port := .free, locks := without .textWrite,
               sd := { s.sd with
                 writer := if again then some s.sd.wanted else none, lastWritten := some y } }
             ∧ t.pu.requests = s.pu.requests ++ (if again then
                 [{ owner := .textWrite, startLine := (s.pu.regions.control + 0x200) / 32, lines := 3 }] else [])
             ∧ (s.eventRoom →
                 t.eventsOut = [eventNow s (.station .text) 0 (natWord y.chars.length) (flagWord y.version)])))
         ∧ (x.requester = .commandFetch → s.cu.fetchDiscard = true →
            t.kept = { s.kept with port := .free } ∧ t.cu.head = s.cu.head ∧ t.eventsOut = s.eventsOut
            ∧ ((s.cu.enabled = false ∨ s.cu.tail = s.cu.head) → t.cu.exec = .idle)
            ∧ (s.cu.enabled = true → s.cu.quiesce = false → s.cu.tail ≠ s.cu.head → t.cu.exec = .fetching))
         ∧ (∀ b e r bd c, x.requester = .storeRead → s.cu.exec = .busy b → b.work = .store e →
            s.pu.regions.preset = some r → s.tc.band = some bd → s.tc.channel = some c → c < 65536 →
            t.kept = { s.kept with port := .free } ∧ t.cu.exec = s.cu.exec ∧ t.eventsOut = s.eventsOut
            ∧ ∃ w1 : Word,
              (let fresh := [natWord (1 + 256 * bd.code + 65536 * c), w1]
               let line := if e.val % 2 = 0 then fresh ++ given.drop 2 else given.take 4 ++ fresh ++ given.drop 6
               t.pu.queues.control.all = s.pu.queues.control.all
                 ++ [writeOf .storeWrite (r.base + 32 * (e.val / 2)) line (some .presetStore)]
               ∧ (∀ i, s.sd.identity = some i → w1 = (1 : BitVec 16) ++ i)
               ∧ (s.sd.identity = none → w1.extractLsb' 16 16 = 0)))
         ∧ (∀ b, x.requester = .storeWrite → s.cu.exec = .busy b → notHeld .presetStore →
            t.kept = { s.kept with port := .free, locks := without .presetStore }
            ∧ t.cu.head = (if b.counts then s.cu.head + 1 else s.cu.head)
            ∧ (t.cu.exec = .idle ∨ t.cu.exec = .fetching)
            ∧ (s.eventRoom → t.eventsOut = [busyCompletion s b .done])))

/-- R46, R59, R60, R64, R69, R110, R113, R115: what the Ring Engine and the Delay Unit do when memory answers a
transfer OK: the lines of a store, its header and its producer, after which the Command Unit writes the producer word
no more even with its own write of it in flight (the model's choice, log entry 63); the header of a fetched slot, good
or bad, and its samples; the writes and reads of the delay lines. A word the answer does not give is 0 (the model's
choice, log entry 6), and a read belongs to the prepared block whose number it carries (log entry 25). -/
def Obligations.PartAnswerOkServesAudio : Prop :=
  ∀ (s : State) (data : List Word) (x : Transfer), s.resetLow = false → s.pu.port = .part x →
    ∃ t, exec (.partTransferAnswer true data) s = .next t
      ∧ (let given := (data ++ List.replicate x.beats 0).take x.beats
         let notHeld := fun o : Sequence => ∀ tx, s.pu.proc.head ≠ some (tx, .held o)
         let without := fun o : Sequence => s.pu.locks.filter fun l => decide (l.owner ≠ o)
         ((x.requester = .inputLine ∨ ∃ i, x.requester = .delayWrite i) →
            t.kept = { s.kept with port := .free } ∧ t.pu.queues = s.pu.queues ∧ t.eventsOut = s.eventsOut)
         ∧ (x.requester = .inputHeader → notHeld .inputStore →
            t.kept = { s.kept with port := .free, locks := without .inputStore } ∧ t.pu.queues = s.pu.queues
            ∧ t.eventsOut = s.eventsOut)
         ∧ (x.requester = .inputProducer →
            t.kept = { s.kept with port := .free, re := { s.re with inProd := s.re.inProd + 1, store := none } }
            ∧ t.pu.queues = s.pu.queues ∧ t.eventsOut = s.eventsOut)
         ∧ (∀ (i : Fin 8) (g j : Nat) (p : Prepared), x.requester = .delayRead i g j →
            s.du.speakers[i].prepared = some p →
            (p.generation ≠ g → t.kept = { s.kept with port := .free })
            ∧ (p.generation = g → ∃ frames : Chan,
                t.kept = { s.kept with
                  port := .free,
                  du := { s.du with speakers := s.du.speakers.set i { s.du.speakers[i] with
                    prepared := some { p with
                      frames := frames,
                      lines := p.lines.map fun l => if l.start = j then { l with status := .ok } else l } } } }
                ∧ (j + given.length ≤ p.frames.length → ∀ k : Nat, frames.getD k 0 =
                    if j ≤ k ∧ k < j + given.length then sampleOf (given.getD (k - j) 0) else p.frames.getD k 0)))
         ∧ (∀ j, x.requester = .fetchHeader → s.re.fetch = .fetching j →
            (let header := given.getD 0 0
             let n := (byteOf header 0).toNat
             ((n = 2 ∨ n = 6 ∨ n = 8) →
                t.kept = { s.kept with
                  port := .free,
                  re := { s.re with fetch := .fetching { j with
                    channels := n, disc := header.getLsbD 8, last := header.getLsbD 9, words := [],
                    left := 4 * n } } }
                ∧ t.pu.queues.render.all = s.pu.queues.render.all
                    ++ (List.range (4 * n)).map fun k =>
                        readOf .fetchSamples (j.slotAddr + 64 + 32 * k) 8 (some .outputFetch))
             ∧ (n ≠ 2 → n ≠ 6 → n ≠ 8 → notHeld .outputFetch →
                 (j.discard = false →
                   t.kept = { s.kept with
                     port := .free, locks := without .outputFetch, re := { s.re with fetch := .bad } })
                 ∧ (j.discard = true → s.cu.outProd = s.re.outCons →
                     t.kept = { s.kept with
                       port := .free, locks := without .outputFetch, re := { s.re with fetch := .free } })
                 ∧ (s.pu.faultRec = none → t.pu.faultRec = some
                     { kind := .badOutputSlot, addr := j.slotAddr, stamp := s.clock.stamp })
                 ∧ (s.eventRoom →
                     t.eventsOut = [eventNow s (.fault .badOutputSlot) 0 (natWord j.slotAddr) 0]))))
         ∧ (∀ j, x.requester = .fetchSamples → s.re.fetch = .fetching j →
            (1 < j.left →
               t.kept = { s.kept with
                 port := .free,
                 re := { s.re with fetch := .fetching { j with words := j.words ++ given, left := j.left - 1 } } })
            ∧ (j.left = 1 → notHeld .outputFetch → j.discard = false →
               ∃ frames : List Frame,
                 t.kept = { s.kept with
                   port := .free, locks := without .outputFetch,
                   re := { s.re with fetch := (.complete
                     { channels := j.channels, frames := frames, disc := j.disc, last := j.last }) } }
                 ∧ frames.length = 32
                 ∧ ∀ (k : Fin 32) (c : Fin 8), c.val < j.channels →
                     (frames.getD k.val []).getD c.val 0
                       = sampleOf ((j.words ++ given).getD (j.channels * k.val + c.val) 0))
            ∧ (j.left = 1 → notHeld .outputFetch → j.discard = true → s.cu.outProd = s.re.outCons →
               t.kept = { s.kept with
                 port := .free, locks := without .outputFetch, re := { s.re with fetch := .free } })))

/-- R46, R47, R48, R50, R61, R65, R115, R170, R184, R196, R197, R199: memory answers a part transfer ERROR:
PART_MEMORY_ERROR at the transfer's address, a locked sequence aborted with its transfers removed and its lock
released, and the requester told. A command fetch completes FAILED, with a kind that is free (the model's choice, log
entry 9, with the count of free values that gives it); a failed event write is dropped and counted, and one of the
event that reports such a failure raises no second fault. -/
def Obligations.PartAnswerErrorRaisesFault : Prop :=
  ∀ (s : State) (data : List Word) (x : Transfer), s.resetLow = false → s.pu.port = .part x →
    ∃ t, exec (.partTransferAnswer false data) s = .next t ∧ t.pu.port = .free
      ∧ (let fault := eventNow s (.fault .partMemoryError) 0 (natWord x.addr) 1
         (x.requester ≠ .eventWrite →
            t.pu.faultRec = (match s.pu.faultRec with
              | none => some { kind := .partMemoryError, addr := x.addr, stamp := s.clock.stamp }
              | some r =>
                if r.kind = .partMemoryError ∨ r.kind = .ringGeometry then some r
                else some { kind := .partMemoryError, addr := x.addr, stamp := s.clock.stamp }))
         ∧ (∀ i : Fin 8, x.requester = .delayWrite i ∨ x.requester = .captureRecord i → x.sequence = none →
            t.kept = { s.kept with port := .free } ∧ (s.eventRoom → t.eventsOut = [fault]))
         ∧ (x.requester = .inputLine ∨ x.requester = .inputHeader ∨ x.requester = .inputProducer →
            x.sequence = some .inputStore →
            t.pu.locks = s.pu.locks.filter (fun l => decide (l.owner ≠ .inputStore))
            ∧ (∀ y ∈ t.pu.queues.input.all, y.sequence ≠ some .inputStore)
            ∧ t.re.store = none ∧ t.re.inProd = s.re.inProd ∧ t.re.dropped = s.re.dropped + 1
            ∧ t.re.disc = true)
         ∧ ((x.requester = .fetchHeader ∨ x.requester = .fetchSamples) → x.sequence = some .outputFetch →
            t.pu.locks = s.pu.locks.filter (fun l => decide (l.owner ≠ .outputFetch))
            ∧ (∀ y ∈ t.pu.queues.render.all, y.sequence ≠ some .outputFetch)
            ∧ ∀ j, s.re.fetch = .fetching j → j.discard = false → t.re = { s.re with fetch := .failed })
         ∧ (∀ last, x.requester = .textLine last → x.sequence = some .textWrite →
            t.pu.locks = s.pu.locks.filter (fun l => decide (l.owner ≠ .textWrite))
            ∧ (∀ y ∈ t.pu.queues.control.all, y.sequence ≠ some .textWrite)
            ∧ t.sd = { s.sd with writer := none, lastWritten := none })
         ∧ (∀ last, x.requester = .statusLine last → x.sequence = some .statusWrite →
            t.pu.locks = s.pu.locks.filter (fun l => decide (l.owner ≠ .statusWrite))
            ∧ (∀ y ∈ t.pu.queues.control.all, y.sequence ≠ some .statusWrite)
            ∧ (s.imageCurrent → t.cu.status = { s.cu.status with writing := false, again := false }))
         ∧ (∀ b, s.cu.exec = .busy b →
            (x.requester = .presetRead ∧ x.sequence = none
              ∨ (x.requester = .storeRead ∨ x.requester = .storeWrite) ∧ x.sequence = some .presetStore) →
            (∀ tx, s.pu.proc.head ≠ some (tx, .held .presetStore)) →
            t.kept = { s.kept with
              port := .free, locks := if x.sequence = none then s.pu.locks
                else s.pu.locks.filter (fun l => decide (l.owner ≠ .presetStore)) }
            ∧ t.cu.head = (if b.counts then s.cu.head + 1 else s.cu.head)
            ∧ (t.cu.exec = .idle ∨ t.cu.exec = .fetching)
            ∧ (s.eventRoom → t.eventsOut = [fault, busyCompletion s b .failed]))
         ∧ (∀ (i : Fin 8) (g j : Nat) (p : Prepared), x.requester = .delayRead i g j → x.sequence = none →
            s.du.speakers[i].prepared = some p → p.generation = g →
            t.kept = { s.kept with
              port := .free,
              du := { s.du with speakers := s.du.speakers.set i { s.du.speakers[i] with
                prepared := some { p with
                  lines := p.lines.map fun l => if l.start = j then { l with status := .error } else l } } } })
         ∧ (∀ w : IndexWord, x.requester = .indexWord w → x.sequence = none → w ≠ .eventsDropped →
            s.cu.words[w.place] = { inFlight := true, again := false } →
            t.kept = { s.kept with port := .free }
            ∧ t.cu.words[w.place] = { inFlight := false, again := false })
         ∧ (∀ e, x.requester = .eventWrite → x.sequence = none → s.cu.evWrite = some e →
            t.kept = { s.kept with port := .free } ∧ t.cu.evProd = s.cu.evProd
            ∧ (e.event.ofEventWrite = true → t.pu.faultRec = s.pu.faultRec)
            ∧ (s.cu.enabled = true → s.cu.quiesce = false → s.cu.pendingEvents = [] → eventRingFull s = false →
                t.cu.evDropped = s.cu.evDropped + 1
                ∧ t.eventsOut = if e.event.ofEventWrite then [] else [{ fault with ofEventWrite := true }]))
         ∧ (x.requester = .commandFetch → x.sequence = none → s.cu.fetchDiscard = false →
            t.kept = { s.kept with port := .free, freeUsed := s.freeUsed + 1 } ∧ t.cu.head = s.cu.head + 1
            ∧ (t.cu.exec = .idle ∨ t.cu.exec = .fetching)
            ∧ (s.eventRoom → ∃ kind, t.eventsOut = [fault, completionEvent s 0 kind .failed])))

/-- R38, R39, R40, R43, R60, R64, R170, R184, R199: the request at the head of the list is granted when an entry is
free and its range overlaps no held one; a waiting transaction it stops becomes held, and its sequence places its
first transfers, a store its producer write whether or not the Command Unit writes that word at the same time (the
model's choice, log entry 63). A free place of a queue goes to the transfer that has waited longest (the model's
choice, log entry 7). With nothing to grant the step does nothing (the model's choice, log entry 2). -/
def Obligations.LockAndQueueAdmitOldest : Prop :=
  (∀ s : State, s.resetLow = false → s.imageCurrent → ∃ t, exec .lockGrant s = .next t
     ∧ (∀ l rest, s.pu.requests = l :: rest →
         (let fits := s.pu.locks.length < 4 ∧ ∀ h ∈ s.pu.locks,
             l.startLine + l.lines ≤ h.startLine ∨ h.startLine + h.lines ≤ l.startLine
          (fits →
             t.kept = { s.kept with locks := s.pu.locks ++ [l], proc := t.pu.proc } ∧ t.pu.requests = rest
             ∧ (∀ tx, s.pu.proc.head = some (tx, .waiting) → l.startLine ≤ tx.line.toNat →
                 tx.line.toNat < l.startLine + l.lines → (tx.write = true ∨ l.owner ≠ .outputFetch) →
                 t.pu.proc = { s.pu.proc with head := some (tx, .held l.owner) })
             ∧ ((∀ tx, s.pu.proc.head = some (tx, .waiting) →
                   ¬ (l.startLine ≤ tx.line.toNat ∧ tx.line.toNat < l.startLine + l.lines
                       ∧ (tx.write = true ∨ l.owner ≠ .outputFetch))) → t.pu.proc = s.pu.proc)
             ∧ (l.owner = .statusWrite → t.pu.queues.control.all = s.pu.queues.control.all
                 ++ [writeOf (.statusLine false) (s.pu.regions.control + 0xE0) (s.cu.status.copy.drop 8)
                       (some .statusWrite),
                     writeOf (.statusLine true) (s.pu.regions.control + 0xC0) (s.cu.status.copy.take 8)
                       (some .statusWrite)])
             ∧ (∀ j, l.owner = .outputFetch → s.re.fetch = .fetching j →
                 t.pu.queues.render.all = s.pu.queues.render.all
                   ++ [readOf .fetchHeader j.slotAddr 8 (some .outputFetch)])
             ∧ (∀ j, l.owner = .inputStore → s.re.store = some j →
                 t.pu.queues.input.all = s.pu.queues.input.all ++ inputLines j
                   ++ [writeOf .inputHeader j.slotAddr (inputHeader j) (some .inputStore),
                       writeOf .inputProducer (s.pu.regions.control + 0x4C)
                         [(s.re.inProd + 1).setWidth 32] (some .inputStore)])
             ∧ (∀ b e r, l.owner = .presetStore → s.cu.exec = .busy b → b.work = .store e →
                 s.pu.regions.preset = some r →
                 t.pu.queues.control.all = s.pu.queues.control.all
                   ++ [readOf .storeRead (r.base + 32 * (e.val / 2)) 8 (some .presetStore)])
             ∧ (∀ y, l.owner = .textWrite → s.sd.writer = some y → ∃ low high : List Word,
                 t.pu.queues.control.all = s.pu.queues.control.all
                   ++ [writeOf (.textLine false) (s.pu.regions.control + 0x220) low (some .textWrite),
                       writeOf (.textLine false) (s.pu.regions.control + 0x240) high (some .textWrite),
                       writeOf (.textLine true) (s.pu.regions.control + 0x200)
                         [word4 y.chars.length y.version.toNat 0 0, 0, 0, 0, 0, 0, 0, 0] (some .textWrite)]
                 ∧ low.length = 8 ∧ high.length = 8
                 ∧ ∀ k : Fin 64, byteOf ((low ++ high).getD (k.val / 4) 0) (k.val % 4) = y.chars.getD k.val 0))
          ∧ (¬ fits → t.kept = s.kept ∧ t.pu.requests = s.pu.requests ∧ t.pu.queues = s.pu.queues)))
     ∧ (s.pu.requests = [] → t.kept = s.kept ∧ t.pu.requests = []))
  ∧ (∀ (s : State) (q : Queue), s.resetLow = false → ∃ t, exec (.queueRoomFreed q) s = .next t
     ∧ t.kept = s.kept
     ∧ (∀ r : Queue, r ≠ q → t.pu.queues.get r = s.pu.queues.get r)
     ∧ (∀ x rest, (s.pu.queues.get q).waiting = x :: rest →
         (s.pu.queues.get q).items.length < (if q = .render then 32 else 16) →
         t.pu.queues.get q = { items := (s.pu.queues.get q).items ++ [x], waiting := rest })
     ∧ (((s.pu.queues.get q).waiting = [] ∨ (if q = .render then 32 else 16) ≤ (s.pu.queues.get q).items.length) →
         t.pu.queues.get q = s.pu.queues.get q))

/-! ## The tapped words (11, R37, R57) -/

/-- R192: the checks of the geometry, in order, each with its code; then an enable request: with a valid geometry the
rings are enabled over it with the indices at 0 and the shadow's tail and consumer taken if they pass their checks;
with an invalid one the code is kept and RING_GEOMETRY is raised, its event counted as dropped. R193: a ring control
word with ENABLE 0 disables enabled rings: COMMAND and EVENT are emptied, a fetch under way is discarded, also one
whose read still waits for room (the model's choice, log entry 56), and the events not yet placed for writing are
counted in events-dropped. -/
def Obligations.RingControlEnablesAndDisables : Prop :=
  (∀ (r : Regions) (g : Geometry),
    (let size := 4 ≤ g.cmdLog ∧ g.cmdLog ≤ 10
     let evtSize := 6 ≤ g.evtLog ∧ g.evtLog ≤ 12
     let base := g.cmdBase % 32 = 0 ∧ g.cmdBase + 32 * 2 ^ g.cmdLog ≤ 2 ^ 28
     let evtBase := g.evtBase % 16 = 0 ∧ g.evtBase + 16 * 2 ^ g.evtLog ≤ 2 ^ 28
     let clear := fun (lo n : Nat) => ∀ (m : Fin 7) (w : Range), r.role m = some w →
        lo + n ≤ w.base ∨ w.base + w.size ≤ lo
     let apart := g.cmdBase + 32 * 2 ^ g.cmdLog ≤ g.evtBase ∨ g.evtBase + 16 * 2 ^ g.evtLog ≤ g.cmdBase
     (¬ size → geometryStatus r g = .cmdSize)
     ∧ (size → ¬ evtSize → geometryStatus r g = .evtSize)
     ∧ (size → evtSize → ¬ base → geometryStatus r g = .cmdBase)
     ∧ (size → evtSize → base → ¬ evtBase → geometryStatus r g = .evtBase)
     ∧ (size → evtSize → base → evtBase → ¬ clear g.cmdBase (32 * 2 ^ g.cmdLog) → geometryStatus r g = .cmdOverlap)
     ∧ (size → evtSize → base → evtBase → clear g.cmdBase (32 * 2 ^ g.cmdLog) →
         ¬ (clear g.evtBase (16 * 2 ^ g.evtLog) ∧ apart) → geometryStatus r g = .evtOverlap)
     ∧ (size → evtSize → base → evtBase → clear g.cmdBase (32 * 2 ^ g.cmdLog) →
         clear g.evtBase (16 * 2 ^ g.evtLog) → apart → geometryStatus r g = .ok)))
  ∧ (∀ (s : State) (upper : BitVec 31), s.resetLow = false →
     ∃ t, exec (.ringEnable upper) s = .next t
       ∧ (let word : Word := upper ++ (1 : BitVec 1)
          let shadow := s.pu.shadow.set 4 word
          let g : Geometry := { cmdBase := s.pu.shadow[0].toNat, cmdLog := s.pu.shadow[1].toNat,
                                evtBase := s.pu.shadow[2].toNat, evtLog := s.pu.shadow[3].toNat }
          let tail : Index := s.pu.shadow[5].setWidth 16
          let cons : Index := s.pu.shadow[6].setWidth 16
          (s.cu.enabled = true → t.kept = { s.kept with shadow := shadow } ∧ t.cu.head = s.cu.head
             ∧ t.cu.exec = s.cu.exec ∧ t.eventsOut = s.eventsOut)
          ∧ (s.cu.enabled = false → geometryStatus s.pu.regions g = .ok →
             t.kept = { s.kept with
               shadow := shadow,
               regions := { s.pu.regions with
                 command := some { base := g.cmdBase, size := 32 * 2 ^ g.cmdLog },
                 event := some { base := g.evtBase, size := 16 * 2 ^ g.evtLog } },
               enabled := true, ringStatus := .ok,
               tail := if tail.toNat ≤ 2 ^ g.cmdLog then tail else 0,
               evCons := if (-cons).toNat ≤ 2 ^ g.evtLog then cons else 0 }
             ∧ t.cu.head = 0 ∧ t.cu.evProd = 0
             ∧ (tail.toNat ≤ 2 ^ g.cmdLog → (-cons).toNat ≤ 2 ^ g.evtLog → s.cu.pendingEvents = [] →
                 t.cu.evDropped = 0 ∧ t.pu.faultRec = s.pu.faultRec)
             ∧ (tail ≠ 0 → tail.toNat ≤ 2 ^ g.cmdLog → s.cu.exec = .idle → s.cu.quiesce = false →
                 t.cu.exec = .fetching))
          ∧ (s.cu.enabled = false → geometryStatus s.pu.regions g ≠ .ok →
             t.kept = { s.kept with shadow := shadow, ringStatus := geometryStatus s.pu.regions g }
             ∧ t.cu.evDropped = s.cu.evDropped + 1 ∧ t.cu.exec = s.cu.exec
             ∧ (s.pu.faultRec = none → t.pins.alertN = false
                 ∧ t.pu.faultRec = some { kind := .ringGeometry, addr := s.pu.regions.control + 0x10,
                                          stamp := s.clock.stamp }))))
  ∧ (∀ (s : State) (upper : BitVec 31), s.resetLow = false →
     ∃ t, exec (.ringDisable upper) s = .next t
       ∧ (let shadow := s.pu.shadow.set 4 ((upper ++ (0 : BitVec 1) : Word))
          let unplaced := s.pu.queues.control.waiting.any fun x => decide (x.requester = .eventWrite)
          (s.cu.enabled = false → t.kept = { s.kept with shadow := shadow } ∧ t.cu.exec = s.cu.exec
             ∧ t.eventsOut = s.eventsOut)
          ∧ (s.cu.enabled = true →
             t.kept = { s.kept with
               shadow := shadow, enabled := false,
               regions := { s.pu.regions with command := none, event := none } }
             ∧ t.cu.head = s.cu.head ∧ t.cu.evProd = s.cu.evProd ∧ t.pu.faultRec = s.pu.faultRec
             ∧ t.cu.exec = s.cu.exec
             ∧ t.cu.fetchDiscard = (s.cu.fetchDiscard || decide (s.cu.exec = .fetching))
             ∧ t.cu.pendingEvents = [] ∧ t.cu.evWrite = (if unplaced then none else s.cu.evWrite)
             ∧ t.cu.evDropped =
                 s.cu.evDropped + BitVec.ofNat 32 (s.cu.pendingEvents.length + (if unplaced then 1 else 0))
             ∧ t.pins.irqN = true)))

/-- R37, R194, R196: the command tail and the event consumer: the bytes enabled are merged into the shadow, and the
merged word is accepted within its bound (or with the rings disabled) and otherwise rejected with RING_INDEX. R57, R63:
the input-ring consumer and the output-ring producer: accepted when the ring is left with 0 to its slot count in use,
or its region is unset; rejected with RING_INDEX otherwise. -/
def Obligations.IndexWordsAreChecked : Prop :=
  (∀ (s : State) (w : Word) (be : BitVec 4), s.resetLow = false →
     (let tailWord := mergeWord s.pu.shadow[5] w be
      let tail : Index := tailWord.setWidth 16
      let consWord := mergeWord s.pu.shadow[6] w be
      let cons : Index := consWord.setWidth 16
      let rejected := fun (t : State) (a : Nat) =>
         (s.pu.faultRec = none → t.pu.faultRec = some { kind := .ringIndex, addr := a, stamp := s.clock.stamp })
         ∧ (s.eventRoom → t.eventsOut = [eventNow s (.fault .ringIndex) 0 (natWord a) 0])
      (∃ t, exec (.commandTailWrite w be) s = .next t
         ∧ (be = 0 → t.kept = s.kept)
         ∧ (be ≠ 0 → (s.cu.enabled = false ∨ (tail - s.cu.head).toNat ≤ commandSlots s) →
             t.kept = { s.kept with shadow := s.pu.shadow.set 5 tailWord, tail := tail }
             ∧ (s.cu.enabled = true → s.cu.exec = .idle → s.cu.quiesce = false → tail ≠ s.cu.head →
                 t.cu.exec = .fetching ∧ t.pu.queues.control.all = s.pu.queues.control.all
                   ++ [readOf .commandFetch (commandBase s + 32 * (s.cu.head.toNat % commandSlots s)) 8 none]))
         ∧ (be ≠ 0 → s.cu.enabled = true → commandSlots s < (tail - s.cu.head).toNat →
             t.kept = { s.kept with shadow := s.pu.shadow.set 5 tailWord }
             ∧ rejected t (s.pu.regions.control + 0x14)))
      ∧ ∃ t, exec (.eventConsumerWrite w be) s = .next t
         ∧ (be = 0 → t.kept = s.kept)
         ∧ (be ≠ 0 → (s.cu.enabled = false ∨ (s.cu.evProd - cons).toNat ≤ eventSlots s) →
             t.kept = { s.kept with shadow := s.pu.shadow.set 6 consWord, evCons := cons }
             ∧ t.pins.irqN = !(s.cu.enabled && s.cu.irqEnable && decide (s.cu.evProd ≠ cons)))
         ∧ (be ≠ 0 → s.cu.enabled = true → eventSlots s < (s.cu.evProd - cons).toNat →
             t.kept = { s.kept with shadow := s.pu.shadow.set 6 consWord }
             ∧ rejected t (s.pu.regions.control + 0x18))))
  ∧ (∀ (s : State) (w : Word) (be : BitVec 4), s.resetLow = false → be ≠ 0 →
     (let consWord := mergeWord s.pu.shadow[7] w be
      let cons : Index := consWord.setWidth 16
      let prodWord := mergeWord s.pu.shadow[8] w be
      let prod : Index := prodWord.setWidth 16
      let rejected := fun (t : State) (a : Nat) =>
         (s.pu.faultRec = none → t.pu.faultRec = some { kind := .ringIndex, addr := a, stamp := s.clock.stamp })
         ∧ (s.eventRoom → t.eventsOut = [eventNow s (.fault .ringIndex) 0 (natWord a) 0])
      (∃ t, exec (.inputRingConsumerWrite w be) s = .next t
         ∧ ((∀ r, s.pu.regions.input = some r → (s.re.inProd - cons).toNat ≤ r.size / 2048) →
             t.kept = { s.kept with shadow := s.pu.shadow.set 7 consWord, inCons := cons })
         ∧ (∀ r, s.pu.regions.input = some r → r.size / 2048 < (s.re.inProd - cons).toNat →
             t.kept = { s.kept with shadow := s.pu.shadow.set 7 consWord }
             ∧ rejected t (s.pu.regions.control + 0x1C)))
      ∧ ∃ t, exec (.outputRingProducerWrite w be) s = .next t
         ∧ ((∀ r, s.pu.regions.output = some r → (prod - s.re.outCons).toNat ≤ r.size / 2048) →
             t.kept = { s.kept with shadow := s.pu.shadow.set 8 prodWord, outProd := prod, re := t.re }
             ∧ t.re = { s.re with fetch := t.re.fetch }
             ∧ ((s.sc.path = .direct ∨ s.sc.connected = none) → t.re = s.re)
             ∧ (∀ r, s.sc.path = .hosted → s.sc.connected.isSome = true → s.pu.regions.output = some r →
                 s.re.fetch = .free → prod ≠ s.re.outCons → s.cu.quiesce = false →
                 t.re.fetch = .fetching
                   { slotAddr := r.base + 2048 * (s.re.outCons.toNat % (r.size / 2048)), channels := 0,
                     disc := false, last := false, words := [], left := 0, discard := false }))
         ∧ (∀ r, s.pu.regions.output = some r → r.size / 2048 < (prod - s.re.outCons).toNat →
             t.kept = { s.kept with shadow := s.pu.shadow.set 8 prodWord }
             ∧ rejected t (s.pu.regions.control + 0x20))))

/-- R35, R36, R37, R198, R203: a word of the anchor: the merge is byte by byte; a geometry word is guarded while
the rings are enabled and only merged otherwise, the words 4 to 9 act as their own rows, the spare words do
nothing, and neither does a beat with no byte enabled. INTERRUPT_ENABLE_WRITE takes bit 0 and drives IRQ_N. -/
def Obligations.AnchorWordWriteActsByOffset : Prop :=
  (∀ (old new : Word) (be : BitVec 4) (b : Fin 4),
    byteOf (mergeWord old new be) b.val = if be.getLsbD b.val then byteOf new b.val else byteOf old b.val)
  ∧ ∀ (s : State) (w : Word) (be : BitVec 4), s.resetLow = false →
    (∃ t, exec (.interruptEnableWrite w be) s = .next t
        ∧ (be = 0 → t.kept = s.kept)
        ∧ (be ≠ 0 →
            t.kept = { s.kept with shadow := s.pu.shadow.set 9 (mergeWord s.pu.shadow[9] w be),
                                   irqEnable := (mergeWord s.pu.shadow[9] w be).getLsbD 0 }
            ∧ t.pins.irqN = !(s.cu.enabled && (mergeWord s.pu.shadow[9] w be).getLsbD 0
                                && decide (s.cu.evProd ≠ s.cu.evCons))))
    ∧ (be ≠ 0 →
        exec (.anchorWordWrite 5 w be) s = exec (.commandTailWrite w be) s
        ∧ exec (.anchorWordWrite 6 w be) s = exec (.eventConsumerWrite w be) s
        ∧ exec (.anchorWordWrite 7 w be) s = exec (.inputRingConsumerWrite w be) s
        ∧ exec (.anchorWordWrite 8 w be) s = exec (.outputRingProducerWrite w be) s
        ∧ exec (.anchorWordWrite 9 w be) s = exec (.interruptEnableWrite w be) s)
    ∧ (∀ upper : BitVec 31,
        exec (.anchorWordWrite 4 (upper ++ (1 : BitVec 1)) 0xF) s = exec (.ringEnable upper) s
        ∧ exec (.anchorWordWrite 4 (upper ++ (0 : BitVec 1)) 0xF) s = exec (.ringDisable upper) s)
    ∧ ∀ off : Fin 16, ∃ t, exec (.anchorWordWrite off w be) s = .next t
        ∧ ((be = 0 ∨ 10 ≤ off.val) → t.kept = s.kept ∧ t.pu.faultRec = s.pu.faultRec ∧ t.eventsOut = s.eventsOut)
        ∧ (∀ n : Fin 10, n.val = off.val → be ≠ 0 → off.val < 4 → s.cu.enabled = false →
            t.kept = { s.kept with shadow := s.pu.shadow.set n (mergeWord s.pu.shadow[n] w be) })
        ∧ (be ≠ 0 → off.val < 4 → s.cu.enabled = true → t.kept = s.kept
            ∧ (s.pu.faultRec = none → t.pu.faultRec = some
                { kind := .guardWrite, addr := s.pu.regions.control + 4 * off.val, stamp := s.clock.stamp })
            ∧ (s.eventRoom → t.eventsOut =
                [eventNow s (.fault .guardWrite) 0 (natWord (s.pu.regions.control + 4 * off.val)) 0]))

/-! ## Audio time (01, 07, 08) -/

/-- R10, R11: the end of a measurement window: each port's count is classified and its lock state moves by the
table of R11, and the counts begin again. -/
def Obligations.RateWindowMovesLocks : Prop :=
  (∀ n : Nat,
    (n ≤ 7 → classify n = .low) ∧ (30 ≤ n → n ≤ 34 → classify n = .cls .k32)
    ∧ (42 ≤ n → n ≤ 46 → classify n = .cls .k44) ∧ (47 ≤ n → n ≤ 50 → classify n = .cls .k48)
    ∧ (85 ≤ n → n ≤ 91 → classify n = .cls .k88) ∧ (92 ≤ n → n ≤ 100 → classify n = .cls .k96)
    ∧ ((8 ≤ n ∧ n < 30) ∨ (34 < n ∧ n < 42) ∨ (50 < n ∧ n < 85) ∨ 100 < n → classify n = .out))
  ∧ ∀ s : State, s.resetLow = false → ∃ t, exec .rateWindowEnd s = .next t
    ∧ t.clock.windowPos = 0 ∧ t.clock.stamp = s.clock.stamp ∧ t.clock.cls = s.clock.cls
    ∧ ∀ p : Fin 6,
      (let q := s.ports[p]
       let r := classify q.windowCount
       t.ports[p].windowCount = 0 ∧ t.ports[p].candidate = some r ∧ t.ports[p].format = q.format
       ∧ t.ports[p].offered = q.offered
       ∧ (q.lock = .noSignal → t.ports[p].lock = if r = .low then .noSignal else .measuring)
       ∧ (q.lock = .measuring →
           (r = .low → t.ports[p].lock = .noSignal)
           ∧ (∀ c, r = .cls c → t.ports[p].lock =
               if q.candidate = some (.cls c) then .locked c else .measuring)
           ∧ (r = .out → t.ports[p].lock = if q.candidate = some .out then .unsupported else .measuring))
       ∧ (q.lock = .unsupported →
           (r = .low → t.ports[p].lock = .noSignal) ∧ (∀ c, r = .cls c → t.ports[p].lock = .measuring)
           ∧ (r = .out → t.ports[p].lock = .unsupported))
       ∧ (∀ c, q.lock = .locked c →
           (r = .cls c → t.ports[p].lock = .locked c ∧ t.ports[p].miss = false)
           ∧ (r ≠ .cls c → q.miss = false → t.ports[p].lock = .locked c ∧ t.ports[p].miss = true)
           ∧ (r ≠ .cls c → q.miss = true → r = .low → t.ports[p].lock = .noSignal)
           ∧ (r ≠ .cls c → q.miss = true → r ≠ .low → t.ports[p].lock = .measuring)))

/-- R9, R10, R12, R13, R15, R29: a frame is counted; on a LOCKED port it joins the block being assembled, and the 32nd
completes the block; a completion of the connected source's port at the class in force is a boundary. R14, R58, R62,
R70: what the Ring Engine does with a block of the served port: one that IN4 discards breaks the run, one that finds a
store under way or the ring full is a drop, the first of a run with INPUT_DROPPED, and any other begins its store,
which asks for the lock of its slot. R29, R121, R128, R133, R137: in ACQUIRE the first completion at another class
takes that class with an output restart. That the stamp rises and the format is sampled before the block is offered is
DEDUCED (log entry 15), as is that a quiesce begins no store and counts no drop for it (log entry 32), and that a
radio source's completion waits for the tuner to be a boundary at another class is the model's choice (log entry
47). -/
def Obligations.PortFrameFillsBlock : Prop :=
  (∀ (s : State) (p : Fin 6) (bits : List Bool) (fmt : Bool), s.resetLow = false →
     ∃ t, exec (.portFrame p bits fmt) s = .next t
       ∧ (let q := s.ports[p]
          let frame := frameOfBits (if p = 0 then 8 else 2) bits
          let offLine : Format := if fmt then .encoded else .pcm
          ((∀ c, q.lock ≠ .locked c) →
             t.kept = { s.kept with ports := s.ports.set p { q with windowCount := q.windowCount + 1 } })
          ∧ (∀ c, q.lock = .locked c → q.filling.length ≠ 31 →
             (let q' := { q with
                windowCount := q.windowCount + 1, filling := q.filling ++ [frame],
                mark := decide (p = 4) && decide (s.tc.st = .tuned) && (q.filling.isEmpty || q.mark) }
              t.kept = { s.kept with ports := s.ports.set p q' }))
          ∧ (∀ c, q.lock = .locked c → q.filling.length = 31 → q.format = offLine → s.ou.link.source ≠ .port p →
             (∀ i, s.sc.connected = some i → s.sc.table[i].port ≠ p) →
             (let q' := { q with
                windowCount := q.windowCount + 1, filling := [], offered := some (q.filling ++ [frame]),
                mark := false, change := false }
              t.kept = { s.kept with ports := s.ports.set p q' }))
          ∧ (∀ i, q.lock = .locked s.clock.cls → q.filling.length = 31 → s.sc.connected = some i →
             s.sc.table[i].port = p → (p = 4 → s.tc.st = .tuned) →
             t.clock.stamp = s.clock.stamp + 1
             ∧ (s.sc.st = .playing → q.format = offLine → t.sc = s.sc
                 ∧ t.clock = { s.clock with stamp := s.clock.stamp + 1, following := true, own := false }))))
  ∧ (∀ (s : State) (p : Fin 6) (bits : List Bool) (fmt : Bool) (i : Fin 8) (c : RateClass) (r : Range),
    s.resetLow = false → s.ports[p].lock = .locked c → s.ports[p].filling.length = 31 → s.sc.connected = some i →
    s.sc.table[i].port = p → s.sc.path = .hosted → s.pu.regions.input = some r → s.sc.connectRequest = false →
    (s.ports[p].change = false ∨ s.ports[p].format = (if fmt then .encoded else .pcm) ∨ s.sc.table[i].path ≠ .auto) →
    ∃ t, exec (.portFrame p bits fmt) s = .next t
      ∧ (let q := s.ports[p]
         let settled := p ≠ 4 ∨ s.tc.st = .tuned
         let good := p ≠ 4 ∨ (s.tc.st = .tuned ∧ q.mark = true)
         let boundary := (c = s.clock.cls ∨ s.sc.st = .acquire) ∧ settled
         let stamp := if boundary then s.clock.stamp + 1 else s.clock.stamp
         let slots := r.size / 2048
         let slot := r.base + 2048 * (s.re.inProd.toNat % slots)
         let full := (s.re.inProd - s.cu.inCons).toNat = slots
         let unchanged := t.re.store = s.re.store ∧ t.re.pendingDrops = s.re.pendingDrops
           ∧ t.re.dropRun = s.re.dropRun ∧ t.re.dropped = s.re.dropped
         let drop := fun cause : Nat =>
           t.re.store = s.re.store ∧ t.re.disc = true ∧ t.re.pendingDrops = min 65535 (s.re.pendingDrops + 1)
           ∧ t.re.dropRun = true ∧ t.re.dropped = s.re.dropped + 1
           ∧ (s.re.dropRun = false → s.eventRoom →
               { eventNow s (.ring .inputDropped) (BitVec.ofNat 16 i.val) (natWord cause)
                   (s.re.inProd.setWidth 32) with stamp := stamp } ∈ t.eventsOut)
         (s.sc.st ≠ .drain ∨ ∃ k : Fin 8, t.ru.levels[k].applied ≠ 192) →
           t.clock.stamp = stamp ∧ t.re.inProd = s.re.inProd
           ∧ (¬ good → unchanged ∧ t.re.disc = true)
           ∧ (good → s.re.store ≠ none → drop 1)
           ∧ (good → s.re.store = none → full → drop 0)
           ∧ (good → s.re.store = none → ¬ full → s.cu.quiesce = true → unchanged ∧ t.re.disc = s.re.disc)
           ∧ (good → s.re.store = none → ¬ full → s.cu.quiesce = false →
               t.re.store = some
                 { frames := q.filling ++ [frameOfBits (if p = 0 then 8 else 2) bits], source := i, port := p,
                   cls := c, format := if q.change ∧ fmt then .encoded else if q.change then .pcm else q.format,
                   channels := if p = 0 then 8 else 2, stamp := stamp, disc := s.re.disc,
                   drops := s.re.pendingDrops, slotAddr := slot }
               ∧ t.re.disc = false ∧ t.re.pendingDrops = 0 ∧ t.re.dropRun = false ∧ t.re.dropped = s.re.dropped
               ∧ { owner := .inputStore, startLine := slot / 32, lines := 64 } ∈ t.pu.requests)))
  ∧ ∀ (s : State) (p : Fin 6) (bits : List Bool) (fmt : Bool) (i : Fin 8) (c : RateClass),
    s.resetLow = false → s.ports[p].lock = .locked c → c ≠ s.clock.cls → s.ports[p].filling.length = 31 →
    s.sc.connected = some i → s.sc.table[i].port = p → s.sc.st = .acquire → s.sc.connectRequest = false →
    (p = 4 → s.tc.st = .tuned) →
    (s.ports[p].change = false ∨ s.ports[p].format = (if fmt then .encoded else .pcm) ∨ s.sc.table[i].path ≠ .auto) →
    ∃ t, exec (.portFrame p bits fmt) s = .next t
      ∧ (let lines := s.pu.regions.delay.isSome && !s.cu.quiesce
         let present := fun k : Fin 8 => decide (s.ru.speakers[k].presence ≠ .absent)
         let taken := s.ou.link.source = .port p ∧ (p = 4 → s.ports[p].mark = true)
         t.clock = { s.clock with stamp := s.clock.stamp + 1, cls := c, following := true, own := false }
         ∧ t.du.fill = (if lines then 32 else 0)
         ∧ (∀ k : Fin 8, t.du.speakers[k].late = false
             ∧ t.du.speakers[k].history = (if lines && present k then 32 else 0)
             ∧ t.ou.delayed[k] = if present k then some zeroChan else none)
         ∧ (∀ l : Fin 2, t.ou.lanes[l].count = 0)
         ∧ (s.ou.link.source = .main → t.ou.link.cls = c ∧ t.ou.link.count = 0)
         ∧ (s.ou.link.source ≠ .main → t.ou.link.count = s.ou.link.count
             ∧ t.ou.link.cls = if taken then c else s.ou.link.cls))

/-- R5, R29, R126, R127, R141: a boundary of the clock's own: the stamp rises, the lanes take their masks and begin a
new block, and each pair's latch becomes its block fault. A step that comes at the wrong time does nothing (the
model's choice, log entry 2), and after a FOLLOW_TIMEOUT either step is the next boundary of the clock's own (the
model's choice, log entry 19). R13, R15, R29: the boundary that a completion of the connected port makes in the class
in force does the same, the port's halves exchange roles and its format line is sampled, and without a connect the
clock follows the port and keeps the class; what the completion does first is DEDUCED (log entry 15). A lane that runs
on over its first boundary after RESTART with a mask set since then is the model's choice (log entry 66). -/
def Obligations.OwnBoundariesAdvanceTheBlock : Prop :=
  (∀ s : State, s.resetLow = false →
     (let made := fun (t : State) =>
         t.clock.stamp = s.clock.stamp + 1 ∧ t.clock.windowPos = s.clock.windowPos
         ∧ (∀ l : Fin 2, t.ou.lanes[l].active = s.ou.lanes[l].pending
             ∧ t.ou.lanes[l].pending = s.ou.lanes[l].pending ∧ t.ou.lanes[l].count = 0
             ∧ t.ou.lanes[l].running = decide (s.ou.lanes[l].pending ≠ 0))
         ∧ (∀ p : Fin 4, t.ap[p].blockFault = s.ap[p].latch ∧ t.ap[p].latch = false)
         ∧ t.ports = s.ports ∧ t.tc = s.tc ∧ t.sd = s.sd
      (∃ t, exec .freeRunBoundary s = .next t
         ∧ (s.clock.following = true → s.clock.own = false → t.kept = s.kept)
         ∧ ((s.clock.following = false ∨ s.clock.own = true) → made t
             ∧ (s.sc.st = .playing → t.sc = s.sc ∧ t.clock = { s.clock with stamp := s.clock.stamp + 1 })))
      ∧ ∃ t, exec .followTimeout s = .next t
         ∧ (s.clock.following = false → t.kept = s.kept)
         ∧ (s.clock.following = true → made t
             ∧ (s.sc.st = .playing → t.sc = s.sc
                 ∧ t.clock = { s.clock with stamp := s.clock.stamp + 1, own := true }))))
  ∧ ∀ (s : State) (p : Fin 6) (bits : List Bool) (fmt : Bool), s.boundaryBy (.portFrame p bits fmt) →
    ∃ t, exec (.portFrame p bits fmt) s = .next t
      ∧ t.clock.stamp = s.clock.stamp + 1 ∧ t.clock.windowPos = s.clock.windowPos
      ∧ (¬ s.connectsAt (.portFrame p bits fmt) t → t.clock.cls = s.clock.cls ∧ t.clock.following = true
          ∧ t.clock.own = false)
      ∧ (∀ l : Fin 2, t.ou.lanes[l].active = s.ou.lanes[l].pending
          ∧ t.ou.lanes[l].pending = s.ou.lanes[l].pending ∧ t.ou.lanes[l].count = 0
          ∧ t.ou.lanes[l].running = decide (s.ou.lanes[l].pending ≠ 0))
      ∧ (∀ a : Fin 4, t.ap[a].blockFault = s.ap[a].latch ∧ t.ap[a].latch = false)
      ∧ t.tc = s.tc ∧ t.sd = s.sd ∧ (∀ q : Fin 6, q ≠ p → t.ports[q] = s.ports[q])
      ∧ t.ports[p].lock = s.ports[p].lock ∧ t.ports[p].windowCount = s.ports[p].windowCount + 1
      ∧ t.ports[p].filling = [] ∧ t.ports[p].mark = false
      ∧ t.ports[p].offered = some (s.ports[p].filling ++ [frameOfBits (if p = 0 then 8 else 2) bits])
      ∧ t.ports[p].format = s.formatAt (.portFrame p bits fmt) p
      ∧ t.ports[p].change =
          (!s.ports[p].change && decide (s.ports[p].format ≠ (if fmt then .encoded else .pcm)))

/-- R66 to R68, R70: at a boundary, of the clock's own or made by a completion in the class in force, with no connect,
while a HOSTED source is served with OUTPUT set, what the fetched-slot buffer holds decides whether the boundary is
taken or a miss, the ladder moves with it, the consumer passes a slot that is COMPLETE, BAD or FAILED, and the next
published slot is fetched. A FAILED slot's miss carries the consumer already advanced (the model's choice, log entry
49), and that a completion offers its block to the ring before the boundary's work is DEDUCED (log entry 15). -/
def Obligations.RingSlotsMoveTheLadder : Prop :=
  ∀ (s : State) (cmd : Instr) (i : Fin 8) (r : Range), s.boundaryBy cmd →
    s.sc.connected = some i → s.sc.path = .hosted → s.pu.regions.output = some r →
    ∃ t, exec cmd s = .next t
      ∧ (¬ s.connectsAt cmd t →
        (let cons := s.re.outCons
          let published := decide (s.cu.outProd ≠ cons)
          let block := match s.re.fetch with
            | .complete b => if published then some b else none
            | _ => none
          let bad := published && decide (s.re.fetch = .bad)
          let taken := block.isSome || bad
          let passed := taken || (published && decide (s.re.fetch = .failed))
          let cons' := if passed then cons + 1 else cons
          let plays := decide (s.re.ladder = .flowing) && !taken
          let starves := (decide (s.re.ladder = .repeated) || decide (s.re.ladder = .starved)) && !taken
          t.re = { s.ringOffered cmd t with
            outCons := cons', fetch := t.re.fetch,
            missRun := if taken then 0 else min 65535 (s.re.missRun + 1),
            ladder :=
              if taken then (if (block.map HostedBlock.last).getD false then .drained else .flowing)
              else match s.re.ladder with
                | .flowing => .repeated
                | .repeated => .starved
                | x => x,
            repeats := if plays then s.re.repeats + 1 else s.re.repeats,
            silent := if bad || starves then s.re.silent + 1 else s.re.silent,
            last :=
              if plays then s.re.last
              else match block with
                | some b => { b with disc := false, last := false }
                | none => HostedBlock.silence s.re.last.channels }
          ∧ t.re.fetch = (match s.re.fetch with
              | .fetching j => .fetching j
              | _ =>
                if s.cu.outProd ≠ cons' ∧ s.cu.quiesce = false then
                  .fetching { slotAddr := r.base + 2048 * (cons'.toNat % (r.size / 2048)), channels := 0, disc := false,
                              last := false, words := [], left := 0, discard := false }
                else .free)
          ∧ (passed = true → s.cu.quiesce = false → s.cu.words[(4 : Fin 6)] = { inFlight := false, again := false } →
              t.cu.words[(4 : Fin 6)] = { inFlight := true, again := false }
              ∧ writeOf (.indexWord .outputConsumer) (s.pu.regions.control + 0x50) [cons'.setWidth 32] none
                  ∈ t.pu.queues.control.all)
          ∧ (let ev := fun (c : RingCode) (d2 : Word) =>
               eventNow s (.ring c) (BitVec.ofNat 16 i.val) (cons'.setWidth 32) d2
             (plays = true → s.raisesAt cmd t (ev .outputRepeat 0))
             ∧ (taken = false → s.re.ladder = .repeated → s.raisesAt cmd t (ev .outputStarved 0))
             ∧ (taken = true → (s.re.ladder = .repeated ∨ s.re.ladder = .starved) →
                 s.raisesAt cmd t (ev .outputResumed (natWord s.re.missRun)))
             ∧ (∀ b, block = some b → b.last = true → s.re.ladder ≠ .repeated → s.re.ladder ≠ .starved →
                 s.raisesAt cmd t (ev .outputDrained 0)))))

/-- R114: the reads of a prepared block: a frame is read exactly when it lies within the history, each read stays
within one line of memory, and the reads come in frame order, one for each line. R109 to R120 at a boundary, of the
clock's own or made by a completion in the class in force, with no connect: what is handed on and how late it is, the
mode, the distances taken and the histories restarted, the effective delays, the DELAY LATE event of a late run that
starts, and in LINES mode the writes of every present speaker before the reads. R72, R73, R105, R106, R134: the pre-
delay block of a speaker is its channel of the boundary's input block, decoded, folded and bass-managed, at the gain
of its applied attenuation; it is what is written in LINES mode and what is prepared in BYPASS, and the decoded block
folded to two channels waits for the record link; a live DIRECT feed renders the block that the completion offers, and
zero samples where there is none. A block with an abandoned read counts on time whatever its other reads do (DEDUCED,
log entry 59), and the numbers that tie reads to their block are the model's (log entry 25); that the folded block
waits whatever the link's source is DEDUCED (log entry 20), and the silence of a live HOSTED feed with OUTPUT unset,
which no run reaches, is the model's choice (log entry 45). That the block is offered before the boundary's work is
DEDUCED (log entry 15), and so are the feed kept live at an AUTO change of format (log entry 17) and the codes of the
cause of DELAY LATE (log entry 30). -/
def Obligations.DelayUnitWorksAtTheBoundary : Prop :=
  (∀ w d history : Nat, w < 4096 → d ≤ 3840 →
    (let runs := readRuns w d history
     let position := fun j : Nat => (w + 4096 - d + j) % 4096
     (∀ j, j < 32 → ((∃ x ∈ runs, x.1 ≤ j ∧ j < x.1 + x.2) ↔ d + 31 - j < history))
     ∧ (∀ x ∈ runs, 1 ≤ x.2 ∧ x.1 + x.2 ≤ 32 ∧ position x.1 % 8 + x.2 ≤ 8)
     ∧ runs.Pairwise fun x y => x.1 + x.2 ≤ y.1 ∧ position y.1 % 8 = 0))
  ∧ ∀ (s : State) (cmd : Instr), s.boundaryBy cmd → ∃ t, exec cmd s = .next t
      ∧ (¬ s.connectsAt cmd t →
        (let w := s.du.writeIndex
          let g := s.du.generation
          let waiting := s.pu.queues.render.waiting
          let kept := s.pu.queues.render.items ++ waiting.filter fun x =>
            match x.requester with
            | .delayWrite _ => false
            | .delayRead _ _ _ => false
            | _ => true
          let present := fun i : Fin 8 => decide (s.ru.speakers[i].presence ≠ .absent)
          let lines := s.pu.regions.delay.isSome && !s.cu.quiesce
          let entered := lines && (!s.du.lines || s.du.changed)
          let has := fun (i : Fin 8) (st : ReadStatus) => match s.du.speakers[i].prepared with
            | none => false
            | some p => p.lines.any fun l => decide (l.status = st)
          let notReady := fun i => has i .pending && !has i .abandoned
          let late := fun i => notReady i || (has i .error && !has i .abandoned)
          let swapped := fun i : Fin 8 =>
            present i && decide (s.ru.levels[i].dip = .down) && decide (t.ru.levels[i].dip = .up)
          let moved := fun i : Fin 8 => swapped i || s.du.speakers[i].take
          let lipSync := match s.sc.connected with
            | some k => s.sc.table[k].lipSync
            | none => 0
          let rate := match s.clock.cls with
            | .k32 => 32000
            | .k44 => 44100
            | .k48 => 48000
            | .k88 => 88200
            | .k96 => 96000
          let input := match s.sc.connected with
            | none => HostedBlock.silence s.ru.heldCount
            | some k =>
              if t.sc.feed = false then HostedBlock.silence s.ru.heldCount
              else match s.sc.path with
                | .direct =>
                  (let count := if s.sc.table[k].port = 0 then 8 else 2
                   match s.offeredAt cmd with
                   | some frames => { channels := count, frames := frames, disc := false, last := false }
                   | none => HostedBlock.silence count)
                | .hosted =>
                  if s.pu.regions.output = none then HostedBlock.silence s.ru.heldCount
                  else match s.re.fetch with
                    | .complete b => if s.cu.outProd ≠ s.re.outCons then b else t.re.last
                    | _ => t.re.last
          let decoded := decodeBlock (t.sc.feed && s.sc.connected.isSome) input s
          let managed := bassBlock (foldBlock s decoded.1) decoded.2
          let pre := fun i : Fin 8 => managed.1.chans[i].map (gainSample t.ru.levels[i].applied)
          t.ou.link.mainNext = mainFold decoded.1
          ∧ t.du.lines = lines ∧ t.du.changed = false ∧ t.du.generation = g + 1
          ∧ t.du.writeIndex = (if lines then (w + 32) % 4096 else w)
          ∧ t.du.fill = (if lines then min ((if entered then 0 else s.du.fill) + 32) 4096 else s.du.fill)
          ∧ t.du.lateRuns = s.du.lateRuns + BitVec.ofNat 32
              ((speakerIds.filter fun i => present i && late i && !s.du.speakers[i].late).length)
          ∧ (∀ i : Fin 8, present i = true → late i = true → s.du.speakers[i].late = false → s.eventRoom →
              { eventNow s .delayLate (BitVec.ofNat 16 i.val) (if notReady i then 0 else 1)
                  (natWord s.du.speakers[i].effective) with stamp := s.clock.stamp + 1 } ∈ t.eventsOut)
          ∧ (∀ i : Fin 8, present i = false →
              t.ou.delayed[i] = none ∧ t.du.speakers[i].history = 0 ∧ t.du.speakers[i].prepared = none
              ∧ t.du.speakers[i].lastOut = zeroChan ∧ t.du.speakers[i].late = false
              ∧ t.du.speakers[i].inUse = s.ru.speakers[i].distance)
          ∧ (∀ i : Fin 8, present i = true →
              (let out := if notReady i then s.du.speakers[i].lastOut
                          else (s.du.speakers[i].prepared.map Prepared.frames).getD zeroChan
               let restarted := entered || moved i || waiting.any fun x => decide (x.requester = .delayWrite i)
               let before := if restarted then 0 else s.du.speakers[i].history
               t.ou.delayed[i] = some out ∧ t.du.speakers[i].lastOut = out ∧ t.du.speakers[i].late = late i
               ∧ t.du.speakers[i].inUse = (if moved i then s.ru.speakers[i].distance else s.du.speakers[i].inUse)
               ∧ t.du.speakers[i].history = (if lines then min (before + 32) t.du.fill else before)))
          ∧ (∀ i : Fin 8, t.du.speakers[i].take = false
              ∧ t.du.speakers[i].effective = (t.du.speakers[i].inUse + lipSync) * rate / 10000)
          ∧ (lines = false → t.pu.queues.render.all = kept
              ∧ ∀ i : Fin 8, present i = true →
                  t.du.speakers[i].prepared = some { generation := g, frames := pre i, lines := [] })
          ∧ ∀ r, lines = true → s.pu.regions.delay = some r →
              (let runs := fun i : Fin 8 => readRuns w t.du.speakers[i].effective t.du.speakers[i].history
               let ids := speakerIds.filter present
               (∀ i : Fin 8, present i = true → t.du.speakers[i].prepared = some
                 { generation := g, frames := zeroChan,
                   lines := (runs i).map fun x => { start := x.1, status := .pending } })
               ∧ t.pu.queues.render.all = kept
                   ++ (ids.flatMap fun i => [0, 1, 2, 3].map fun k =>
                         writeOf (.delayWrite i) (r.base + 16384 * i.val + 4 * (w + 8 * k))
                           ((((pre i).map fun x => BitVec.ofInt 32 x).drop (8 * k)).take 8) none)
                   ++ (ids.flatMap fun i => (runs i).map fun x =>
                         readOf (.delayRead i g x.1)
                           (r.base + 16384 * i.val + 4 * ((w + 4096 - t.du.speakers[i].effective + x.1) % 4096)) x.2
                           none))))

/-- R75, R101 to R104: at a boundary, of the clock's own or made by a completion in the class in force, each speaker's
applied attenuation takes its step towards its target at its rate, a forced or absent speaker stands at 192, and its
dip and flags move; a target of 192 ends UP at once (as the model reads it, log entry 50). R19, R20a: the switch-mute
is the one that the boundary finds, so a completion whose change of format begins a DRAIN or a BLOCKED silences from
that boundary on (the order in a completion is DEDUCED, log entry 15). Without a connect the decode mode follows the
preference, the speakers present and the channel count of the block rendered; the feed kept live at an AUTO change of
format is DEDUCED (log entry 17), and the held count of a live HOSTED feed with OUTPUT unset, which no run reaches, is
the model's choice (log entry 45). -/
def Obligations.LevelsMoveAtTheBoundary : Prop :=
  ∀ (s : State) (cmd : Instr), s.boundaryBy cmd → ∃ t, exec cmd s = .next t
      ∧ t.ru.master = s.ru.master ∧ t.ru.mute = s.ru.mute ∧ t.ru.crossover = s.ru.crossover
      ∧ t.ru.speakers = s.ru.speakers
      ∧ (∀ i : Fin 8,
          (let sp := s.ru.speakers[i]
           let lv := s.ru.levels[i]
           let muted := s.mutedAt cmd t
           let target := targetAt muted s t i
           let pairIn := fun st : PairState => match sp.pair with
             | some p => decide (sp.presence ≠ .absent) && decide (t.ap[p].st = st)
             | none => false
           let derated := pairIn .derate
           let forced := pairIn .shutdown || pairIn .recovering
           let fast := lv.derateFast || (derated != lv.derated)
           let release := lv.release || (lv.forced && !forced)
           let rate := if muted || decide (lv.dip = .down) || fast then 8
             else if decide (s.sc.st ≠ .playing) || decide (lv.dip = .up) || release then 2 else 1
           let applied := if sp.presence = .absent ∨ forced = true then 192
             else if lv.applied ≤ target then min target (lv.applied + rate) else max target (lv.applied - rate)
           t.ru.levels[i] =
             ({ applied := applied,
                dip := if sp.presence = .absent then .none else match lv.dip with
                  | .none => .none
                  | .down => if applied = 192 then .up else .down
                  | .up => if applied = target ∨ target = 192 then .none else .up,
                derated := derated, derateFast := fast && decide (applied ≠ target) && !forced, forced := forced,
                release := release && decide (applied ≠ target) } : Level)))
      ∧ (¬ s.connectsAt cmd t →
          (let live := t.sc.feed && s.sc.connected.isSome
           let ring := match s.re.fetch with
             | .complete b => if s.cu.outProd ≠ s.re.outCons then b.channels else s.re.last.channels
             | _ => s.re.last.channels
           let channels := match s.sc.connected with
             | some k =>
               if t.sc.feed = false then s.ru.heldCount
               else if s.sc.path = .direct then (if s.sc.table[k].port = 0 then 8 else 2)
               else if s.pu.regions.output.isSome then ring else s.ru.heldCount
             | none => s.ru.heldCount
           let preference := match s.sc.connected with
             | some k => s.sc.table[k].preference
             | none => .stereo
           let surround := [(2 : Fin 8), 4, 5].any fun i => decide (s.ru.speakers[i].presence ≠ .absent)
           t.ru.heldCount = (if live then channels else s.ru.heldCount)
           ∧ t.ru.lastMode =
               (if channels = 2 then
                 match preference with
                 | .matrix => .matrix
                 | .auto => if surround then .matrix else .stereo
                 | _ => .stereo
               else
                 match preference with
                 | .stereo => .downmix
                 | .downmix => .downmix
                 | .auto => if surround then .multi else .downmix
                 | _ => .multi)))

/-- R94: the fold, step by step, of a block of 32 frames onto the speakers present, with the marks of the speakers it
clamps. R95 to R97, R99: bass management: each filtered speaker keeps what its low-pass leaves, the bass and the LFE
go to SW or to the fronts, a speaker not filtered starts again from 0, and an absent speaker's mark is clear. R72, R74
to R82, R86 to R89: the decode of a block of 32 frames in the mode that the preference, the speakers and the channel
count give: STEREO, MULTI, DOWNMIX, and MATRIX from the steering updated by that block, with the marks of what each
mode clamps and the resets at a discontinuity and at the entry to MATRIX. -/
def Obligations.FoldAndBassFollowThePresence : Prop :=
  (∀ (s : State) (b : RenderBlock), (∀ i : Fin 8, b.chans[i].length = 32) → b.lfe.length = 32 →
     (let absent := fun i : Fin 8 => decide (s.ru.speakers[i].presence = .absent)
      let x := fun (i : Fin 8) (j : Fin 32) => b.chans[i].getD j.val 0
      let share := fun v : Int => v * 23170 / 32768
      let clamps := fun raw : Fin 32 → Int => decide (∃ j, sat24 (raw j) ≠ raw j)
      ((let rawSL := fun j => x 4 j + share (x 6 j)
        let rawSR := fun j => x 5 j + share (x 7 j)
        let sl := fun j => if absent 6 then sat24 (rawSL j) else x 4 j
        let sr := fun j => if absent 7 then sat24 (rawSR j) else x 5 j
        let rawFL := fun j => x 0 j + share (sl j)
        let rawFR := fun j => x 1 j + share (sr j)
        let fl := fun j => if absent 4 then sat24 (rawFL j) else x 0 j
        let fr := fun j => if absent 5 then sat24 (rawFR j) else x 1 j
        let rawFL' := fun j => fl j + share (x 2 j)
        let rawFR' := fun j => fr j + share (x 2 j)
        let fl' := fun j => if absent 2 then sat24 (rawFL' j) else fl j
        let fr' := fun j => if absent 2 then sat24 (rawFR' j) else fr j
        let f := foldBlock s b
        let is := fun (i : Fin 8) (v : Fin 32 → Int) =>
          f.chans[i].length = 32 ∧ ∀ j : Fin 32, f.chans[i].getD j.val 0 = v j
        is 0 (fun j => if absent 0 then 0 else fl' j) ∧ is 1 (fun j => if absent 1 then 0 else fr' j)
        ∧ is 2 (fun j => if absent 2 then 0 else x 2 j) ∧ is 3 (x 3)
        ∧ is 4 (fun j => if absent 4 then 0 else sl j) ∧ is 5 (fun j => if absent 5 then 0 else sr j)
        ∧ is 6 (fun j => if absent 6 then 0 else x 6 j) ∧ is 7 (fun j => if absent 7 then 0 else x 7 j)
        ∧ f.lfe = b.lfe
        ∧ f.marks[(4 : Fin 8)] = (b.marks[(4 : Fin 8)] || (absent 6 && clamps rawSL))
        ∧ f.marks[(5 : Fin 8)] = (b.marks[(5 : Fin 8)] || (absent 7 && clamps rawSR))
        ∧ f.marks[(0 : Fin 8)] =
            (b.marks[(0 : Fin 8)] || (absent 4 && clamps rawFL) || (absent 2 && clamps rawFL'))
        ∧ f.marks[(1 : Fin 8)] =
            (b.marks[(1 : Fin 8)] || (absent 5 && clamps rawFR) || (absent 2 && clamps rawFR'))
        ∧ ∀ i : Fin 8, i = 2 ∨ i = 3 ∨ i = 6 ∨ i = 7 → f.marks[i] = b.marks[i]))
      ∧ ∀ low : Fin 8 → Nat → Int,
        (∀ i : Fin 8, low i 0 = s.ru.lp[i] ∧ ∀ j : Fin 32,
          low i (j.val + 1) =
            low i j.val + (x i j - low i j.val) * crossoverAlpha s.clock.cls s.ru.crossover / 32768) →
        (let filtered := fun i : Fin 8 => decide (s.ru.speakers[i].presence = .small) && decide (i ≠ 3)
           && (!absent 3 || (decide (i ≠ 0) && decide (i ≠ 1)))
         let bass := fun j : Fin 32 => (speakerIds.map fun i => if filtered i then low i (j.val + 1) else 0).sum
         let lfe := fun j : Fin 32 => b.lfe.getD j.val 0
         let raw := fun (i : Fin 8) (j : Fin 32) =>
           if filtered i then x i j - low i (j.val + 1)
           else if i = 3 ∧ absent 3 = false then bass j / 2 + lfe j
           else if (i = 0 ∨ i = 1) ∧ absent 3 = true ∧ absent i = false then x i j + (bass j + lfe j) / 2
           else x i j
         let touched := fun i : Fin 8 => filtered i || (decide (i = 3) && !absent 3)
           || ((decide (i = 0) || decide (i = 1)) && absent 3 && !absent i)
         let r := bassBlock b s
         ∀ i : Fin 8,
           r.2.ru.lp[i] = (if filtered i then low i 32 else 0)
           ∧ (∀ j : Fin 32, r.1.chans[i].getD j.val 0 = if touched i then sat24 (raw i j) else x i j)
           ∧ r.1.marks[i] = (!absent i && (b.marks[i] || (touched i && clamps (raw i)))))))
  ∧ ∀ (s : State) (live : Bool) (input : HostedBlock), input.frames.length = 32 →
    (let present := fun i : Fin 8 => decide (s.ru.speakers[i].presence ≠ .absent)
     let surround := present 2 || present 4 || present 5
     let preference := match s.sc.connected with
       | some k => s.sc.table[k].preference
       | none => .stereo
     let mode : DecodeMode :=
       if input.channels = 2 then
         match preference with
         | .matrix => .matrix
         | .auto => if surround then .matrix else .stereo
         | _ => .stereo
       else
         match preference with
         | .stereo => .downmix
         | .downmix => .downmix
         | .auto => if surround then .multi else .downmix
         | _ => .multi
     let r := decodeBlock live input s
     let st := r.2.ru.steering
     let old := if input.disc = true ∨ (mode = .matrix ∧ s.ru.lastMode ≠ .matrix) then Steering.reset
       else s.ru.steering
     let x := fun (c : Nat) (j : Fin 32) => (input.frames.getD j.val []).getD c 0
     let zero := fun _ : Fin 32 => (0 : Int)
     let share := fun v : Int => v * 23170 / 32768
     let clamps := fun raw : Fin 32 → Int => decide (∃ j, sat24 (raw j) ≠ raw j)
     let is := fun (xs : Chan) (v : Fin 32 → Int) => xs.length = 32 ∧ ∀ j : Fin 32, xs.getD j.val 0 = v j
     let holds := fun (fl fr c sl sr bl br lfe : Fin 32 → Int) =>
       is r.1.chans[(0 : Fin 8)] fl ∧ is r.1.chans[(1 : Fin 8)] fr ∧ is r.1.chans[(2 : Fin 8)] c
       ∧ is r.1.chans[(3 : Fin 8)] zero ∧ is r.1.chans[(4 : Fin 8)] sl ∧ is r.1.chans[(5 : Fin 8)] sr
       ∧ is r.1.chans[(6 : Fin 8)] bl ∧ is r.1.chans[(7 : Fin 8)] br ∧ is r.1.lfe lfe
     r.2 = { s with ru := { s.ru with
       lastMode := mode, heldCount := if live then input.channels else s.ru.heldCount,
       lp := if input.disc then Vector.replicate 8 0 else s.ru.lp, steering := st } }
     ∧ (mode ≠ .matrix → st = old)
     ∧ (mode = .stereo → holds (x 0) (x 1) zero zero zero zero zero zero ∧ r.1.marks = Vector.replicate 8 false)
     ∧ (mode = .multi →
         holds (x 0) (x 1) (x 2) (x 4) (x 5) (x 6) (x 7) (x 3) ∧ r.1.marks = Vector.replicate 8 false)
     ∧ (mode = .downmix →
         (let rawL := fun j => x 0 j + share (x 2 j) + share (x 4 j) + share (x 6 j)
          let rawR := fun j => x 1 j + share (x 2 j) + share (x 5 j) + share (x 7 j)
          holds (fun j => sat24 (rawL j)) (fun j => sat24 (rawR j)) zero zero zero zero zero (x 3)
          ∧ r.1.marks = #v[clamps rawL, clamps rawR, false, false, false, false, false, false]))
     ∧ (mode = .matrix →
         (let sum := fun j => (x 0 j + x 1 j) / 2
          let diff := fun j => (x 0 j - x 1 j) / 2
          let mean := fun v : Fin 32 → Int => ((List.finRange 32).map fun j => ((v j).natAbs : Int)).sum / 32
          let moved := fun e m : Int => if e ≤ m then e + (m - e) / 4 else e - (e - m) / 32
          let target := fun prev a b : Int =>
            if a + b < 256 then prev else max (-32767) (min 32767 (((a - b) * 32768).tdiv (a + b)))
          let slewed := fun from' to' : Int => from' + max (-1024) (min 1024 (to' - from'))
          let centre := fun j => max st.bApp 0 * sum j / 32768
          let ks := 23170 + max (-st.bApp) 0 * 9598 / 32768
          let sd := fun j => ks * diff j / 32768
          let rawFL := fun j => x 0 j - centre j
          let rawFR := fun j => x 1 j - centre j
          let rawSL := fun j => (32767 - max (-st.aApp) 0) * sd j / 32768
          let rawSR := fun j => -((32767 - max st.aApp 0) * sd j / 32768)
          let back := present 6 && present 7
          let side := fun (raw : Fin 32 → Int) (j : Fin 32) => if back then share (sat24 (raw j)) else sat24 (raw j)
          st.envL = moved old.envL (mean (x 0)) ∧ st.envR = moved old.envR (mean (x 1))
          ∧ st.envS = moved old.envS (mean sum) ∧ st.envD = moved old.envD (mean diff)
          ∧ st.aTgt = target old.aTgt st.envL st.envR ∧ st.bTgt = target old.bTgt st.envS st.envD
          ∧ st.aApp = slewed old.aApp st.aTgt ∧ st.bApp = slewed old.bApp st.bTgt
          ∧ holds (fun j => sat24 (rawFL j)) (fun j => sat24 (rawFR j)) centre (side rawSL) (side rawSR)
              (if back then side rawSL else zero) (if back then side rawSR else zero) zero
          ∧ r.1.marks = #v[clamps rawFL, clamps rawFR, false, false, clamps rawSL, clamps rawSR, false, false])))

/-- R20a, R22, R23, R25, R28, R30: the Switch Controller at a boundary, of the clock's own or made by a completion in
the class in force, unless an AUTO source changes format: PLAY_RAMP ends with the event SOURCE PLAYING when every
speaker has its target or is forced to zero; a signal that turns ENCODED on the DIRECT path is BLOCKED, or stops the
feed in DRAIN; the readiness test of ACQUIRE, of HOLD while the clock follows, and of BLOCKED with cause FORMAT, and
the states that wait, in ACQUIRE and IDLE while no connect is requested and in DRAIN before mute is reached. That the
test of HOLD waits for the clock to follow is DEDUCED (log entry 18), and so are the code of the cause FORMAT (log
entry 30) and the order in a completion (log entry 15). -/
def Obligations.SwitchActsAtTheBoundary : Prop :=
  ∀ (s : State) (cmd : Instr), s.boundaryBy cmd → ∃ t, exec cmd s = .next t
    ∧ (s.autoMoves cmd = false →
      (let stopped : HoldTimer := { running := false, remaining := 0, suspended := false }
       let subject := match s.sc.connected with
         | some k => BitVec.ofNat 16 k.val
         | none => (0xFFFF : BitVec 16)
       let code := match s.sc.connected with
         | some k => (s.formatAt cmd s.sc.table[k].port).code
         | none => 0
       let reached := ∀ i : Fin 8, t.ru.levels[i].forced = true ∨ t.ru.levels[i].applied = targetAt false s t i
       let tells := s.eventRoom →
         { eventNow s (.source .playing) subject (natWord s.sc.path.code) 0 with stamp := s.clock.stamp + 1 }
           ∈ t.eventsOut
       let plays := (reached →
           t.sc = { s.sc with st := .playing, feed := true, timer := stopped, cause := none } ∧ tells)
         ∧ (¬ reached → t.sc = { s.sc with st := .playRamp, feed := true, timer := stopped, cause := none })
       let blocks := t.sc = { s.sc with st := .blocked, feed := false, timer := stopped, cause := some .format }
         ∧ s.raisesAt cmd t (eventNow s (.source .blocked) subject 0 (natWord code))
       (s.sc.st = .playing → if s.directLost cmd = true then blocks else t.sc = s.sc)
       ∧ (s.sc.st = .playRamp → if s.directLost cmd = true then blocks
           else (reached → t.sc = { s.sc with st := .playing } ∧ tells) ∧ (¬ reached → t.sc = s.sc))
       ∧ (s.sc.st = .idle → s.sc.connectRequest = false → t.sc = s.sc)
       ∧ (s.sc.st = .drain → (∃ i : Fin 8, t.ru.levels[i].applied ≠ 192) →
           t.sc = if s.directLost cmd = true then { s.sc with feed := false } else s.sc)
       ∧ (s.sc.st = .hold → s.followsAt cmd = false → t.sc = s.sc)
       ∧ (s.sc.st = .blocked → s.sc.cause ≠ some .format → t.sc = s.sc)
       ∧ ∀ i, s.sc.connected = some i →
           (let src := s.sc.table[i]
            let settled := s.ports[src.port].lock = .locked s.clock.cls
              ∧ (s.sc.path = .hosted → s.pu.regions.input.isSome = true ∧ s.pu.regions.output.isSome = true)
              ∧ (src.port = 4 → s.tc.st = .tuned)
            let suits := s.sc.path = .hosted ∨ s.formatAt cmd src.port = .pcm
            ((s.sc.st = .acquire ∧ s.sc.connectRequest = false ∨ s.sc.st = .hold ∧ s.followsAt cmd = true) →
              (settled → suits → plays) ∧ (settled → ¬ suits → blocks) ∧ (¬ settled → t.sc = s.sc))
            ∧ (s.sc.st = .blocked → s.sc.cause = some .format →
                (settled → suits → plays) ∧ (¬ (settled ∧ suits) → t.sc = s.sc)))))

/-- R20a, R21, R29, R69: the connect at the boundary after a request in IDLE or ACQUIRE, or after an AUTO source
changes format in ACQUIRE, and at the boundary, of the clock's own or made by a completion in the class in force, at
which every speaker stands at 192 in DRAIN: the pending target becomes the connected source, its path and class are
decided, and the units start afresh for it; a requested connect is tested for readiness at the next boundary (as the
model reads it, log entry 16). The order in a completion is DEDUCED (log entry 15). The clock goes on following only
if the new source plays the same port in the class in force: with another port, LOCKED at that class too, it free-runs
until that port's next completion (the model's choice, log entry 65). -/
def Obligations.ConnectTakesTheTarget : Prop :=
  ∀ (s : State) (cmd : Instr), s.boundaryBy cmd → ∃ t, exec cmd s = .next t
    ∧ (let stopped : HoldTimer := { running := false, remaining := 0, suspended := false }
       let cut := match s.re.fetch with
         | .fetching j => FetchBuffer.fetching { j with discard := true }
         | _ => .free
       let subject := match s.sc.connected with
         | some k => BitVec.ofNat 16 k.val
         | none => (0xFFFF : BitVec 16)
       let requested := ((s.sc.st = .idle ∨ s.sc.st = .acquire) ∧ s.sc.connectRequest = true)
         ∨ (s.sc.st = .acquire ∧ s.autoMoves cmd = true)
       let wanted := if s.sc.connectRequest then s.sc.target else match s.sc.connected with
         | some k => Target.source k
         | none => .none
       (requested →
         ((∀ j, wanted ≠ .source j) →
           t.sc = { s.sc with st := .idle, connected := none, target := .absent, connectRequest := false,
                              timer := stopped, feed := false, cause := none }
           ∧ t.clock = { s.clock with stamp := s.clock.stamp + 1, following := false, own := false }
           ∧ t.re = { s.ringOffered cmd t with
               fetch := cut, last := HostedBlock.silence 2, ladder := .waiting, missRun := 0 }
           ∧ s.raisesAt cmd t (eventNow s (.source .idle) subject 0 0))
         ∧ ∀ j, wanted = .source j →
           (let src := s.sc.table[j]
            let port := s.ports[src.port]
            let path := match src.path with
              | .direct => EffPath.direct
              | .hosted => .hosted
              | .auto => if s.formatAt cmd src.port = .pcm then .direct else .hosted
            let cls := match port.lock with
              | .locked c => c
              | _ => s.clock.cls
            let same := match s.sc.connected with
              | some k => decide (s.sc.table[k].port = src.port) && decide (cls = s.clock.cls)
              | none => false
            let blocked := path = .hosted ∧ ¬ (s.pu.regions.input.isSome = true ∧ s.pu.regions.output.isSome = true)
            let lines := s.pu.regions.delay.isSome && !s.cu.quiesce
            t.sc = { s.sc with
              connected := some j, target := .absent, connectRequest := false, path := path, feed := false,
              st := if blocked then .blocked else .acquire,
              cause := if blocked then some .region else none,
              timer := if blocked ∨ src.holdTime = 0 then stopped
                else { running := true, remaining := 2457600 * src.holdTime,
                       suspended := decide (src.port = 4) && decide (s.tc.st ≠ .tuned) } }
            ∧ t.clock = { s.clock with
                stamp := s.clock.stamp + 1, cls := cls, following := s.followsAt cmd && same,
                own := s.ownAt cmd && same }
            ∧ t.re.ladder = .waiting ∧ t.re.fetch = cut ∧ t.re.last = HostedBlock.silence 2
            ∧ (path = .direct → t.re = { s.ringOffered cmd t with
                fetch := cut, last := HostedBlock.silence 2, ladder := .waiting, missRun := 0 })
            ∧ (path = .hosted → t.re.outCons = s.cu.outProd ∧ t.re.disc = true ∧ t.re.pendingDrops = 0
                ∧ t.re.dropRun = false ∧ t.re.inProd = s.re.inProd)
            ∧ t.ru.heldCount = 2
            ∧ (∀ i : Fin 8, t.du.speakers[i].history =
                if lines = true ∧ s.ru.speakers[i].presence ≠ .absent then min 32 t.du.fill else 0)
            ∧ (cls ≠ s.clock.cls → t.du.fill = (if lines then 32 else 0)
                ∧ ∀ i : Fin 8, t.du.speakers[i].late = false ∧ (s.ru.speakers[i].presence ≠ .absent →
                    t.ou.delayed[i] = some zeroChan))
            ∧ s.raisesAt cmd t
                (eventNow s (.source .connected) (BitVec.ofNat 16 j.val) (natWord path.code) (natWord cls.code))))
       ∧ (s.drainsAt cmd = true → (∀ i : Fin 8, t.ru.levels[i].applied = 192) →
         ((∀ j, s.drainTarget ≠ .source j) →
           t.sc = { s.sc with st := .idle, connected := none, target := .absent, connectRequest := false,
                              timer := stopped, feed := false, cause := none })
         ∧ ∀ j, s.drainTarget = .source j →
           (let src := s.sc.table[j]
            let port := s.ports[src.port]
            let path := match src.path with
              | .direct => EffPath.direct
              | .hosted => .hosted
              | .auto => if s.formatAt cmd src.port = .pcm then .direct else .hosted
            let regions := path = .hosted → s.pu.regions.input.isSome = true ∧ s.pu.regions.output.isSome = true
            let settled := (∃ c, port.lock = .locked c) ∧ (src.port = 4 → s.tc.st = .tuned)
            let suits := path = .hosted ∨ s.formatAt cmd src.port = .pcm
            let base := { s.sc with
              connected := some j, target := .absent, connectRequest := false, path := path, feed := false }
            (∀ c, port.lock = .locked c → t.clock.cls = c)
            ∧ (path = .hosted → t.re.outCons = s.cu.outProd ∧ t.re.missRun = 0) ∧ t.re.ladder = .waiting
            ∧ (¬ regions → t.sc = { base with st := .blocked, cause := some .region, timer := stopped })
            ∧ (regions → settled → suits →
                t.sc = { base with st := .playRamp, feed := true, cause := none, timer := stopped })
            ∧ (regions → settled → ¬ suits →
                t.sc = { base with st := .blocked, cause := some .format, timer := stopped })
            ∧ (regions → ¬ settled →
                t.sc = { base with
                  st := .acquire, cause := none,
                  timer := if src.holdTime = 0 then stopped
                    else { running := true, remaining := 2457600 * src.holdTime,
                           suspended := decide (src.port = 4) && decide (s.tc.st ≠ .tuned) } }))))

/-- R24, R25, R26: a window in which the connected source's port leaves LOCKED, or becomes LOCKED again in HOLD: a
regain at the class in force stops the hold timer (as the model reads R25, log entry 57), and one at another class
goes to DRAIN. R20, R20a: the completion at which that port's format changes. R24 to R26, R136, R167: a TUNE or a SEEK
that takes the tuner out of TUNED is a loss with cause TUNER, which suspends a hold timer already running and stops
the record link's block of IN4, and a status read that brings TUNED back is a regain while IN4 is LOCKED and lets the
timer count on. The codes of the causes are DEDUCED (log entry 30), and so are the feed kept live when an AUTO source
changes format in PLAYING (log entry 17), the DRAIN of a radio source at another class whatever the tuner (log entry
40) and the stamp of what a completion raises (log entry 15). -/
def Obligations.SignalLossRegainAndFormatChange : Prop :=
  (∀ (s : State) (i : Fin 8), s.resetLow = false → s.sc.connected = some i →
    ∃ t, exec .rateWindowEnd s = .next t
      ∧ (let stopped : HoldTimer := { running := false, remaining := 0, suspended := false }
         let src := s.sc.table[i]
         let q := s.ports[src.port]
         let r := classify q.windowCount
         (∀ c, q.lock = .locked c → q.miss = true → r ≠ .cls c →
           t.clock = { s.clock with following := false, own := false, windowPos := 0 }
           ∧ ((s.sc.st = .playing ∨ s.sc.st = .playRamp ∨ s.sc.st = .blocked) →
               t.sc = { s.sc with
                 st := .hold, feed := false, cause := none,
                 timer := if src.holdTime = 0 then stopped
                   else { running := true, remaining := 2457600 * src.holdTime,
                          suspended := decide (src.port = 4) && decide (s.tc.st ≠ .tuned) } }
               ∧ (s.eventRoom → eventNow s (.source .hold) (BitVec.ofNat 16 i.val) 0 (natWord src.holdTime)
                   ∈ t.eventsOut))
           ∧ (s.sc.st = .drain → t.sc = { s.sc with feed := false })
           ∧ (s.sc.st = .idle ∨ s.sc.st = .acquire ∨ s.sc.st = .hold → t.sc = s.sc))
         ∧ (∀ c, q.lock = .measuring → q.candidate = some (.cls c) → r = .cls c →
             t.clock = { s.clock with windowPos := 0 }
             ∧ (s.sc.st = .hold → c = s.clock.cls → t.sc = { s.sc with timer := stopped })
             ∧ (s.sc.st = .hold → c ≠ s.clock.cls →
                 t.sc = { s.sc with st := .drain, target := .source i, timer := stopped, cause := none })
             ∧ (s.sc.st ≠ .hold → t.sc = s.sc))
         ∧ (∀ c, q.lock = .locked c → (q.miss = false ∨ r = .cls c) →
             t.sc = s.sc ∧ t.clock = { s.clock with windowPos := 0 })))
  ∧ (∀ (s : State) (i : Fin 8) (c : RateClass) (bits : List Bool) (fmt : Bool), s.resetLow = false →
    s.sc.connected = some i →
    ∃ t, exec (.portFrame s.sc.table[i].port bits fmt) s = .next t
      ∧ (let stopped : HoldTimer := { running := false, remaining := 0, suspended := false }
         let src := s.sc.table[i]
         let q := s.ports[src.port]
         let f : Format := if fmt then .encoded else .pcm
         q.lock = .locked c → q.filling.length = 31 → q.change = true → q.format ≠ f →
           t.ports[src.port].format = f ∧ t.ports[src.port].change = false
           ∧ (src.path = .auto → (∃ k : Fin 8, t.ru.levels[k].applied ≠ 192) →
               (s.sc.st = .playing ∨ s.sc.st = .playRamp ∨ s.sc.st = .blocked ∨ s.sc.st = .hold) →
               t.sc = { s.sc with st := .drain, target := .source i, timer := stopped, cause := none })
           ∧ (src.path = .auto → s.sc.st = .acquire → s.sc.connectRequest = false → src.port ≠ 4 →
               t.sc.connected = some i ∧ t.sc.target = .absent ∧ t.sc.connectRequest = false
               ∧ t.sc.path = (if f = .pcm then .direct else .hosted)
               ∧ (t.sc.st = .acquire ∨ t.sc.st = .blocked ∧ t.sc.cause = some .region))
           ∧ (src.path ≠ .auto → s.sc.path = .direct → f = .encoded →
               (s.sc.st = .playing ∨ s.sc.st = .playRamp) →
               t.sc = { s.sc with st := .blocked, feed := false, timer := stopped, cause := some .format }
               ∧ (s.eventRoom → { eventNow s (.source .blocked) (BitVec.ofNat 16 i.val) 0 (natWord f.code) with
                     stamp := t.clock.stamp } ∈ t.eventsOut))
           ∧ (src.path ≠ .auto → s.sc.path = .hosted → s.sc.st = .playing → t.sc = s.sc)
           ∧ (s.sc.st = .drain → (∃ k : Fin 8, t.ru.levels[k].applied ≠ 192) →
               t.sc = if s.sc.path = .direct ∧ f = .encoded then { s.sc with feed := false } else s.sc)))
  ∧ (∀ (s : State) (cmd : Instr), s.ready → s.cu.quiesce = false → s.tc.st = .tuned →
    ((∃ tag bw cw b, cmd = .tune tag bw cw ∧ bandOf bw.toNat = some b)
      ∨ ∃ tag dw hw c, cmd = .seek tag dw hw ∧ dw.toNat ≤ 1 ∧ s.tc.channel = some c) →
    ∃ t, exec cmd s = .next t
      ∧ t.tc.st ≠ .tuned
      ∧ t.ports = s.ports.set 4 { s.ports[(4 : Fin 6)] with mark := false }
      ∧ t.ou = (if s.ou.link.source = .port 4 then
          { s.ou with link := { s.ou.link with portBlock := [], following := false } } else s.ou)
      ∧ ((∀ i, s.sc.connected = some i → s.sc.table[i].port ≠ 4) → t.sc = s.sc ∧ t.clock = s.clock)
      ∧ ∀ i, s.sc.connected = some i → s.sc.table[i].port = 4 →
        (let hold := s.sc.table[i].holdTime
         t.clock = { s.clock with following := false, own := false }
         ∧ ((s.sc.st = .playing ∨ s.sc.st = .playRamp ∨ s.sc.st = .blocked) →
             t.sc = { s.sc with
               st := .hold, feed := false, cause := none,
               timer := if hold = 0 then { running := false, remaining := 0, suspended := false }
                 else { running := true, remaining := 2457600 * hold, suspended := true } }
             ∧ (s.eventRoom → t.eventsOut.head? =
                 some (eventNow s (.source .hold) (BitVec.ofNat 16 i.val) 1 (natWord hold))))
         ∧ ((s.sc.st = .acquire ∨ s.sc.st = .hold) →
             t.sc = { s.sc with timer := { s.sc.timer with
               suspended := s.sc.timer.suspended || s.sc.timer.running } })
         ∧ (s.sc.st = .drain → t.sc = { s.sc with feed := false })
         ∧ (s.sc.st = .idle → t.sc = s.sc)))
  ∧ ∀ (s : State) (b0 b1 : Byte) (a : Attempt) (b : Band), s.resetLow = false → s.tc.link = .attempt a →
    a.request = .statusRead → a.discard = false → s.tc.band = some b → b0.getLsbD 7 = true →
    (let level := (b1.extractLsb' 0 7).toNat
     let multipath := (b0.extractLsb' 0 4).toNat
     let quality := if b = .fm then min 127 (level - 4 * multipath) else level
     (s.tc.st = .settling ∨ (s.tc.st = .seeking ∧ ∃ ctx, s.tc.seek = some ctx
       ∧ (ctx.returning = true ∨ ctx.stopPending = true ∨ ctx.threshold ≤ quality)))) →
    ∃ t, exec (.linkAttemptEnd true b0 b1) s = .next t
      ∧ t.tc.st = .tuned ∧ t.clock = s.clock ∧ t.ports = s.ports ∧ t.ou = s.ou
      ∧ ((∀ i, s.sc.connected = some i → s.sc.table[i].port ≠ 4) → t.sc = s.sc)
      ∧ ∀ i, s.sc.connected = some i → s.sc.table[i].port = 4 →
        (let stopped : HoldTimer := { running := false, remaining := 0, suspended := false }
         let port := s.ports[(4 : Fin 6)]
         (s.sc.st = .hold → port.lock = .locked s.clock.cls → t.sc = { s.sc with timer := stopped })
         ∧ (∀ c, s.sc.st = .hold → port.lock = .locked c → c ≠ s.clock.cls →
             t.sc = { s.sc with st := .drain, target := .source i, timer := stopped, cause := none })
         ∧ ((s.sc.st ≠ .hold ∨ ∀ c, port.lock ≠ .locked c) →
             t.sc = { s.sc with timer := { s.sc.timer with
               suspended := s.sc.timer.suspended && !s.sc.timer.running } }))

/-- R26, R27: the hold timer of a source that waits runs out: to DRAIN towards a valid fallback with SOURCE
FALLBACK, and otherwise SOURCE LOST in the same state. The step acts whatever time remains (the model's choice, log
entry 29), and with no timer running it does nothing (the model's choice, log entry 2). -/
def Obligations.HoldExpiryFallsBack : Prop :=
  ∀ s : State, s.resetLow = false → ∃ t, exec .holdTimerExpiry s = .next t
    ∧ (let stopped : HoldTimer := { running := false, remaining := 0, suspended := false }
       let due := s.sc.timer.running = true ∧ s.sc.timer.suspended = false
          ∧ (s.sc.st = .acquire ∨ s.sc.st = .hold)
       ((¬ due ∨ s.sc.connected = none) → t.kept = s.kept ∧ t.eventsOut = s.eventsOut)
       ∧ (∀ i j, due → s.sc.connected = some i → s.sc.table[i].fallback = some j → s.sc.table[j].valid = true →
           t.kept = { s.kept with sc :=
             { s.sc with st := .drain, target := .source j, timer := stopped, cause := none } }
           ∧ (s.eventRoom → t.eventsOut =
               [eventNow s (.source .fallback) (BitVec.ofNat 16 i.val) (natWord j.val) 0]))
       ∧ (∀ i, due → s.sc.connected = some i →
           (∀ j, s.sc.table[i].fallback = some j → s.sc.table[j].valid = false) →
           t.kept = { s.kept with sc := { s.sc with timer := stopped } }
           ∧ (s.eventRoom → t.eventsOut =
               [eventNow s (.source .lost) (BitVec.ofNat 16 i.val)
                 (optionWord (s.sc.table[i].fallback.map Fin.val)) 0])))

/-- R2, R123, R125, R131, R132: a running lane sends a frame: a slot that is disabled or unmapped, or whose speaker's
pair is in SHUTDOWN or RECOVERING, carries 0, and any other the sample of the lane's count from its speaker's delayed
block. The pair is the one taken with the slot map at the boundary (DEDUCED, log entry 35), and at count 32 no frame
is sent (the model's choice, log entry 23). A frame of the record link is 128 half-cells, moves the count on by one
mod 128, and at a START makes the pending status record active when its flag is set; with source OFF nothing is sent.
R130, R131: each subframe is its preamble and 28 cells in biphase: the sample, validity, user bit, status bit and even
parity. R134 to R136: what it carries with MAIN and with PORT, the two-channel fold, the block that a boundary, of the
clock's own or made by a completion in the class in force, gives the link, the block that a completion of its port
gives it, and the loss of that port; a frame with no block left carries zeros that are not valid (the model's choice,
log entry 20), both rendered blocks are kept whatever the source is (DEDUCED, log entry 20), a frame of the main block
passes only while MAIN is the source (the model's choice, log entry 52), and the format is that after the completion's
own sample (DEDUCED, log entry 15). -/
def Obligations.LaneAndRecordFramesAreSent : Prop :=
  (∀ (s : State) (l : Fin 2), s.resetLow = false → ∃ t, exec (.laneFrame l) s = .next t
     ∧ ((s.ou.lanes[l].running = false ∨ 32 ≤ s.ou.lanes[l].count) → t.kept = s.kept)
     ∧ (s.ou.lanes[l].running = true → s.ou.lanes[l].count < 32 →
         t.kept = { s.kept with ou := { s.ou with
           lanes := s.ou.lanes.set l { s.ou.lanes[l] with
             count := s.ou.lanes[l].count + 1, sent := t.ou.lanes[l].sent } } }
         ∧ t.ou.lanes[l].sent.length = 8
         ∧ ∀ n : Fin 8,
           (let carried := t.ou.lanes[l].sent[n.val]?
            (s.ou.lanes[l].active.getLsbD n.val = false → carried = some 0)
            ∧ (s.ou.lanes[l].map[n] = none → carried = some 0)
            ∧ (∀ i p, s.ou.lanes[l].map[n] = some i → s.ou.pairs[i] = some p →
                (s.ap[p].st = .shutdown ∨ s.ap[p].st = .recovering) → carried = some 0)
            ∧ (∀ i xs, s.ou.lanes[l].active.getLsbD n.val = true → s.ou.lanes[l].map[n] = some i →
                (∀ p, s.ou.pairs[i] = some p → s.ap[p].st ≠ .shutdown ∧ s.ap[p].st ≠ .recovering) →
                s.ou.delayed[i] = some xs →
                carried = some (BitVec.ofInt 32 (256 * xs.getD s.ou.lanes[l].count 0))))))
  ∧ (∀ s : State, s.resetLow = false → ∃ t, exec .recordFrame s = .next t
     ∧ (s.ou.link.source = .off → t.kept = s.kept)
     ∧ (s.ou.link.source ≠ .off →
         (let starts := decide (s.ou.link.count = 0) && s.ou.link.pendingFlag
          t.kept = { s.kept with ou := { s.ou with link := { s.ou.link with
            count := (s.ou.link.count + 1) % 128,
            active := if starts then s.ou.link.pending else s.ou.link.active,
            pendingFlag := s.ou.link.pendingFlag && !starts,
            level := t.ou.link.level, sent := t.ou.link.sent, mainBlock := t.ou.link.mainBlock,
            portBlock := t.ou.link.portBlock } } }
          ∧ t.ou.link.sent.length = 128 ∧ t.ou.link.sent.getLast? = some t.ou.link.level
          ∧ t.ou.link.mainBlock =
              (if s.ou.link.source = .main then s.ou.link.mainBlock.drop 1 else s.ou.link.mainBlock)
          ∧ t.ou.link.portBlock =
              (if s.ou.link.source = .main then s.ou.link.portBlock else s.ou.link.portBlock.drop 1)
          ∧ ∀ n : Fin 2,
            (let frame := if s.ou.link.source = .main then
                 (if s.sc.st = .playing then s.ou.link.mainBlock.head? else none)
               else if s.ou.link.following then s.ou.link.portBlock.head? else none
             let sample := (frame.map fun x => if n = 0 then x.1 else x.2).getD 0
             let invalid := frame.isNone || (decide (s.ou.link.source ≠ .main) && s.ou.link.portInvalid)
             let half := fun k : Nat => t.ou.link.sent.getD (64 * n.val + k) false
             let before := if n = 0 then s.ou.link.level else t.ou.link.sent.getD 63 false
             let preamble :=
               if n = 1 then [true, true, true, true, false, false, true, false]
               else if s.ou.link.count = 0 then [true, true, true, true, false, false, false, true]
               else [true, true, true, true, false, true, false, false]
             let cell := fun j : Nat => half (8 + 2 * j) != half (9 + 2 * j)
             (∀ j, j < 8 → half j = (preamble.getD j false != before))
             ∧ (∀ j, j < 28 → half (8 + 2 * j) = !half (7 + 2 * j))
             ∧ (∀ j, j < 24 → cell j = (BitVec.ofInt 24 sample).getMsbD j)
             ∧ cell 24 = invalid ∧ cell 25 = false ∧ cell 26 = t.ou.link.active.getLsbD s.ou.link.count
             ∧ ((List.range 28).filter cell).length % 2 = 0))))
  ∧ (∀ b : RenderBlock, (∀ i : Fin 8, b.chans[i].length = 32) →
     (let x := fun (i : Fin 8) (j : Fin 32) => b.chans[i].getD j.val 0
      let share := fun v : Int => v * 23170 / 32768
      (mainFold b).length = 32
      ∧ ∀ j : Fin 32, (mainFold b)[j.val]? = some
          (sat24 (x 0 j + share (x 2 j) + share (x 4 j) + share (x 6 j)) / 2,
           sat24 (x 1 j + share (x 2 j) + share (x 5 j) + share (x 7 j)) / 2)))
  ∧ (∀ (s : State) (cmd : Instr), s.boundaryBy cmd → ∃ t, exec cmd s = .next t
     ∧ t.ou.link.mainBlock = s.ou.link.mainNext)
  ∧ (∀ (s : State) (p : Fin 6) (bits : List Bool) (fmt : Bool) (c : RateClass), s.resetLow = false →
     s.ou.link.source = .port p → s.ports[p].lock = .locked c → s.ports[p].filling.length = 31 →
     ∃ t, exec (.portFrame p bits fmt) s = .next t
       ∧ (let q := s.ports[p]
          let frames := q.filling ++ [frameOfBits (if p = 0 then 8 else 2) bits]
          let encoded := if q.change then fmt else decide (q.format = .encoded)
          let good := p ≠ 4 ∨ (s.tc.st = .tuned ∧ q.mark = true)
          let taken := { s.ou.link with
            portBlock := frames.map fun f => (f.getD 0 0, f.getD 1 0), portInvalid := encoded, cls := c,
            following := true }
          t.ou.link = { (if good then taken else s.ou.link) with
            mainBlock := t.ou.link.mainBlock, mainNext := t.ou.link.mainNext }))
  ∧ ∀ s : State, s.resetLow = false → ∃ t, exec .rateWindowEnd s = .next t
     ∧ (∀ (p : Fin 6) (c : RateClass), s.ou.link.source = .port p → s.ports[p].lock = .locked c →
         s.ports[p].miss = true → classify s.ports[p].windowCount ≠ .cls c →
         t.ou = { s.ou with link := { s.ou.link with portBlock := [], following := false } })
     ∧ ((∀ (p : Fin 6) (c : RateClass), s.ou.link.source = .port p → s.ports[p].lock = .locked c →
           s.ports[p].miss = true → classify s.ports[p].windowCount = .cls c) → t.ou = s.ou)

/-- R141 to R144, R151: a fault sample sets its pair's latch; at the update a pair in NORMAL, WARN or DERATE has 16, 2
or −1 added to its counter within 0..256 and takes the state its counter gives, with the event of a change; a pair in
SHUTDOWN is not stepped. R148 to R150: a pair in RECOVERING: a fault begins the window again and the eighth ends the
recovery in SHUTDOWN, quiet blocks but the first fill windows of 16, and the thirty-second window ends it in NORMAL. -/
def Obligations.AmpFaultsStepTheCounter : Prop :=
  (∀ (s : State) (p : Fin 4), s.resetLow = false → ∃ t, exec (.ampFaultSample p) s = .next t
    ∧ t.kept = { s.kept with ap := s.ap.set p { s.ap[p] with latch := true } })
  ∧ ∀ (s : State) (marks : Vector Bool 8) (p : Fin 4),
    (let q := s.ap[p]
     let saturated := ∃ i : Fin 8, marks[i] = true ∧ s.ru.speakers[i].presence ≠ .absent
        ∧ s.ru.speakers[i].pair = some p
     let t := ampUpdate marks s
     let raised := fun (c : ProtectCode) (d1 d2 : Nat) =>
        s.eventRoom → eventNow s (.protect c) (BitVec.ofNat 16 p.val) (natWord d1) (natWord d2) ∈ t.eventsOut
     let after := fun (c cause : Nat) =>
        (let st : PairState :=
           if c ≤ 63 then .normal else if c ≤ 127 then .warn else if c ≤ 255 then .derate else .shutdown
         t.ap[p] = { q with counter := c, st := st }
         ∧ (st ≠ q.st → match st with
             | .normal => raised .normal c 0
             | .warn => raised .warn c cause
             | .derate => raised .derate c cause
             | _ => raised .shutdown 256 cause))
     ((q.st = .normal ∨ q.st = .warn ∨ q.st = .derate) →
        (q.blockFault = true → after (min 256 (q.counter + 16)) 0)
        ∧ (q.blockFault = false → saturated → after (min 256 (q.counter + 2)) 1)
        ∧ (q.blockFault = false → ¬ saturated → after (min 256 (q.counter - 1)) 2))
     ∧ (q.st = .shutdown → t.ap[p] = q)
     ∧ (q.st = .recovering →
        (q.blockFault = true → q.recFaults < 7 →
           t.ap[p] = { q with first := false, recFaults := q.recFaults + 1, windowBlocks := 0 })
        ∧ (q.blockFault = true → 7 ≤ q.recFaults →
           t.ap[p] = { q with
             first := false, recFaults := q.recFaults + 1, windowBlocks := 0, st := .shutdown, counter := 256 }
           ∧ raised .recoveryFailed q.windows 8 ∧ raised .shutdown 256 3)
        ∧ (q.blockFault = false → q.first = true → t.ap[p] = { q with first := false })
        ∧ (q.blockFault = false → q.first = false →
           (q.windowBlocks < 15 → t.ap[p] = { q with windowBlocks := q.windowBlocks + 1 })
           ∧ (15 ≤ q.windowBlocks → q.windows < 31 →
               t.ap[p] = { q with windowBlocks := 0, windows := q.windows + 1 })
           ∧ (15 ≤ q.windowBlocks → 31 ≤ q.windows →
               t.ap[p] = { q with windowBlocks := 0, windows := q.windows + 1, st := .normal, counter := 0 }
               ∧ raised .recovered q.recFaults 32))))

/-! ## Radio (09, 10) -/

/-- R155, R161, R162, R171: the stages of a tune: a tune write that succeeds starts the settle timer, its expiry
begins the status read, and the status read forms the quality and ends the work in TUNED or UNTUNED with its event. An
expiry acts whatever time remains (the model's choice, log entry 29), and with no timer running it does nothing (the
model's choice, log entry 2). The direction bit of the address byte is PRESUMED (log entry 60), and what an event says
where the tuner holds no tag or channel, which no run reaches, is the model's choice (log entry 45). -/
def Obligations.TuneStagesFollow : Prop :=
  (∀ (s : State) (b0 b1 : Byte) (a : Attempt) (b : Band), s.resetLow = false → s.tc.link = .attempt a →
     a.discard = false → s.tc.band = some b →
     ∃ t, exec (.linkAttemptEnd true b0 b1) s = .next t
       ∧ (a.request = .tuneWrite →
           t.kept = { s.kept with tc := { s.tc with
             link := .idle, retry := 0, st := if s.tc.st = .tuning then .settling else s.tc.st,
             settle := { running := true, remaining := if b = .fm then 245760 else 983040 } } }
           ∧ t.eventsOut = s.eventsOut)
       ∧ (a.request = .statusRead → s.tc.st = .settling →
           (let level := (b1.extractLsb' 0 7).toNat
            let multipath := (b0.extractLsb' 0 4).toNat
            let quality := if b = .fm then min 127 (level - 4 * multipath) else level
            let tuned := b0.getLsbD 7
            t.tc = { s.tc with
              link := .idle, retry := 0, quality := quality, st := if tuned then .tuned else .untuned, seek := none,
              tag := none }
            ∧ t.kept = { s.kept with tc := t.tc, sc := t.sc }
            ∧ ((tuned = false ∨ ∀ i, s.sc.connected = some i → s.sc.table[i].port ≠ 4) → t.sc = s.sc)
            ∧ (s.eventRoom → t.eventsOut =
                [if tuned then
                   eventNow s (.tuner .tuned) (s.tc.tag.getD 0xFFFF) (word2 (s.tc.channel.getD 0) b.code)
                     (word2 quality (if b = .fm ∧ b0.getLsbD 6 then 1 else 0))
                 else
                   eventNow s (.tuner .notLocked) (s.tc.tag.getD 0xFFFF) (optionWord s.tc.channel)
                     (natWord level)]))))
  ∧ (∀ s : State, s.resetLow = false → s.cu.quiesce = false → ∃ t, exec .settleTimerExpiry s = .next t
     ∧ t.eventsOut = s.eventsOut
     ∧ (s.tc.settle.running = false → t.kept = s.kept)
     ∧ (s.tc.settle.running = true → (∀ a, s.tc.link ≠ .attempt a) →
         t.kept = { s.kept with tc := { s.tc with
           settle := { running := false, remaining := 0 }, retry := 0, owed := false,
           link := .attempt (statusReadOf s.tc.addr) } }))

/-- R155, R156, R157, R171: a failed attempt is retried three times, by NAK or by timeout, and the fourth failure
takes the tuner OFFLINE with LINK_FAILED; an attempt whose outcome is discarded gives way to the work owed; a retry
begins the same request with the address in force. That a retry waits for a step of its own is DEDUCED (log entry 34),
the codes of the request and the cause are DEDUCED (log entry 30), a step with no attempt or retry does nothing (the
model's choice, log entry 2), the direction bit of the address byte is PRESUMED (log entry 60), and the band, channel
and tag taken where the tuner holds none, which no run reaches, are the model's choice (log entry 45). -/
def Obligations.LinkFailureRetriesThenGoesOffline : Prop :=
  ∀ (s : State) (b0 b1 : Byte), s.resetLow = false → s.cu.quiesce = false →
    (let newAttempt := fun r : LinkRequest => LinkState.attempt
        (match r with
          | .tuneWrite => tuneWriteOf s.tc.addr (s.tc.band.getD .fm) (s.tc.channel.getD 0)
          | .statusRead => statusReadOf s.tc.addr)
     let fails := fun (t : State) (r : LinkRequest) (cause : Nat) =>
        (s.tc.retry < 3 → t.kept = { s.kept with tc := { s.tc with retry := s.tc.retry + 1, link := .retry r } }
          ∧ t.eventsOut = s.eventsOut)
        ∧ (3 ≤ s.tc.retry → s.tc.st ≠ .tuned →
            t.kept = { s.kept with tc := { s.tc with
              st := .offline, link := .idle, owed := false, settle := { running := false, remaining := 0 },
              seek := none, tag := none } }
            ∧ (s.eventRoom → t.eventsOut = [eventNow s (.tuner .linkFailed) (s.tc.tag.getD 0xFFFF)
                (natWord r.code) (natWord cause)]))
     (∃ t, exec (.linkAttemptEnd false b0 b1) s = .next t
        ∧ ((∀ a, s.tc.link ≠ .attempt a) → t.kept = s.kept)
        ∧ (∀ a, s.tc.link = .attempt a → a.discard = false → fails t a.request 0))
     ∧ (∃ t, exec .linkTimeout s = .next t
        ∧ (s.tc.link = .idle → t.kept = s.kept)
        ∧ (∀ a, s.tc.link = .attempt a → a.discard = false → fails t a.request 1)
        ∧ (∀ r, s.tc.link = .retry r → fails t r 1))
     ∧ (∀ ack, ∃ t, exec (.linkAttemptEnd ack b0 b1) s = .next t
        ∧ (∀ a, s.tc.link = .attempt a → a.discard = true →
            t.kept = { s.kept with tc := { s.tc with
              owed := false, retry := if s.tc.owed then 0 else s.tc.retry,
              link := if s.tc.owed then newAttempt .tuneWrite else .idle } }))
     ∧ ∃ t, exec .linkRetry s = .next t
        ∧ (∀ r, s.tc.link = .retry r → t.kept = { s.kept with tc := { s.tc with link := newAttempt r } })
        ∧ ((∀ r, s.tc.link ≠ .retry r) → t.kept = s.kept))

/-- R174: a bit is taken while the tuner is settled on FM, joins the history of 48 and takes the next number. R175 to
R178: the window ending at the newest bit: in SEARCH a valid one makes a candidate; in PROBE the window after the
candidate gains SYNC when it is valid at the expected position, and otherwise the search resumes; in SYNC a good
block clears the bad count, and the sixth bad one in a row loses SYNC. The mark that a bit sets and the test of its
window clears is the model's choice (log entry 24), and the code of the cause of SYNC_LOST is DEDUCED (log entry
30). -/
def Obligations.BitsAndWindowsMoveSync : Prop :=
  (∀ (s : State) (b : Bool), s.resetLow = false → ∃ t, exec (.stationDataBit b) s = .next t
     ∧ (¬ (s.tc.st = .tuned ∧ s.tc.band = some .fm) → t.kept = s.kept ∧ t.eventsOut = s.eventsOut)
     ∧ (s.tc.st = .tuned → s.tc.band = some .fm → s.sd.due = false →
         t.kept = { s.kept with sd := { s.sd with
           history := (if s.sd.history.length < 48 then s.sd.history else s.sd.history.drop 1) ++ [b],
           bitCount := s.sd.bitCount + 1, due := true } }
         ∧ t.eventsOut = s.eventsOut))
  ∧ (∀ s : State, s.resetLow = false → s.tc.st = .tuned → s.tc.band = some .fm → s.sd.due = true →
     (let window := windowFrom s.sd (s.sd.bitCount - 24)
      (s.sd.sync = .search → 24 ≤ s.sd.bitCount → ∃ t, exec .searchWindow s = .next t
         ∧ (validPosition window = none →
             t.kept = { s.kept with sd := { s.sd with due := false, candidate := none } })
         ∧ (∀ p, validPosition window = some p →
             t.kept = { s.kept with sd := { s.sd with
               due := false, sync := .probe, expected := p + 1,
               candidate := some { firstBit := s.sd.bitCount - 24, position := p } } }))
      ∧ (∀ c, s.sd.sync = .probe → s.sd.candidate = some c → s.sd.bitCount = c.firstBit + 48 →
         ∃ t, exec .probeWindow s = .next t ∧ t.sd.due = false
           ∧ (validPosition (windowFrom s.sd (c.firstBit + 24)) = some s.sd.expected →
               t.sd.sync = .sync ∧ t.sd.badCount = 0 ∧ t.sd.candidate = none ∧ t.sd.expected = s.sd.expected + 1
               ∧ t.sd.nextEnd = c.firstBit + 72
               ∧ (s.eventRoom → t.eventsOut.head? = some (eventNow s (.station .syncGained) 0
                   (natWord s.sd.expected.val) (optionWord s.sd.tunedChannel))))
           ∧ (validPosition (windowFrom s.sd (c.firstBit + 24)) ≠ some s.sd.expected →
               t.eventsOut = s.eventsOut ∧ t.kept = { s.kept with sd := t.sd }
               ∧ ((∀ k : Fin 24, validPosition (windowFrom s.sd (c.firstBit + 1 + k.val)) = none) →
                   t.sd.sync = .search ∧ t.sd.candidate = none)
               ∧ (∀ (k : Fin 24) (p : Fin 4), validPosition (windowFrom s.sd (c.firstBit + 1 + k.val)) = some p →
                   (∀ j : Fin 24, j < k → validPosition (windowFrom s.sd (c.firstBit + 1 + j.val)) = none) →
                   t.sd.sync = .probe ∧ t.sd.expected = p + 1
                   ∧ t.sd.candidate = some { firstBit := c.firstBit + 1 + k.val, position := p })))
      ∧ (s.sd.sync = .sync → s.sd.bitCount = s.sd.nextEnd → ∃ t, exec .syncBlock s = .next t
         ∧ t.sd.due = false ∧ t.sd.nextEnd = s.sd.nextEnd + 24 ∧ t.sd.expected = s.sd.expected + 1
         ∧ (validPosition window = some s.sd.expected → t.sd.sync = .sync ∧ t.sd.badCount = 0)
         ∧ (validPosition window ≠ some s.sd.expected → s.sd.badCount < 5 →
             t.sd.sync = .sync ∧ t.sd.badCount = s.sd.badCount + 1 ∧ t.sd.partialGroup = []
             ∧ t.eventsOut = s.eventsOut)
         ∧ (validPosition window ≠ some s.sd.expected → 5 ≤ s.sd.badCount →
             t.sd.sync = .search ∧ t.sd.partialGroup = []
             ∧ (s.eventRoom → t.eventsOut = [eventNow s (.station .syncLost) 0 0 0])))))

/-- R162, R164 to R166: the status read of a seek step: the return ends with SEEK_FAILED, a stopped step with
SEEK_STOPPED, a channel that locks with the quality asked for is found, and otherwise the next step tunes the next
candidate or, once round the band, the start channel; from a start channel outside the plan's edges that may tune an
edge twice (the model's choice, log entry 62). The codes of the causes are DEDUCED (log entry 30), the direction bit
of the address byte is PRESUMED (log entry 60), and the subject of the event of a seek with no tag, which no run
reaches, is the model's choice (log entry 45). -/
def Obligations.SeekStepsEndOrGoOn : Prop :=
  ∀ (s : State) (b0 b1 : Byte) (a : Attempt) (b : Band) (ctx : SeekContext) (c : Nat), s.resetLow = false →
    s.cu.quiesce = false → s.tc.st = .seeking → s.tc.link = .attempt a → a.request = .statusRead →
    a.discard = false → s.tc.band = some b → s.tc.channel = some c → s.tc.seek = some ctx →
    ∃ t, exec (.linkAttemptEnd true b0 b1) s = .next t
      ∧ (let level := (b1.extractLsb' 0 7).toNat
         let multipath := (b0.extractLsb' 0 4).toNat
         let quality := if b = .fm then min 127 (level - 4 * multipath) else level
         let tuned := b0.getLsbD 7
         let ended := fun (st : TunerState) (ev : TunerCode) (d2 : Nat) =>
           t.tc = { s.tc with
             link := .idle, retry := 0, quality := quality, st := st, seek := none, tag := none }
           ∧ t.kept = { s.kept with tc := t.tc, sc := t.sc }
           ∧ ((st ≠ .tuned ∨ ∀ i, s.sc.connected = some i → s.sc.table[i].port ≠ 4) → t.sc = s.sc)
           ∧ (s.eventRoom → t.eventsOut =
               [eventNow s (.tuner ev) (s.tc.tag.getD 0xFFFF) (natWord c) (natWord d2)])
         let outcome : TunerState := if tuned then .tuned else .untuned
         let cand := if ctx.up then planAbove b (s.tc.stepOf b) c else planBelow b (s.tc.stepOf b) c
         let round := decide (cand.1 = ctx.start) || (ctx.wrapped && (cand.2
           || (if ctx.up then decide (ctx.start < cand.1) else decide (cand.1 < ctx.start))))
         let next := if round then ctx.start else cand.1
         (ctx.returning = true → ended outcome .seekFailed quality)
         ∧ (ctx.returning = false → ctx.stopPending = true → ended outcome .seekStopped 0)
         ∧ (ctx.returning = false → ctx.stopPending = false → tuned = true → ctx.threshold ≤ quality →
             ended .tuned .seekFound quality)
         ∧ (ctx.returning = false → ctx.stopPending = false → (tuned = false ∨ quality < ctx.threshold) →
             t.tc = { s.tc with
               channel := some next, quality := quality, retry := 0, owed := false,
               seek := some { ctx with wrapped := ctx.wrapped || cand.2, returning := round },
               link := .attempt (tuneWriteOf s.tc.addr b next) }
             ∧ t.kept = { s.kept with tc := t.tc, sd := t.sd }
             ∧ t.sd.tunedChannel = some next ∧ t.sd.recalled = none ∧ t.sd.sync = .search ∧ t.sd.bitCount = 0
             ∧ t.sd.identity = none ∧ t.sd.slots = s.sd.slots))

/-- R179 to R182: a block judged good in SYNC: position 0 begins a partial group, positions 1 and 2 extend it in
their order, and position 3 completes it; a block with no group begun is dropped. A complete group teaches the
identity, a new one replacing the learned one when two groups in a row carry it, is compared with the recalled
identity, and with type 0 sets the category and the traffic flag. -/
def Obligations.GoodBlocksBuildGroups : Prop :=
  ∀ s : State, s.resetLow = false → s.tc.st = .tuned → s.tc.band = some .fm → s.sd.due = true →
    s.sd.sync = .sync → s.sd.bitCount = s.sd.nextEnd →
    validPosition (windowFrom s.sd (s.sd.bitCount - 24)) = some s.sd.expected →
    ∃ t, exec .syncBlock s = .next t
      ∧ (let w := infoWord (windowFrom s.sd (s.sd.bitCount - 24))
         let judged := { s.sd with
           due := false, badCount := 0, expected := s.sd.expected + 1, nextEnd := s.sd.nextEnd + 24 }
         let only := fun g : List (BitVec 16) =>
           t.kept = { s.kept with sd := { judged with partialGroup := g } } ∧ t.eventsOut = s.eventsOut
         (s.sd.expected = 0 → only [w])
         ∧ ((s.sd.expected = 1 ∨ s.sd.expected = 2) → s.sd.partialGroup.length = s.sd.expected.val →
             only (s.sd.partialGroup ++ [w]))
         ∧ (s.sd.expected ≠ 0 → s.sd.partialGroup.length ≠ s.sd.expected.val → only s.sd.partialGroup)
         ∧ ∀ i w1 w2, s.sd.expected = 3 → s.sd.partialGroup = [i, w1, w2] →
             (let learns := s.sd.identity = none
              let changes := s.sd.identity ≠ none ∧ s.sd.identity ≠ some i ∧ s.sd.changeCand = some i
              let category := w1.extractLsb' 5 5
              let traffic := w1.getLsbD 10
              let news := w1.extractLsb' 12 4 = 0 ∧ ¬ (s.sd.category = some category ∧ s.sd.traffic = traffic)
              let mismatch := fun r : RecalledIdentity => s.sd.recalled = some r ∧ r.known = true ∧ r.identity ≠ i
              t.kept = { s.kept with sd := t.sd }
              ∧ t.sd.sync = .sync ∧ t.sd.badCount = 0 ∧ t.sd.expected = 0 ∧ t.sd.partialGroup = []
              ∧ t.sd.nextEnd = s.sd.nextEnd + 24 ∧ t.sd.due = false
              ∧ t.sd.recalled = s.sd.recalled ∧ t.sd.tunedChannel = s.sd.tunedChannel
              ∧ t.sd.identity = (if learns ∨ changes then some i else s.sd.identity)
              ∧ t.sd.changeCand =
                  (if learns ∨ changes ∨ s.sd.identity = some i then none else some i)
              ∧ t.sd.category = (if w1.extractLsb' 12 4 = 0 then some category else s.sd.category)
              ∧ t.sd.traffic = (if w1.extractLsb' 12 4 = 0 then traffic else s.sd.traffic)
              ∧ (s.eventRoom →
                  (learns → t.eventsOut.head? = some
                    (eventNow s (.station .identity) 0 (i.setWidth 32) (optionWord s.sd.tunedChannel)))
                  ∧ (∀ old, s.sd.identity = some old → changes → t.eventsOut.head? = some
                      (eventNow s (.station .identityChanged) 0 (i.setWidth 32) (old.setWidth 32)))
                  ∧ (∀ r, mismatch r → (learns ∨ changes) → t.eventsOut[1]? = some
                      (eventNow s (.station .identityMismatch) 0 (i.setWidth 32) (r.identity.setWidth 32)))
                  ∧ (news → eventNow s (.station .category) 0 (category.setWidth 32) (flagWord traffic)
                      ∈ t.eventsOut))))

/-- R183 to R187: the group that a block at position 3 completes: a group of type 1 puts its four characters in the
text buffer, cleared first for a new version, and a buffer that is then complete becomes the wanted text; the group
goes to the first EMPTY slot that matches, or over the lowest that matches, with the slot's record written; and a
text that differs from the one last written begins a write. -/
def Obligations.GroupsFillTextAndSlots : Prop :=
  ∀ (s : State) (w0 w1 w2 : BitVec 16), s.resetLow = false → s.tc.st = .tuned → s.tc.band = some .fm →
    s.sd.due = true → s.sd.sync = .sync → s.sd.bitCount = s.sd.nextEnd → s.sd.expected = 3 →
    s.sd.partialGroup = [w0, w1, w2] → s.cu.quiesce = false →
    validPosition (windowFrom s.sd (s.sd.bitCount - 24)) = some 3 →
    ∃ t, exec .syncBlock s = .next t
      ∧ (let w3 := infoWord (windowFrom s.sd (s.sd.bitCount - 24))
         let type : BitVec 4 := w1.extractLsb' 12 4
         let variant := w1.getLsbD 11
         let seg := (w1.extractLsb' 0 4).toNat
         let old := if s.sd.text.version = some variant then s.sd.text else
           { chars := Vector.replicate 64 0, mask := 0, version := some variant }
         let given : List Byte :=
           [w2.extractLsb' 8 8, w2.extractLsb' 0 8, w3.extractLsb' 8 8, w3.extractLsb' 0 8]
         let char := fun k : Nat => t.sd.text.chars.toList.getD k 0
         let received := fun k : Nat => t.sd.text.mask.getLsbD (k / 4)
         let ends := fun k : Nat => received k = true ∧ char k = 0x0D
         let matchesSlot := fun n : Fin 8 =>
           (s.sd.slots[n].enable = true ∧ (type ^^^ s.sd.slots[n].typeMatch) &&& s.sd.slots[n].typeMask = 0
            ∧ (s.sd.slots[n].varMask = true → variant = s.sd.slots[n].varMatch))
         let placed := fun (n : Fin 8) (overrun : Bool) =>
           t.sd.slots = s.sd.slots.set n { s.sd.slots[n] with
             group := some { words := [w0, w1, w2, w3], stamp := s.clock.stamp }, overrun := overrun }
           ∧ (∃ x ∈ t.pu.queues.control.all, x.requester = .captureRecord n
               ∧ x.addr = s.pu.regions.control + 0x100 + 32 * n.val ∧ x.beats = 8)
           ∧ (s.eventRoom → eventNow s (.station (if overrun then .captureOverrun else .captured))
                 (BitVec.ofNat 16 n.val) (type.setWidth 32) (flagWord variant) ∈ t.eventsOut)
         (type ≠ 1 → t.sd.text = s.sd.text ∧ t.sd.wanted = s.sd.wanted)
         ∧ (type = 1 →
             t.sd.text.version = some variant ∧ t.sd.text.mask = old.mask ||| ((1 : BitVec 16) <<< seg)
             ∧ (∀ k : Fin 64, t.sd.text.chars[k] =
                 if 4 * seg ≤ k.val ∧ k.val < 4 * seg + 4 then given.getD (k.val - 4 * seg) 0 else old.chars[k])
             ∧ (∀ e : Fin 64, ends e.val → (∀ k : Fin 64, k < e → ¬ ends k.val) →
                 t.sd.wanted = if ∀ k : Fin 64, k ≤ e → received k.val = true
                   then { version := variant, chars := t.sd.text.chars.toList.take e.val } else s.sd.wanted)
             ∧ ((∀ k : Fin 64, ¬ ends k.val) → t.sd.wanted =
                 if t.sd.text.mask = 0xFFFF then { version := variant, chars := t.sd.text.chars.toList }
                 else s.sd.wanted))
         ∧ (∀ n : Fin 8, matchesSlot n → s.sd.slots[n].group = none →
             (∀ m : Fin 8, m < n → matchesSlot m → s.sd.slots[m].group.isSome = true) → placed n false)
         ∧ (∀ n : Fin 8, matchesSlot n → (∀ m : Fin 8, m < n → ¬ matchesSlot m) →
             (∀ m : Fin 8, matchesSlot m → s.sd.slots[m].group.isSome = true) → placed n true)
         ∧ ((∀ n : Fin 8, ¬ matchesSlot n) → t.sd.slots = s.sd.slots)
         ∧ t.sd.lastWritten = s.sd.lastWritten
         ∧ (s.sd.writer = none → s.sd.lastWritten ≠ some t.sd.wanted →
             t.sd.writer = some t.sd.wanted
             ∧ { owner := .textWrite, startLine := (s.pu.regions.control + 0x200) / 32, lines := 3 }
                 ∈ t.pu.requests)
         ∧ (s.sd.writer = none → s.sd.lastWritten = some t.sd.wanted → t.sd.writer = none)
         ∧ (s.sd.writer.isSome = true → t.sd.writer = s.sd.writer))

/-! ## The arithmetic of the audio and the radio -/

/-- R83: an envelope moves a quarter of the way up to the block's magnitude or a thirty-second of the way down,
never past it, stalls within 3 below it or 31 above it, and released toward 0 from 32 or more ends at 31. R84, R85:
the steering targets and applied values of a block, and the bounds they keep. R105: the gain of each applied
attenuation; twelve steps are an exact halving of the shift, 0 keeps the sample, 192 silences it, and no attenuation
makes a sample larger. R212: a sample word holds the 24-bit sample with its sign in bits 31:24, and a word read gives
its sample whatever bits 31:24 hold. -/
def Obligations.EnvelopesGainsAndSamples : Prop :=
  ((∀ e m : Int,
     (e ≤ m → envelope e m = e + (m - e) / 4 ∧ e ≤ envelope e m ∧ envelope e m ≤ m
       ∧ (envelope e m = e ↔ m - e ≤ 3))
     ∧ (m < e → envelope e m = e - (e - m) / 32 ∧ m ≤ envelope e m ∧ envelope e m ≤ e
       ∧ (envelope e m = e ↔ e - m ≤ 31)))
   ∧ (∀ e m : Int, 0 ≤ e → e ≤ 8388608 → 0 ≤ m → m ≤ 8388608 → 0 ≤ envelope e m ∧ envelope e m ≤ 8388608)
   ∧ (∀ e : Int, 32 ≤ e → ∃ n : Nat, (fun x => envelope x 0)^[n] e = 31)
   ∧ ∀ e : Int, 0 ≤ e → e ≤ 31 → envelope e 0 = e)
  ∧ ((∀ prev x y : Int, 0 ≤ x → 0 ≤ y →
     (x + y < 256 → steeringTarget prev x y = prev)
     ∧ (256 ≤ x + y → -32767 ≤ steeringTarget prev x y ∧ steeringTarget prev x y ≤ 32767
         ∧ steeringTarget prev y x = -steeringTarget prev x y
         ∧ (0 < x → 0 < y → steeringTarget prev x y = ((x - y) * 32768).tdiv (x + y))
         ∧ (y = 0 → steeringTarget prev x y = 32767)))
   ∧ (∀ (st : Steering) (l r : Chan),
       (steer st l r).envL = envelope st.envL (blockMagnitude l)
       ∧ (steer st l r).envR = envelope st.envR (blockMagnitude r)
       ∧ (steer st l r).envS = envelope st.envS (blockMagnitude (sumSignal l r))
       ∧ (steer st l r).envD = envelope st.envD (blockMagnitude (diffSignal l r))
       ∧ (steer st l r).aTgt = steeringTarget st.aTgt (steer st l r).envL (steer st l r).envR
       ∧ (steer st l r).bTgt = steeringTarget st.bTgt (steer st l r).envS (steer st l r).envD
       ∧ (steer st l r).aApp = slew st.aApp (steer st l r).aTgt
       ∧ (steer st l r).bApp = slew st.bApp (steer st l r).bTgt)
   ∧ (∀ a g : Int, (g - a ≤ 1024 → -1024 ≤ g - a → slew a g = g) ∧ (1024 < g - a → slew a g = a + 1024)
       ∧ (g - a < -1024 → slew a g = a - 1024))
   ∧ (∀ a g : Int, -32767 ≤ a → a ≤ 32767 → -32767 ≤ g → g ≤ 32767 → -32767 ≤ slew a g ∧ slew a g ≤ 32767)
   ∧ ∀ (a g : Int) (n : Nat), (g - a).natAbs ≤ 1024 * n → (fun x => slew x g)^[n] a = g)
  ∧ ((∀ x : Int, gainSample 0 x = x ∧ gainSample 192 x = 0)
   ∧ (∀ (n : Nat) (r : Fin 12) (x : Int), 12 * n + r.val < 192 →
       gainSample (12 * n + r.val) x =
         (x * [32768, 30935, 29205, 27571, 26029, 24573, 23198, 21900, 20675, 19519, 18427, 17396].getD r.val 0)
           / 2 ^ (15 + n))
   ∧ ∀ (a : Nat) (x : Int), a ≤ 192 → (gainSample a x).natAbs ≤ x.natAbs)
  ∧ (∀ x : Int, -8388608 ≤ x → x ≤ 8388607 →
     sampleOf (sampleWord x) = x
     ∧ (∀ k : Nat, 24 ≤ k → k < 32 → (sampleWord x).getLsbD k = (sampleWord x).getLsbD 23)
     ∧ ∀ top : BitVec 8, sampleOf (top ++ (sampleWord x).extractLsb' 0 24) = x)

/-- R158, R159, R164: a channel is snapped onto the plan of its band and step: to an edge at or beyond it, and
between the edges to the nearest plan channel, the lower one at a tie. The candidate of a seek step is the smallest
plan channel above the current one or the largest below it, and the other edge when there is none. -/
def Obligations.PlanChannelsAreNearest : Prop :=
  (∀ (b : Band) (kHz c : Nat),
     (match b with
       | .fm => kHz = 50 ∨ kHz = 100 ∨ kHz = 200
       | .am => kHz = 9 ∨ kHz = 10) →
     (let lo := planLow b kHz
      let hi := planHigh b kHz
      let step := planStep b kHz
      let ch := snapChannel b kHz c
      (c ≤ lo → ch = lo) ∧ (hi ≤ c → ch = hi)
      ∧ lo ≤ ch ∧ ch ≤ hi ∧ (ch - lo) % step = 0
      ∧ (lo < c → c < hi → ∀ k, lo + k * step ≤ hi →
          Int.natAbs ((ch : Int) - c) ≤ Int.natAbs (((lo + k * step : Nat) : Int) - c)
          ∧ (Int.natAbs ((ch : Int) - c) = Int.natAbs (((lo + k * step : Nat) : Int) - c) →
              ch ≤ lo + k * step))))
  ∧ (∀ (b : Band) (kHz c : Nat),
     (match b with
       | .fm => kHz = 50 ∨ kHz = 100 ∨ kHz = 200
       | .am => kHz = 9 ∨ kHz = 10) →
     (let lo := planLow b kHz
      let hi := planHigh b kHz
      let onPlan := fun n : Nat => lo ≤ n ∧ n ≤ hi ∧ (n - lo) % planStep b kHz = 0
      ((∃ n, onPlan n ∧ c < n) →
         onPlan (planAbove b kHz c).1 ∧ c < (planAbove b kHz c).1 ∧ (planAbove b kHz c).2 = false
         ∧ ∀ n, onPlan n → c < n → (planAbove b kHz c).1 ≤ n)
      ∧ ((∀ n, onPlan n → n ≤ c) → planAbove b kHz c = (lo, true))
      ∧ ((∃ n, onPlan n ∧ n < c) →
         onPlan (planBelow b kHz c).1 ∧ (planBelow b kHz c).1 < c ∧ (planBelow b kHz c).2 = false
         ∧ ∀ n, onPlan n → n < c → n ≤ (planBelow b kHz c).1)
      ∧ ((∀ n, onPlan n → c ≤ n) → planBelow b kHz c = (hi, true))))
end

