-- ==== Sys2Proof/Laws/State.lean ====
section
/-! SUPPORT. One lemma per field of `State` for each of its updates. -/

namespace Sys2Proof.Machine

variable (s : State)

@[simp] theorem State.mapPu_pending (f : PathUnit → PathUnit) : (s.mapPu f).pending = s.pending := rfl
@[simp] theorem State.mapPu_freeUsed (f : PathUnit → PathUnit) : (s.mapPu f).freeUsed = s.freeUsed := rfl
@[simp] theorem State.mapPu_resetLow (f : PathUnit → PathUnit) : (s.mapPu f).resetLow = s.resetLow := rfl
@[simp] theorem State.mapPu_pins (f : PathUnit → PathUnit) : (s.mapPu f).pins = s.pins := rfl
@[simp] theorem State.mapPu_pu (f : PathUnit → PathUnit) : (s.mapPu f).pu = f s.pu := rfl
@[simp] theorem State.mapPu_cu (f : PathUnit → PathUnit) : (s.mapPu f).cu = s.cu := rfl
@[simp] theorem State.mapPu_ports (f : PathUnit → PathUnit) : (s.mapPu f).ports = s.ports := rfl
@[simp] theorem State.mapPu_sc (f : PathUnit → PathUnit) : (s.mapPu f).sc = s.sc := rfl
@[simp] theorem State.mapPu_clock (f : PathUnit → PathUnit) : (s.mapPu f).clock = s.clock := rfl
@[simp] theorem State.mapPu_re (f : PathUnit → PathUnit) : (s.mapPu f).re = s.re := rfl
@[simp] theorem State.mapPu_ru (f : PathUnit → PathUnit) : (s.mapPu f).ru = s.ru := rfl
@[simp] theorem State.mapPu_du (f : PathUnit → PathUnit) : (s.mapPu f).du = s.du := rfl
@[simp] theorem State.mapPu_ou (f : PathUnit → PathUnit) : (s.mapPu f).ou = s.ou := rfl
@[simp] theorem State.mapPu_ap (f : PathUnit → PathUnit) : (s.mapPu f).ap = s.ap := rfl
@[simp] theorem State.mapPu_tc (f : PathUnit → PathUnit) : (s.mapPu f).tc = s.tc := rfl
@[simp] theorem State.mapPu_sd (f : PathUnit → PathUnit) : (s.mapPu f).sd = s.sd := rfl

@[simp] theorem State.mapCu_pending (f : CommandUnit → CommandUnit) : (s.mapCu f).pending = s.pending := rfl
@[simp] theorem State.mapCu_freeUsed (f : CommandUnit → CommandUnit) : (s.mapCu f).freeUsed = s.freeUsed := rfl
@[simp] theorem State.mapCu_resetLow (f : CommandUnit → CommandUnit) : (s.mapCu f).resetLow = s.resetLow := rfl
@[simp] theorem State.mapCu_pins (f : CommandUnit → CommandUnit) : (s.mapCu f).pins = s.pins := rfl
@[simp] theorem State.mapCu_pu (f : CommandUnit → CommandUnit) : (s.mapCu f).pu = s.pu := rfl
@[simp] theorem State.mapCu_cu (f : CommandUnit → CommandUnit) : (s.mapCu f).cu = f s.cu := rfl
@[simp] theorem State.mapCu_ports (f : CommandUnit → CommandUnit) : (s.mapCu f).ports = s.ports := rfl
@[simp] theorem State.mapCu_sc (f : CommandUnit → CommandUnit) : (s.mapCu f).sc = s.sc := rfl
@[simp] theorem State.mapCu_clock (f : CommandUnit → CommandUnit) : (s.mapCu f).clock = s.clock := rfl
@[simp] theorem State.mapCu_re (f : CommandUnit → CommandUnit) : (s.mapCu f).re = s.re := rfl
@[simp] theorem State.mapCu_ru (f : CommandUnit → CommandUnit) : (s.mapCu f).ru = s.ru := rfl
@[simp] theorem State.mapCu_du (f : CommandUnit → CommandUnit) : (s.mapCu f).du = s.du := rfl
@[simp] theorem State.mapCu_ou (f : CommandUnit → CommandUnit) : (s.mapCu f).ou = s.ou := rfl
@[simp] theorem State.mapCu_ap (f : CommandUnit → CommandUnit) : (s.mapCu f).ap = s.ap := rfl
@[simp] theorem State.mapCu_tc (f : CommandUnit → CommandUnit) : (s.mapCu f).tc = s.tc := rfl
@[simp] theorem State.mapCu_sd (f : CommandUnit → CommandUnit) : (s.mapCu f).sd = s.sd := rfl

@[simp] theorem State.mapSc_pending (f : SwitchUnit → SwitchUnit) : (s.mapSc f).pending = s.pending := rfl
@[simp] theorem State.mapSc_freeUsed (f : SwitchUnit → SwitchUnit) : (s.mapSc f).freeUsed = s.freeUsed := rfl
@[simp] theorem State.mapSc_resetLow (f : SwitchUnit → SwitchUnit) : (s.mapSc f).resetLow = s.resetLow := rfl
@[simp] theorem State.mapSc_pins (f : SwitchUnit → SwitchUnit) : (s.mapSc f).pins = s.pins := rfl
@[simp] theorem State.mapSc_pu (f : SwitchUnit → SwitchUnit) : (s.mapSc f).pu = s.pu := rfl
@[simp] theorem State.mapSc_cu (f : SwitchUnit → SwitchUnit) : (s.mapSc f).cu = s.cu := rfl
@[simp] theorem State.mapSc_ports (f : SwitchUnit → SwitchUnit) : (s.mapSc f).ports = s.ports := rfl
@[simp] theorem State.mapSc_sc (f : SwitchUnit → SwitchUnit) : (s.mapSc f).sc = f s.sc := rfl
@[simp] theorem State.mapSc_clock (f : SwitchUnit → SwitchUnit) : (s.mapSc f).clock = s.clock := rfl
@[simp] theorem State.mapSc_re (f : SwitchUnit → SwitchUnit) : (s.mapSc f).re = s.re := rfl
@[simp] theorem State.mapSc_ru (f : SwitchUnit → SwitchUnit) : (s.mapSc f).ru = s.ru := rfl
@[simp] theorem State.mapSc_du (f : SwitchUnit → SwitchUnit) : (s.mapSc f).du = s.du := rfl
@[simp] theorem State.mapSc_ou (f : SwitchUnit → SwitchUnit) : (s.mapSc f).ou = s.ou := rfl
@[simp] theorem State.mapSc_ap (f : SwitchUnit → SwitchUnit) : (s.mapSc f).ap = s.ap := rfl
@[simp] theorem State.mapSc_tc (f : SwitchUnit → SwitchUnit) : (s.mapSc f).tc = s.tc := rfl
@[simp] theorem State.mapSc_sd (f : SwitchUnit → SwitchUnit) : (s.mapSc f).sd = s.sd := rfl

@[simp] theorem State.mapClock_pending (f : ClockUnit → ClockUnit) : (s.mapClock f).pending = s.pending := rfl
@[simp] theorem State.mapClock_freeUsed (f : ClockUnit → ClockUnit) : (s.mapClock f).freeUsed = s.freeUsed := rfl
@[simp] theorem State.mapClock_resetLow (f : ClockUnit → ClockUnit) : (s.mapClock f).resetLow = s.resetLow := rfl
@[simp] theorem State.mapClock_pins (f : ClockUnit → ClockUnit) : (s.mapClock f).pins = s.pins := rfl
@[simp] theorem State.mapClock_pu (f : ClockUnit → ClockUnit) : (s.mapClock f).pu = s.pu := rfl
@[simp] theorem State.mapClock_cu (f : ClockUnit → ClockUnit) : (s.mapClock f).cu = s.cu := rfl
@[simp] theorem State.mapClock_ports (f : ClockUnit → ClockUnit) : (s.mapClock f).ports = s.ports := rfl
@[simp] theorem State.mapClock_sc (f : ClockUnit → ClockUnit) : (s.mapClock f).sc = s.sc := rfl
@[simp] theorem State.mapClock_clock (f : ClockUnit → ClockUnit) : (s.mapClock f).clock = f s.clock := rfl
@[simp] theorem State.mapClock_re (f : ClockUnit → ClockUnit) : (s.mapClock f).re = s.re := rfl
@[simp] theorem State.mapClock_ru (f : ClockUnit → ClockUnit) : (s.mapClock f).ru = s.ru := rfl
@[simp] theorem State.mapClock_du (f : ClockUnit → ClockUnit) : (s.mapClock f).du = s.du := rfl
@[simp] theorem State.mapClock_ou (f : ClockUnit → ClockUnit) : (s.mapClock f).ou = s.ou := rfl
@[simp] theorem State.mapClock_ap (f : ClockUnit → ClockUnit) : (s.mapClock f).ap = s.ap := rfl
@[simp] theorem State.mapClock_tc (f : ClockUnit → ClockUnit) : (s.mapClock f).tc = s.tc := rfl
@[simp] theorem State.mapClock_sd (f : ClockUnit → ClockUnit) : (s.mapClock f).sd = s.sd := rfl

@[simp] theorem State.mapRe_pending (f : RingEngine → RingEngine) : (s.mapRe f).pending = s.pending := rfl
@[simp] theorem State.mapRe_freeUsed (f : RingEngine → RingEngine) : (s.mapRe f).freeUsed = s.freeUsed := rfl
@[simp] theorem State.mapRe_resetLow (f : RingEngine → RingEngine) : (s.mapRe f).resetLow = s.resetLow := rfl
@[simp] theorem State.mapRe_pins (f : RingEngine → RingEngine) : (s.mapRe f).pins = s.pins := rfl
@[simp] theorem State.mapRe_pu (f : RingEngine → RingEngine) : (s.mapRe f).pu = s.pu := rfl
@[simp] theorem State.mapRe_cu (f : RingEngine → RingEngine) : (s.mapRe f).cu = s.cu := rfl
@[simp] theorem State.mapRe_ports (f : RingEngine → RingEngine) : (s.mapRe f).ports = s.ports := rfl
@[simp] theorem State.mapRe_sc (f : RingEngine → RingEngine) : (s.mapRe f).sc = s.sc := rfl
@[simp] theorem State.mapRe_clock (f : RingEngine → RingEngine) : (s.mapRe f).clock = s.clock := rfl
@[simp] theorem State.mapRe_re (f : RingEngine → RingEngine) : (s.mapRe f).re = f s.re := rfl
@[simp] theorem State.mapRe_ru (f : RingEngine → RingEngine) : (s.mapRe f).ru = s.ru := rfl
@[simp] theorem State.mapRe_du (f : RingEngine → RingEngine) : (s.mapRe f).du = s.du := rfl
@[simp] theorem State.mapRe_ou (f : RingEngine → RingEngine) : (s.mapRe f).ou = s.ou := rfl
@[simp] theorem State.mapRe_ap (f : RingEngine → RingEngine) : (s.mapRe f).ap = s.ap := rfl
@[simp] theorem State.mapRe_tc (f : RingEngine → RingEngine) : (s.mapRe f).tc = s.tc := rfl
@[simp] theorem State.mapRe_sd (f : RingEngine → RingEngine) : (s.mapRe f).sd = s.sd := rfl

@[simp] theorem State.mapRu_pending (f : RenderUnit → RenderUnit) : (s.mapRu f).pending = s.pending := rfl
@[simp] theorem State.mapRu_freeUsed (f : RenderUnit → RenderUnit) : (s.mapRu f).freeUsed = s.freeUsed := rfl
@[simp] theorem State.mapRu_resetLow (f : RenderUnit → RenderUnit) : (s.mapRu f).resetLow = s.resetLow := rfl
@[simp] theorem State.mapRu_pins (f : RenderUnit → RenderUnit) : (s.mapRu f).pins = s.pins := rfl
@[simp] theorem State.mapRu_pu (f : RenderUnit → RenderUnit) : (s.mapRu f).pu = s.pu := rfl
@[simp] theorem State.mapRu_cu (f : RenderUnit → RenderUnit) : (s.mapRu f).cu = s.cu := rfl
@[simp] theorem State.mapRu_ports (f : RenderUnit → RenderUnit) : (s.mapRu f).ports = s.ports := rfl
@[simp] theorem State.mapRu_sc (f : RenderUnit → RenderUnit) : (s.mapRu f).sc = s.sc := rfl
@[simp] theorem State.mapRu_clock (f : RenderUnit → RenderUnit) : (s.mapRu f).clock = s.clock := rfl
@[simp] theorem State.mapRu_re (f : RenderUnit → RenderUnit) : (s.mapRu f).re = s.re := rfl
@[simp] theorem State.mapRu_ru (f : RenderUnit → RenderUnit) : (s.mapRu f).ru = f s.ru := rfl
@[simp] theorem State.mapRu_du (f : RenderUnit → RenderUnit) : (s.mapRu f).du = s.du := rfl
@[simp] theorem State.mapRu_ou (f : RenderUnit → RenderUnit) : (s.mapRu f).ou = s.ou := rfl
@[simp] theorem State.mapRu_ap (f : RenderUnit → RenderUnit) : (s.mapRu f).ap = s.ap := rfl
@[simp] theorem State.mapRu_tc (f : RenderUnit → RenderUnit) : (s.mapRu f).tc = s.tc := rfl
@[simp] theorem State.mapRu_sd (f : RenderUnit → RenderUnit) : (s.mapRu f).sd = s.sd := rfl

@[simp] theorem State.mapDu_pending (f : DelayUnit → DelayUnit) : (s.mapDu f).pending = s.pending := rfl
@[simp] theorem State.mapDu_freeUsed (f : DelayUnit → DelayUnit) : (s.mapDu f).freeUsed = s.freeUsed := rfl
@[simp] theorem State.mapDu_resetLow (f : DelayUnit → DelayUnit) : (s.mapDu f).resetLow = s.resetLow := rfl
@[simp] theorem State.mapDu_pins (f : DelayUnit → DelayUnit) : (s.mapDu f).pins = s.pins := rfl
@[simp] theorem State.mapDu_pu (f : DelayUnit → DelayUnit) : (s.mapDu f).pu = s.pu := rfl
@[simp] theorem State.mapDu_cu (f : DelayUnit → DelayUnit) : (s.mapDu f).cu = s.cu := rfl
@[simp] theorem State.mapDu_ports (f : DelayUnit → DelayUnit) : (s.mapDu f).ports = s.ports := rfl
@[simp] theorem State.mapDu_sc (f : DelayUnit → DelayUnit) : (s.mapDu f).sc = s.sc := rfl
@[simp] theorem State.mapDu_clock (f : DelayUnit → DelayUnit) : (s.mapDu f).clock = s.clock := rfl
@[simp] theorem State.mapDu_re (f : DelayUnit → DelayUnit) : (s.mapDu f).re = s.re := rfl
@[simp] theorem State.mapDu_ru (f : DelayUnit → DelayUnit) : (s.mapDu f).ru = s.ru := rfl
@[simp] theorem State.mapDu_du (f : DelayUnit → DelayUnit) : (s.mapDu f).du = f s.du := rfl
@[simp] theorem State.mapDu_ou (f : DelayUnit → DelayUnit) : (s.mapDu f).ou = s.ou := rfl
@[simp] theorem State.mapDu_ap (f : DelayUnit → DelayUnit) : (s.mapDu f).ap = s.ap := rfl
@[simp] theorem State.mapDu_tc (f : DelayUnit → DelayUnit) : (s.mapDu f).tc = s.tc := rfl
@[simp] theorem State.mapDu_sd (f : DelayUnit → DelayUnit) : (s.mapDu f).sd = s.sd := rfl

@[simp] theorem State.mapOu_pending (f : OutputUnit → OutputUnit) : (s.mapOu f).pending = s.pending := rfl
@[simp] theorem State.mapOu_freeUsed (f : OutputUnit → OutputUnit) : (s.mapOu f).freeUsed = s.freeUsed := rfl
@[simp] theorem State.mapOu_resetLow (f : OutputUnit → OutputUnit) : (s.mapOu f).resetLow = s.resetLow := rfl
@[simp] theorem State.mapOu_pins (f : OutputUnit → OutputUnit) : (s.mapOu f).pins = s.pins := rfl
@[simp] theorem State.mapOu_pu (f : OutputUnit → OutputUnit) : (s.mapOu f).pu = s.pu := rfl
@[simp] theorem State.mapOu_cu (f : OutputUnit → OutputUnit) : (s.mapOu f).cu = s.cu := rfl
@[simp] theorem State.mapOu_ports (f : OutputUnit → OutputUnit) : (s.mapOu f).ports = s.ports := rfl
@[simp] theorem State.mapOu_sc (f : OutputUnit → OutputUnit) : (s.mapOu f).sc = s.sc := rfl
@[simp] theorem State.mapOu_clock (f : OutputUnit → OutputUnit) : (s.mapOu f).clock = s.clock := rfl
@[simp] theorem State.mapOu_re (f : OutputUnit → OutputUnit) : (s.mapOu f).re = s.re := rfl
@[simp] theorem State.mapOu_ru (f : OutputUnit → OutputUnit) : (s.mapOu f).ru = s.ru := rfl
@[simp] theorem State.mapOu_du (f : OutputUnit → OutputUnit) : (s.mapOu f).du = s.du := rfl
@[simp] theorem State.mapOu_ou (f : OutputUnit → OutputUnit) : (s.mapOu f).ou = f s.ou := rfl
@[simp] theorem State.mapOu_ap (f : OutputUnit → OutputUnit) : (s.mapOu f).ap = s.ap := rfl
@[simp] theorem State.mapOu_tc (f : OutputUnit → OutputUnit) : (s.mapOu f).tc = s.tc := rfl
@[simp] theorem State.mapOu_sd (f : OutputUnit → OutputUnit) : (s.mapOu f).sd = s.sd := rfl

@[simp] theorem State.mapTc_pending (f : TunerUnit → TunerUnit) : (s.mapTc f).pending = s.pending := rfl
@[simp] theorem State.mapTc_freeUsed (f : TunerUnit → TunerUnit) : (s.mapTc f).freeUsed = s.freeUsed := rfl
@[simp] theorem State.mapTc_resetLow (f : TunerUnit → TunerUnit) : (s.mapTc f).resetLow = s.resetLow := rfl
@[simp] theorem State.mapTc_pins (f : TunerUnit → TunerUnit) : (s.mapTc f).pins = s.pins := rfl
@[simp] theorem State.mapTc_pu (f : TunerUnit → TunerUnit) : (s.mapTc f).pu = s.pu := rfl
@[simp] theorem State.mapTc_cu (f : TunerUnit → TunerUnit) : (s.mapTc f).cu = s.cu := rfl
@[simp] theorem State.mapTc_ports (f : TunerUnit → TunerUnit) : (s.mapTc f).ports = s.ports := rfl
@[simp] theorem State.mapTc_sc (f : TunerUnit → TunerUnit) : (s.mapTc f).sc = s.sc := rfl
@[simp] theorem State.mapTc_clock (f : TunerUnit → TunerUnit) : (s.mapTc f).clock = s.clock := rfl
@[simp] theorem State.mapTc_re (f : TunerUnit → TunerUnit) : (s.mapTc f).re = s.re := rfl
@[simp] theorem State.mapTc_ru (f : TunerUnit → TunerUnit) : (s.mapTc f).ru = s.ru := rfl
@[simp] theorem State.mapTc_du (f : TunerUnit → TunerUnit) : (s.mapTc f).du = s.du := rfl
@[simp] theorem State.mapTc_ou (f : TunerUnit → TunerUnit) : (s.mapTc f).ou = s.ou := rfl
@[simp] theorem State.mapTc_ap (f : TunerUnit → TunerUnit) : (s.mapTc f).ap = s.ap := rfl
@[simp] theorem State.mapTc_tc (f : TunerUnit → TunerUnit) : (s.mapTc f).tc = f s.tc := rfl
@[simp] theorem State.mapTc_sd (f : TunerUnit → TunerUnit) : (s.mapTc f).sd = s.sd := rfl

@[simp] theorem State.mapSd_pending (f : StationUnit → StationUnit) : (s.mapSd f).pending = s.pending := rfl
@[simp] theorem State.mapSd_freeUsed (f : StationUnit → StationUnit) : (s.mapSd f).freeUsed = s.freeUsed := rfl
@[simp] theorem State.mapSd_resetLow (f : StationUnit → StationUnit) : (s.mapSd f).resetLow = s.resetLow := rfl
@[simp] theorem State.mapSd_pins (f : StationUnit → StationUnit) : (s.mapSd f).pins = s.pins := rfl
@[simp] theorem State.mapSd_pu (f : StationUnit → StationUnit) : (s.mapSd f).pu = s.pu := rfl
@[simp] theorem State.mapSd_cu (f : StationUnit → StationUnit) : (s.mapSd f).cu = s.cu := rfl
@[simp] theorem State.mapSd_ports (f : StationUnit → StationUnit) : (s.mapSd f).ports = s.ports := rfl
@[simp] theorem State.mapSd_sc (f : StationUnit → StationUnit) : (s.mapSd f).sc = s.sc := rfl
@[simp] theorem State.mapSd_clock (f : StationUnit → StationUnit) : (s.mapSd f).clock = s.clock := rfl
@[simp] theorem State.mapSd_re (f : StationUnit → StationUnit) : (s.mapSd f).re = s.re := rfl
@[simp] theorem State.mapSd_ru (f : StationUnit → StationUnit) : (s.mapSd f).ru = s.ru := rfl
@[simp] theorem State.mapSd_du (f : StationUnit → StationUnit) : (s.mapSd f).du = s.du := rfl
@[simp] theorem State.mapSd_ou (f : StationUnit → StationUnit) : (s.mapSd f).ou = s.ou := rfl
@[simp] theorem State.mapSd_ap (f : StationUnit → StationUnit) : (s.mapSd f).ap = s.ap := rfl
@[simp] theorem State.mapSd_tc (f : StationUnit → StationUnit) : (s.mapSd f).tc = s.tc := rfl
@[simp] theorem State.mapSd_sd (f : StationUnit → StationUnit) : (s.mapSd f).sd = f s.sd := rfl

@[simp] theorem State.mapPort_pending (p : Fin 6) (f : PortState → PortState) : (s.mapPort p f).pending = s.pending := rfl
@[simp] theorem State.mapPort_freeUsed (p : Fin 6) (f : PortState → PortState) : (s.mapPort p f).freeUsed = s.freeUsed := rfl
@[simp] theorem State.mapPort_resetLow (p : Fin 6) (f : PortState → PortState) : (s.mapPort p f).resetLow = s.resetLow := rfl
@[simp] theorem State.mapPort_pins (p : Fin 6) (f : PortState → PortState) : (s.mapPort p f).pins = s.pins := rfl
@[simp] theorem State.mapPort_pu (p : Fin 6) (f : PortState → PortState) : (s.mapPort p f).pu = s.pu := rfl
@[simp] theorem State.mapPort_cu (p : Fin 6) (f : PortState → PortState) : (s.mapPort p f).cu = s.cu := rfl
@[simp] theorem State.mapPort_sc (p : Fin 6) (f : PortState → PortState) : (s.mapPort p f).sc = s.sc := rfl
@[simp] theorem State.mapPort_clock (p : Fin 6) (f : PortState → PortState) : (s.mapPort p f).clock = s.clock := rfl
@[simp] theorem State.mapPort_re (p : Fin 6) (f : PortState → PortState) : (s.mapPort p f).re = s.re := rfl
@[simp] theorem State.mapPort_ru (p : Fin 6) (f : PortState → PortState) : (s.mapPort p f).ru = s.ru := rfl
@[simp] theorem State.mapPort_du (p : Fin 6) (f : PortState → PortState) : (s.mapPort p f).du = s.du := rfl
@[simp] theorem State.mapPort_ou (p : Fin 6) (f : PortState → PortState) : (s.mapPort p f).ou = s.ou := rfl
@[simp] theorem State.mapPort_ap (p : Fin 6) (f : PortState → PortState) : (s.mapPort p f).ap = s.ap := rfl
@[simp] theorem State.mapPort_tc (p : Fin 6) (f : PortState → PortState) : (s.mapPort p f).tc = s.tc := rfl
@[simp] theorem State.mapPort_sd (p : Fin 6) (f : PortState → PortState) : (s.mapPort p f).sd = s.sd := rfl
@[simp] theorem State.mapPort_ports (p : Fin 6) (f : PortState → PortState) :
    (s.mapPort p f).ports = s.ports.set p (f s.ports[p]) := rfl

@[simp] theorem State.mapPair_pending (p : Fin 4) (f : Pair → Pair) : (s.mapPair p f).pending = s.pending := rfl
@[simp] theorem State.mapPair_freeUsed (p : Fin 4) (f : Pair → Pair) : (s.mapPair p f).freeUsed = s.freeUsed := rfl
@[simp] theorem State.mapPair_resetLow (p : Fin 4) (f : Pair → Pair) : (s.mapPair p f).resetLow = s.resetLow := rfl
@[simp] theorem State.mapPair_pins (p : Fin 4) (f : Pair → Pair) : (s.mapPair p f).pins = s.pins := rfl
@[simp] theorem State.mapPair_pu (p : Fin 4) (f : Pair → Pair) : (s.mapPair p f).pu = s.pu := rfl
@[simp] theorem State.mapPair_cu (p : Fin 4) (f : Pair → Pair) : (s.mapPair p f).cu = s.cu := rfl
@[simp] theorem State.mapPair_ports (p : Fin 4) (f : Pair → Pair) : (s.mapPair p f).ports = s.ports := rfl
@[simp] theorem State.mapPair_sc (p : Fin 4) (f : Pair → Pair) : (s.mapPair p f).sc = s.sc := rfl
@[simp] theorem State.mapPair_clock (p : Fin 4) (f : Pair → Pair) : (s.mapPair p f).clock = s.clock := rfl
@[simp] theorem State.mapPair_re (p : Fin 4) (f : Pair → Pair) : (s.mapPair p f).re = s.re := rfl
@[simp] theorem State.mapPair_ru (p : Fin 4) (f : Pair → Pair) : (s.mapPair p f).ru = s.ru := rfl
@[simp] theorem State.mapPair_du (p : Fin 4) (f : Pair → Pair) : (s.mapPair p f).du = s.du := rfl
@[simp] theorem State.mapPair_ou (p : Fin 4) (f : Pair → Pair) : (s.mapPair p f).ou = s.ou := rfl
@[simp] theorem State.mapPair_tc (p : Fin 4) (f : Pair → Pair) : (s.mapPair p f).tc = s.tc := rfl
@[simp] theorem State.mapPair_sd (p : Fin 4) (f : Pair → Pair) : (s.mapPair p f).sd = s.sd := rfl
@[simp] theorem State.mapPair_ap (p : Fin 4) (f : Pair → Pair) :
    (s.mapPair p f).ap = s.ap.set p (f s.ap[p]) := rfl

end Sys2Proof.Machine
end

