-- ==== Sys2Proof/Laws/Reports.lean ====
section
/-! SUPPORT. The shared operations are reports: each keeps all that `State.kept` holds. -/

namespace Sys2Proof.Machine

variable (s : State)

@[simp] theorem kept_placeTransfer (q : Queue) (t : Transfer) : (placeTransfer q t s).kept = s.kept := rfl

@[simp] theorem kept_placeAll (q : Queue) (ts : List Transfer) : (placeAll q ts s).kept = s.kept := by
  induction ts generalizing s with
  | nil => rfl
  | cons t ts ih => exact (ih (placeTransfer q t s)).trans (kept_placeTransfer s q t)

@[simp] theorem kept_requestLock (l : Lock) : (requestLock l s).kept = s.kept := rfl

@[simp] theorem kept_setWriter (w : IndexWord) (v : WordWriter) : (setWriter w v s).kept = s.kept := rfl

@[simp] theorem kept_placeIndexWord (w : IndexWord) : (placeIndexWord w s).kept = s.kept := by
  simp [placeIndexWord]

@[simp] theorem kept_writeIndexWord (w : IndexWord) : (writeIndexWord w s).kept = s.kept := by
  unfold writeIndexWord; split
  · simp
  · split <;> simp

@[simp] theorem kept_idleWriter (w : IndexWord) : (idleWriter w s).kept = s.kept := rfl

@[simp] theorem kept_followEventWrite : (followEventWrite s).kept = s.kept := by
  unfold followEventWrite; split
  · rfl
  · simp

@[simp] theorem kept_indexWordEnded (w : IndexWord) : (indexWordEnded w s).kept = s.kept := by
  unfold indexWordEnded; split_ifs <;> simp

@[simp] theorem kept_dropEvent : (dropEvent s).kept = s.kept := by
  simp [dropEvent]; rfl

@[simp] theorem kept_placeEventWrite (e : Event) : (placeEventWrite e s).kept = s.kept := by
  simp [placeEventWrite]; rfl

@[simp] theorem kept_writeOldest (es : List Event) : (writeOldest es s).kept = s.kept := by
  induction es generalizing s with
  | nil => rfl
  | cons e es ih =>
    unfold writeOldest; split
    · simp [ih]
    · simp; rfl

@[simp] theorem kept_pumpEvents : (pumpEvents s).kept = s.kept := by
  unfold pumpEvents; split <;> simp

@[simp] theorem kept_queueEvent (e : Event) : (queueEvent e s).kept = s.kept := by
  unfold queueEvent; split
  · simp; rfl
  · simp

@[simp] theorem kept_raiseEvent (n : EventName) (subject : BitVec 16) (d1 d2 : Word) :
    (raiseEvent n subject d1 d2 s).kept = s.kept := by
  simp [raiseEvent]

@[simp] theorem kept_placeFaultRecord : (placeFaultRecord s).kept = s.kept := by
  simp [placeFaultRecord]; rfl

@[simp] theorem kept_writeFaultRecord : (writeFaultRecord s).kept = s.kept := by
  unfold writeFaultRecord; split
  · rfl
  · simp

@[simp] theorem kept_faultRecordEnded : (faultRecordEnded s).kept = s.kept := by
  unfold faultRecordEnded; dsimp only; split
  · simp; rfl
  · rfl

@[simp] theorem kept_raiseFaultMarked (m : Bool) (k : FaultKind) (a : Nat) :
    (raiseFaultMarked m k a s).kept = s.kept := by
  unfold raiseFaultMarked; dsimp only; split
  · rw [kept_writeFaultRecord]; exact kept_queueEvent s _
  · exact kept_queueEvent s _

@[simp] theorem kept_raiseFault (k : FaultKind) (a : Nat) : (raiseFault k a s).kept = s.kept := by
  simp [raiseFault]

@[simp] theorem kept_testFetch : (testFetch s).kept = s.kept := by
  unfold testFetch; split
  · simp; rfl
  · rfl

@[simp] theorem kept_beginCommand (tag kind : BitVec 16) : (beginCommand tag kind s).kept = s.kept := rfl

@[simp] theorem kept_holdFor (w : BusyWork) : (holdFor w s).kept = s.kept := by
  unfold holdFor; split <;> rfl

@[simp] theorem kept_advanceHead (b : Bool) : (advanceHead b s).kept = s.kept := by
  unfold advanceHead; split
  · simp; rfl
  · rfl

@[simp] theorem kept_complete (r : ResultCode) : (complete r s).kept = s.kept := by
  unfold complete; split
  · rw [kept_testFetch]
    exact (kept_advanceHead _ _).trans (kept_raiseEvent _ _ _ _ _)
  · rfl

@[simp] theorem kept_discardFetch : (discardFetch s).kept = s.kept := by
  unfold discardFetch; rw [kept_testFetch]; rfl

@[simp] theorem kept_beginStatusWrite : (beginStatusWrite s).kept = s.kept := rfl

@[simp] theorem kept_imageChanged : (imageChanged s).kept = s.kept := by
  unfold imageChanged; split
  · rfl
  · simp

@[simp] theorem kept_updateStatus : (updateStatus s).kept = s.kept := by
  unfold updateStatus; split
  · rfl
  · simp; rfl

@[simp] theorem kept_statusWriteEnded : (statusWriteEnded s).kept = s.kept := by
  unfold statusWriteEnded; split
  · simp
  · rfl

@[simp] theorem kept_statusWriteAborted : (statusWriteAborted s).kept = s.kept := rfl

@[simp] theorem kept_drivePins : (drivePins s).kept = s.kept := rfl

@[simp] theorem kept_finish : (finish s).kept = s.kept := by
  simp [finish]

end Sys2Proof.Machine
end

