-- ==== Sys2Proof/Laws/Completion.lean ====
section
/-! SUPPORT. What the shared operations of a command record do: a record taken by a ready Command Unit, and a
completion. -/

namespace Sys2Proof.Machine

/-- A record that reaches an idle Command Unit is taken. -/
theorem takeRecord_idle {s : State} (tag kind : BitVec 16) (f : State → State) (h : s.cu.exec = .idle) :
    takeRecord tag kind f s = f (beginCommand tag kind s) := by
  unfold takeRecord; rw [h]

theorem live_ready {s : State} (f : State → State) (h : s.resetLow = false) :
    live f s = .next (finish (f s)) := by
  unfold live; simp [h]

/-- The step of a record in a ready state. -/
theorem record_ready {s : State} (tag kind : BitVec 16) (f : State → State) (h : s.ready) :
    live (takeRecord tag kind f) s = .next (finish (f (beginCommand tag kind s))) := by
  rw [live_ready _ h.1, takeRecord_idle _ _ _ h.2]

theorem place_all (tq : TransferQueue) (cap : Nat) (t : Transfer) : (tq.place cap t).all = tq.all ++ [t] := by
  unfold TransferQueue.place TransferQueue.all
  split
  · rename_i h; simp [h.1]
  · simp

/-- `t` is `s` but for transfers that a completion may place in the CONTROL queue. -/
def PlacesCompletions (s t : State) : Prop :=
  t.pu.faultRec = s.pu.faultRec ∧ t.cu.faultWriter = s.cu.faultWriter
    ∧ t.pu.queues.render = s.pu.queues.render ∧ t.pu.queues.input = s.pu.queues.input
    ∧ ∃ ts : List Transfer, t.pu.queues.control.all = s.pu.queues.control.all ++ ts
        ∧ ∀ x ∈ ts, isCompletionTransfer x = true

theorem PlacesCompletions.rfl {s : State} : PlacesCompletions s s :=
  ⟨Eq.refl _, Eq.refl _, Eq.refl _, Eq.refl _, [], by simp, by simp⟩

theorem PlacesCompletions.trans {a b c : State} (h : PlacesCompletions a b) (k : PlacesCompletions b c) :
    PlacesCompletions a c := by
  obtain ⟨a1, a2, a3, a4, x, hx, hx'⟩ := h
  obtain ⟨b1, b2, b3, b4, y, hy, hy'⟩ := k
  refine ⟨b1.trans a1, b2.trans a2, b3.trans a3, b4.trans a4, x ++ y, by simp [hy, hx], ?_⟩
  intro z hz
  rcases List.mem_append.1 hz with h | h
  · exact hx' z h
  · exact hy' z h

/-- A change of the state that leaves the queues and the fault record alone. -/
theorem places_same {s t u : State} (h : PlacesCompletions s t) (h1 : u.pu.faultRec = t.pu.faultRec)
    (h2 : u.cu.faultWriter = t.cu.faultWriter) (h3 : u.pu.queues = t.pu.queues) : PlacesCompletions s u := by
  refine h.trans ⟨h1, h2, ?_, ?_, [], ?_, ?_⟩ <;> simp [h3]

theorem places_transfer (s : State) {t : Transfer} (h : isCompletionTransfer t = true) :
    PlacesCompletions s (placeTransfer .control t s) := by
  refine ⟨rfl, rfl, rfl, rfl, [t], ?_, by simpa using h⟩
  exact place_all _ _ _

theorem places_writeIndexWord (s : State) {w : IndexWord} (h : w = .commandHead ∨ w = .eventsDropped) :
    PlacesCompletions s (writeIndexWord w s) := by
  unfold writeIndexWord
  split
  · exact ⟨rfl, rfl, rfl, rfl, [], by simp [setWriter], by simp⟩
  · split
    · exact ⟨rfl, rfl, rfl, rfl, [], by simp [setWriter], by simp⟩
    · unfold placeIndexWord
      refine PlacesCompletions.trans (b := setWriter w { inFlight := true, again := false } s)
        ⟨rfl, rfl, rfl, rfl, [], by simp [setWriter], by simp⟩ (places_transfer _ ?_)
      rcases h with h | h <;> subst h <;> rfl

theorem places_dropEvent (s : State) : PlacesCompletions s (dropEvent s) :=
  PlacesCompletions.trans (b := s.mapCu _) (places_same .rfl rfl rfl rfl) (places_writeIndexWord _ (.inr rfl))

theorem places_placeEventWrite (e : Event) (s : State) : PlacesCompletions s (placeEventWrite e s) :=
  PlacesCompletions.trans (b := s.mapCu fun cu => { cu with evWrite := some { event := e, stale := false } })
    (places_same .rfl rfl rfl rfl) (places_transfer _ rfl)

theorem places_writeOldest (es : List Event) (s : State) : PlacesCompletions s (writeOldest es s) := by
  induction es generalizing s with
  | nil => exact places_same .rfl rfl rfl rfl
  | cons e es ih =>
    unfold writeOldest; split
    · exact (places_dropEvent s).trans (ih _)
    · exact PlacesCompletions.trans (b := s.mapCu fun cu => { cu with pendingEvents := es })
        (places_same .rfl rfl rfl rfl) (places_placeEventWrite _ _)

theorem places_queueEvent (e : Event) (s : State) : PlacesCompletions s (queueEvent e s) := by
  unfold queueEvent; split
  · refine PlacesCompletions.trans
      (b := s.mapCu fun cu => { cu with pendingEvents := cu.pendingEvents ++ [e] })
      (places_same .rfl rfl rfl rfl) ?_
    unfold pumpEvents; split
    · exact .rfl
    · exact places_writeOldest _ _
  · exact places_dropEvent s

theorem places_testFetch (s : State) : PlacesCompletions s (testFetch s) := by
  unfold testFetch; split
  · exact PlacesCompletions.trans (b := s.mapCu _) (places_same .rfl rfl rfl rfl) (places_transfer _ rfl)
  · exact .rfl

theorem places_advanceHead (b : Bool) (s : State) : PlacesCompletions s (advanceHead b s) := by
  unfold advanceHead; split
  · exact PlacesCompletions.trans (b := s.mapCu fun cu => { cu with head := cu.head + 1 })
      (places_same .rfl rfl rfl rfl) (places_writeIndexWord _ (.inl rfl))
  · exact .rfl

theorem places_complete (r : ResultCode) (s : State) : PlacesCompletions s (complete r s) := by
  unfold complete; split
  · refine PlacesCompletions.trans ?_ (places_testFetch _)
    exact places_same ((places_queueEvent _ s).trans (places_advanceHead _ _)) rfl rfl rfl
  · exact .rfl

theorem places_finish (s : State) : PlacesCompletions s (finish s) := by
  unfold finish updateStatus; split
  · exact places_same .rfl rfl rfl rfl
  · unfold imageChanged; split
    · exact places_same .rfl rfl rfl rfl
    · exact places_same .rfl rfl rfl rfl

/-! ## The Command Unit's registers through a completion -/

/-- R195: an index word written leaves the Command Unit alone but for its word writers. -/
theorem writeIndexWord_cu (w : IndexWord) (s : State) :
    ∃ ws, (writeIndexWord w s).cu = { s.cu with words := ws } := by
  unfold writeIndexWord; split
  · exact ⟨_, rfl⟩
  · split <;> exact ⟨_, rfl⟩

/-- R196: the fetch test leaves the Command Unit alone but for its execution state. -/
theorem testFetch_cu (s : State) : (testFetch s).cu = s.cu ∨
    (testFetch s).cu = { s.cu with exec := .fetching, fetchDiscard := false } := by
  unfold testFetch; split
  · exact .inr rfl
  · exact .inl rfl

/-- R197: an event raised with room, and no event before it, is the one being written. -/
theorem raiseEvent_room {s : State} (n : EventName) (sub : BitVec 16) (d1 d2 : Word) (h : s.eventRoom) :
    ∃ ws, (raiseEvent n sub d1 d2 s).cu =
      { s.cu with words := ws, pendingEvents := [],
                  evWrite := some { event := { name := n, subject := sub, stamp := s.clock.stamp, d1 := d1, d2 := d2, ofEventWrite := false }, stale := false } } := by
  obtain ⟨h1, h2, h3, h4, h5⟩ := h
  unfold raiseEvent queueEvent
  rw [if_pos ⟨h1, by simp [h4]⟩]
  unfold pumpEvents
  rw [if_neg (by simp [h2, h3])]
  simp only [State.mapCu_cu, h4, List.nil_append, writeOldest]
  split
  · rename_i h
    exact absurd (h5.symm.trans h) (by decide)
  · exact ⟨s.cu.words, rfl⟩

/-- R197: an event raised while the rings are disabled is counted and no more. -/
theorem raiseEvent_disabled {s : State} (n : EventName) (sub : BitVec 16) (d1 d2 : Word)
    (h : s.cu.enabled = false) :
    ∃ ws, (raiseEvent n sub d1 d2 s).cu = { s.cu with words := ws, evDropped := s.cu.evDropped + 1 } := by
  unfold raiseEvent queueEvent
  rw [if_neg (by simp [h])]
  obtain ⟨ws, h⟩ := writeIndexWord_cu .eventsDropped (s.mapCu fun cu => { cu with evDropped := wrapSucc cu.evDropped })
  exact ⟨ws, h⟩

/-- What any event raised leaves alone in the Command Unit. -/
theorem raiseEvent_cu (n : EventName) (sub : BitVec 16) (d1 d2 : Word) (s : State) :
    ∃ ws p w d, (raiseEvent n sub d1 d2 s).cu =
      { s.cu with words := ws, pendingEvents := p, evWrite := w, evDropped := d } := by
  have drop : ∀ s, ∃ ws p w d, (dropEvent s).cu =
      { s.cu with words := ws, pendingEvents := p, evWrite := w, evDropped := d } := fun s => by
    obtain ⟨ws, h⟩ := writeIndexWord_cu .eventsDropped (s.mapCu fun cu => { cu with evDropped := wrapSucc cu.evDropped })
    exact ⟨ws, _, _, _, h⟩
  have oldest : ∀ es s, ∃ ws p w d, (writeOldest es s).cu =
      { s.cu with words := ws, pendingEvents := p, evWrite := w, evDropped := d } := by
    intro es
    induction es with
    | nil => exact fun s => ⟨_, _, _, _, rfl⟩
    | cons e es ih =>
      intro s; unfold writeOldest; split
      · obtain ⟨a, b, c, d, h⟩ := ih (dropEvent s)
        obtain ⟨a', b', c', d', h'⟩ := drop s
        exact ⟨a, b, c, d, by rw [h, h']⟩
      · exact ⟨_, _, _, _, rfl⟩
  unfold raiseEvent queueEvent; split
  · unfold pumpEvents; split
    · exact ⟨_, _, _, _, rfl⟩
    · obtain ⟨a, b, c, d, h⟩ := oldest (s.cu.pendingEvents ++ [_]) (s.mapCu fun cu => { cu with pendingEvents := cu.pendingEvents ++ [_] })
      exact ⟨a, b, c, d, h⟩
  · exact drop s

/-- The end of a step leaves the Command Unit alone but for its image and its status writer. -/
theorem finish_cu (s : State) : ∃ im st, (finish s).cu = { s.cu with image := im, status := st } := by
  unfold finish updateStatus; split
  · exact ⟨_, _, rfl⟩
  · unfold imageChanged; split <;> exact ⟨_, _, rfl⟩

/-- R196: a completion of the command taken in `s`, after its owner's work gave `u` with no event raised. -/
theorem complete_atOnce {s u : State} {tag kind : BitVec 16} (r : ResultCode)
    (hcu : u.cu = (beginCommand tag kind s).cu) (hstamp : u.clock.stamp = s.clock.stamp)
    (hev : u.pu.regions.event = s.pu.regions.event) (hq : u.pu.queues = s.pu.queues)
    (hf : u.pu.faultRec = s.pu.faultRec) :
    s.completedAtOnce (finish (complete r u)) tag kind r := by
  have hexec : u.cu.exec = .busy { tag := tag, kind := kind, index := s.cu.head, counts := true, work := .atOnce } := by
    rw [hcu]; rfl
  obtain ⟨q1, q2, q3, q4, ts, q5, q6⟩ := (places_complete r u).trans (places_finish _)
  obtain ⟨im, st, hfin⟩ := finish_cu (complete r u)
  have hc : complete r u = testFetch ((advanceHead true
      (raiseEvent .completion tag (natWord r.code) (word2 kind.toNat s.cu.head.toNat) u)).mapCu
        fun cu => { cu with exec := .idle }) := by
    unfold complete; rw [hexec]
  obtain ⟨ws, hw⟩ := writeIndexWord_cu .commandHead
    ((raiseEvent .completion tag (natWord r.code) (word2 kind.toNat s.cu.head.toNat) u).mapCu
      fun cu => { cu with head := cu.head + 1 })
  obtain ⟨ws', p, w, d, hr⟩ := raiseEvent_cu .completion tag (natWord r.code) (word2 kind.toNat s.cu.head.toNat) u
  have hcc : ∃ e f, (complete r u).cu =
      { (raiseEvent .completion tag (natWord r.code) (word2 kind.toNat s.cu.head.toNat) u).cu with
        words := ws, head := s.cu.head + 1, exec := e, fetchDiscard := f } ∧ (e = .idle ∨ e = .fetching) := by
    rw [hc]
    rcases testFetch_cu ((advanceHead true
      (raiseEvent .completion tag (natWord r.code) (word2 kind.toNat s.cu.head.toNat) u)).mapCu
        fun cu => { cu with exec := .idle }) with h | h <;> rw [h] <;>
      simp only [advanceHead, if_true, State.mapCu_cu, hw, hr, hcu]
    · exact ⟨_, _, rfl, .inl rfl⟩
    · exact ⟨_, _, rfl, .inr rfl⟩
  obtain ⟨e, f, hcc, he⟩ := hcc
  refine ⟨?_, ?_, ?_, ?_, ?_, ?_, ?_, ?_, ?_, ts, ?_, q6⟩
  · rw [hfin, hcc]
  · rw [hfin, hcc]; exact he
  · intro hroom
    have hroom' : u.eventRoom := by
      obtain ⟨a, b, c, d, e⟩ := hroom
      refine ⟨?_, ?_, ?_, ?_, ?_⟩ <;> (try rw [hcu]) <;> try assumption
      unfold eventRingFull eventSlots at e ⊢; rw [hcu, hev]; exact e
    obtain ⟨x, hx⟩ := raiseEvent_room .completion tag (natWord r.code) (word2 kind.toNat s.cu.head.toNat) hroom'
    rw [hfin, hcc, hx, hcu]
    simp [completionEvent, eventNow, hstamp, beginCommand]
  · intro hdis
    obtain ⟨x, hx⟩ := raiseEvent_disabled (s := u) .completion tag (natWord r.code)
      (word2 kind.toNat s.cu.head.toNat) (by rw [hcu]; exact hdis)
    rw [hfin, hcc, hx, hcu]
    simp [beginCommand]
  · rw [hfin, hcc, hr, hcu]; rfl
  · rw [q1, hf]
  · rw [q2, hcu]; rfl
  · rw [q3, hq]
  · rw [q4, hq]
  · rw [q5, hq]

end Sys2Proof.Machine
end

