-- ==== Sys2Proof/Laws/Keeps.lean ====
section
/-! SUPPORT. `Keeps s t`: t has s's waiting commands and RESET_N level, and the bounds of the memory path hold
in t if they hold in s. The shared operations and the ways of composing them. -/

namespace Sys2Proof.Machine

/-- What every piece of a step's work keeps. -/
def Keeps (s t : State) : Prop :=
  t.pending = s.pending ∧ t.resetLow = s.resetLow ∧ (s.pathSound → t.pathSound)

variable {s₀ s : State}

@[simp] theorem keeps_refl (s : State) : Keeps s s := ⟨rfl, rfl, id⟩

theorem Keeps.trans {a b c : State} (h : Keeps a b) (k : Keeps b c) : Keeps a c :=
  ⟨k.1.trans h.1, k.2.1.trans h.2.1, k.2.2 ∘ h.2.2⟩

theorem keeps_foldl {α : Type} {f : State → α → State} (hf : ∀ s a, Keeps s (f s a)) (l : List α)
    (h : Keeps s₀ s) : Keeps s₀ (l.foldl f s) := by
  induction l generalizing s with
  | nil => exact h
  | cons a l ih => exact ih (h.trans (hf s a))

/-- A step of work that leaves the tables, queues and counts of the memory path and the event list alone. -/
theorem keeps_same {t : State} (hp : t.pending = s.pending) (hr : t.resetLow = s.resetLow)
    (hl : t.pu.locks = s.pu.locks) (hq : t.pu.queues = s.pu.queues) (hh : t.pu.sliceH = s.pu.sliceH)
    (hn : t.pu.runCount = s.pu.runCount) (he : t.cu.pendingEvents = s.cu.pendingEvents) (h : Keeps s₀ s) :
    Keeps s₀ t := by
  refine h.trans ⟨hp, hr, ?_⟩
  rintro ⟨a, b, c, d⟩
  refine ⟨?_, ?_, ?_, ?_⟩
  · simpa [State.locksApart, hl] using a
  · simpa [State.queuesFit, hq] using b
  · simpa [State.arbiterInRange, hh, hn] using c
  · simpa [State.eventsFit, he] using d

@[simp] theorem keeps_mapSc {f : SwitchUnit → SwitchUnit} (h : Keeps s₀ s) : Keeps s₀ (s.mapSc f) :=
  keeps_same rfl rfl rfl rfl rfl rfl rfl h

@[simp] theorem keeps_mapClock {f : ClockUnit → ClockUnit} (h : Keeps s₀ s) : Keeps s₀ (s.mapClock f) :=
  keeps_same rfl rfl rfl rfl rfl rfl rfl h

@[simp] theorem keeps_mapRe {f : RingEngine → RingEngine} (h : Keeps s₀ s) : Keeps s₀ (s.mapRe f) :=
  keeps_same rfl rfl rfl rfl rfl rfl rfl h

@[simp] theorem keeps_mapRu {f : RenderUnit → RenderUnit} (h : Keeps s₀ s) : Keeps s₀ (s.mapRu f) :=
  keeps_same rfl rfl rfl rfl rfl rfl rfl h

@[simp] theorem keeps_mapDu {f : DelayUnit → DelayUnit} (h : Keeps s₀ s) : Keeps s₀ (s.mapDu f) :=
  keeps_same rfl rfl rfl rfl rfl rfl rfl h

@[simp] theorem keeps_mapOu {f : OutputUnit → OutputUnit} (h : Keeps s₀ s) : Keeps s₀ (s.mapOu f) :=
  keeps_same rfl rfl rfl rfl rfl rfl rfl h

@[simp] theorem keeps_mapTc {f : TunerUnit → TunerUnit} (h : Keeps s₀ s) : Keeps s₀ (s.mapTc f) :=
  keeps_same rfl rfl rfl rfl rfl rfl rfl h

@[simp] theorem keeps_mapSd {f : StationUnit → StationUnit} (h : Keeps s₀ s) : Keeps s₀ (s.mapSd f) :=
  keeps_same rfl rfl rfl rfl rfl rfl rfl h

@[simp] theorem keeps_mapPort {p : Fin 6} {f : PortState → PortState} (h : Keeps s₀ s) :
    Keeps s₀ (s.mapPort p f) := keeps_same rfl rfl rfl rfl rfl rfl rfl h

@[simp] theorem keeps_mapPair {p : Fin 4} {f : Pair → Pair} (h : Keeps s₀ s) : Keeps s₀ (s.mapPair p f) :=
  keeps_same rfl rfl rfl rfl rfl rfl rfl h

@[simp] theorem keeps_mapCu {f : CommandUnit → CommandUnit} (hf : (f s.cu).pendingEvents = s.cu.pendingEvents)
    (h : Keeps s₀ s) : Keeps s₀ (s.mapCu f) := keeps_same (s := s) rfl rfl rfl rfl rfl rfl hf h

@[simp] theorem keeps_mapPu {f : PathUnit → PathUnit} (hl : (f s.pu).locks = s.pu.locks)
    (hq : (f s.pu).queues = s.pu.queues) (hh : (f s.pu).sliceH = s.pu.sliceH)
    (hn : (f s.pu).runCount = s.pu.runCount) (h : Keeps s₀ s) : Keeps s₀ (s.mapPu f) :=
  keeps_same (s := s) rfl rfl hl hq hh hn rfl h

/-- A change of the queues that keeps their items within the capacities. -/
theorem keeps_queues {f : PathUnit → PathUnit} (hl : (f s.pu).locks = s.pu.locks)
    (hh : (f s.pu).sliceH = s.pu.sliceH) (hn : (f s.pu).runCount = s.pu.runCount)
    (hq : s.queuesFit → ∀ q, ((f s.pu).queues.get q).items.length ≤ queueCapacity q) (h : Keeps s₀ s) :
    Keeps s₀ (s.mapPu f) := by
  refine h.trans ⟨rfl, rfl, ?_⟩
  rintro ⟨a, b, c, d⟩
  refine ⟨?_, hq b, ?_, d⟩
  · simpa [State.locksApart, hl] using a
  · simpa [State.arbiterInRange, hh, hn] using c

@[simp] theorem get_put_same (qs : Queues) (q : Queue) (v : TransferQueue) : (qs.put q v).get q = v := by
  cases q <;> rfl

theorem get_put_other (qs : Queues) {q r : Queue} (v : TransferQueue) (h : r ≠ q) :
    (qs.put q v).get r = qs.get r := by
  cases q <;> cases r <;> first | rfl | exact absurd rfl h

/-- One queue replaced by one whose items fit. -/
theorem keeps_put (q : Queue) {f : PathUnit → TransferQueue}
    (hv : (s.pu.queues.get q).items.length ≤ queueCapacity q → (f s.pu).items.length ≤ queueCapacity q)
    (h : Keeps s₀ s) : Keeps s₀ (s.mapPu fun pu => { pu with queues := pu.queues.put q (f pu) }) := by
  refine keeps_queues rfl rfl rfl (fun b r => ?_) h
  by_cases hr : r = q
  · subst hr; simpa using hv (b r)
  · simpa [get_put_other _ _ hr] using b r

theorem place_fits (tq : TransferQueue) (cap : Nat) (t : Transfer) (h : tq.items.length ≤ cap) :
    (tq.place cap t).items.length ≤ cap := by
  unfold TransferQueue.place; split
  · simp; omega
  · exact h

theorem admit_fits (tq : TransferQueue) (cap : Nat) (h : tq.items.length ≤ cap) :
    (tq.takeWaiting cap).items.length ≤ cap := by
  unfold TransferQueue.takeWaiting; split
  · exact h
  · split
    · simp; omega
    · exact h

theorem filter_fits (tq : TransferQueue) (cap : Nat) (k : Transfer → Bool) (h : tq.items.length ≤ cap) :
    (tq.filter k).items.length ≤ cap := (List.length_filter_le _ _).trans h

/-! ## The shared operations -/

@[simp] theorem keeps_placeTransfer (q : Queue) (t : Transfer) (h : Keeps s₀ s) :
    Keeps s₀ (placeTransfer q t s) :=
  keeps_put q (f := fun pu => (pu.queues.get q).place (queueCapacity q) t) (place_fits _ _ _) h

@[simp] theorem keeps_placeAll (q : Queue) (ts : List Transfer) (h : Keeps s₀ s) : Keeps s₀ (placeAll q ts s) :=
  keeps_foldl (fun s t => keeps_placeTransfer q t (keeps_refl s)) ts h

@[simp] theorem keeps_requestLock (l : Lock) (h : Keeps s₀ s) : Keeps s₀ (requestLock l s) :=
  keeps_mapPu rfl rfl rfl rfl h

@[simp] theorem keeps_setWriter (w : IndexWord) (v : WordWriter) (h : Keeps s₀ s) : Keeps s₀ (setWriter w v s) :=
  keeps_mapCu rfl h

@[simp] theorem keeps_placeIndexWord (w : IndexWord) (h : Keeps s₀ s) : Keeps s₀ (placeIndexWord w s) := by
  simp [placeIndexWord, h]

@[simp] theorem keeps_writeIndexWord (w : IndexWord) (h : Keeps s₀ s) : Keeps s₀ (writeIndexWord w s) := by
  unfold writeIndexWord; split_ifs <;> simp [h]

@[simp] theorem keeps_idleWriter (w : IndexWord) (h : Keeps s₀ s) : Keeps s₀ (idleWriter w s) :=
  keeps_setWriter w _ (keeps_mapCu rfl h)

@[simp] theorem keeps_followEventWrite (h : Keeps s₀ s) : Keeps s₀ (followEventWrite s) := by
  unfold followEventWrite; split
  · exact keeps_setWriter _ _ (keeps_mapCu rfl h)
  · simp [h]

@[simp] theorem keeps_indexWordEnded (w : IndexWord) (h : Keeps s₀ s) : Keeps s₀ (indexWordEnded w s) := by
  unfold indexWordEnded; split_ifs <;> simp [h]

@[simp] theorem keeps_dropEvent (h : Keeps s₀ s) : Keeps s₀ (dropEvent s) := by simp [dropEvent, h]

@[simp] theorem keeps_placeEventWrite (e : Event) (h : Keeps s₀ s) : Keeps s₀ (placeEventWrite e s) := by
  simp [placeEventWrite, h]

/-- The event list replaced by one that fits. -/
theorem keeps_events {f : CommandUnit → CommandUnit} (hf : s.eventsFit → (f s.cu).pendingEvents.length ≤ 32)
    (h : Keeps s₀ s) : Keeps s₀ (s.mapCu f) := by
  refine h.trans ⟨rfl, rfl, ?_⟩
  rintro ⟨a, b, c, d⟩
  exact ⟨a, b, c, hf d⟩

theorem keeps_writeOldest (es : List Event) (he : es.length ≤ 32) (h : Keeps s₀ s) :
    Keeps s₀ (writeOldest es s) := by
  induction es generalizing s with
  | nil => exact keeps_events (fun _ => by simp) h
  | cons e es ih =>
    have he' : es.length ≤ 32 := by simp at he; omega
    unfold writeOldest; split
    · exact ih he' (keeps_dropEvent h)
    · exact keeps_placeEventWrite e (keeps_events (fun _ => he') h)

theorem pending_writeOldest (es : List Event) (s : State) : (writeOldest es s).pending = s.pending := by
  induction es generalizing s with
  | nil => rfl
  | cons e es ih =>
    unfold writeOldest; split
    · rw [ih]; exact (keeps_dropEvent (keeps_refl s)).1
    · rfl

theorem resetLow_writeOldest (es : List Event) (s : State) : (writeOldest es s).resetLow = s.resetLow := by
  induction es generalizing s with
  | nil => rfl
  | cons e es ih =>
    unfold writeOldest; split
    · rw [ih]; exact (keeps_dropEvent (keeps_refl s)).2.1
    · rfl

@[simp] theorem keeps_pumpEvents (h : Keeps s₀ s) : Keeps s₀ (pumpEvents s) := by
  unfold pumpEvents; split
  · exact h
  · by_cases hs : s.eventsFit
    · exact keeps_writeOldest _ hs h
    · exact h.trans ⟨pending_writeOldest _ _, resetLow_writeOldest _ _, fun k => absurd k.2.2.2 hs⟩

@[simp] theorem keeps_queueEvent (e : Event) (h : Keeps s₀ s) : Keeps s₀ (queueEvent e s) := by
  unfold queueEvent; split
  · rename_i hc
    exact keeps_pumpEvents (keeps_events (fun _ => by simp; omega) h)
  · exact keeps_dropEvent h

@[simp] theorem keeps_raiseEvent (n : EventName) (subject : BitVec 16) (d1 d2 : Word) (h : Keeps s₀ s) :
    Keeps s₀ (raiseEvent n subject d1 d2 s) := keeps_queueEvent _ h

@[simp] theorem keeps_placeFaultRecord (h : Keeps s₀ s) : Keeps s₀ (placeFaultRecord s) := by
  simp [placeFaultRecord, h]

@[simp] theorem keeps_writeFaultRecord (h : Keeps s₀ s) : Keeps s₀ (writeFaultRecord s) := by
  unfold writeFaultRecord; split <;> simp [h]

@[simp] theorem keeps_faultRecordEnded (h : Keeps s₀ s) : Keeps s₀ (faultRecordEnded s) := by
  unfold faultRecordEnded; dsimp only; split <;> simp [h]

@[simp] theorem keeps_raiseFaultMarked (m : Bool) (k : FaultKind) (a : Nat) (h : Keeps s₀ s) :
    Keeps s₀ (raiseFaultMarked m k a s) := by
  unfold raiseFaultMarked; dsimp only; split
  · exact keeps_writeFaultRecord (keeps_mapPu rfl rfl rfl rfl (keeps_queueEvent _ h))
  · exact keeps_queueEvent _ h

@[simp] theorem keeps_raiseFault (k : FaultKind) (a : Nat) (h : Keeps s₀ s) : Keeps s₀ (raiseFault k a s) :=
  keeps_raiseFaultMarked false k a h

@[simp] theorem keeps_testFetch (h : Keeps s₀ s) : Keeps s₀ (testFetch s) := by
  unfold testFetch; split <;> simp [h]

@[simp] theorem keeps_beginCommand (tag kind : BitVec 16) (h : Keeps s₀ s) :
    Keeps s₀ (beginCommand tag kind s) := keeps_mapCu rfl h

@[simp] theorem keeps_holdFor (w : BusyWork) (h : Keeps s₀ s) : Keeps s₀ (holdFor w s) := by
  unfold holdFor; split
  · exact keeps_mapCu rfl h
  · exact h

@[simp] theorem keeps_advanceHead (b : Bool) (h : Keeps s₀ s) : Keeps s₀ (advanceHead b s) := by
  unfold advanceHead; split <;> simp [h]

@[simp] theorem keeps_complete (r : ResultCode) (h : Keeps s₀ s) : Keeps s₀ (complete r s) := by
  unfold complete; split
  · exact keeps_testFetch (keeps_mapCu rfl (keeps_advanceHead _ (keeps_raiseEvent _ _ _ _ h)))
  · exact h

@[simp] theorem keeps_discardFetch (h : Keeps s₀ s) : Keeps s₀ (discardFetch s) := by
  simp [discardFetch, h]

@[simp] theorem keeps_beginStatusWrite (h : Keeps s₀ s) : Keeps s₀ (beginStatusWrite s) := by
  simp [beginStatusWrite, h]

@[simp] theorem keeps_imageChanged (h : Keeps s₀ s) : Keeps s₀ (imageChanged s) := by
  unfold imageChanged; split <;> simp [h]

@[simp] theorem keeps_updateStatus (h : Keeps s₀ s) : Keeps s₀ (updateStatus s) := by
  unfold updateStatus; split <;> simp [h]

@[simp] theorem keeps_statusWriteEnded (h : Keeps s₀ s) : Keeps s₀ (statusWriteEnded s) := by
  unfold statusWriteEnded; split <;> simp [h]

@[simp] theorem keeps_statusWriteAborted (h : Keeps s₀ s) : Keeps s₀ (statusWriteAborted s) := by
  simp [statusWriteAborted, h]

@[simp] theorem keeps_drivePins (h : Keeps s₀ s) : Keeps s₀ (drivePins s) :=
  keeps_same (s := s) rfl rfl rfl rfl rfl rfl rfl h

@[simp] theorem keeps_finish (h : Keeps s₀ s) : Keeps s₀ (finish s) := keeps_drivePins (keeps_updateStatus h)

end Sys2Proof.Machine
end

