-- ==== Sys2Proof/Laws/KeepsAudio.lean ====
section
/-! SUPPORT. `Keeps` for the work of the ports, the switch, the rings, the render, the delay lines, the outputs and the protection. -/

namespace Sys2Proof.Machine

variable {s₀ s : State}

theorem keeps_dropBlock (cause : DropCause) (h : Keeps s₀ s) :
    Keeps s₀ (dropBlock cause s) := by
  unfold dropBlock; dsimp only
  repeat' first
    | split | with_reducible exact h | with_reducible exact keeps_refl _
    | with_reducible apply keeps_raiseEvent | with_reducible apply keeps_mapRe

theorem keeps_markDiscontinuity (h : Keeps s₀ s) :
    Keeps s₀ (markDiscontinuity s) := by
  unfold markDiscontinuity
  repeat' first
    | with_reducible exact h | with_reducible exact keeps_refl _ | with_reducible apply keeps_mapRe

theorem keeps_beginStore (src : Fin 8) (port : Fin 6) (cls : RateClass) (format : Format) (frames : List
    Frame) (r : Range) (h : Keeps s₀ s) :
    Keeps s₀ (beginStore src port cls format frames r s) := by
  unfold beginStore; dsimp only
  repeat' first
    | with_reducible exact h | with_reducible exact keeps_refl _ | with_reducible apply keeps_requestLock
    | with_reducible apply keeps_mapRe

theorem keeps_offerToStore (src : Fin 8) (port : Fin 6) (cls : RateClass) (format : Format) (frames :
    List Frame) (h : Keeps s₀ s) :
    Keeps s₀ (offerToStore src port cls format frames s) := by
  unfold offerToStore
  repeat' first
    | split | with_reducible exact h | with_reducible exact keeps_refl _
    | with_reducible apply keeps_dropBlock | with_reducible apply keeps_beginStore

theorem keeps_storeGranted (h : Keeps s₀ s) :
    Keeps s₀ (storeGranted s) := by
  unfold storeGranted
  repeat' first
    | split | with_reducible exact h | with_reducible exact keeps_refl _
    | with_reducible apply keeps_placeAll

theorem keeps_storeEnded (h : Keeps s₀ s) :
    Keeps s₀ (storeEnded s) := by
  unfold storeEnded
  repeat' first
    | with_reducible exact h | with_reducible exact keeps_refl _ | with_reducible apply keeps_mapRe

theorem keeps_storeAborted (h : Keeps s₀ s) :
    Keeps s₀ (storeAborted s) := by
  unfold storeAborted
  repeat' first
    | with_reducible exact h | with_reducible exact keeps_refl _ | with_reducible apply keeps_dropBlock
    | with_reducible apply keeps_mapRe

theorem keeps_testSlotFetch (h : Keeps s₀ s) :
    Keeps s₀ (testSlotFetch s) := by
  unfold testSlotFetch
  repeat' first
    | split | with_reducible exact h | with_reducible exact keeps_refl _
    | with_reducible apply keeps_requestLock | with_reducible apply keeps_mapRe

theorem keeps_fetchGranted (h : Keeps s₀ s) :
    Keeps s₀ (fetchGranted s) := by
  unfold fetchGranted
  repeat' first
    | split | with_reducible exact h | with_reducible exact keeps_refl _
    | with_reducible apply keeps_placeTransfer

theorem keeps_endFetch (discard : Bool) (b : FetchBuffer) (h : Keeps s₀ s) :
    Keeps s₀ (endFetch discard b s) := by
  unfold endFetch
  repeat' first
    | split | with_reducible exact h | with_reducible exact keeps_refl _
    | with_reducible apply keeps_testSlotFetch | with_reducible apply keeps_mapRe

theorem keeps_placeSampleReads (j : FetchJob) (header : Word) (h : Keeps s₀ s) :
    Keeps s₀ (placeSampleReads j header s) := by
  unfold placeSampleReads; dsimp only
  repeat' first
    | with_reducible exact h | with_reducible exact keeps_refl _ | with_reducible apply keeps_placeAll
    | with_reducible apply keeps_mapRe

theorem keeps_fetchBad (j : FetchJob) (h : Keeps s₀ s) :
    Keeps s₀ (fetchBad j s) := by
  unfold fetchBad
  repeat' first
    | with_reducible exact h | with_reducible exact keeps_refl _ | with_reducible apply keeps_endFetch
    | with_reducible apply keeps_raiseFault

theorem keeps_fetchAborted (h : Keeps s₀ s) :
    Keeps s₀ (fetchAborted s) := by
  unfold fetchAborted
  repeat' first
    | split | with_reducible exact h | with_reducible exact keeps_refl _
    | with_reducible apply keeps_endFetch

theorem keeps_handOn (b : HostedBlock) (h : Keeps s₀ s) :
    Keeps s₀ (handOn b s).2 := by
  unfold handOn
  repeat' first
    | with_reducible exact h | with_reducible exact keeps_refl _ | with_reducible apply keeps_mapRe

theorem keeps_advanceConsumer (h : Keeps s₀ s) :
    Keeps s₀ (advanceConsumer s) := by
  unfold advanceConsumer
  repeat' first
    | with_reducible exact h | with_reducible exact keeps_refl _
    | with_reducible apply keeps_writeIndexWord | with_reducible apply keeps_mapRe

theorem keeps_ladderTaken (h : Keeps s₀ s) :
    Keeps s₀ (ladderTaken s) := by
  unfold ladderTaken; dsimp only
  repeat' first
    | split | with_reducible exact h | with_reducible exact keeps_refl _
    | with_reducible apply keeps_raiseEvent | with_reducible apply keeps_mapRe

theorem keeps_ladderEnd (h : Keeps s₀ s) :
    Keeps s₀ (ladderEnd s) := by
  unfold ladderEnd
  repeat' first
    | with_reducible exact h | with_reducible exact keeps_refl _ | with_reducible apply keeps_raiseEvent
    | with_reducible apply keeps_mapRe

theorem keeps_ladderMiss (h : Keeps s₀ s) :
    Keeps s₀ (ladderMiss s).2 := by
  unfold ladderMiss; dsimp only
  repeat' first
    | split | with_reducible exact h | with_reducible exact keeps_refl _
    | with_reducible apply keeps_raiseEvent | with_reducible apply keeps_handOn
    | with_reducible apply keeps_mapRe

theorem keeps_takeComplete (b : HostedBlock) (h : Keeps s₀ s) :
    Keeps s₀ (takeComplete b s).2 := by
  unfold takeComplete; dsimp only
  repeat' first
    | split | with_reducible exact h | with_reducible exact keeps_refl _
    | with_reducible apply keeps_advanceConsumer | with_reducible apply keeps_handOn
    | with_reducible apply keeps_ladderTaken | with_reducible apply keeps_ladderEnd

theorem keeps_takeBad (h : Keeps s₀ s) :
    Keeps s₀ (takeBad s).2 := by
  unfold takeBad; dsimp only
  repeat' first
    | with_reducible exact h | with_reducible exact keeps_refl _
    | with_reducible apply keeps_advanceConsumer | with_reducible apply keeps_handOn
    | with_reducible apply keeps_ladderTaken | with_reducible apply keeps_mapRe

theorem keeps_freeWithdrawn (h : Keeps s₀ s) :
    Keeps s₀ (freeWithdrawn s) := by
  unfold freeWithdrawn
  repeat' first
    | split | with_reducible exact h | with_reducible exact keeps_refl _
    | with_reducible apply keeps_mapRe

theorem keeps_consumeSlot (h : Keeps s₀ s) :
    Keeps s₀ (consumeSlot s).2 := by
  unfold consumeSlot
  repeat' first
    | split | with_reducible exact h | with_reducible exact keeps_refl _
    | with_reducible apply keeps_advanceConsumer | with_reducible apply keeps_takeBad
    | with_reducible apply keeps_ladderMiss | with_reducible apply keeps_freeWithdrawn
    | with_reducible apply keeps_complete | with_reducible apply keeps_takeComplete

theorem keeps_ringBoundary (h : Keeps s₀ s) :
    Keeps s₀ (ringBoundary s).2 := by
  unfold ringBoundary; dsimp only
  repeat' first
    | split | with_reducible exact h | with_reducible exact keeps_refl _
    | with_reducible apply keeps_consumeSlot | with_reducible apply keeps_testSlotFetch

theorem keeps_flushOutputRing (h : Keeps s₀ s) :
    Keeps s₀ (flushOutputRing s) := by
  unfold flushOutputRing
  repeat' first
    | with_reducible exact h | with_reducible exact keeps_refl _
    | with_reducible apply keeps_testSlotFetch | with_reducible apply keeps_writeIndexWord
    | with_reducible apply keeps_mapRe

theorem keeps_ringConnect (h : Keeps s₀ s) :
    Keeps s₀ (ringConnect s) := by
  unfold ringConnect; dsimp only
  repeat' first
    | split | with_reducible exact h | with_reducible exact keeps_refl _
    | with_reducible apply keeps_flushOutputRing | with_reducible apply keeps_mapRe

theorem keeps_resetInputRing (h : Keeps s₀ s) :
    Keeps s₀ (resetInputRing s) := by
  unfold resetInputRing
  repeat' first
    | with_reducible exact h | with_reducible exact keeps_refl _
    | with_reducible apply keeps_writeIndexWord | with_reducible apply keeps_mapRe

theorem keeps_resetOutputRing (h : Keeps s₀ s) :
    Keeps s₀ (resetOutputRing s) := by
  unfold resetOutputRing
  repeat' first
    | with_reducible exact h | with_reducible exact keeps_refl _
    | with_reducible apply keeps_writeIndexWord | with_reducible apply keeps_mapRe

theorem keeps_resetSteering (h : Keeps s₀ s) :
    Keeps s₀ (resetSteering s) := by
  unfold resetSteering
  repeat' first
    | with_reducible exact h | with_reducible exact keeps_refl _ | with_reducible apply keeps_mapRu

theorem keeps_resetCrossover (h : Keeps s₀ s) :
    Keeps s₀ (resetCrossover s) := by
  unfold resetCrossover
  repeat' first
    | with_reducible exact h | with_reducible exact keeps_refl _ | with_reducible apply keeps_mapRu

theorem keeps_renderConnect (h : Keeps s₀ s) :
    Keeps s₀ (renderConnect s) := by
  unfold renderConnect
  repeat' first
    | with_reducible exact h | with_reducible exact keeps_refl _
    | with_reducible apply keeps_resetCrossover | with_reducible apply keeps_resetSteering
    | with_reducible apply keeps_mapRu

theorem keeps_decodeBlock (live : Bool) (input : HostedBlock) (h : Keeps s₀ s) :
    Keeps s₀ (decodeBlock live input s).2 := by
  unfold decodeBlock; dsimp only
  repeat' first
    | split | with_reducible exact h | with_reducible exact keeps_refl _
    | with_reducible apply keeps_resetCrossover | with_reducible apply keeps_resetSteering
    | with_reducible apply keeps_mapRu

theorem keeps_bassBlock (b : RenderBlock) (h : Keeps s₀ s) :
    Keeps s₀ (bassBlock b s).2 := by
  unfold bassBlock; dsimp only
  repeat' first
    | with_reducible exact h | with_reducible exact keeps_refl _ | with_reducible apply keeps_mapRu

theorem keeps_levelStage (b : RenderBlock) (h : Keeps s₀ s) :
    Keeps s₀ (levelStage b s).2 := by
  unfold levelStage; dsimp only
  repeat' first
    | with_reducible exact h | with_reducible exact keeps_refl _ | with_reducible apply keeps_mapRu

theorem keeps_setVolumeEffect (master mute : Word) (h : Keeps s₀ s) :
    Keeps s₀ (setVolumeEffect master mute s) := by
  unfold setVolumeEffect
  repeat' first
    | split | with_reducible exact h | with_reducible exact keeps_refl _
    | with_reducible apply keeps_complete | with_reducible apply keeps_mapRu

theorem keeps_setCrossoverEffect (freq : Word) (h : Keeps s₀ s) :
    Keeps s₀ (setCrossoverEffect freq s) := by
  unfold setCrossoverEffect
  repeat' first
    | split | with_reducible exact h | with_reducible exact keeps_refl _
    | with_reducible apply keeps_complete | with_reducible apply keeps_mapRu

theorem keeps_writeSpeaker (i : Fin 8) (sp : Speaker) (h : Keeps s₀ s) :
    Keeps s₀ (writeSpeaker i sp s) := by
  unfold writeSpeaker; dsimp only
  repeat' first
    | split | with_reducible exact h | with_reducible exact keeps_refl _
    | with_reducible apply keeps_mapRu | with_reducible apply keeps_mapDu

theorem keeps_configSpeakerEffect (id presence distance trim lane slot pair : Word) (h : Keeps s₀ s) :
    Keeps s₀ (configSpeakerEffect id presence distance trim lane slot pair s) := by
  unfold configSpeakerEffect
  repeat' first
    | split | with_reducible exact h | with_reducible exact keeps_refl _
    | with_reducible apply keeps_writeSpeaker | with_reducible apply keeps_complete

theorem keeps_mapLine (i : Fin 8) (f : DelayLine → DelayLine) (h : Keeps s₀ s) :
    Keeps s₀ (mapLine i f s) := by
  unfold mapLine
  repeat' first
    | with_reducible exact h | with_reducible exact keeps_refl _ | with_reducible apply keeps_mapDu

theorem keeps_mapLines (f : DelayLine → DelayLine) (h : Keeps s₀ s) :
    Keeps s₀ (mapLines f s) := by
  unfold mapLines
  repeat' first
    | with_reducible exact h | with_reducible exact keeps_refl _ | with_reducible apply keeps_mapDu

theorem keeps_dropUnplacedDelay (h : Keeps s₀ s) : Keeps s₀ (dropUnplacedDelay s) :=
  keeps_put .render
    (f := fun pu =>
      { pu.queues.render with waiting := pu.queues.render.waiting.filter fun t => !isDelayTransfer t }) id h

theorem keeps_abandonUnplaced (h : Keeps s₀ s) :
    Keeps s₀ (abandonUnplaced s) := by
  unfold abandonUnplaced
  repeat' first
    | split | with_reducible exact h | with_reducible exact keeps_refl _
    | with_reducible apply keeps_dropUnplacedDelay | with_reducible apply keeps_mapDu

theorem keeps_beginLateRun (i : Fin 8) (c : LateCause) (h : Keeps s₀ s) :
    Keeps s₀ (beginLateRun i c s) := by
  unfold beginLateRun
  repeat' first
    | with_reducible exact h | with_reducible exact keeps_refl _ | with_reducible apply keeps_raiseEvent
    | with_reducible apply keeps_mapLine | with_reducible apply keeps_mapDu

theorem keeps_noteLateness (i : Fin 8) (c : Option LateCause) (h : Keeps s₀ s) :
    Keeps s₀ (noteLateness i c s) := by
  unfold noteLateness
  repeat' first
    | split | with_reducible exact h | with_reducible exact keeps_refl _
    | with_reducible apply keeps_mapLine | with_reducible apply keeps_beginLateRun

theorem keeps_handOnSpeaker (i : Fin 8) (acc : Vector (Option Chan) 8 × State) (h : Keeps s₀ acc.2) :
    Keeps s₀ (handOnSpeaker i acc).2 := by
  unfold handOnSpeaker; dsimp only; split
  · exact keeps_noteLateness _ _ (keeps_mapLine _ _ h)
  · exact keeps_mapLine _ _ h

theorem keeps_delayHandOn (h : Keeps s₀ s) : Keeps s₀ (delayHandOn s).2 := by
  unfold delayHandOn
  suffices ∀ (l : List (Fin 8)) (acc : Vector (Option Chan) 8 × State), Keeps s₀ acc.2 →
      Keeps s₀ (l.foldl (fun acc i => handOnSpeaker i acc) acc).2 from this _ _ (keeps_abandonUnplaced h)
  intro l
  induction l with
  | nil => exact fun _ h => h
  | cons i l ih => exact fun acc h => ih _ (keeps_handOnSpeaker i acc h)

theorem keeps_takeDelayMode (h : Keeps s₀ s) :
    Keeps s₀ (takeDelayMode s) := by
  unfold takeDelayMode; dsimp only
  repeat' first
    | split | with_reducible exact h | with_reducible exact keeps_refl _
    | with_reducible apply keeps_mapLines | with_reducible apply keeps_mapDu

theorem keeps_takeDistances (swaps : Vector Bool 8) (h : Keeps s₀ s) :
    Keeps s₀ (takeDistances swaps s) := by
  unfold takeDistances; dsimp only
  repeat' first
    | with_reducible exact h | with_reducible exact keeps_refl _ | with_reducible apply keeps_mapDu

theorem keeps_placeWrites (base w : Nat) (i : Fin 8) (p : Option Chan) (h : Keeps s₀ s) :
    Keeps s₀ (placeWrites base w i p s) := by
  unfold placeWrites
  repeat' first
    | split | with_reducible exact h | with_reducible exact keeps_refl _
    | with_reducible apply keeps_placeAll

theorem keeps_countWritten (blocks : Vector (Option Chan) 8) (h : Keeps s₀ s) :
    Keeps s₀ (countWritten blocks s) := by
  unfold countWritten; dsimp only
  repeat' first
    | split | with_reducible exact h | with_reducible exact keeps_refl _
    | with_reducible apply keeps_mapDu

theorem keeps_placeReads (base w : Nat) (i : Fin 8) (h : Keeps s₀ s) :
    Keeps s₀ (placeReads base w i s) := by
  unfold placeReads; dsimp only
  repeat' first
    | with_reducible exact h | with_reducible exact keeps_refl _ | with_reducible apply keeps_mapLine
    | with_reducible apply keeps_placeAll

theorem keeps_delayLinesWork (base : Nat) (blocks : Vector (Option Chan) 8) (h : Keeps s₀ s) :
    Keeps s₀ (delayLinesWork base blocks s) := by
  unfold delayLinesWork; dsimp only
  repeat' first
    | split | with_reducible exact h | with_reducible exact keeps_refl _
    | with_reducible apply keeps_countWritten | with_reducible apply keeps_placeReads
    | with_reducible apply keeps_placeWrites | with_reducible refine keeps_foldl (fun _ _ => ?_) _ ?_

theorem keeps_bypassWork (blocks : Vector (Option Chan) 8) (h : Keeps s₀ s) :
    Keeps s₀ (bypassWork blocks s) := by
  unfold bypassWork
  repeat' first
    | split | with_reducible exact h | with_reducible exact keeps_refl _
    | with_reducible apply keeps_mapDu

theorem keeps_delayBoundary (x : HandOn) (h : Keeps s₀ s) :
    Keeps s₀ (delayBoundary x s).2 := by
  unfold delayBoundary; dsimp only
  repeat' first
    | split | with_reducible exact h | with_reducible exact keeps_refl _
    | with_reducible apply keeps_takeDelayMode | with_reducible apply keeps_delayLinesWork
    | with_reducible apply keeps_takeDistances | with_reducible apply keeps_bypassWork
    | with_reducible apply keeps_delayHandOn | with_reducible apply keeps_mapDu

theorem keeps_delayConnect (h : Keeps s₀ s) :
    Keeps s₀ (delayConnect s) := by
  unfold delayConnect
  repeat' first
    | with_reducible exact h | with_reducible exact keeps_refl _ | with_reducible apply keeps_mapLines

theorem keeps_delayOutputRestart (h : Keeps s₀ s) :
    Keeps s₀ (delayOutputRestart s) := by
  unfold delayOutputRestart; dsimp only
  repeat' first
    | with_reducible exact h | with_reducible exact keeps_refl _
    | with_reducible apply keeps_dropUnplacedDelay | with_reducible apply keeps_mapLines
    | with_reducible apply keeps_mapDu

theorem keeps_delayRegionChanged (set : Bool) (h : Keeps s₀ s) :
    Keeps s₀ (delayRegionChanged set s) := by
  unfold delayRegionChanged
  repeat' first
    | with_reducible exact h | with_reducible exact keeps_refl _
    | with_reducible apply keeps_dropUnplacedDelay | with_reducible apply keeps_mapDu

theorem keeps_delayReadEnded (i : Fin 8) (generation start : Nat) (data : Option (List Word)) (h : Keeps
    s₀ s) :
    Keeps s₀ (delayReadEnded i generation start data s) := by
  unfold delayReadEnded
  repeat' first
    | split | with_reducible exact h | with_reducible exact keeps_refl _
    | with_reducible apply keeps_mapLine

theorem keeps_mapLink (f : RecordLink → RecordLink) (h : Keeps s₀ s) :
    Keeps s₀ (mapLink f s) := by
  unfold mapLink
  repeat' first
    | with_reducible exact h | with_reducible exact keeps_refl _ | with_reducible apply keeps_mapOu

theorem keeps_outputBoundary (delayed : Vector (Option Chan) 8) (rendered : List (Int × Int)) (h : Keeps
    s₀ s) :
    Keeps s₀ (outputBoundary delayed rendered s) := by
  unfold outputBoundary
  repeat' first
    | with_reducible exact h | with_reducible exact keeps_refl _ | with_reducible apply keeps_mapOu

theorem keeps_laneFrameWork (lane : Fin 2) (h : Keeps s₀ s) :
    Keeps s₀ (laneFrameWork lane s) := by
  unfold laneFrameWork; dsimp only
  repeat' first
    | split | with_reducible exact h | with_reducible exact keeps_refl _
    | with_reducible apply keeps_mapOu

theorem keeps_setLanesEffect (mask0 mask1 : Word) (h : Keeps s₀ s) :
    Keeps s₀ (setLanesEffect mask0 mask1 s) := by
  unfold setLanesEffect
  repeat' first
    | split | with_reducible exact h | with_reducible exact keeps_refl _
    | with_reducible apply keeps_complete | with_reducible apply keeps_mapOu

theorem keeps_forceStart (h : Keeps s₀ s) :
    Keeps s₀ (forceStart s) := by
  unfold forceStart
  repeat' first
    | with_reducible exact h | with_reducible exact keeps_refl _ | with_reducible apply keeps_mapLink

theorem keeps_takePortBlock (cls : RateClass) (format : Format) (frames : List Frame) (h : Keeps s₀ s) :
    Keeps s₀ (takePortBlock cls format frames s) := by
  unfold takePortBlock
  repeat' first
    | with_reducible exact h | with_reducible exact keeps_refl _ | with_reducible apply keeps_mapLink

theorem keeps_linkLosesPort (p : Fin 6) (h : Keeps s₀ s) :
    Keeps s₀ (linkLosesPort p s) := by
  unfold linkLosesPort
  repeat' first
    | split | with_reducible exact h | with_reducible exact keeps_refl _
    | with_reducible apply keeps_mapLink

theorem keeps_linkOutputRestart (h : Keeps s₀ s) :
    Keeps s₀ (linkOutputRestart s) := by
  unfold linkOutputRestart
  repeat' first
    | split | with_reducible exact h | with_reducible exact keeps_refl _
    | with_reducible apply keeps_mapLink

theorem keeps_lanesOutputRestart (h : Keeps s₀ s) :
    Keeps s₀ (lanesOutputRestart s) := by
  unfold lanesOutputRestart
  repeat' first
    | with_reducible exact h | with_reducible exact keeps_refl _ | with_reducible apply keeps_mapOu

theorem keeps_changeRecordSource (r : RecordSource) (h : Keeps s₀ s) :
    Keeps s₀ (changeRecordSource r s) := by
  unfold changeRecordSource
  repeat' first
    | split | with_reducible exact h | with_reducible exact keeps_refl _
    | with_reducible apply keeps_mapLink

theorem keeps_configRecordOutEffect (source port w0 w1 w2 w3 : Word) (h : Keeps s₀ s) :
    Keeps s₀ (configRecordOutEffect source port w0 w1 w2 w3 s) := by
  unfold configRecordOutEffect; dsimp only
  repeat' first
    | split | with_reducible exact h | with_reducible exact keeps_refl _
    | with_reducible apply keeps_changeRecordSource | with_reducible apply keeps_mapLink
    | with_reducible apply keeps_complete

theorem keeps_recordFrameWork (h : Keeps s₀ s) :
    Keeps s₀ (recordFrameWork s) := by
  unfold recordFrameWork; dsimp only
  repeat' first
    | split | with_reducible exact h | with_reducible exact keeps_refl _
    | with_reducible apply keeps_mapLink

theorem keeps_stopHoldTimer (h : Keeps s₀ s) :
    Keeps s₀ (stopHoldTimer s) := by
  unfold stopHoldTimer
  repeat' first
    | with_reducible exact h | with_reducible exact keeps_refl _ | with_reducible apply keeps_mapSc

theorem keeps_startHoldTimer (h : Keeps s₀ s) :
    Keeps s₀ (startHoldTimer s) := by
  unfold startHoldTimer
  repeat' first
    | split | with_reducible exact h | with_reducible exact keeps_refl _
    | with_reducible apply keeps_mapSc

theorem keeps_suspendTimer (b : Bool) (h : Keeps s₀ s) :
    Keeps s₀ (suspendTimer b s) := by
  unfold suspendTimer
  repeat' first
    | split | with_reducible exact h | with_reducible exact keeps_refl _
    | with_reducible apply keeps_mapSc

theorem keeps_enterPlayRamp (h : Keeps s₀ s) :
    Keeps s₀ (enterPlayRamp s) := by
  unfold enterPlayRamp
  repeat' first
    | with_reducible exact h | with_reducible exact keeps_refl _ | with_reducible apply keeps_mapSc

theorem keeps_enterBlocked (c : BlockCause) (h : Keeps s₀ s) :
    Keeps s₀ (enterBlocked c s) := by
  unfold enterBlocked; dsimp only
  repeat' first
    | with_reducible exact h | with_reducible exact keeps_refl _ | with_reducible apply keeps_raiseEvent
    | with_reducible apply keeps_mapSc

theorem keeps_enterDrain (t : Target) (h : Keeps s₀ s) :
    Keeps s₀ (enterDrain t s) := by
  unfold enterDrain
  repeat' first
    | with_reducible exact h | with_reducible exact keeps_refl _ | with_reducible apply keeps_mapSc

theorem keeps_enterHold (c : LossCause) (h : Keeps s₀ s) :
    Keeps s₀ (enterHold c s) := by
  unfold enterHold; dsimp only
  repeat' first
    | with_reducible exact h | with_reducible exact keeps_refl _
    | with_reducible apply keeps_startHoldTimer | with_reducible apply keeps_raiseEvent
    | with_reducible apply keeps_mapSc

theorem keeps_stopFollowing (h : Keeps s₀ s) :
    Keeps s₀ (stopFollowing s) := by
  unfold stopFollowing
  repeat' first
    | with_reducible exact h | with_reducible exact keeps_refl _ | with_reducible apply keeps_mapClock

theorem keeps_loseSignal (c : LossCause) (h : Keeps s₀ s) :
    Keeps s₀ (loseSignal c s) := by
  unfold loseSignal; dsimp only
  repeat' first
    | split | with_reducible exact h | with_reducible exact keeps_refl _
    | with_reducible apply keeps_stopFollowing | with_reducible apply keeps_enterHold
    | with_reducible apply keeps_suspendTimer | with_reducible apply keeps_mapSc

theorem keeps_regain (c : RateClass) (h : Keeps s₀ s) :
    Keeps s₀ (regain c s) := by
  unfold regain
  repeat' first
    | split | with_reducible exact h | with_reducible exact keeps_refl _
    | with_reducible apply keeps_enterDrain | with_reducible apply keeps_stopHoldTimer

theorem keeps_formatChanged (src : Source) (f : Format) (h : Keeps s₀ s) :
    Keeps s₀ (formatChanged src f s) := by
  unfold formatChanged
  repeat' first
    | split | with_reducible exact h | with_reducible exact keeps_refl _
    | with_reducible apply keeps_enterBlocked | with_reducible apply keeps_enterDrain
    | with_reducible apply keeps_mapSc

theorem keeps_outputRestart (c : RateClass) (h : Keeps s₀ s) :
    Keeps s₀ (outputRestart c s) := by
  unfold outputRestart
  repeat' first
    | with_reducible exact h | with_reducible exact keeps_refl _
    | with_reducible apply keeps_linkOutputRestart | with_reducible apply keeps_delayOutputRestart
    | with_reducible apply keeps_lanesOutputRestart | with_reducible apply keeps_mapClock

theorem keeps_takeTarget (h : Keeps s₀ s) :
    Keeps s₀ (takeTarget s) := by
  unfold takeTarget
  repeat' first
    | split | with_reducible exact h | with_reducible exact keeps_refl _
    | with_reducible apply keeps_mapSc

theorem keeps_connectClass (src : Source) (h : Keeps s₀ s) :
    Keeps s₀ (connectClass src s) := by
  unfold connectClass
  repeat' first
    | split | with_reducible exact h | with_reducible exact keeps_refl _
    | with_reducible apply keeps_outputRestart

theorem keeps_connectFollowing (samePort : Bool) (h : Keeps s₀ s) :
    Keeps s₀ (connectFollowing samePort s) := by
  unfold connectFollowing
  repeat' first
    | split | with_reducible exact h | with_reducible exact keeps_refl _
    | with_reducible apply keeps_stopFollowing

theorem keeps_connectNone (previous : BitVec 16) (h : Keeps s₀ s) :
    Keeps s₀ (connectNone previous s) := by
  unfold connectNone; dsimp only
  repeat' first
    | with_reducible exact h | with_reducible exact keeps_refl _ | with_reducible apply keeps_ringConnect
    | with_reducible apply keeps_stopFollowing | with_reducible apply keeps_raiseEvent
    | with_reducible apply keeps_delayConnect | with_reducible apply keeps_renderConnect
    | with_reducible apply keeps_mapSc

theorem keeps_connectEnter (h : Keeps s₀ s) :
    Keeps s₀ (connectEnter s) := by
  unfold connectEnter
  repeat' first
    | split | with_reducible exact h | with_reducible exact keeps_refl _
    | with_reducible apply keeps_enterBlocked | with_reducible apply keeps_startHoldTimer
    | with_reducible apply keeps_mapSc

theorem keeps_connectSource (samePort : Bool) (src : Source) (h : Keeps s₀ s) :
    Keeps s₀ (connectSource samePort src s) := by
  unfold connectSource; dsimp only
  repeat' first
    | with_reducible exact h | with_reducible exact keeps_refl _ | with_reducible apply keeps_ringConnect
    | with_reducible apply keeps_connectFollowing | with_reducible apply keeps_raiseEvent
    | with_reducible apply keeps_connectEnter | with_reducible apply keeps_connectClass
    | with_reducible apply keeps_delayConnect | with_reducible apply keeps_renderConnect
    | with_reducible apply keeps_mapSc

theorem keeps_connect (h : Keeps s₀ s) :
    Keeps s₀ (connect s) := by
  unfold connect; dsimp only
  repeat' first
    | split | with_reducible exact h | with_reducible exact keeps_refl _
    | with_reducible apply keeps_connectSource | with_reducible apply keeps_connectNone
    | with_reducible apply keeps_takeTarget

theorem keeps_testReadiness (h : Keeps s₀ s) :
    Keeps s₀ (testReadiness s) := by
  unfold testReadiness
  repeat' first
    | split | with_reducible exact h | with_reducible exact keeps_refl _
    | with_reducible apply keeps_enterPlayRamp | with_reducible apply keeps_enterBlocked

theorem keeps_testBlocked (h : Keeps s₀ s) :
    Keeps s₀ (testBlocked s) := by
  unfold testBlocked
  repeat' first
    | split | with_reducible exact h | with_reducible exact keeps_refl _
    | with_reducible apply keeps_enterPlayRamp

theorem keeps_switchBefore (h : Keeps s₀ s) :
    Keeps s₀ (switchBefore s) := by
  unfold switchBefore
  repeat' first
    | split | with_reducible exact h | with_reducible exact keeps_refl _
    | with_reducible apply keeps_connect | with_reducible apply keeps_testReadiness
    | with_reducible apply keeps_testBlocked

theorem keeps_connectAtMute (h : Keeps s₀ s) :
    Keeps s₀ (connectAtMute s) := by
  unfold connectAtMute; dsimp only
  repeat' first
    | split | with_reducible exact h | with_reducible exact keeps_refl _
    | with_reducible apply keeps_connect | with_reducible apply keeps_testReadiness

theorem keeps_enterPlaying (h : Keeps s₀ s) :
    Keeps s₀ (enterPlaying s) := by
  unfold enterPlaying
  repeat' first
    | with_reducible exact h | with_reducible exact keeps_refl _ | with_reducible apply keeps_raiseEvent
    | with_reducible apply keeps_mapSc

theorem keeps_switchAfter (before : State) (h : Keeps s₀ s) : Keeps s₀ (switchAfter before s) := by
  unfold switchAfter
  repeat' first
    | split | with_reducible exact h | with_reducible apply keeps_connectAtMute
    | with_reducible apply keeps_enterPlaying

theorem keeps_expireHold (src : Source) (h : Keeps s₀ s) :
    Keeps s₀ (expireHold src s) := by
  unfold expireHold
  repeat' first
    | split | with_reducible exact h | with_reducible exact keeps_refl _
    | with_reducible apply keeps_raiseEvent | with_reducible apply keeps_stopHoldTimer
    | with_reducible apply keeps_enterDrain

theorem keeps_holdExpiry (h : Keeps s₀ s) :
    Keeps s₀ (holdExpiry s) := by
  unfold holdExpiry
  repeat' first
    | split | with_reducible exact h | with_reducible exact keeps_refl _
    | with_reducible apply keeps_expireHold

theorem keeps_selectByState (t : Target) (h : Keeps s₀ s) :
    Keeps s₀ (selectByState t s) := by
  unfold selectByState
  repeat' first
    | split | with_reducible exact h | with_reducible exact keeps_refl _
    | with_reducible apply keeps_enterDrain | with_reducible apply keeps_mapSc

theorem keeps_selectSourceEffect (target : Word) (h : Keeps s₀ s) :
    Keeps s₀ (selectSourceEffect target s) := by
  unfold selectSourceEffect
  repeat' first
    | split | with_reducible exact h | with_reducible exact keeps_refl _
    | with_reducible apply keeps_selectByState | with_reducible apply keeps_complete

theorem keeps_writeSource (i : Fin 8) (src : Source) (h : Keeps s₀ s) :
    Keeps s₀ (writeSource i src s) := by
  unfold writeSource
  repeat' first
    | with_reducible exact h | with_reducible exact keeps_refl _ | with_reducible apply keeps_mapSc

theorem keeps_configSourceEffect (id : BitVec 16) (valid : Bool) (port path : BitVec 16) (pref trim
    lipSync fallback hold : Word) (h : Keeps s₀ s) :
    Keeps s₀ (configSourceEffect id valid port path pref trim lipSync fallback hold s) := by
  unfold configSourceEffect
  repeat' first
    | split | with_reducible exact h | with_reducible exact keeps_refl _
    | with_reducible apply keeps_complete | with_reducible apply keeps_writeSource

theorem keeps_raiseProtect (p : Fin 4) (c : ProtectCode) (d1 d2 : Nat) (h : Keeps s₀ s) :
    Keeps s₀ (raiseProtect p c d1 d2 s) := by
  unfold raiseProtect
  repeat' first
    | with_reducible exact h | with_reducible exact keeps_refl _ | with_reducible apply keeps_raiseEvent

theorem keeps_sampleFault (p : Fin 4) (h : Keeps s₀ s) :
    Keeps s₀ (sampleFault p s) := by
  unfold sampleFault
  repeat' first
    | with_reducible exact h | with_reducible exact keeps_refl _ | with_reducible apply keeps_mapPair

theorem keeps_takeLatches (h : Keeps s₀ s) : Keeps s₀ (takeLatches s) :=
  keeps_same rfl rfl rfl rfl rfl rfl rfl h

theorem keeps_raiseStateEvent (p : Fin 4) (st : PairState) (counter : Nat) (c : ProtectCause) (h : Keeps
    s₀ s) :
    Keeps s₀ (raiseStateEvent p st counter c s) := by
  unfold raiseStateEvent
  repeat' first
    | split | with_reducible exact h | with_reducible exact keeps_refl _
    | with_reducible apply keeps_raiseProtect

theorem keeps_stepActive (p : Fin 4) (saturated : Bool) (h : Keeps s₀ s) :
    Keeps s₀ (stepActive p saturated s) := by
  unfold stepActive; dsimp only
  repeat' first
    | split | with_reducible exact h | with_reducible exact keeps_refl _
    | with_reducible apply keeps_raiseStateEvent | with_reducible apply keeps_mapPair

theorem keeps_failRecovery (p : Fin 4) (h : Keeps s₀ s) :
    Keeps s₀ (failRecovery p s) := by
  unfold failRecovery
  repeat' first
    | with_reducible exact h | with_reducible exact keeps_refl _ | with_reducible apply keeps_raiseProtect
    | with_reducible apply keeps_mapPair

theorem keeps_succeedRecovery (p : Fin 4) (h : Keeps s₀ s) :
    Keeps s₀ (succeedRecovery p s) := by
  unfold succeedRecovery
  repeat' first
    | with_reducible exact h | with_reducible exact keeps_refl _ | with_reducible apply keeps_raiseProtect
    | with_reducible apply keeps_mapPair

theorem keeps_recoveryFault (p : Fin 4) (h : Keeps s₀ s) :
    Keeps s₀ (recoveryFault p s) := by
  unfold recoveryFault; dsimp only
  repeat' first
    | split | with_reducible exact h | with_reducible exact keeps_refl _
    | with_reducible apply keeps_failRecovery | with_reducible apply keeps_mapPair

theorem keeps_recoveryQuiet (p : Fin 4) (h : Keeps s₀ s) :
    Keeps s₀ (recoveryQuiet p s) := by
  unfold recoveryQuiet; dsimp only
  repeat' first
    | split | with_reducible exact h | with_reducible exact keeps_refl _
    | with_reducible apply keeps_succeedRecovery | with_reducible apply keeps_mapPair

theorem keeps_stepRecovering (p : Fin 4) (h : Keeps s₀ s) :
    Keeps s₀ (stepRecovering p s) := by
  unfold stepRecovering; dsimp only
  repeat' first
    | split | with_reducible exact h | with_reducible exact keeps_refl _
    | with_reducible apply keeps_recoveryQuiet | with_reducible apply keeps_recoveryFault
    | with_reducible apply keeps_mapPair

theorem keeps_stepPair (marks : Vector Bool 8) (p : Fin 4) (h : Keeps s₀ s) :
    Keeps s₀ (stepPair marks p s) := by
  unfold stepPair
  repeat' first
    | split | with_reducible exact h | with_reducible exact keeps_refl _
    | with_reducible apply keeps_stepActive | with_reducible apply keeps_stepRecovering

theorem keeps_ampUpdate (marks : Vector Bool 8) (h : Keeps s₀ s) :
    Keeps s₀ (ampUpdate marks s) := by
  unfold ampUpdate
  repeat' first
    | with_reducible exact h | with_reducible exact keeps_refl _ | with_reducible apply keeps_stepPair
    | with_reducible refine keeps_foldl (fun _ _ => ?_) _ ?_

theorem keeps_beginRecovery (p : Fin 4) (h : Keeps s₀ s) :
    Keeps s₀ (beginRecovery p s) := by
  unfold beginRecovery
  repeat' first
    | with_reducible exact h | with_reducible exact keeps_refl _ | with_reducible apply keeps_raiseProtect
    | with_reducible apply keeps_mapPair

theorem keeps_ampRecoverEffect (pair : Word) (h : Keeps s₀ s) :
    Keeps s₀ (ampRecoverEffect pair s) := by
  unfold ampRecoverEffect
  repeat' first
    | split | with_reducible exact h | with_reducible exact keeps_refl _
    | with_reducible apply keeps_complete | with_reducible apply keeps_beginRecovery

theorem keeps_renderDecode (offered : Option OfferedBlock) (hosted : Option HostedBlock) (h : Keeps s₀
    s) :
    Keeps s₀ (renderDecode offered hosted s).2 := by
  unfold renderDecode
  repeat' first
    | with_reducible exact h | with_reducible exact keeps_refl _ | with_reducible apply keeps_decodeBlock

theorem keeps_renderLevel (b : RenderBlock) (h : Keeps s₀ s) :
    Keeps s₀ (renderLevel b s).2 := by
  unfold renderLevel; dsimp only
  repeat' first
    | with_reducible exact h | with_reducible exact keeps_refl _ | with_reducible apply keeps_ampUpdate
    | with_reducible apply keeps_bassBlock | with_reducible apply keeps_levelStage

theorem keeps_boundaryWork (offered : Option OfferedBlock) (h : Keeps s₀ s) :
    Keeps s₀ (boundaryWork offered s) := by
  unfold boundaryWork; dsimp only
  repeat' first
    | with_reducible exact h | with_reducible exact keeps_refl _ | with_reducible apply keeps_takeLatches
    | with_reducible apply keeps_outputBoundary | with_reducible apply keeps_switchBefore
    | with_reducible apply keeps_delayBoundary | with_reducible apply keeps_switchAfter
    | with_reducible apply keeps_ringBoundary | with_reducible apply keeps_renderDecode
    | with_reducible apply keeps_renderLevel

theorem keeps_clockBoundary (own : Bool) (h : Keeps s₀ s) :
    Keeps s₀ (clockBoundary own s) := by
  unfold clockBoundary
  repeat' first
    | with_reducible exact h | with_reducible exact keeps_refl _ | with_reducible apply keeps_boundaryWork
    | with_reducible apply keeps_mapClock

theorem keeps_freeRun (h : Keeps s₀ s) :
    Keeps s₀ (freeRun s) := by
  unfold freeRun
  repeat' first
    | split | with_reducible exact h | with_reducible exact keeps_refl _
    | with_reducible apply keeps_clockBoundary

theorem keeps_followTimeout (h : Keeps s₀ s) :
    Keeps s₀ (followTimeout s) := by
  unfold followTimeout
  repeat' first
    | split | with_reducible exact h | with_reducible exact keeps_refl _
    | with_reducible apply keeps_clockBoundary

theorem keeps_raisePort (p : Fin 6) (c : PortCode) (d1 d2 : Nat) (h : Keeps s₀ s) :
    Keeps s₀ (raisePort p c d1 d2 s) := by
  unfold raisePort
  repeat' first
    | with_reducible exact h | with_reducible exact keeps_refl _ | with_reducible apply keeps_raiseEvent

theorem keeps_breakRun (p : Fin 6) (h : Keeps s₀ s) :
    Keeps s₀ (breakRun p s) := by
  unfold breakRun
  repeat' first
    | split | with_reducible exact h | with_reducible exact keeps_refl _
    | with_reducible apply keeps_markDiscontinuity

theorem keeps_portLost (p : Fin 6) (had : RateClass) (h : Keeps s₀ s) :
    Keeps s₀ (portLost p had s) := by
  unfold portLost; dsimp only
  repeat' first
    | split | with_reducible exact h | with_reducible exact keeps_refl _
    | with_reducible apply keeps_loseSignal | with_reducible apply keeps_breakRun
    | with_reducible apply keeps_raisePort | with_reducible apply keeps_linkLosesPort
    | with_reducible apply keeps_mapPort

theorem keeps_portLocked (p : Fin 6) (c : RateClass) (h : Keeps s₀ s) :
    Keeps s₀ (portLocked p c s) := by
  unfold portLocked; dsimp only
  repeat' first
    | split | with_reducible exact h | with_reducible exact keeps_refl _
    | with_reducible apply keeps_regain | with_reducible apply keeps_raisePort
    | with_reducible apply keeps_mapPort

theorem keeps_lockChanged (p : Fin 6) (count : Nat) (before after : LockState) (h : Keeps s₀ s) :
    Keeps s₀ (lockChanged p count before after s) := by
  unfold lockChanged
  repeat' first
    | split | with_reducible exact h | with_reducible exact keeps_refl _
    | with_reducible apply keeps_raisePort | with_reducible apply keeps_portLost
    | with_reducible apply keeps_portLocked

theorem keeps_portWindow (p : Fin 6) (h : Keeps s₀ s) :
    Keeps s₀ (portWindow p s) := by
  unfold portWindow; dsimp only
  repeat' first
    | with_reducible exact h | with_reducible exact keeps_refl _ | with_reducible apply keeps_lockChanged
    | with_reducible apply keeps_mapPort

theorem keeps_windowEnd (h : Keeps s₀ s) :
    Keeps s₀ (windowEnd s) := by
  unfold windowEnd
  repeat' first
    | with_reducible exact h | with_reducible exact keeps_refl _ | with_reducible apply keeps_portWindow
    | with_reducible apply keeps_mapClock | with_reducible refine keeps_foldl (fun _ _ => ?_) _ ?_

theorem keeps_takeFrame (p : Fin 6) (bits : List Bool) (h : Keeps s₀ s) :
    Keeps s₀ (takeFrame p bits s) := by
  unfold takeFrame; dsimp only
  repeat' first
    | split | with_reducible exact h | with_reducible exact keeps_refl _
    | with_reducible apply keeps_mapPort

theorem keeps_changeFormat (p : Fin 6) (f : Format) (cls : RateClass) (h : Keeps s₀ s) :
    Keeps s₀ (changeFormat p f cls s) := by
  unfold changeFormat; dsimp only
  repeat' first
    | split | with_reducible exact h | with_reducible exact keeps_refl _
    | with_reducible apply keeps_raisePort | with_reducible apply keeps_formatChanged
    | with_reducible apply keeps_mapPort

theorem keeps_sampleFormat (p : Fin 6) (fmt : Bool) (cls : RateClass) (h : Keeps s₀ s) :
    Keeps s₀ (sampleFormat p fmt cls s) := by
  unfold sampleFormat; dsimp only
  repeat' first
    | split | with_reducible exact h | with_reducible exact keeps_refl _
    | with_reducible apply keeps_changeFormat | with_reducible apply keeps_mapPort

theorem keeps_followCompletion (cls : RateClass) (h : Keeps s₀ s) :
    Keeps s₀ (followCompletion cls s) := by
  unfold followCompletion; dsimp only
  repeat' first
    | split | with_reducible exact h | with_reducible exact keeps_refl _
    | with_reducible apply keeps_outputRestart | with_reducible apply keeps_mapClock

theorem keeps_swapHalves (p : Fin 6) (h : Keeps s₀ s) :
    Keeps s₀ (swapHalves p s) := by
  unfold swapHalves
  repeat' first
    | with_reducible exact h | with_reducible exact keeps_refl _ | with_reducible apply keeps_mapPort

theorem keeps_offerToRing (p : Fin 6) (cls : RateClass) (frames : List Frame) (h : Keeps s₀ s) :
    Keeps s₀ (offerToRing p cls frames s) := by
  unfold offerToRing
  repeat' first
    | split | with_reducible exact h | with_reducible exact keeps_refl _
    | with_reducible apply keeps_offerToStore

theorem keeps_offerToLink (p : Fin 6) (cls : RateClass) (frames : List Frame) (h : Keeps s₀ s) :
    Keeps s₀ (offerToLink p cls frames s) := by
  unfold offerToLink
  repeat' first
    | split | with_reducible exact h | with_reducible exact keeps_refl _
    | with_reducible apply keeps_takePortBlock

theorem keeps_offerBlock (discarded : Bool) (p : Fin 6) (cls : RateClass) (frames : List Frame) (h :
    Keeps s₀ s) :
    Keeps s₀ (offerBlock discarded p cls frames s) := by
  unfold offerBlock
  repeat' first
    | split | with_reducible exact h | with_reducible exact keeps_refl _
    | with_reducible apply keeps_offerToRing | with_reducible apply keeps_breakRun
    | with_reducible apply keeps_offerToLink

theorem keeps_completeBlock (p : Fin 6) (cls : RateClass) (fmt : Bool) (h : Keeps s₀ s) :
    Keeps s₀ (completeBlock p cls fmt s) := by
  unfold completeBlock; dsimp only
  repeat' first
    | split | with_reducible exact h | with_reducible exact keeps_refl _
    | with_reducible apply keeps_swapHalves | with_reducible apply keeps_sampleFormat
    | with_reducible apply keeps_followCompletion | with_reducible apply keeps_offerBlock
    | with_reducible apply keeps_boundaryWork

theorem keeps_portFrameWork (p : Fin 6) (bits : List Bool) (fmt : Bool) (h : Keeps s₀ s) :
    Keeps s₀ (portFrameWork p bits fmt s) := by
  unfold portFrameWork; dsimp only
  repeat' first
    | split | with_reducible exact h | with_reducible exact keeps_refl _
    | with_reducible apply keeps_takeFrame | with_reducible apply keeps_completeBlock

end Sys2Proof.Machine
end

