-- ==== Sys2Proof/Laws/KeepsRadio.lean ====
section
/-! SUPPORT. `Keeps` for the work of the tuner controller and the station data decoder. -/

namespace Sys2Proof.Machine

variable {s₀ s : State}

theorem keeps_writeCaptureRecord (n : Fin 8) (h : Keeps s₀ s) :
    Keeps s₀ (writeCaptureRecord n s) := by
  unfold writeCaptureRecord
  repeat' first
    | split | with_reducible exact h | with_reducible exact keeps_refl _
    | with_reducible apply keeps_placeTransfer

theorem keeps_placeGroup (n : Fin 8) (overrun : Bool) (g : CapturedGroup) (type : BitVec 4) (variant :
    Bool) (h : Keeps s₀ s) :
    Keeps s₀ (placeGroup n overrun g type variant s) := by
  unfold placeGroup; dsimp only
  repeat' first
    | split | with_reducible exact h | with_reducible exact keeps_refl _
    | with_reducible apply keeps_writeCaptureRecord | with_reducible apply keeps_raiseEvent
    | with_reducible apply keeps_mapSd

theorem keeps_captureGroup (g : CapturedGroup) (type : BitVec 4) (variant : Bool) (h : Keeps s₀ s) :
    Keeps s₀ (captureGroup g type variant s) := by
  unfold captureGroup
  repeat' first
    | split | with_reducible exact h | with_reducible exact keeps_refl _
    | with_reducible apply keeps_placeGroup

theorem keeps_configCaptureEffect (slot enable typeMatch typeMask varMatch varMask : Word) (h : Keeps s₀
    s) :
    Keeps s₀ (configCaptureEffect slot enable typeMatch typeMask varMatch varMask s) := by
  unfold configCaptureEffect
  repeat' first
    | split | with_reducible exact h | with_reducible exact keeps_refl _
    | with_reducible apply keeps_complete | with_reducible apply keeps_mapSd

theorem keeps_releaseCaptureEffect (slot : Word) (h : Keeps s₀ s) :
    Keeps s₀ (releaseCaptureEffect slot s) := by
  unfold releaseCaptureEffect
  repeat' first
    | split | with_reducible exact h | with_reducible exact keeps_refl _
    | with_reducible apply keeps_complete | with_reducible apply keeps_mapSd

theorem keeps_testText (h : Keeps s₀ s) :
    Keeps s₀ (testText s) := by
  unfold testText
  repeat' first
    | split | with_reducible exact h | with_reducible exact keeps_refl _
    | with_reducible apply keeps_requestLock | with_reducible apply keeps_mapSd

theorem keeps_textGranted (h : Keeps s₀ s) :
    Keeps s₀ (textGranted s) := by
  unfold textGranted
  repeat' first
    | split | with_reducible exact h | with_reducible exact keeps_refl _
    | with_reducible apply keeps_placeAll

theorem keeps_textEnded (h : Keeps s₀ s) :
    Keeps s₀ (textEnded s) := by
  unfold textEnded
  repeat' first
    | split | with_reducible exact h | with_reducible exact keeps_refl _
    | with_reducible apply keeps_testText | with_reducible apply keeps_raiseEvent
    | with_reducible apply keeps_mapSd

theorem keeps_textAborted (h : Keeps s₀ s) :
    Keeps s₀ (textAborted s) := by
  unfold textAborted
  repeat' first
    | with_reducible exact h | with_reducible exact keeps_refl _ | with_reducible apply keeps_mapSd

theorem keeps_textGroup (w1 w2 w3 : BitVec 16) (h : Keeps s₀ s) :
    Keeps s₀ (textGroup w1 w2 w3 s) := by
  unfold textGroup; dsimp only
  repeat' first
    | with_reducible exact h | with_reducible exact keeps_refl _ | with_reducible apply keeps_complete
    | with_reducible apply keeps_mapSd

theorem keeps_checkRecalled (i : BitVec 16) (h : Keeps s₀ s) :
    Keeps s₀ (checkRecalled i s) := by
  unfold checkRecalled
  repeat' first
    | split | with_reducible exact h | with_reducible exact keeps_refl _
    | with_reducible apply keeps_raiseEvent

theorem keeps_identityGroup (i : BitVec 16) (h : Keeps s₀ s) :
    Keeps s₀ (identityGroup i s) := by
  unfold identityGroup
  repeat' first
    | split | with_reducible exact h | with_reducible exact keeps_refl _
    | with_reducible apply keeps_checkRecalled | with_reducible apply keeps_raiseEvent
    | with_reducible apply keeps_mapSd

theorem keeps_categoryGroup (w1 : BitVec 16) (h : Keeps s₀ s) :
    Keeps s₀ (categoryGroup w1 s) := by
  unfold categoryGroup; dsimp only
  repeat' first
    | split | with_reducible exact h | with_reducible exact keeps_refl _
    | with_reducible apply keeps_raiseEvent | with_reducible apply keeps_mapSd

theorem keeps_typeGroup (w1 w2 w3 : BitVec 16) (h : Keeps s₀ s) :
    Keeps s₀ (typeGroup w1 w2 w3 s) := by
  unfold typeGroup
  repeat' first
    | split | with_reducible exact h | with_reducible exact keeps_refl _
    | with_reducible apply keeps_textGroup | with_reducible apply keeps_categoryGroup

theorem keeps_groupComplete (words : List (BitVec 16)) (h : Keeps s₀ s) :
    Keeps s₀ (groupComplete words s) := by
  unfold groupComplete; dsimp only
  repeat' first
    | with_reducible exact h | with_reducible exact keeps_refl _
    | with_reducible apply keeps_identityGroup | with_reducible apply keeps_captureGroup
    | with_reducible apply keeps_typeGroup | with_reducible apply keeps_testText

theorem keeps_assembleGood (p : Fin 4) (w : BitVec 16) (h : Keeps s₀ s) :
    Keeps s₀ (assembleGood p w s) := by
  unfold assembleGood
  repeat' first
    | split | with_reducible exact h | with_reducible exact keeps_refl _
    | with_reducible apply keeps_groupComplete | with_reducible apply keeps_mapSd

theorem keeps_assembleBad (h : Keeps s₀ s) :
    Keeps s₀ (assembleBad s) := by
  unfold assembleBad
  repeat' first
    | with_reducible exact h | with_reducible exact keeps_refl _ | with_reducible apply keeps_mapSd

theorem keeps_enterProbe (first : Nat) (p : Fin 4) (h : Keeps s₀ s) :
    Keeps s₀ (enterProbe first p s) := by
  unfold enterProbe
  repeat' first
    | with_reducible exact h | with_reducible exact keeps_refl _ | with_reducible apply keeps_mapSd

theorem keeps_searchFrom (l : List Nat) (h : Keeps s₀ s) : Keeps s₀ (searchFrom l s) := by
  induction l with
  | nil => exact keeps_mapSd h
  | cons first l ih =>
    unfold searchFrom; split
    · exact keeps_enterProbe _ _ h
    · exact ih

theorem keeps_searchTest (h : Keeps s₀ s) : Keeps s₀ (searchTest s) := by
  unfold searchTest; split
  · exact keeps_searchFrom _ (keeps_mapSd h)
  · exact h

theorem keeps_gainSync (c : SyncCandidate) (h : Keeps s₀ s) :
    Keeps s₀ (gainSync c s) := by
  unfold gainSync; dsimp only
  repeat' first
    | with_reducible exact h | with_reducible exact keeps_refl _ | with_reducible apply keeps_assembleGood
    | with_reducible apply keeps_raiseEvent | with_reducible apply keeps_mapSd

theorem keeps_probeTest (h : Keeps s₀ s) :
    Keeps s₀ (probeTest s) := by
  unfold probeTest; dsimp only
  repeat' first
    | split | with_reducible exact h | with_reducible exact keeps_refl _
    | with_reducible apply keeps_gainSync | with_reducible apply keeps_searchFrom
    | with_reducible apply keeps_mapSd

theorem keeps_judgeBad (h : Keeps s₀ s) :
    Keeps s₀ (judgeBad s) := by
  unfold judgeBad; dsimp only
  repeat' first
    | split | with_reducible exact h | with_reducible exact keeps_refl _
    | with_reducible apply keeps_assembleBad | with_reducible apply keeps_raiseEvent
    | with_reducible apply keeps_mapSd

theorem keeps_judgeGood (w : BitVec 16) (h : Keeps s₀ s) :
    Keeps s₀ (judgeGood w s) := by
  unfold judgeGood; dsimp only
  repeat' first
    | with_reducible exact h | with_reducible exact keeps_refl _ | with_reducible apply keeps_assembleGood
    | with_reducible apply keeps_mapSd

theorem keeps_syncTest (h : Keeps s₀ s) :
    Keeps s₀ (syncTest s) := by
  unfold syncTest; dsimp only
  repeat' first
    | split | with_reducible exact h | with_reducible exact keeps_refl _
    | with_reducible apply keeps_judgeBad | with_reducible apply keeps_judgeGood
    | with_reducible apply keeps_mapSd

theorem keeps_overdueTest (h : Keeps s₀ s) :
    Keeps s₀ (overdueTest s) := by
  unfold overdueTest
  repeat' first
    | split | with_reducible exact h | with_reducible exact keeps_refl _
    | with_reducible apply keeps_syncTest | with_reducible apply keeps_probeTest
    | with_reducible apply keeps_searchTest

theorem keeps_takeBit (b : Bool) (h : Keeps s₀ s) :
    Keeps s₀ (takeBit b s) := by
  unfold takeBit
  repeat' first
    | split | with_reducible exact h | with_reducible exact keeps_refl _
    | with_reducible apply keeps_overdueTest | with_reducible apply keeps_mapSd

theorem keeps_whileTakingBits {f : State → State} (hf : ∀ s, Keeps s (f s)) (h : Keeps s₀ s) :
    Keeps s₀ (whileTakingBits f s) := by
  unfold whileTakingBits; split
  · exact h.trans (hf s)
  · exact h

theorem keeps_tuneNotice (channel : Nat) (recalled : Option RecalledIdentity) (h : Keeps s₀ s) :
    Keeps s₀ (tuneNotice channel recalled s) := by
  unfold tuneNotice; dsimp only
  repeat' first
    | split | with_reducible exact h | with_reducible exact keeps_refl _
    | with_reducible apply keeps_testText | with_reducible apply keeps_raiseEvent
    | with_reducible apply keeps_mapSd

theorem keeps_settledFalls (h : Keeps s₀ s) :
    Keeps s₀ (settledFalls s) := by
  unfold settledFalls; dsimp only
  repeat' first
    | split | with_reducible exact h | with_reducible exact keeps_refl _
    | with_reducible apply keeps_linkLosesPort | with_reducible apply keeps_loseSignal
    | with_reducible apply keeps_mapPort

theorem keeps_regainByTuner (h : Keeps s₀ s) :
    Keeps s₀ (regainByTuner s) := by
  unfold regainByTuner
  repeat' first
    | split | with_reducible exact h | with_reducible exact keeps_refl _
    | with_reducible apply keeps_regain

theorem keeps_settledRises (h : Keeps s₀ s) :
    Keeps s₀ (settledRises s) := by
  unfold settledRises
  repeat' first
    | split | with_reducible exact h | with_reducible exact keeps_refl _
    | with_reducible apply keeps_regainByTuner | with_reducible apply keeps_suspendTimer

theorem keeps_setTunerState (st : TunerState) (h : Keeps s₀ s) :
    Keeps s₀ (setTunerState st s) := by
  unfold setTunerState; dsimp only
  repeat' first
    | split | with_reducible exact h | with_reducible exact keeps_refl _
    | with_reducible apply keeps_settledFalls | with_reducible apply keeps_settledRises
    | with_reducible apply keeps_mapTc

theorem keeps_beginRequest (r : LinkRequest) (h : Keeps s₀ s) :
    Keeps s₀ (beginRequest r s) := by
  unfold beginRequest
  repeat' first
    | split | with_reducible exact h | with_reducible exact keeps_refl _
    | with_reducible apply keeps_mapTc

theorem keeps_endDiscarded (h : Keeps s₀ s) :
    Keeps s₀ (endDiscarded s) := by
  unfold endDiscarded; dsimp only
  repeat' first
    | split | with_reducible exact h | with_reducible exact keeps_refl _
    | with_reducible apply keeps_beginRequest | with_reducible apply keeps_mapTc

theorem keeps_raiseTuner (c : TunerCode) (d1 d2 : Word) (h : Keeps s₀ s) :
    Keeps s₀ (raiseTuner c d1 d2 s) := by
  unfold raiseTuner
  repeat' first
    | with_reducible exact h | with_reducible exact keeps_refl _ | with_reducible apply keeps_raiseEvent

theorem keeps_linkFailed (r : LinkRequest) (f : AttemptFailure) (h : Keeps s₀ s) :
    Keeps s₀ (linkFailed r f s) := by
  unfold linkFailed; dsimp only
  repeat' first
    | with_reducible exact h | with_reducible exact keeps_refl _ | with_reducible apply keeps_raiseTuner
    | with_reducible apply keeps_setTunerState | with_reducible apply keeps_mapTc

theorem keeps_attemptFailed (r : LinkRequest) (f : AttemptFailure) (h : Keeps s₀ s) :
    Keeps s₀ (attemptFailed r f s) := by
  unfold attemptFailed
  repeat' first
    | split | with_reducible exact h | with_reducible exact keeps_refl _
    | with_reducible apply keeps_linkFailed | with_reducible apply keeps_mapTc

theorem keeps_reportReplaced (r : Replacement) (h : Keeps s₀ s) :
    Keeps s₀ (reportReplaced r s) := by
  unfold reportReplaced
  repeat' first
    | split | with_reducible exact h | with_reducible exact keeps_refl _
    | with_reducible apply keeps_raiseTuner

theorem keeps_endOldWork (r : Replacement) (h : Keeps s₀ s) :
    Keeps s₀ (endOldWork r s) := by
  unfold endOldWork
  repeat' first
    | with_reducible exact h | with_reducible exact keeps_refl _
    | with_reducible apply keeps_reportReplaced | with_reducible apply keeps_mapTc

theorem keeps_beginTune (b : Band) (channel : Nat) (tag : BitVec 16) (recalled : Option
    RecalledIdentity) (h : Keeps s₀ s) :
    Keeps s₀ (beginTune b channel tag recalled s) := by
  unfold beginTune; dsimp only
  repeat' first
    | with_reducible exact h | with_reducible exact keeps_refl _ | with_reducible apply keeps_beginRequest
    | with_reducible apply keeps_endOldWork | with_reducible apply keeps_tuneNotice
    | with_reducible apply keeps_setTunerState | with_reducible apply keeps_mapTc

theorem keeps_acceptTune (b : Band) (channel : Nat) (recalled : Option RecalledIdentity) (h : Keeps s₀
    s) :
    Keeps s₀ (acceptTune b channel recalled s) := by
  unfold acceptTune; dsimp only
  repeat' first
    | split | with_reducible exact h | with_reducible exact keeps_refl _
    | with_reducible apply keeps_beginTune | with_reducible apply keeps_complete

theorem keeps_tuneEffect (band channel : Word) (h : Keeps s₀ s) :
    Keeps s₀ (tuneEffect band channel s) := by
  unfold tuneEffect
  repeat' first
    | split | with_reducible exact h | with_reducible exact keeps_refl _
    | with_reducible apply keeps_acceptTune | with_reducible apply keeps_complete

theorem keeps_configTunerEffect (addr fmStep amStep : Word) (h : Keeps s₀ s) :
    Keeps s₀ (configTunerEffect addr fmStep amStep s) := by
  unfold configTunerEffect
  repeat' first
    | split | with_reducible exact h | with_reducible exact keeps_refl _
    | with_reducible apply keeps_complete | with_reducible apply keeps_mapTc

theorem keeps_seekStep (h : Keeps s₀ s) :
    Keeps s₀ (seekStep s) := by
  unfold seekStep; dsimp only
  repeat' first
    | split | with_reducible exact h | with_reducible exact keeps_refl _
    | with_reducible apply keeps_beginRequest | with_reducible apply keeps_tuneNotice
    | with_reducible apply keeps_mapTc

theorem keeps_beginSeek (up : Bool) (threshold channel : Nat) (h : Keeps s₀ s) :
    Keeps s₀ (beginSeek up threshold channel s) := by
  unfold beginSeek; dsimp only
  repeat' first
    | with_reducible exact h | with_reducible exact keeps_refl _ | with_reducible apply keeps_endOldWork
    | with_reducible apply keeps_seekStep | with_reducible apply keeps_setTunerState
    | with_reducible apply keeps_mapTc

theorem keeps_seekEffect (direction threshold : Word) (h : Keeps s₀ s) :
    Keeps s₀ (seekEffect direction threshold s) := by
  unfold seekEffect
  repeat' first
    | split | with_reducible exact h | with_reducible exact keeps_refl _
    | with_reducible apply keeps_complete | with_reducible apply keeps_beginSeek

theorem keeps_stopSeekEffect (h : Keeps s₀ s) :
    Keeps s₀ (stopSeekEffect s) := by
  unfold stopSeekEffect
  repeat' first
    | split | with_reducible exact h | with_reducible exact keeps_refl _
    | with_reducible apply keeps_complete | with_reducible apply keeps_mapTc

theorem keeps_endWork (h : Keeps s₀ s) :
    Keeps s₀ (endWork s) := by
  unfold endWork
  repeat' first
    | with_reducible exact h | with_reducible exact keeps_refl _ | with_reducible apply keeps_mapTc

theorem keeps_endTune (b : Band) (r : ReadOut) (h : Keeps s₀ s) :
    Keeps s₀ (endTune b r s) := by
  unfold endTune; dsimp only
  repeat' first
    | split | with_reducible exact h | with_reducible exact keeps_refl _
    | with_reducible apply keeps_endWork | with_reducible apply keeps_raiseTuner
    | with_reducible apply keeps_setTunerState

theorem keeps_endSeek (c : TunerCode) (tuned : Bool) (d2 : Nat) (h : Keeps s₀ s) :
    Keeps s₀ (endSeek c tuned d2 s) := by
  unfold endSeek; dsimp only
  repeat' first
    | with_reducible exact h | with_reducible exact keeps_refl _ | with_reducible apply keeps_endWork
    | with_reducible apply keeps_setTunerState | with_reducible apply keeps_raiseTuner

theorem keeps_endSeekStep (ctx : SeekContext) (r : ReadOut) (h : Keeps s₀ s) :
    Keeps s₀ (endSeekStep ctx r s) := by
  unfold endSeekStep
  repeat' first
    | split | with_reducible exact h | with_reducible exact keeps_refl _
    | with_reducible apply keeps_seekStep | with_reducible apply keeps_endSeek

theorem keeps_statusReadDone (b : Band) (b0 b1 : Byte) (h : Keeps s₀ s) :
    Keeps s₀ (statusReadDone b b0 b1 s) := by
  unfold statusReadDone; dsimp only
  repeat' first
    | split | with_reducible exact h | with_reducible exact keeps_refl _
    | with_reducible apply keeps_endSeekStep | with_reducible apply keeps_endTune
    | with_reducible apply keeps_mapTc

theorem keeps_tuneWriteDone (b : Band) (h : Keeps s₀ s) :
    Keeps s₀ (tuneWriteDone b s) := by
  unfold tuneWriteDone; dsimp only
  repeat' first
    | split | with_reducible exact h | with_reducible exact keeps_refl _
    | with_reducible apply keeps_setTunerState | with_reducible apply keeps_mapTc

theorem keeps_attemptSucceeded (r : LinkRequest) (b0 b1 : Byte) (h : Keeps s₀ s) :
    Keeps s₀ (attemptSucceeded r b0 b1 s) := by
  unfold attemptSucceeded; dsimp only
  repeat' first
    | split | with_reducible exact h | with_reducible exact keeps_refl _
    | with_reducible apply keeps_tuneWriteDone | with_reducible apply keeps_statusReadDone
    | with_reducible apply keeps_mapTc

theorem keeps_attemptEnd (ack : Bool) (b0 b1 : Byte) (h : Keeps s₀ s) :
    Keeps s₀ (attemptEnd ack b0 b1 s) := by
  unfold attemptEnd
  repeat' first
    | split | with_reducible exact h | with_reducible exact keeps_refl _
    | with_reducible apply keeps_attemptFailed | with_reducible apply keeps_endDiscarded
    | with_reducible apply keeps_attemptSucceeded

theorem keeps_attemptTimeout (h : Keeps s₀ s) :
    Keeps s₀ (attemptTimeout s) := by
  unfold attemptTimeout
  repeat' first
    | split | with_reducible exact h | with_reducible exact keeps_refl _
    | with_reducible apply keeps_attemptFailed | with_reducible apply keeps_endDiscarded

theorem keeps_retryBegins (h : Keeps s₀ s) :
    Keeps s₀ (retryBegins s) := by
  unfold retryBegins
  repeat' first
    | split | with_reducible exact h | with_reducible exact keeps_refl _
    | with_reducible apply keeps_mapTc

theorem keeps_settleExpiry (h : Keeps s₀ s) :
    Keeps s₀ (settleExpiry s) := by
  unfold settleExpiry
  repeat' first
    | split | with_reducible exact h | with_reducible exact keeps_refl _
    | with_reducible apply keeps_beginRequest | with_reducible apply keeps_mapTc

theorem keeps_recallPresetEffect (entry : Word) (h : Keeps s₀ s) :
    Keeps s₀ (recallPresetEffect entry s) := by
  unfold recallPresetEffect
  repeat' first
    | split | with_reducible exact h | with_reducible exact keeps_refl _
    | with_reducible apply keeps_holdFor | with_reducible apply keeps_placeTransfer
    | with_reducible apply keeps_complete

theorem keeps_recallEntry (w0 w1 : Word) (h : Keeps s₀ s) :
    Keeps s₀ (recallEntry w0 w1 s) := by
  unfold recallEntry
  repeat' first
    | split | with_reducible exact h | with_reducible exact keeps_refl _
    | with_reducible apply keeps_acceptTune | with_reducible apply keeps_complete

theorem keeps_storePresetEffect (entry : Word) (h : Keeps s₀ s) :
    Keeps s₀ (storePresetEffect entry s) := by
  unfold storePresetEffect
  repeat' first
    | split | with_reducible exact h | with_reducible exact keeps_refl _
    | with_reducible apply keeps_holdFor | with_reducible apply keeps_requestLock
    | with_reducible apply keeps_complete

theorem keeps_presetGranted (h : Keeps s₀ s) :
    Keeps s₀ (presetGranted s) := by
  unfold presetGranted
  repeat' first
    | split | with_reducible exact h | with_reducible exact keeps_refl _
    | with_reducible apply keeps_placeTransfer

theorem keeps_storeLineRead (line : List Word) (h : Keeps s₀ s) :
    Keeps s₀ (storeLineRead line s) := by
  unfold storeLineRead
  repeat' first
    | split | with_reducible exact h | with_reducible exact keeps_refl _
    | with_reducible apply keeps_placeTransfer

theorem keeps_quiesceLink (h : Keeps s₀ s) :
    Keeps s₀ (quiesceLink s) := by
  unfold quiesceLink
  repeat' first
    | split | with_reducible exact h | with_reducible exact keeps_refl _
    | with_reducible apply keeps_mapTc

end Sys2Proof.Machine
end

