-- ==== Sys2Proof/Laws/KeepsControl.lean ====
section
/-! SUPPORT. `Keeps` for the work of the path unit, the command unit's records and taps, memory's answers and RESTART. -/

namespace Sys2Proof.Machine

variable {s₀ s : State}

/-- A change of the path unit that keeps its bounds. -/
theorem keeps_pu {f : PathUnit → PathUnit} (hf : s.pathSound → (s.mapPu f).pathSound) (h : Keeps s₀ s) :
    Keeps s₀ (s.mapPu f) := h.trans ⟨rfl, rfl, hf⟩

theorem keeps_markOld (old : Option Range) (h : Keeps s₀ s) : Keeps s₀ (markOld old s) := by
  unfold markOld; split
  · exact h
  · exact keeps_queues rfl rfl rfl (fun b q => by
      have := b q; cases q <;> simpa [TransferQueue.map, Queues.get] using this) h

theorem keeps_changeRegion (n : Fin 7) (v : Option Range) (h : Keeps s₀ s) :
    Keeps s₀ (changeRegion n v s) := by
  unfold changeRegion; dsimp only
  repeat' first
    | split | with_reducible exact h | with_reducible exact keeps_refl _
    | with_reducible apply keeps_markOld | with_reducible apply keeps_delayRegionChanged
    | with_reducible apply keeps_holdFor | with_reducible refine keeps_mapPu rfl rfl rfl rfl ?_

theorem keeps_setRegionEffect (role clear base slots : Word) (h : Keeps s₀ s) :
    Keeps s₀ (setRegionEffect role clear base slots s) := by
  unfold setRegionEffect
  repeat' first
    | split | with_reducible exact h | with_reducible exact keeps_refl _
    | with_reducible apply keeps_changeRegion | with_reducible apply keeps_complete

theorem keeps_resetRingIndex (n : Fin 7) (h : Keeps s₀ s) :
    Keeps s₀ (resetRingIndex n s) := by
  unfold resetRingIndex
  repeat' first
    | split | with_reducible exact h | with_reducible exact keeps_refl _
    | with_reducible apply keeps_resetInputRing | with_reducible apply keeps_resetOutputRing

theorem keeps_setRegionDrainedWork (h : Keeps s₀ s) :
    Keeps s₀ (setRegionDrainedWork s) := by
  unfold setRegionDrainedWork
  repeat' first
    | split | with_reducible exact h | with_reducible exact keeps_refl _
    | with_reducible apply keeps_resetRingIndex | with_reducible apply keeps_complete

theorem keeps_setArbiterEffect (x : Word) (h : Keeps s₀ s) : Keeps s₀ (setArbiterEffect x s) :=
  keeps_complete _ (keeps_pu (fun ⟨a, b, c, d⟩ => ⟨a, b, ⟨by simp, by simp, c.2.2⟩, d⟩) h)

theorem keeps_emptyFaultRecord (h : Keeps s₀ s) :
    Keeps s₀ (emptyFaultRecord s) := by
  unfold emptyFaultRecord
  repeat' first
    | split | with_reducible exact h | with_reducible exact keeps_refl _
    | with_reducible apply keeps_writeFaultRecord | with_reducible refine keeps_mapPu rfl rfl rfl rfl ?_

theorem keeps_clearFaultEffect (h : Keeps s₀ s) :
    Keeps s₀ (clearFaultEffect s) := by
  unfold clearFaultEffect
  repeat' first
    | with_reducible exact h | with_reducible exact keeps_refl _
    | with_reducible apply keeps_emptyFaultRecord | with_reducible apply keeps_complete

theorem keeps_restartEffect (h : Keeps s₀ s) :
    Keeps s₀ (restartEffect s) := by
  unfold restartEffect
  repeat' first
    | with_reducible exact h | with_reducible exact keeps_refl _ | with_reducible apply keeps_holdFor
    | with_reducible apply keeps_quiesceLink | with_reducible refine keeps_mapCu rfl ?_

theorem keeps_restartValues (h : Keeps s₀ s) : Keeps s₀ (restartValues s) :=
  h.trans ⟨rfl, rfl, fun ⟨a, b, _, d⟩ =>
    ⟨a, b, ⟨by simp [restartValues, PathUnit.atRestart], by simp [restartValues, PathUnit.atRestart],
      by simp [restartValues, PathUnit.atRestart]⟩, d⟩⟩

theorem keeps_releaseOwedWord (w : IndexWord) (h : Keeps s₀ s) :
    Keeps s₀ (releaseOwedWord w s) := by
  unfold releaseOwedWord
  repeat' first
    | split | with_reducible exact h | with_reducible exact keeps_refl _
    | with_reducible apply keeps_placeIndexWord

theorem keeps_releaseOwedRecord (h : Keeps s₀ s) :
    Keeps s₀ (releaseOwedRecord s) := by
  unfold releaseOwedRecord
  repeat' first
    | split | with_reducible exact h | with_reducible exact keeps_refl _
    | with_reducible apply keeps_placeFaultRecord

theorem keeps_endQuiesce (h : Keeps s₀ s) :
    Keeps s₀ (endQuiesce s) := by
  unfold endQuiesce
  repeat' first
    | with_reducible exact h | with_reducible exact keeps_refl _
    | with_reducible apply keeps_releaseOwedWord | with_reducible apply keeps_releaseOwedRecord
    | with_reducible refine keeps_mapCu rfl ?_ | with_reducible refine keeps_foldl (fun _ _ => ?_) _ ?_

theorem keeps_writeRingIndices (h : Keeps s₀ s) :
    Keeps s₀ (writeRingIndices s) := by
  unfold writeRingIndices
  repeat' first
    | with_reducible exact h | with_reducible exact keeps_refl _
    | with_reducible apply keeps_writeIndexWord

theorem keeps_writeNewImage (h : Keeps s₀ s) :
    Keeps s₀ (writeNewImage s) := by
  unfold writeNewImage
  repeat' first
    | with_reducible exact h | with_reducible exact keeps_refl _
    | with_reducible apply keeps_beginStatusWrite | with_reducible refine keeps_mapCu rfl ?_

theorem keeps_restartDone (h : Keeps s₀ s) :
    Keeps s₀ (restartDone s) := by
  unfold restartDone
  repeat' first
    | with_reducible exact h | with_reducible exact keeps_refl _ | with_reducible apply keeps_pumpEvents
    | with_reducible apply keeps_writeNewImage | with_reducible apply keeps_restartValues
    | with_reducible apply keeps_endQuiesce | with_reducible apply keeps_writeRingIndices
    | with_reducible apply keeps_complete

theorem keeps_restartQuiescedWork (h : Keeps s₀ s) :
    Keeps s₀ (restartQuiescedWork s) := by
  unfold restartQuiescedWork
  repeat' first
    | split | with_reducible exact h | with_reducible exact keeps_refl _
    | with_reducible apply keeps_restartDone

theorem keeps_mergeShadow (n : Fin 10) (w : Word) (be : BitVec 4) (h : Keeps s₀ s) :
    Keeps s₀ (mergeShadow n w be s) := by
  unfold mergeShadow
  repeat' first
    | with_reducible exact h | with_reducible exact keeps_refl _
    | with_reducible refine keeps_mapPu rfl rfl rfl rfl ?_

theorem keeps_enableRings (g : Geometry) (h : Keeps s₀ s) :
    Keeps s₀ (enableRings g s) := by
  unfold enableRings; dsimp only
  repeat' first
    | with_reducible exact h | with_reducible exact keeps_refl _
    | with_reducible refine keeps_mapCu rfl ?_ | with_reducible refine keeps_mapPu rfl rfl rfl rfl ?_

theorem keeps_writeEnableWords (h : Keeps s₀ s) :
    Keeps s₀ (writeEnableWords s) := by
  unfold writeEnableWords
  repeat' first
    | with_reducible exact h | with_reducible exact keeps_refl _
    | with_reducible apply keeps_writeIndexWord

theorem keeps_rejectIndex (n : Nat) (h : Keeps s₀ s) :
    Keeps s₀ (rejectIndex n s) := by
  unfold rejectIndex
  repeat' first
    | with_reducible exact h | with_reducible exact keeps_refl _ | with_reducible apply keeps_raiseFault

theorem keeps_takeTail (w : Word) (h : Keeps s₀ s) :
    Keeps s₀ (takeTail w s) := by
  unfold takeTail; dsimp only
  repeat' first
    | split | with_reducible exact h | with_reducible exact keeps_refl _
    | with_reducible apply keeps_rejectIndex | with_reducible apply keeps_testFetch
    | with_reducible refine keeps_mapCu rfl ?_

theorem keeps_takeConsumer (w : Word) (h : Keeps s₀ s) :
    Keeps s₀ (takeConsumer w s) := by
  unfold takeConsumer; dsimp only
  repeat' first
    | split | with_reducible exact h | with_reducible exact keeps_refl _
    | with_reducible apply keeps_rejectIndex | with_reducible apply keeps_pumpEvents
    | with_reducible refine keeps_mapCu rfl ?_

theorem keeps_enableValid (g : Geometry) (h : Keeps s₀ s) :
    Keeps s₀ (enableValid g s) := by
  unfold enableValid; dsimp only
  repeat' first
    | with_reducible exact h | with_reducible exact keeps_refl _ | with_reducible apply keeps_takeTail
    | with_reducible apply keeps_enableRings | with_reducible apply keeps_takeConsumer
    | with_reducible apply keeps_writeEnableWords

theorem keeps_enableInvalid (st : RingStatus) (h : Keeps s₀ s) :
    Keeps s₀ (enableInvalid st s) := by
  unfold enableInvalid
  repeat' first
    | with_reducible exact h | with_reducible exact keeps_refl _ | with_reducible apply keeps_raiseFault
    | with_reducible apply keeps_writeIndexWord | with_reducible refine keeps_mapCu rfl ?_

theorem keeps_enableRequest (h : Keeps s₀ s) :
    Keeps s₀ (enableRequest s) := by
  unfold enableRequest; dsimp only
  repeat' first
    | split | with_reducible exact h | with_reducible exact keeps_refl _
    | with_reducible apply keeps_enableInvalid | with_reducible apply keeps_enableValid

theorem keeps_dropUnplacedEvent (h : Keeps s₀ s) : Keeps s₀ (dropUnplacedEvent s) := by
  unfold dropUnplacedEvent; split
  · refine keeps_dropEvent (keeps_mapCu rfl (keeps_put .control
      (f := fun pu =>
        { pu.queues.control with waiting := pu.queues.control.waiting.filter fun t => !isEventWrite t }) id h))
  · exact h

theorem keeps_dropPending (h : Keeps s₀ s) : Keeps s₀ (dropPending s) :=
  keeps_foldl (fun _ _ => keeps_dropEvent (keeps_refl _)) _ (keeps_events (fun _ => Nat.zero_le _) h)

theorem keeps_disableRings (h : Keeps s₀ s) :
    Keeps s₀ (disableRings s) := by
  unfold disableRings; dsimp only
  repeat' first
    | with_reducible exact h | with_reducible exact keeps_refl _ | with_reducible apply keeps_dropPending
    | with_reducible apply keeps_dropUnplacedEvent | with_reducible refine keeps_mapCu rfl ?_
    | with_reducible refine keeps_mapPu rfl rfl rfl rfl ?_

theorem keeps_takeRingControl (w : Word) (h : Keeps s₀ s) :
    Keeps s₀ (takeRingControl w s) := by
  unfold takeRingControl
  repeat' first
    | split | with_reducible exact h | with_reducible exact keeps_refl _
    | with_reducible apply keeps_disableRings | with_reducible apply keeps_enableRequest

theorem keeps_takeInputConsumer (w : Word) (h : Keeps s₀ s) :
    Keeps s₀ (takeInputConsumer w s) := by
  unfold takeInputConsumer; dsimp only
  repeat' first
    | split | with_reducible exact h | with_reducible exact keeps_refl _
    | with_reducible apply keeps_rejectIndex | with_reducible refine keeps_mapCu rfl ?_

theorem keeps_takeOutputProducer (w : Word) (h : Keeps s₀ s) :
    Keeps s₀ (takeOutputProducer w s) := by
  unfold takeOutputProducer; dsimp only
  repeat' first
    | split | with_reducible exact h | with_reducible exact keeps_refl _
    | with_reducible apply keeps_rejectIndex | with_reducible apply keeps_testSlotFetch
    | with_reducible refine keeps_mapCu rfl ?_

theorem keeps_takeIrqEnable (w : Word) (h : Keeps s₀ s) :
    Keeps s₀ (takeIrqEnable w s) := by
  unfold takeIrqEnable
  repeat' first
    | with_reducible exact h | with_reducible exact keeps_refl _
    | with_reducible refine keeps_mapCu rfl ?_

theorem keeps_handOver (n : Fin 10) (h : Keeps s₀ s) :
    Keeps s₀ (handOver n s) := by
  unfold handOver
  repeat' first
    | split | with_reducible exact h | with_reducible exact keeps_refl _
    | with_reducible apply keeps_takeInputConsumer | with_reducible apply keeps_takeRingControl
    | with_reducible apply keeps_takeTail | with_reducible apply keeps_takeIrqEnable
    | with_reducible apply keeps_takeOutputProducer | with_reducible apply keeps_takeConsumer

theorem keeps_tapWord (n : Fin 10) (w : Word) (be : BitVec 4) (h : Keeps s₀ s) :
    Keeps s₀ (tapWord n w be s) := by
  unfold tapWord
  repeat' first
    | split | with_reducible exact h | with_reducible exact keeps_refl _
    | with_reducible apply keeps_mergeShadow | with_reducible apply keeps_handOver

theorem keeps_anchorWord (off : Fin 16) (w : Word) (be : BitVec 4) (h : Keeps s₀ s) :
    Keeps s₀ (anchorWord off w be s) := by
  unfold anchorWord
  repeat' first
    | split | with_reducible exact h | with_reducible exact keeps_refl _
    | with_reducible apply keeps_tapWord | with_reducible apply keeps_raiseFault

theorem keeps_guardFault (tx : ProcTx) (h : Keeps s₀ s) :
    Keeps s₀ (guardFault tx s) := by
  unfold guardFault
  repeat' first
    | split | with_reducible exact h | with_reducible exact keeps_refl _
    | with_reducible apply keeps_raiseFault

theorem keeps_mapProc (f : ProcPort → ProcPort) (h : Keeps s₀ s) :
    Keeps s₀ (mapProc f s) := by
  unfold mapProc
  repeat' first
    | with_reducible exact h | with_reducible exact keeps_refl _
    | with_reducible refine keeps_mapPu rfl rfl rfl rfl ?_

theorem keeps_giveAnswer (a : Answer) (h : Keeps s₀ s) :
    Keeps s₀ (giveAnswer a s) := by
  unfold giveAnswer
  repeat' first
    | with_reducible exact h | with_reducible exact keeps_refl _ | with_reducible apply keeps_mapProc

theorem keeps_answerGuarded (tx : ProcTx) (h : Keeps s₀ s) :
    Keeps s₀ (answerGuarded tx s) := by
  unfold answerGuarded
  repeat' first
    | with_reducible exact h | with_reducible exact keeps_refl _ | with_reducible apply keeps_giveAnswer
    | with_reducible apply keeps_guardFault

theorem keeps_reachHead (l : List ProcTx) (h : Keeps s₀ s) : Keeps s₀ (reachHead l s) := by
  induction l generalizing s with
  | nil => exact keeps_mapProc _ h
  | cons tx l ih =>
    unfold reachHead; split
    · exact ih (keeps_answerGuarded _ h)
    · exact keeps_mapProc _ h
    · exact keeps_mapProc _ h

theorem keeps_issueTransaction (tx : ProcTx) (h : Keeps s₀ s) : Keeps s₀ (issueTransaction tx s) := by
  unfold issueTransaction; split
  · exact keeps_reachHead _ h
  · exact keeps_mapProc _ h

theorem keeps_nextHead (h : Keeps s₀ s) : Keeps s₀ (nextHead s) := keeps_reachHead _ h

theorem keeps_rejudgeHead (o : Sequence) (h : Keeps s₀ s) : Keeps s₀ (rejudgeHead o s) := by
  unfold rejudgeHead; repeat' first
    | split | exact keeps_reachHead _ h | exact h

theorem keeps_releaseLock (o : Sequence) (h : Keeps s₀ s) : Keeps s₀ (releaseLock o s) :=
  keeps_rejudgeHead o
    (keeps_pu (fun ⟨a, b, c, d⟩ => ⟨⟨(List.length_filter_le _ _).trans a.1, a.2.filter _⟩, b, c, d⟩) h)

theorem keeps_holdWaiting (l : Lock) (h : Keeps s₀ s) :
    Keeps s₀ (holdWaiting l s) := by
  unfold holdWaiting
  repeat' first
    | split | with_reducible exact h | with_reducible exact keeps_refl _
    | with_reducible apply keeps_mapProc

theorem keeps_statusGranted (h : Keeps s₀ s) :
    Keeps s₀ (statusGranted s) := by
  unfold statusGranted
  repeat' first
    | with_reducible exact h | with_reducible exact keeps_refl _ | with_reducible apply keeps_placeAll

theorem keeps_sequenceGranted (o : Sequence) (h : Keeps s₀ s) :
    Keeps s₀ (sequenceGranted o s) := by
  unfold sequenceGranted
  repeat' first
    | split | with_reducible exact h | with_reducible exact keeps_refl _
    | with_reducible apply keeps_storeGranted | with_reducible apply keeps_statusGranted
    | with_reducible apply keeps_presetGranted | with_reducible apply keeps_fetchGranted
    | with_reducible apply keeps_textGranted

theorem overlaps_comm (a b : Lock) : a.overlaps b = b.overlaps a := Bool.and_comm _ _

theorem keeps_enterLock (l : Lock) (hf : lockFits s l = true) (h : Keeps s₀ s) :
    Keeps s₀ (enterLock l s) := by
  refine keeps_pu (fun ⟨a, b, c, d⟩ => ⟨⟨?_, ?_⟩, b, c, d⟩) h
  · simp [lockFits] at hf; simp; omega
  · simp only [lockFits, Bool.and_eq_true, List.all_eq_true, Bool.not_eq_true'] at hf
    refine List.pairwise_append.2 ⟨a.2, List.pairwise_singleton _ _, fun x hx y hy => ?_⟩
    rw [List.mem_singleton] at hy
    rw [hy, overlaps_comm]; exact hf.2 x hx

theorem keeps_lockGrantWork (h : Keeps s₀ s) : Keeps s₀ (lockGrantWork s) := by
  unfold lockGrantWork; repeat' first | split | exact h
  exact keeps_sequenceGranted _ (keeps_holdWaiting _ (keeps_enterLock _ ‹_› h))

theorem keeps_queueRoom (q : Queue) (h : Keeps s₀ s) : Keeps s₀ (queueRoom q s) :=
  keeps_put q (f := fun pu => (pu.queues.get q).takeWaiting (queueCapacity q)) (admit_fits _ _) h

theorem keeps_grantPart (q : Queue) (h : Keeps s₀ s) : Keeps s₀ (grantPart q s) := by
  unfold grantPart; split
  · exact h
  · rename_i t rest hq
    refine keeps_pu (fun ⟨a, b, c, d⟩ => ⟨a, fun r => ?_, ⟨c.1, c.2.1, Nat.zero_le _⟩, d⟩) h
    by_cases hr : r = q
    · subst hr; have := b r; simp [hq] at this ⊢; omega
    · simpa [get_put_other _ _ hr] using b r

theorem keeps_countRun (hr : partWaiting s = true → s.pu.runCount < s.pu.sliceH) (h : Keeps s₀ s) :
    Keeps s₀ (countRun s) := by
  unfold countRun; split
  · rename_i hp
    exact keeps_pu (fun ⟨a, b, c, d⟩ => ⟨a, b, ⟨c.1, c.2.1, by have := hr hp; have := c.2.1; simp; omega⟩, d⟩) h
  · exact h

theorem keeps_sendProcessor (tx : ProcTx) (h : Keeps s₀ s) :
    Keeps s₀ (sendProcessor tx s) := by
  unfold sendProcessor
  repeat' first
    | with_reducible exact h | with_reducible exact keeps_refl _ | with_reducible apply keeps_mapProc
    | with_reducible refine keeps_mapPu rfl rfl rfl rfl ?_

theorem keeps_takeTaps (tx : ProcTx) (h : Keeps s₀ s) :
    Keeps s₀ (takeTaps s tx) := by
  unfold takeTaps; dsimp only
  repeat' first
    | with_reducible exact h | with_reducible exact keeps_refl _ | with_reducible apply keeps_mergeShadow
    | with_reducible apply keeps_handOver | with_reducible refine keeps_foldl (fun _ _ => ?_) _ ?_

theorem keeps_grantProcessor (tx : ProcTx) (hr : partWaiting s = true → s.pu.runCount < s.pu.sliceH)
    (h : Keeps s₀ s) : Keeps s₀ (grantProcessor tx s) := by
  unfold grantProcessor; split_ifs
  · exact keeps_sendProcessor _ (keeps_countRun hr h)
  · exact keeps_nextHead (keeps_answerGuarded _ (keeps_countRun hr h))
  · exact keeps_takeTaps _ (keeps_guardFault _ (keeps_sendProcessor _ (keeps_countRun hr h)))

theorem ordinaryGrant_processor {tx : ProcTx} (hg : ordinaryGrant s = .processor tx)
    (hp : partWaiting s = true) : s.pu.runCount < s.pu.sliceH := by
  unfold ordinaryGrant at hg; dsimp only at hg
  split at hg
  · split at hg
    · split at hg <;> cases hg
    · simp_all
  · split at hg <;> cases hg

theorem arbiterChoice_processor {tx : ProcTx} (hg : arbiterChoice s = .processor tx)
    (hp : partWaiting s = true) : s.pu.runCount < s.pu.sliceH := by
  unfold arbiterChoice at hg
  split at hg
  · split at hg
    · cases hg
    · exact ordinaryGrant_processor hg hp
  · exact ordinaryGrant_processor hg hp

theorem keeps_arbiterWork (h : Keeps s₀ s) : Keeps s₀ (arbiterWork s) := by
  unfold arbiterWork; split
  · split
    · exact keeps_grantPart _ h
    · exact keeps_grantProcessor _ (arbiterChoice_processor ‹_›) h
    · exact h
  · exact h

theorem keeps_freePort (h : Keeps s₀ s) :
    Keeps s₀ (freePort s) := by
  unfold freePort
  repeat' first
    | with_reducible exact h | with_reducible exact keeps_refl _
    | with_reducible refine keeps_mapPu rfl rfl rfl rfl ?_

theorem keeps_processorAnswered (ok : Bool) (data : List Word) (h : Keeps s₀ s) :
    Keeps s₀ (processorAnswered ok data s) := by
  unfold processorAnswered
  repeat' first
    | split | with_reducible exact h | with_reducible exact keeps_refl _
    | with_reducible apply keeps_freePort | with_reducible apply keeps_nextHead
    | with_reducible apply keeps_giveAnswer

theorem keeps_unknownCommandEffect (h : Keeps s₀ s) :
    Keeps s₀ (unknownCommandEffect s) := by
  unfold unknownCommandEffect
  repeat' first
    | with_reducible exact h | with_reducible exact keeps_refl _ | with_reducible apply keeps_complete

theorem keeps_commandEffect (i : Instr) (h : Keeps s₀ s) : Keeps s₀ (commandEffect i s) := by
  cases i <;> first
    | exact h
    | (unfold commandEffect; with_reducible first
        | apply keeps_ampRecoverEffect | apply keeps_clearFaultEffect | apply keeps_configCaptureEffect
        | apply keeps_configRecordOutEffect | apply keeps_configSourceEffect
        | apply keeps_configSpeakerEffect | apply keeps_configTunerEffect
        | apply keeps_recallPresetEffect | apply keeps_releaseCaptureEffect | apply keeps_restartEffect
        | apply keeps_seekEffect | apply keeps_selectSourceEffect | apply keeps_setArbiterEffect
        | apply keeps_setCrossoverEffect | apply keeps_setLanesEffect | apply keeps_setRegionEffect
        | apply keeps_setVolumeEffect | apply keeps_stopSeekEffect | apply keeps_storePresetEffect
        | apply keeps_tuneEffect | apply keeps_unknownCommandEffect) <;> exact h

theorem keeps_commandTaken (words : List Word) (h : Keeps s₀ s) : Keeps s₀ (commandTaken words s) :=
  keeps_commandEffect _ (keeps_beginCommand _ _ h)

theorem keeps_fetchEnded (words : List Word) (h : Keeps s₀ s) :
    Keeps s₀ (fetchEnded words s) := by
  unfold fetchEnded
  repeat' first
    | split | with_reducible exact h | with_reducible exact keeps_refl _
    | with_reducible apply keeps_commandTaken | with_reducible apply keeps_discardFetch

theorem keeps_fetchFailed (h : Keeps s₀ s) : Keeps s₀ (fetchFailed s) := by
  unfold fetchFailed; split
  · exact keeps_discardFetch h
  · exact keeps_complete _ (keeps_same rfl rfl rfl rfl rfl rfl rfl h)

theorem keeps_eventWritten (h : Keeps s₀ s) :
    Keeps s₀ (eventWritten s) := by
  unfold eventWritten; dsimp only
  repeat' first
    | split | with_reducible exact h | with_reducible exact keeps_refl _
    | with_reducible apply keeps_pumpEvents | with_reducible apply keeps_followEventWrite
    | with_reducible refine keeps_mapCu rfl ?_

theorem keeps_eventFailed (h : Keeps s₀ s) :
    Keeps s₀ (eventFailed s) := by
  unfold eventFailed
  repeat' first
    | with_reducible exact h | with_reducible exact keeps_refl _ | with_reducible apply keeps_pumpEvents
    | with_reducible apply keeps_dropEvent | with_reducible refine keeps_mapCu rfl ?_

theorem keeps_fetchHeaderRead (data : List Word) (h : Keeps s₀ s) :
    Keeps s₀ (fetchHeaderRead data s) := by
  unfold fetchHeaderRead; dsimp only
  repeat' first
    | split | with_reducible exact h | with_reducible exact keeps_refl _
    | with_reducible apply keeps_placeSampleReads | with_reducible apply keeps_fetchBad
    | with_reducible apply keeps_releaseLock

theorem keeps_fetchSamplesRead (data : List Word) (h : Keeps s₀ s) :
    Keeps s₀ (fetchSamplesRead data s) := by
  unfold fetchSamplesRead; dsimp only
  repeat' first
    | split | with_reducible exact h | with_reducible exact keeps_refl _
    | with_reducible apply keeps_endFetch | with_reducible apply keeps_releaseLock
    | with_reducible apply keeps_complete | with_reducible apply keeps_mapRe

theorem keeps_statusLineWritten (last : Bool) (h : Keeps s₀ s) :
    Keeps s₀ (statusLineWritten last s) := by
  unfold statusLineWritten
  repeat' first
    | split | with_reducible exact h | with_reducible exact keeps_refl _
    | with_reducible apply keeps_statusWriteEnded | with_reducible apply keeps_releaseLock

theorem keeps_textLineWritten (last : Bool) (h : Keeps s₀ s) :
    Keeps s₀ (textLineWritten last s) := by
  unfold textLineWritten
  repeat' first
    | split | with_reducible exact h | with_reducible exact keeps_refl _
    | with_reducible apply keeps_textEnded | with_reducible apply keeps_releaseLock

theorem keeps_transferDone (t : Transfer) (data : List Word) (h : Keeps s₀ s) :
    Keeps s₀ (transferDone t data s) := by
  unfold transferDone
  repeat' first
    | split | with_reducible exact h | with_reducible exact keeps_refl _
    | with_reducible apply keeps_eventWritten | with_reducible apply keeps_storeLineRead
    | with_reducible apply keeps_statusLineWritten | with_reducible apply keeps_faultRecordEnded
    | with_reducible apply keeps_textLineWritten | with_reducible apply keeps_fetchHeaderRead
    | with_reducible apply keeps_storeEnded | with_reducible apply keeps_fetchSamplesRead
    | with_reducible apply keeps_delayReadEnded | with_reducible apply keeps_indexWordEnded
    | with_reducible apply keeps_releaseLock | with_reducible apply keeps_recallEntry
    | with_reducible apply keeps_complete | with_reducible apply keeps_fetchEnded

theorem keeps_transferFault (t : Transfer) (h : Keeps s₀ s) :
    Keeps s₀ (transferFault t s) := by
  unfold transferFault
  repeat' first
    | split | with_reducible exact h | with_reducible exact keeps_refl _
    | with_reducible apply keeps_raiseFaultMarked | with_reducible apply keeps_raiseFault

theorem keeps_removeSequence (o : Sequence) (h : Keeps s₀ s) : Keeps s₀ (removeSequence o s) :=
  keeps_put (sequenceQueue o)
    (f := fun pu => (pu.queues.get (sequenceQueue o)).filter fun t => decide (t.sequence ≠ some o))
    (filter_fits _ _ _) h

theorem keeps_abortSequence (sq : Option Sequence) (h : Keeps s₀ s) :
    Keeps s₀ (abortSequence sq s) := by
  unfold abortSequence
  repeat' first
    | split | with_reducible exact h | with_reducible exact keeps_refl _
    | with_reducible apply keeps_removeSequence | with_reducible apply keeps_releaseLock

theorem keeps_transferFailed (t : Transfer) (h : Keeps s₀ s) :
    Keeps s₀ (transferFailed t s) := by
  unfold transferFailed
  repeat' first
    | split | with_reducible exact h | with_reducible exact keeps_refl _
    | with_reducible apply keeps_storeAborted | with_reducible apply keeps_faultRecordEnded
    | with_reducible apply keeps_eventFailed | with_reducible apply keeps_textAborted
    | with_reducible apply keeps_statusWriteAborted | with_reducible apply keeps_delayReadEnded
    | with_reducible apply keeps_indexWordEnded | with_reducible apply keeps_fetchFailed
    | with_reducible apply keeps_complete | with_reducible apply keeps_fetchAborted

theorem keeps_transferError (t : Transfer) (h : Keeps s₀ s) :
    Keeps s₀ (transferError t s) := by
  unfold transferError
  repeat' first
    | with_reducible exact h | with_reducible exact keeps_refl _
    | with_reducible apply keeps_transferFault | with_reducible apply keeps_abortSequence
    | with_reducible apply keeps_transferFailed

theorem keeps_partAnswered (ok : Bool) (data : List Word) (h : Keeps s₀ s) :
    Keeps s₀ (partAnswered ok data s) := by
  unfold partAnswered
  repeat' first
    | split | with_reducible exact h | with_reducible exact keeps_refl _
    | with_reducible apply keeps_transferError | with_reducible apply keeps_freePort
    | with_reducible apply keeps_transferDone

end Sys2Proof.Machine
end

