-- ==== Sys2Proof/Laws/PerInstr.lean ====
section
/-! SUPPORT. Per-command lemmas: the record of every command fits the eight words of a command slot. -/

namespace Sys2Proof.Laws

/-- R208: the record of a well-formed command has at least its word 0 and at most the eight words of a slot. -/
def RecordFits.Statement (i : Instr) : Prop :=
  i.wellFormed = true → ∀ ws, encodeCommand i = some ws → 1 ≤ ws.length ∧ ws.length ≤ 8

theorem RecordFits.hardResetAssert :
    RecordFits.Statement (.hardResetAssert) := by
  rintro - ws h; cases h

theorem RecordFits.hardResetRelease (cb : BitVec 8) :
    RecordFits.Statement (.hardResetRelease cb) := by
  rintro - ws h; cases h

theorem RecordFits.processorTransaction (tx : ProcTx) :
    RecordFits.Statement (.processorTransaction tx) := by
  rintro - ws h; cases h

theorem RecordFits.arbiterGrant :
    RecordFits.Statement (.arbiterGrant) := by
  rintro - ws h; cases h

theorem RecordFits.processorMemoryAnswer (ok : Bool) (data : List Word) :
    RecordFits.Statement (.processorMemoryAnswer ok data) := by
  rintro - ws h; cases h

theorem RecordFits.partTransferAnswer (ok : Bool) (data : List Word) :
    RecordFits.Statement (.partTransferAnswer ok data) := by
  rintro - ws h; cases h

theorem RecordFits.lockGrant :
    RecordFits.Statement (.lockGrant) := by
  rintro - ws h; cases h

theorem RecordFits.queueRoomFreed (q : Queue) :
    RecordFits.Statement (.queueRoomFreed q) := by
  rintro - ws h; cases h

theorem RecordFits.ringEnable (upper : BitVec 31) :
    RecordFits.Statement (.ringEnable upper) := by
  rintro - ws h; cases h

theorem RecordFits.ringDisable (upper : BitVec 31) :
    RecordFits.Statement (.ringDisable upper) := by
  rintro - ws h; cases h

theorem RecordFits.commandTailWrite (w : Word) (be : BitVec 4) :
    RecordFits.Statement (.commandTailWrite w be) := by
  rintro - ws h; cases h

theorem RecordFits.eventConsumerWrite (w : Word) (be : BitVec 4) :
    RecordFits.Statement (.eventConsumerWrite w be) := by
  rintro - ws h; cases h

theorem RecordFits.inputRingConsumerWrite (w : Word) (be : BitVec 4) :
    RecordFits.Statement (.inputRingConsumerWrite w be) := by
  rintro - ws h; cases h

theorem RecordFits.outputRingProducerWrite (w : Word) (be : BitVec 4) :
    RecordFits.Statement (.outputRingProducerWrite w be) := by
  rintro - ws h; cases h

theorem RecordFits.interruptEnableWrite (w : Word) (be : BitVec 4) :
    RecordFits.Statement (.interruptEnableWrite w be) := by
  rintro - ws h; cases h

theorem RecordFits.anchorWordWrite (off : Fin 16) (w : Word) (be : BitVec 4) :
    RecordFits.Statement (.anchorWordWrite off w be) := by
  rintro - ws h; cases h

theorem RecordFits.setRegion (tag : BitVec 16) (role clear base slots : Word) :
    RecordFits.Statement (.setRegion tag role clear base slots) := by
  rintro - ws h; cases h; simp

theorem RecordFits.setRegionDrained :
    RecordFits.Statement (.setRegionDrained) := by
  rintro - ws h; cases h

theorem RecordFits.setArbiter (tag : BitVec 16) (h : Word) :
    RecordFits.Statement (.setArbiter tag h) := by
  rintro - ws h; cases h; simp

theorem RecordFits.clearFault (tag : BitVec 16) :
    RecordFits.Statement (.clearFault tag) := by
  rintro - ws h; cases h; simp

theorem RecordFits.restart (tag : BitVec 16) :
    RecordFits.Statement (.restart tag) := by
  rintro - ws h; cases h; simp

theorem RecordFits.restartQuiesced :
    RecordFits.Statement (.restartQuiesced) := by
  rintro - ws h; cases h

theorem RecordFits.configSource (tag : BitVec 16) (id : BitVec 16) (valid : Bool) (port path : BitVec 16) (pref trim lipSync fallback hold : Word) :
    RecordFits.Statement (.configSource tag id valid port path pref trim lipSync fallback hold) := by
  rintro - ws h; cases h; simp

theorem RecordFits.selectSource (tag : BitVec 16) (target : Word) :
    RecordFits.Statement (.selectSource tag target) := by
  rintro - ws h; cases h; simp

theorem RecordFits.setVolume (tag : BitVec 16) (master mute : Word) :
    RecordFits.Statement (.setVolume tag master mute) := by
  rintro - ws h; cases h; simp

theorem RecordFits.configSpeaker (tag : BitVec 16) (id presence distance trim lane slot pair : Word) :
    RecordFits.Statement (.configSpeaker tag id presence distance trim lane slot pair) := by
  rintro - ws h; cases h; simp

theorem RecordFits.setCrossover (tag : BitVec 16) (freq : Word) :
    RecordFits.Statement (.setCrossover tag freq) := by
  rintro - ws h; cases h; simp

theorem RecordFits.setLanes (tag : BitVec 16) (mask0 mask1 : Word) :
    RecordFits.Statement (.setLanes tag mask0 mask1) := by
  rintro - ws h; cases h; simp

theorem RecordFits.configRecordOut (tag : BitVec 16) (source port w0 w1 w2 w3 : Word) :
    RecordFits.Statement (.configRecordOut tag source port w0 w1 w2 w3) := by
  rintro - ws h; cases h; simp

theorem RecordFits.ampRecover (tag : BitVec 16) (pair : Word) :
    RecordFits.Statement (.ampRecover tag pair) := by
  rintro - ws h; cases h; simp

theorem RecordFits.configTuner (tag : BitVec 16) (addr fmStep amStep : Word) :
    RecordFits.Statement (.configTuner tag addr fmStep amStep) := by
  rintro - ws h; cases h; simp

theorem RecordFits.tune (tag : BitVec 16) (band channel : Word) :
    RecordFits.Statement (.tune tag band channel) := by
  rintro - ws h; cases h; simp

theorem RecordFits.seek (tag : BitVec 16) (direction threshold : Word) :
    RecordFits.Statement (.seek tag direction threshold) := by
  rintro - ws h; cases h; simp

theorem RecordFits.stopSeek (tag : BitVec 16) :
    RecordFits.Statement (.stopSeek tag) := by
  rintro - ws h; cases h; simp

theorem RecordFits.recallPreset (tag : BitVec 16) (entry : Word) :
    RecordFits.Statement (.recallPreset tag entry) := by
  rintro - ws h; cases h; simp

theorem RecordFits.storePreset (tag : BitVec 16) (entry : Word) :
    RecordFits.Statement (.storePreset tag entry) := by
  rintro - ws h; cases h; simp

theorem RecordFits.configCapture (tag : BitVec 16) (slot enable typeMatch typeMask varMatch varMask : Word) :
    RecordFits.Statement (.configCapture tag slot enable typeMatch typeMask varMatch varMask) := by
  rintro - ws h; cases h; simp

theorem RecordFits.releaseCapture (tag : BitVec 16) (slot : Word) :
    RecordFits.Statement (.releaseCapture tag slot) := by
  rintro - ws h; cases h; simp

theorem RecordFits.unknownCommand (tag : BitVec 16) (kind : BitVec 16) :
    RecordFits.Statement (.unknownCommand tag kind) := by
  rintro - ws h; cases h; simp

theorem RecordFits.rateWindowEnd :
    RecordFits.Statement (.rateWindowEnd) := by
  rintro - ws h; cases h

theorem RecordFits.portFrame (port : Fin 6) (bits : List Bool) (fmt : Bool) :
    RecordFits.Statement (.portFrame port bits fmt) := by
  rintro - ws h; cases h

theorem RecordFits.freeRunBoundary :
    RecordFits.Statement (.freeRunBoundary) := by
  rintro - ws h; cases h

theorem RecordFits.followTimeout :
    RecordFits.Statement (.followTimeout) := by
  rintro - ws h; cases h

theorem RecordFits.holdTimerExpiry :
    RecordFits.Statement (.holdTimerExpiry) := by
  rintro - ws h; cases h

theorem RecordFits.laneFrame (lane : Fin 2) :
    RecordFits.Statement (.laneFrame lane) := by
  rintro - ws h; cases h

theorem RecordFits.recordFrame :
    RecordFits.Statement (.recordFrame) := by
  rintro - ws h; cases h

theorem RecordFits.linkAttemptEnd (ack : Bool) (b0 b1 : Byte) :
    RecordFits.Statement (.linkAttemptEnd ack b0 b1) := by
  rintro - ws h; cases h

theorem RecordFits.linkTimeout :
    RecordFits.Statement (.linkTimeout) := by
  rintro - ws h; cases h

theorem RecordFits.linkRetry :
    RecordFits.Statement (.linkRetry) := by
  rintro - ws h; cases h

theorem RecordFits.settleTimerExpiry :
    RecordFits.Statement (.settleTimerExpiry) := by
  rintro - ws h; cases h

theorem RecordFits.searchWindow :
    RecordFits.Statement (.searchWindow) := by
  rintro - ws h; cases h

theorem RecordFits.probeWindow :
    RecordFits.Statement (.probeWindow) := by
  rintro - ws h; cases h

theorem RecordFits.syncBlock :
    RecordFits.Statement (.syncBlock) := by
  rintro - ws h; cases h

theorem RecordFits.ampFaultSample (pair : Fin 4) :
    RecordFits.Statement (.ampFaultSample pair) := by
  rintro - ws h; cases h

theorem RecordFits.stationDataBit (bit : Bool) :
    RecordFits.Statement (.stationDataBit bit) := by
  rintro - ws h; cases h

end Sys2Proof.Laws
end

