-- ==== Sys2Proof/Tests/Slice0.lean ====
section
/-! SUPPORT. Tests: ill-formed terms refused, the records of R208, the handbook's worked cases, one step of each
family on a small state, and a state and operands that meet the hypotheses of each obligation. -/

namespace Sys2Proof.Tests

-- One theorem at a time: many kernel evaluations waiting at once would each hold a thread.
set_option Elab.async false

open Sys2Proof.Machine

/-! ## Helpers -/

/-- The state after a command. -/
def after (i : Instr) (s : State) : State :=
  match exec i s with
  | .next t => t
  | _ => s

/-- The rings of section 11.6 enabled: 16 command slots at 0x02000000 and 64 event slots at 0x02001000. -/
def ringed : State :=
  { State.reset with
    pu := { State.reset.pu with regions := { State.reset.pu.regions with
      command := some { base := 0x02000000, size := 512 }, event := some { base := 0x02001000, size := 1024 } } },
    cu := { State.reset.cu with enabled := true } }

/-- RESET_N low. -/
def heldReset : State := { State.reset with resetLow := true }

/-- A state that runs a command waiting for this work. -/
def busyWith (kind : BitVec 16) (w : BusyWork) (s : State) : State :=
  s.mapCu fun cu => { cu with exec := .busy { tag := 7, kind := kind, index := 0, counts := true, work := w } }

/-- Connected to source 0, which plays this port on this path. -/
def connectedTo (port : Fin 6) (path : EffPath) (st : SwitchState) : State :=
  ringed.mapSc fun sc =>
    { sc with
      table := sc.table.set 0
        { valid := true, port := port, path := .auto, preference := .auto, trim := 0, lipSync := 0,
          fallback := some 1, holdTime := 1 },
      connected := some 0, path := path, st := st }

/-- The tuner in a state, on FM channel 9910. -/
def tunerAt (st : TunerState) (link : LinkState) : State :=
  ringed.mapTc fun tc => { tc with st := st, band := some .fm, channel := some 9910, link := link }

/-- An attempt of a request. -/
def attemptOf (r : LinkRequest) (discard : Bool) : LinkState :=
  .attempt { (match r with
    | .tuneWrite => tuneWriteOf 0x11 .fm 9910
    | .statusRead => statusReadOf 0x11) with discard := discard }

/-! ## WellFormed refuses what is ill formed -/

/-- R1: no beats. -/
theorem test_no_beats_refused :
    (Instr.processorTransaction { write := false, line := 0, beats := [] }).wellFormed = false := by decide

/-- R1: nine beats. -/
theorem test_nine_beats_refused :
    (Instr.processorTransaction
      { write := false, line := 0, beats := List.replicate 9 { off := 0, be := 0xF, data := 0 } }).wellFormed
      = false := by decide

/-- R1: a beat behind the one before it. -/
theorem test_falling_beats_refused :
    (Instr.processorTransaction
      { write := false, line := 0, beats := [{ off := 1, be := 0xF, data := 0 }, { off := 0, be := 0xF, data := 0 }]
      }).wellFormed = false := by decide

/-- R43: nine words of a part's read. -/
theorem test_nine_words_for_the_part_refused :
    (Instr.partTransferAnswer true (List.replicate 9 0)).wellFormed = false := by decide

/-- R1: nine words of a processor's read. -/
theorem test_nine_words_for_the_processor_refused :
    (Instr.processorMemoryAnswer true (List.replicate 9 0)).wellFormed = false := by decide

/-- R208: a kind that names a command. -/
theorem test_known_kind_refused : (Instr.unknownCommand 1 0x14).wellFormed = false := by decide

/-- R208: kinds next to those that name a command. -/
theorem test_unknown_kinds_accepted :
    (Instr.unknownCommand 1 0x15).wellFormed = true ∧ (Instr.unknownCommand 1 0).wellFormed = true := by decide

/-! ## Records (R208) and the table's words -/

/-- The two records of section 12.5. -/
theorem test_records_of_section_12_5 :
    decodeCommand [0x01010007, 0x0000003C, 0x00000000, 9, 9, 9, 9, 9] = .setVolume 0x0101 60 0
      ∧ decodeCommand [0x01020006, 0x00000009, 0, 0, 0, 0, 0, 0] = .selectSource 0x0102 9 := by decide

/-- R208: a CONFIG_SOURCE record packs nine parameters. -/
theorem test_config_source_record :
    decodeCommand [0x12340005, 0x00010003, 0x00020001, 4, 6, 10, 0xFFFFFFFF, 30]
      = .configSource 0x1234 3 true 1 2 4 6 10 0xFFFFFFFF 30 := by decide

/-- R208: a kind that names no command. -/
theorem test_unknown_kind_record : decodeCommand [0x00090015, 0, 0, 0, 0, 0, 0, 0] = .unknownCommand 9 0x15 := by
  decide

/-- The table gives no row any bits. -/
theorem test_no_table_words : decodeTableWord 32 0x01010007 = none := by decide

/-- Section 12.5: the words of the COMPLETION of the second command. -/
theorem test_completion_words_of_section_12_5 :
    Event.words { name := .completion, subject := 0x0102, stamp := 5, d1 := 3, d2 := word2 6 1, ofEventWrite := false }
      = [0x01020000, 5, 3, 0x00010006] := by decide

/-- R212: −1,000 as a sample word, and the word of a processor that leaves its top byte clear. -/
theorem test_sample_words :
    sampleWord (-1000) = 0xFFFFFC18 ∧ sampleOf 0x00FFFC18 = -1000 ∧ sampleOf 0xFFFFFC18 = -1000 := by decide

/-! ## The handbook's worked cases -/

/-- R201, R205: the status block right after reset. -/
theorem test_status_image_after_reset : statusImage State.reset = resetImage := by decide +kernel

/-- R159: 9912 and 9915 on FM at 100 kHz, 1000 on AM at 9 kHz. -/
theorem test_snapping :
    snapChannel .fm 100 9912 = 9910 ∧ snapChannel .fm 100 9915 = 9910 ∧ snapChannel .am 9 1000 = 999 := by decide

/-- R162: level 58 with multipath 3, and level 20 with multipath 15. -/
theorem test_quality : qualityOf .fm 58 3 = 46 ∧ qualityOf .fm 20 15 = 0 ∧ qualityOf .am 58 15 = 58 := by decide

/-- Bits of a number, most significant first. -/
def bitsOf (n v : Nat) : List Bool := (List.range n).map fun i => v.testBit (n - 1 - i)

/-- Section 10.8: the CRC of 0x5D21 is 0x02, and 0x5D213E is valid at position 0 alone. -/
theorem test_crc :
    crcOf (bitsOf 16 0x5D21) = 0x02 ∧ validPosition (bitsOf 24 0x5D213E) = some 0
      ∧ validPosition (bitsOf 24 0x5D213F) = none := by decide +kernel

/-- Section 4.6: the envelopes and the steering of the first block. -/
theorem test_steering_first_block :
    steer Steering.reset (List.replicate 32 3000000) (List.replicate 32 1000000)
      = { envL := 750000, envR := 250000, envS := 500000, envD := 250000, aTgt := 16384, bTgt := 10922,
          aApp := 1024, bApp := 1024 } := by decide +kernel

/-- Section 4.6: the decoded channels of the first block, its first frame. -/
theorem test_matrix_first_block :
    (decodeMatrix
      { envL := 750000, envR := 250000, envS := 500000, envD := 250000, aTgt := 16384, bTgt := 10922,
        aApp := 1024, bApp := 1024 } false [3000000] [1000000]).chans.toList.map (fun xs => xs.headD 0)
      = [2937500, 937500, 62500, 0, 707070, -684973, 0, 0] := by decide +kernel

/-- Section 7.3: that block folded for MAIN. -/
theorem test_main_fold :
    mainFold { chans := #v[[2937500], [937500], [62500], [0], [707070], [-684973], [0], [0]], lfe := [0],
               marks := Vector.replicate 8 false } = [(1740828, 248676)] := by decide +kernel

/-- Section 5.8: the crossover at 48k and 80 Hz. -/
theorem test_crossover_first_frame :
    lowPass (crossoverAlpha .k48 80) 0 [707070] = [7358] ∧ lowPass (crossoverAlpha .k48 80) 0 [-684973] = [-7129] := by
  decide

/-- Section 5.8: three speakers at an applied attenuation of 80. -/
theorem test_gain_at_80 :
    gainSample 80 2981693 = 29395 ∧ gainSample 80 981693 = 9678 ∧ gainSample 80 699712 = 6898 := by decide

/-- Section 6.7: d is 251 frames, and the block is read with five transfers. -/
theorem test_delay_reads :
    delayFrames 57 .k44 = 251 ∧ readRuns 2048 251 4096 = [(0, 3), (3, 8), (11, 8), (19, 8), (27, 5)]
      ∧ readRuns 2048 251 256 = [(27, 5)] ∧ readRuns 2048 251 224 = []
      ∧ lineAddress 0x08000000 2 (readPosition 2048 251 0) = 0x08009C14 := by decide +kernel

/-- Section 8.7: 118 + 16 is 134 in DERATE, then 150, then 152 by a saturation. -/
theorem test_stress_steps :
    stressStep 118 true false = (134, .fault) ∧ pairStateOf 134 = .derate ∧ stressStep 134 true true = (150, .fault)
      ∧ stressStep 150 false true = (152, .saturation) ∧ stressStep 128 false false = (127, .decay)
      ∧ pairStateOf 127 = .warn := by decide

/-- R10: the edges of the window's classes. -/
theorem test_window_classes :
    classify 7 = .low ∧ classify 8 = .out ∧ classify 46 = .cls .k44 ∧ classify 47 = .cls .k48
      ∧ classify 101 = .out := by decide

/-! ## One step of each family -/

/-- R54: RESET_N falls in the middle of a part transfer; the answer that follows is discarded. -/
theorem test_reset_cuts_a_transfer :
    (after .hardResetAssert (ringed.mapPu fun pu => { pu with port := .part (readOf .presetRead 64 4 none) })).pu.port
        = .orphan (readOf .presetRead 64 4 none)
      ∧ (after .hardResetAssert ringed).pins.ampEn[(3 : Fin 4)] = false := by decide +kernel

/-- R32, R54: the straps give CONTROL in units of 1 MiB. -/
theorem test_release_takes_the_straps :
    (after (.hardResetRelease 0xFF) heldReset).pu.regions.control = 0x0FF00000 := by decide +kernel

/-- R34, R35: a write of the status block is dropped at the port, and latches GUARD_WRITE. -/
theorem test_guarded_write_answered_at_the_port :
    let t := after (.processorTransaction
      { write := true, line := 6, beats := [{ off := 0, be := 0xF, data := 1 }] }) ringed
    t.pu.proc.answers = [{ ok := true, data := [] }]
      ∧ t.pu.faultRec = some { kind := .guardWrite, addr := 0xC0, stamp := 0 } := by decide +kernel

/-- R44: the processor's waiting read is granted. -/
theorem test_processor_granted :
    (after .arbiterGrant
      (after (.processorTransaction { write := false, line := 0, beats := [{ off := 0, be := 0xF, data := 0 }] })
        ringed)).pu.port
      = .processor { write := false, line := 0, beats := [{ off := 0, be := 0xF, data := 0 }] } := by decide +kernel

/-- R34: the words read are passed on. -/
theorem test_read_passed_on :
    (after (.processorMemoryAnswer true [0xABCD])
      (ringed.mapPu fun pu =>
        { pu with port := .processor { write := false, line := 0, beats := [{ off := 0, be := 0xF, data := 0 }] } })).pu.proc.answers
      = [{ ok := true, data := [0xABCD] }] := by decide +kernel

/-- R197: an event record in memory raises the producer. -/
theorem test_event_written :
    (after (.partTransferAnswer true [])
      (ringed.mapPu (fun pu => { pu with port := .part (writeOf .eventWrite 0x02001000 [0, 0, 0, 0] none) }) |>.mapCu
        fun cu => { cu with evWrite := some { event := eventNow ringed .completion 1 0 7, stale := false },
                            irqEnable := true })).cu.evProd = 1 := by decide +kernel

/-- R38, R43: the status write of reset gets its lock, and a transfer gets a place. -/
theorem test_lock_and_room :
    (after .lockGrant State.reset).pu.locks = [{ owner := .statusWrite, startLine := 6, lines := 2 }]
      ∧ (after (.queueRoomFreed .input)
          (ringed.mapPu fun pu =>
            { pu with queues := { pu.queues with input :=
              { items := [], waiting := [readOf .presetRead 0 4 none] } } })).pu.queues.input.items.length = 1 := by
  decide +kernel

/-- Section 11.6: the geometry is valid, and the head and producer are 0. -/
theorem test_ring_enable_of_section_11_6 :
    let t := after (.ringEnable 0)
      (State.reset.mapPu fun pu => { pu with shadow := #v[0x02000000, 4, 0x02001000, 6, 0, 0, 0, 0, 0, 1] })
    t.cu.enabled = true ∧ t.cu.ringStatus = .ok ∧ t.pu.regions.command = some { base := 0x02000000, size := 512 }
      ∧ t.pu.queues.control.items.length = 4 := by decide +kernel

/-- R193: the rings disabled. -/
theorem test_ring_disable :
    (after (.ringDisable 0) ringed).cu.enabled = false ∧ (after (.ringDisable 0) ringed).pu.regions.event = none := by
  decide +kernel

/-- Section 11.6: with the head at 2 a tail of 40 is rejected, and RING_INDEX carries the address 0x14. -/
theorem test_tail_40_rejected :
    let t := after (.commandTailWrite 40 0xF) (ringed.mapCu fun cu => { cu with head := 2, tail := 2 })
    t.cu.tail = 2 ∧ t.pu.faultRec = some { kind := .ringIndex, addr := 0x14, stamp := 0 } := by decide +kernel

/-- R198: the consumer catches the producer up, and IRQ_N goes high. -/
theorem test_consumer_raises_irq :
    (after (.eventConsumerWrite 2 0xF) (ringed.mapCu fun cu => { cu with evProd := 2, irqEnable := true })).pins.irqN
        = true
      ∧ (after (.interruptEnableWrite 1 1) (ringed.mapCu fun cu => { cu with evProd := 2 })).pins.irqN = false := by
  decide +kernel

/-- R57: with its region unset a ring accepts every index. -/
theorem test_audio_indices_accepted :
    (after (.inputRingConsumerWrite 0x1234 0xF) ringed).cu.inCons = 0x1234
      ∧ (after (.outputRingProducerWrite 0x4321 0xF) ringed).cu.outProd = 0x4321 := by decide +kernel

/-- R37: one byte of a geometry word is merged while the rings are disabled. -/
theorem test_anchor_byte_merged :
    (after (.anchorWordWrite 1 0xAABBCCDD 2)
      (State.reset.mapPu fun pu => { pu with shadow := pu.shadow.set 1 0x11223344 })).pu.shadow[(1 : Fin 10)]
      = 0x1122CC44 := by decide +kernel

/-- R52, R53: PRESET set, and the command done when no transfer drains. -/
theorem test_set_region :
    let t := after (.setRegion 1 6 0 0x40000 0) ringed
    t.pu.regions.preset = some { base := 0x40000, size := 1024 }
      ∧ (after .setRegionDrained t).cu.head = 1 := by decide +kernel

/-- R45: H of 0 becomes 1. -/
theorem test_set_arbiter : (after (.setArbiter 1 0) ringed).pu.sliceH = 1 := by decide +kernel

/-- R51: the fault record emptied. -/
theorem test_clear_fault :
    let t := after (.clearFault 1)
      (ringed.mapPu fun pu => { pu with faultRec := some { kind := .ringGeometry, addr := 16, stamp := 0 } })
    t.pu.faultRec = none ∧ t.pins.alertN = true := by decide +kernel

/-- R200: RESTART holds the Command Unit, and gives the reset values once the part is quiet. -/
theorem test_restart :
    let t := after (.restart 1) (ringed.mapPu fun pu => { pu with requests := [], sliceH := 3 })
    t.cu.quiesce = true
      ∧ (after .restartQuiesced (t.mapCu fun cu => { cu with status := { cu.status with writing := false } })).pu.sliceH
          = 8 := by decide +kernel

/-- R17, R20: a source configured, then selected in IDLE. -/
theorem test_configure_and_select :
    let t := after (.configSource 1 0 true 1 0 0 30 0 0xFFFFFFFF 5) ringed
    t.sc.table[(0 : Fin 8)].trim = 24 ∧ (after (.selectSource 2 0) t).sc.target = .source 0 := by decide +kernel

/-- R100: 192 is brought down to 191, and only bit 0 of the flag counts. -/
theorem test_set_volume :
    (after (.setVolume 1 192 2) ringed).ru.master = 191 ∧ (after (.setVolume 1 192 2) ringed).ru.mute = false := by
  decide +kernel

/-- R91: SW takes PRESENT, another speaker does not. -/
theorem test_config_speaker :
    (after (.configSpeaker 1 3 3 301 0 1 7 0xFFFFFFFF) ringed).ru.speakers[(3 : Fin 8)]
        = { presence := .present, distance := 300, trim := 0, lane := 1, slot := 7, pair := none }
      ∧ (after (.configSpeaker 1 2 3 0 0 0 0 0) ringed).ru.speakers[(2 : Fin 8)].presence = .absent := by
  decide +kernel

/-- R98, R126: a crossover, and masks with a bit above bit 7. -/
theorem test_crossover_and_lanes :
    (after (.setCrossover 1 120) ringed).ru.crossover = 120
      ∧ (after (.setLanes 1 0x0F 0x100) ringed).ou.lanes[(0 : Fin 2)].pending = 0
      ∧ (after (.setLanes 1 0x0F 0xF0) ringed).ou.lanes[(1 : Fin 2)].pending = 0xF0 := by decide +kernel

/-- R138: the record link set to MAIN with its status words, the first one lowest. -/
theorem test_config_record_out :
    let k := (after (.configRecordOut 1 1 0 0x11111111 2 3 0x44444444) ringed).ou.link
    k.source = .main ∧ k.pending = 0x44444444000000030000000211111111 ∧ k.pendingFlag = true := by decide +kernel

/-- R147: a recovery begins, and AMP_EN goes high. -/
theorem test_amp_recover :
    let t := after (.ampRecover 1 2)
      { ringed with ap := ringed.ap.set 2 { ringed.ap[2] with st := .shutdown, counter := 256 } }
    t.ap[(2 : Fin 4)].st = .recovering ∧ t.pins.ampEn[(2 : Fin 4)] = true := by decide +kernel

/-- R158, R160: the tuner configured, and a tune begun. -/
theorem test_tuner_commands :
    (after (.configTuner 1 0x22 200 10) ringed).tc.fmStep = 200
      ∧ (after (.tune 1 0 9915) ringed).tc.channel = some 9910
      ∧ (after (.tune 1 0 9915) ringed).tc.st = .tuning := by decide +kernel

/-- R163, R166: a seek down from the low edge wraps to the high one; STOP_SEEK marks it. -/
theorem test_seek_commands :
    let t := after (.seek 1 1 50) (ringed.mapTc fun tc => { tc with st := .tuned, band := some .fm, channel := some 8750 })
    t.tc.channel = some 10800 ∧ (t.tc.seek.map SeekContext.wrapped) = some true
      ∧ ((after (.stopSeek 2) t).tc.seek.map SeekContext.stopPending) = some true := by decide +kernel

/-- R168 to R170: the read of entry 63, and the lock over its line. -/
theorem test_preset_commands :
    let preset : Range := { base := 0x40000, size := 1024 }
    let s := (ringed.mapPu fun pu => { pu with requests := [], regions := { pu.regions with preset := some preset } })
      |>.mapTc fun tc => { tc with st := .tuned }
    (after (.recallPreset 1 63) s).pu.queues.control.items = [readOf .presetRead 0x403F0 4 none]
      ∧ (after (.storePreset 1 63) s).pu.requests.head?
          = some { owner := .presetStore, startLine := 0x403E0 / 32, lines := 1 } := by decide +kernel

/-- R185, R188: a slot configured, and a FULL slot released. -/
theorem test_capture_commands :
    let full : CaptureSlot := { CaptureSlot.reset with group := some { words := [1, 2, 3, 4], stamp := 0 } }
    (after (.configCapture 1 7 1 15 15 1 0) ringed).sd.slots[(7 : Fin 8)].enable = true
      ∧ (after (.releaseCapture 1 3) (ringed.mapSd fun sd => { sd with slots := sd.slots.set 3 full })).sd.slots[(3 : Fin 8)].group
          = none := by decide +kernel

/-- R196: UNKNOWN_COMMAND moves the head. -/
theorem test_unknown_command : (after (.unknownCommand 1 0x15) ringed).cu.head = 1 := by decide +kernel

/-- R11: the second window of a class in a row locks. -/
theorem test_window_locks :
    (after .rateWindowEnd
      (ringed.mapPort 2 fun p => { p with lock := .measuring, candidate := some (.cls .k44), windowCount := 42 })).ports[(2 : Fin 6)].lock
      = .locked .k44 := by decide +kernel

/-- R9, R12: a frame on a LOCKED port, its first slot 0xFFFFFC18.. and its second slot missing. -/
theorem test_port_frame :
    (after (.portFrame 1 (bitsOf 32 0xFFFC1800) false)
      (ringed.mapPort 1 fun p => { p with lock := .locked .k48 })).ports[(1 : Fin 6)].filling = [[-1000, 0]] := by
  decide +kernel

/-- R5, R141: a boundary of the clock's own. -/
theorem test_own_boundaries :
    let s : State := { ringed with ap := ringed.ap.set 1 { ringed.ap[1] with latch := true } }
    (after .freeRunBoundary s).clock.stamp = 1 ∧ (after .freeRunBoundary s).ap[(1 : Fin 4)].counter = 16
      ∧ (after .followTimeout s).clock.stamp = 0 := by decide +kernel

/-- R27: the hold timer of a source whose fallback is not valid, and of one whose fallback is valid. -/
theorem test_hold_expiry :
    let s := (connectedTo 1 .direct .hold).mapSc fun sc =>
      { sc with timer := { running := true, remaining := 0, suspended := false } }
    (after .holdTimerExpiry s).sc.st = .hold
      ∧ (after .holdTimerExpiry
          (s.mapSc fun sc => { sc with table := sc.table.set 1 { sc.table[1] with valid := true } })).sc.st
          = .drain := by decide +kernel

/-- R2, R125: a slot carries its speaker's sample in its first 24 bits. -/
theorem test_lane_frame :
    (after (.laneFrame 0)
      (ringed.mapOu fun ou =>
        { ou with
          lanes := ou.lanes.set 0 { ou.lanes[0] with running := true, active := 1,
                                                     map := ou.lanes[0].map.set 0 (some 0) },
          delayed := ou.delayed.set 0 (some (List.replicate 32 (-1000))) })).ou.lanes[(0 : Fin 2)].sent.head?
      = some 0xFFFC1800 := by decide +kernel

/-- R131, R132: the first frame of a block opens with the block preamble and takes the pending record. -/
theorem test_record_frame :
    let t := after .recordFrame
      (ringed.mapOu fun ou => { ou with link := { ou.link with source := .main, pending := 5, pendingFlag := true } })
    t.ou.link.active = 5 ∧ t.ou.link.count = 1
      ∧ t.ou.link.sent.take 8 = [true, true, true, true, false, false, false, true] := by decide +kernel

/-- R156, R161: an attempt's success, its fourth failure, and a retry. -/
theorem test_link_steps :
    (after (.linkAttemptEnd true 0 0) (tunerAt .tuning (attemptOf .tuneWrite false))).tc.st = .settling
      ∧ (after .linkTimeout ((tunerAt .tuning (attemptOf .tuneWrite false)).mapTc fun tc => { tc with retry := 3 })).tc.st
          = .offline
      ∧ (after .linkRetry (tunerAt .tuning (.retry .tuneWrite))).tc.link = attemptOf .tuneWrite false := by
  decide +kernel

/-- R161, R162: the settle time ends, and the status read finds a station of quality 46. -/
theorem test_settle_and_status :
    (after .settleTimerExpiry
        ((tunerAt .settling .idle).mapTc fun tc => { tc with settle := { running := true, remaining := 0 } })).tc.link
        = attemptOf .statusRead false
      ∧ (after (.linkAttemptEnd true 0x83 58) (tunerAt .settling (attemptOf .statusRead false))).tc.quality = 46
      ∧ (after (.linkAttemptEnd true 0x83 58) (tunerAt .settling (attemptOf .statusRead false))).tc.st = .tuned := by
  decide +kernel

/-- Two blocks at positions 0 and 1: section 10.8's block and 0x10A0 with its check byte. -/
def twoBlocks : List Bool := bitsOf 24 0x5D213E ++ bitsOf 16 0x10A0
  ++ bitsOf 8 (crcOf (bitsOf 16 0x10A0) ^^^ 0x5A).toNat

/-- The Station Data Decoder on FM with these bits of history. -/
def station (bits : List Bool) (st : SyncState) : State :=
  (tunerAt .tuned .idle).mapSd fun sd =>
    { sd with history := bits, bitCount := bits.length, due := true, sync := st,
              candidate := some { firstBit := 0, position := 0 }, expected := 1, nextEnd := bits.length }

/-- R176 to R178: a window found, confirmed, and a block judged bad. -/
theorem test_windows :
    (after .searchWindow (station (bitsOf 24 0x5D213E) .search)).sd.sync = .probe
      ∧ (after .probeWindow (station twoBlocks .probe)).sd.sync = .sync
      ∧ (after .probeWindow (station twoBlocks .probe)).sd.partialGroup = [0x5D21, 0x10A0]
      ∧ (after .syncBlock (station (bitsOf 24 0x5D213E) .sync)).sd.badCount = 1 := by decide +kernel

/-- R141, R174: a fault sample, and a bit. -/
theorem test_sample_and_bit :
    (after (.ampFaultSample 3) ringed).ap[(3 : Fin 4)].latch = true
      ∧ (after (.stationDataBit true) (tunerAt .tuned .idle)).sd.history = [true]
      ∧ (after (.stationDataBit true) ringed).sd.history = [] := by decide +kernel

/-- An empty queue: the hold timer counts one period down. -/
theorem test_idle_step :
    (match step (ringed.mapSc fun sc => { sc with timer := { running := true, remaining := 5, suspended := false } }) with
      | .next t => t.sc.timer.remaining
      | _ => 0) = 4 := by decide +kernel

/-- R155: a tune write to FM 9910 sends the address with direction write, the band, and the channel's two bytes; a
status read sends the address with direction read, and acknowledges its first byte alone. -/
theorem test_attempt_bytes :
    (after (.tune 1 0 9910) ringed).tc.link
        = .attempt { request := .tuneWrite, sends := [0x22, 0x00, 0x26, 0xB6], acks := [], discard := false }
      ∧ attemptOf .statusRead false
        = .attempt { request := .statusRead, sends := [0x23], acks := [true, false], discard := false } := by
  decide +kernel

/-- R92, R118: the distance written again is taken at the next boundary, and so restarts the history. -/
theorem test_same_distance_taken :
    let s := (ringed.mapRu fun ru => { ru with speakers := ru.speakers.set 0 { ru.speakers[0] with presence := .large } })
      |>.mapDu fun du => { du with speakers := du.speakers.set 0 { du.speakers[0] with history := 64 } }
    let t := after (.configSpeaker 1 0 2 0 0 0 0 0xFFFFFFFF) s
    t.du.speakers[(0 : Fin 8)].take = true
      ∧ (after .freeRunBoundary t).du.speakers[(0 : Fin 8)].history = 0
      ∧ (after .freeRunBoundary s).du.speakers[(0 : Fin 8)].history = 64 := by decide +kernel

/-- R25: after a regain at the class in force no HOLD_TIMER_EXPIRY acts. -/
theorem test_regain_stops_the_timer :
    let s := ((connectedTo 1 .direct .hold).mapPort 1 fun p =>
      { p with lock := .measuring, candidate := some (.cls .k48), windowCount := 48 }).mapSc fun sc =>
        { sc with timer := { running := true, remaining := 9, suspended := false },
                  table := sc.table.set 1 { sc.table[1] with valid := true } }
    (after .rateWindowEnd s).sc.timer.running = false
      ∧ (after .holdTimerExpiry (after .rateWindowEnd s)).sc.st = .hold
      ∧ (after .holdTimerExpiry s).sc.st = .drain := by decide +kernel

/-- R58, R200: in RESTART's quiesce a completed block that finds the store busy is a drop. -/
theorem test_drop_in_a_quiesce :
    let job : StoreJob :=
      { frames := [], source := 0, port := 1, cls := .k48, format := .encoded, channels := 2, stamp := 0, disc := false,
        drops := 0, slotAddr := 0x80000 }
    let s := (((connectedTo 1 .hosted .playing).mapPu fun pu =>
      { pu with regions := { pu.regions with input := some { base := 0x80000, size := 8192 } } }).mapPort 1 fun p =>
        { p with lock := .locked .k48, filling := List.replicate 31 [0, 0] }).mapRe fun re => { re with store := some job }
    (after (.portFrame 1 [] false) (s.mapCu fun cu => { cu with quiesce := true })).re.dropped = 1 := by decide +kernel

/-- R14, R200: RESTART takes the tuner from TUNED, and IN4's mark is cleared. -/
theorem test_restart_clears_the_mark :
    let s := ((busyWith 0x04 .restart (tunerAt .tuned .idle)).mapPort 4 fun p => { p with mark := true }).mapPu fun pu =>
      { pu with requests := [] }
    (after .restartQuiesced (s.mapCu fun cu =>
      { cu with quiesce := true, status := { cu.status with writing := false } })).ports[(4 : Fin 6)].mark = false := by
  decide +kernel

/-! ## Witnesses: a state and operands that meet the hypotheses of each obligation, clause by clause -/

theorem ringed_ready : ringed.ready := ⟨rfl, rfl⟩

theorem ringed_room : ringed.eventRoom := ⟨rfl, rfl, rfl, rfl, by decide⟩

/-- A state whose memory port carries this. -/
def porting (p : MemPort) : State := ringed.mapPu fun pu => { pu with port := p }

/-- A state whose memory port carries this part transfer. -/
def carrying (t : Transfer) (s : State) : State := s.mapPu fun pu => { pu with port := .part t }

/-- A state whose processor port has this at its head. -/
def heading (tx : ProcTx) (c : HeadCondition) : State :=
  ringed.mapPu fun pu => { pu with proc := { head := some (tx, c), behind := [], answers := [] } }

/-- A one-beat transaction. -/
def oneBeat (write : Bool) (line : BitVec 23) (off : BitVec 3) : ProcTx :=
  { write := write, line := line, beats := [{ off := off, be := 0xF, data := 5 }] }

/-- A write of the words 0x8C and 0x90: the first is guarded (R35), the second is not. -/
def mixedWrite : ProcTx :=
  { write := true, line := 4, beats := [{ off := 3, be := 0xF, data := 5 }, { off := 4, be := 0xF, data := 6 }] }

/-- A state with one transfer in each of these queues. -/
def queued (r i c : Bool) (s : State) : State :=
  let q := fun b : Bool => TransferQueue.mk (if b then [readOf .presetRead 0 4 none] else []) []
  s.mapPu fun pu => { pu with queues := { render := q r, input := q i, control := q c } }

/-- A state that holds this lock. -/
def locking (l : Lock) (s : State) : State := s.mapPu fun pu => { pu with locks := [l] }

/-- A state whose one lock request is this. -/
def asking (l : Lock) (s : State) : State := s.mapPu fun pu => { pu with requests := [l] }

/-- The lock of the status block with CB = 0. -/
def statusLine6 : Lock := { owner := .statusWrite, startLine := 6, lines := 2 }

/-- RESTART quiesces the part. -/
def quiescing (s : State) : State := s.mapCu fun cu => { cu with quiesce := true }

theorem witness_StepRunsFrontCommand :
    ({ State.reset with pending := [.lockGrant] } : State).pending = .lockGrant :: [] := rfl

theorem witness_IdleStepPassesOnePeriod :
    ringed.pending = [] ∧ ringed.resetLow = false ∧ heldReset.pending = [] ∧ heldReset.resetLow = true := by decide

theorem witness_ResetLowHoldsTheUnits : heldReset.resetLow = true := rfl

theorem witness_StepKeepsPinsFollowing : ringed.pinsFollow ∧ ∃ t, step ringed = .next t := ⟨by rfl, _, rfl⟩

theorem witness_StepKeepsImageCurrent : ringed.imageCurrent ∧ ∃ t, step ringed = .next t :=
  ⟨fun _ => by decide +kernel, _, rfl⟩

/-- Two locks side by side, a full CONTROL queue, and the slice and the event list at their tops. -/
def fullPath : State :=
  (ringed.mapPu fun pu =>
    { pu with
      locks := [statusLine6, { owner := .textWrite, startLine := 16, lines := 3 }], sliceH := 64, runCount := 64,
      queues := { pu.queues with
        control := { items := List.replicate 16 (readOf .presetRead 0 4 none), waiting := [] } } }).mapCu fun cu =>
    { cu with pendingEvents := List.replicate 32 (eventNow ringed .delayLate 0 0 0) }

theorem witness_StepKeepsPathSound : fullPath.pathSound ∧ ∃ t, step fullPath = .next t :=
  ⟨⟨⟨by decide, by decide⟩, fun q => by cases q <;> decide, by unfold State.arbiterInRange; decide,
    by unfold State.eventsFit; decide⟩, _, rfl⟩

/-- A pair in RECOVERING at 256, one at 255, and the render's values at their tops. -/
def topLevels : State :=
  { ringed with
    ap := #v[{ Pair.reset with st := .recovering, counter := 256 }, { Pair.reset with st := .derate, counter := 255 },
             { Pair.reset with st := .shutdown, counter := 256 }, Pair.reset],
    ru := { RenderUnit.reset with
      master := 191, crossover := 120,
      speakers := RenderUnit.reset.speakers.set 0 { Speaker.reset with distance := 300, trim := 24 } } }

theorem witness_StepKeepsPairsAndLevelsInRange :
    topLevels.pairsSound ∧ topLevels.levelsInRange ∧ ∃ t, step topLevels = .next t :=
  ⟨by unfold State.pairsSound Pair.sound; decide, by unfold State.levelsInRange; decide, _, rfl⟩

theorem witness_DecodeOfEncodeIsTheCommand :
    (Instr.releaseCapture 0xFFFF 7).wellFormed = true
      ∧ encodeCommand (.releaseCapture 0xFFFF 7) = some [0xFFFF0014, 7] := by decide

theorem witness_FetchedRecordRunsAsItsCommand :
    let s := porting (.part (readOf .commandFetch 0x02000000 8 none))
    s.resetLow = false ∧ s.pu.port = .part (readOf .commandFetch 0x02000000 8 none)
      ∧ (readOf .commandFetch 0x02000000 8 none).requester = .commandFetch ∧ s.cu.fetchDiscard = false := by decide

theorem witness_SettingCommandsWriteTheirValues :
    ringed.ready ∧ ringed.eventRoom ∧ State.reset.ready ∧ State.reset.cu.enabled = false
      ∧ (120 : Word).toNat = 120 ∧ (121 : Word).toNat ≠ 120 :=
  ⟨ringed_ready, ringed_room, ⟨rfl, rfl⟩, rfl, by decide⟩

/-- A LATCHED fault record, with or without a write of it in flight. -/
def faulted (inFlight : Bool) : State :=
  (ringed.mapPu fun pu => { pu with faultRec := some { kind := .ringGeometry, addr := 16, stamp := 0 } }).mapCu fun cu =>
    { cu with faultWriter := { inFlight := inFlight, again := false } }

theorem witness_ClearFaultEmptiesRecord :
    (ringed.ready ∧ ringed.pu.faultRec = none)
      ∧ ((faulted false).ready ∧ (faulted false).pu.faultRec.isSome = true ∧ (faulted false).eventRoom
          ∧ (faulted false).cu.faultWriter.inFlight = false ∧ (faulted false).cu.quiesce = false)
      ∧ ((faulted true).ready ∧ (faulted true).pu.faultRec.isSome = true ∧ (faulted true).cu.faultWriter.inFlight = true)
      ∧ (quiescing (faulted false)).ready ∧ (quiescing (faulted false)).pu.faultRec.isSome = true
      ∧ (quiescing (faulted false)).cu.faultWriter.inFlight = false ∧ (quiescing (faulted false)).cu.quiesce = true :=
  ⟨⟨ringed_ready, rfl⟩, ⟨⟨rfl, rfl⟩, rfl, ⟨rfl, rfl, rfl, rfl, by decide⟩, rfl, rfl⟩, ⟨⟨rfl, rfl⟩, rfl, rfl⟩,
    ⟨rfl, rfl⟩, rfl, rfl, rfl⟩

theorem witness_SourceCommandsSetTableAndTarget :
    ringed.ready ∧ ringed.sc.connected ≠ some 7 ∧ ringed.sc.target ≠ .source 7 ∧ (7 : BitVec 16).toNat = (7 : Fin 8).val
      ∧ (5 : BitVec 16).toNat = (5 : Fin 6).val ∧ pathOf (2 : BitVec 16).toNat = some .auto
      ∧ preferenceOf (4 : Word).toNat = some .auto ∧ (0xFFFFFFFF : Word) = 0xFFFFFFFF
      ∧ (7 : Word).toNat = (7 : Fin 8).val := ⟨ringed_ready, by decide⟩

theorem witness_SourceCommandsSetTableAndTarget_selected :
    let chosen := (connectedTo 1 .direct .playing).mapCu fun cu => { cu with exec := .idle }
    chosen.ready ∧ ((0 : Word).toNat = (0 : Fin 8).val ∧ chosen.sc.table[(0 : Fin 8)].valid = true)
      ∧ ringed.ready ∧ (0xFFFFFFFF : Word) = 0xFFFFFFFF :=
  ⟨⟨rfl, rfl⟩, by decide, ringed_ready, rfl⟩

/-- Source 0 plays, and speaker 7 is LARGE in lane 1 slot 7, with this distance and this dip. -/
def placed (distance : Nat) (dip : Dip) : State :=
  (connectedTo 1 .direct .playing).mapRu fun ru =>
    { ru with
      speakers := ru.speakers.set 7
        { presence := .large, distance := distance, trim := 0, lane := 1, slot := 7, pair := some 3 },
      levels := ru.levels.set 7 { ru.levels[7] with dip := dip } }

theorem witness_ConfigSpeakerWritesEntry :
    ringed.ready ∧ (3 : Word).toNat = (3 : Fin 8).val ∧ presenceOf (3 : Word).toNat = some .present
      ∧ (7 : Word).toNat = (7 : Fin 8).val ∧ presenceOf (2 : Word).toNat = some .large ∧ Presence.large ≠ .present
      ∧ (1 : Word).toNat = (1 : Fin 2).val ∧ (3 : Word).toNat = (3 : Fin 4).val
      ∧ (∀ j : Fin 8, j ≠ 7 → ringed.ru.speakers[j].presence ≠ .absent →
          ¬ (ringed.ru.speakers[j].lane = 1 ∧ ringed.ru.speakers[j].slot = 7))
      ∧ (placed 57 .none).sc.connected.isSome = true ∧ (placed 57 .none).ru.speakers[(7 : Fin 8)].presence ≠ .absent
      ∧ (placed 57 .none).ru.speakers[(7 : Fin 8)].distance ≠ min 300 (58 : Word).toNat
      ∧ (placed 300 .down).ru.speakers[(7 : Fin 8)].distance = min 300 (301 : Word).toNat
      ∧ (placed 300 .down).ru.levels[(7 : Fin 8)].dip = .down ∧ (placed 300 .down).cu.exec = .idle :=
  ⟨ringed_ready, by decide⟩

theorem witness_OutputCommandsSetMasksAndLink :
    ringed.ready ∧ (255 : Word).toNat < 256 ∧ ¬ (256 : Word).toNat < 256 ∧ (0 : Word).toNat = 0
      ∧ (2 : Word).toNat = 2 ∧ (5 : Word).toNat = (5 : Fin 6).val := ⟨ringed_ready, by decide⟩

theorem witness_AmpRecoverBeginsRecovery :
    topLevels.ready ∧ topLevels.eventRoom ∧ (2 : Word).toNat = (2 : Fin 4).val
      ∧ topLevels.ap[(2 : Fin 4)].st = .shutdown := ⟨⟨rfl, rfl⟩, ⟨rfl, rfl, rfl, rfl, by decide⟩, by decide⟩

/-- A seek upwards under way. -/
def seeking (stopPending : Bool) : State :=
  (tunerAt .seeking .idle).mapTc fun tc =>
    { tc with seek := some { up := true, threshold := 50, start := 9000, wrapped := false, stopPending := stopPending,
                             returning := false } }

theorem witness_TunerCommandsSetValuesAndStop :
    ringed.ready ∧ ringed.tc.st = .untuned ∧ (127 : Word).toNat ≤ 127 ∧ (200 : Word).toNat = 200
      ∧ (10 : Word).toNat = 10
      ∧ (seeking true).ready ∧ (seeking false).ready ∧ (seeking false).tc.st = .seeking :=
  ⟨ringed_ready, by decide, by decide, by decide, by decide, ⟨rfl, rfl⟩, ⟨rfl, rfl⟩, rfl⟩

/-- Capture slot 7 is FULL. -/
def captured : State :=
  ringed.mapSd fun sd =>
    { sd with slots := sd.slots.set 7 { CaptureSlot.reset with group := some { words := [1, 2, 3, 4], stamp := 0 } } }

theorem witness_CaptureCommandsSetSlots :
    (ringed.ready ∧ (7 : Word).toNat = (7 : Fin 8).val ∧ (15 : Word).toNat ≤ 15 ∧ (1 : Word).toNat ≤ 1)
      ∧ (8 ≤ (8 : Word).toNat) ∧ ringed.sd.slots[(7 : Fin 8)].group = none
      ∧ captured.ready ∧ captured.sd.slots[(7 : Fin 8)].group.isSome = true :=
  ⟨⟨ringed_ready, by decide⟩, by decide, by decide, ⟨rfl, rfl⟩, by decide⟩

theorem witness_RefusedCommandsChangeNothing :
    ringed.ready ∧ 8 ≤ (8 : BitVec 16).toNat ∧ (connectedTo 1 .direct .playing).sc.connected = some 0
      ∧ (connectedTo 1 .direct .playing).ready ∧ 6 ≤ (6 : BitVec 16).toNat ∧ ringed.sc.table[(7 : Fin 8)].valid = false
      ∧ 4 ≤ (4 : Word).toNat ∧ ringed.ap[(3 : Fin 4)].st ≠ .shutdown ∧ 127 < (128 : Word).toNat
      ∧ (tunerAt .settling .idle).ready ∧ (tunerAt .settling .idle).tc.st = .settling ∧ ringed.tc.channel = none
      ∧ (seeking false).ready ∧ (seeking false).tc.channel.isSome = true ∧ 64 ≤ (64 : Word).toNat
      ∧ ringed.pu.regions.preset = none ∧ (63 : Word).toNat < 64 ∧ 15 < (16 : Word).toNat :=
  ⟨ringed_ready, by decide, by decide, ⟨rfl, rfl⟩, by decide, by decide, by decide, by decide, by decide, ⟨rfl, rfl⟩,
    by decide, by decide, ⟨rfl, rfl⟩, by decide⟩

theorem witness_RefusedCommandsChangeNothing_overlap :
    (placed 57 .none).cu.exec = .idle ∧ (placed 57 .none).resetLow = false
      ∧ presenceOf (1 : Word).toNat = some .small ∧ (6 : Fin 8) ≠ 3 ∧ (7 : Fin 8) ≠ 6
      ∧ (placed 57 .none).ru.speakers[(7 : Fin 8)].presence ≠ .absent
      ∧ (placed 57 .none).ru.speakers[(7 : Fin 8)].lane = 1 ∧ (placed 57 .none).ru.speakers[(7 : Fin 8)].slot = 7
      ∧ 3 ≤ (3 : Word).toNat ∧ 6 ≤ (6 : Word).toNat ∧ knownKind 0x15 = false ∧ knownKind 0 = false := by decide

/-- The PRESET region at 0x40000. -/
def withPreset (s : State) : State :=
  s.mapPu fun pu => { pu with regions := { pu.regions with preset := some { base := 0x40000, size := 1024 } } }

theorem witness_SetRegionChangesEntryThenDrains :
    ringed.ready ∧ (6 : Word).toNat = (6 : Fin 7).val ∧ (0 : Word).getLsbD 0 = false ∧ (1 : Word).getLsbD 0 = true
      ∧ ringed.sc.connected = none ∧ (0x0FFFF000 : Word).toNat % 4096 = 0 ∧ (0x0FFFF000 : Word).toNat + 1024 ≤ 2 ^ 28
      ∧ (0x0FF80000 : Word).toNat + 2048 * 256 ≤ 2 ^ 28 ∧ (256 : Word).toNat ∈ [4, 8, 16, 32, 64, 128, 256]
      ∧ (connectedTo 1 .direct .playing).sc.path = .direct
      ∧ ∀ (m : Fin 7) (w : Range), m ≠ 6 → ringed.pu.regions.role m = some w →
          0x0FFFF000 + 1024 ≤ w.base ∨ w.base + w.size ≤ 0x0FFFF000 :=
  ⟨ringed_ready, by decide, by decide, by decide, by decide, by decide, by decide, by decide, by decide, rfl,
    fun m w _ h => by
    fin_cases m <;> simp [Regions.role, ringed, State.reset, State.afterReset, PathUnit.reset] at h <;> subst h <;>
      decide⟩

/-- A SET_REGION of PRESET that waits for a transfer to the old range. -/
def draining : State :=
  let x : Transfer := { readOf .presetRead 0x40000 4 none with draining := true }
  (busyWith 0x01 (.drain 6) ringed).mapPu fun pu =>
    { pu with queues := { pu.queues with control := { items := [x], waiting := [] } } }

theorem witness_SetRegionChangesEntryThenDrains_drained :
    let s := busyWith 0x01 (.drain 3) ringed
    let b : Busy := { tag := 7, kind := 0x01, index := 0, counts := true, work := .drain 3 }
    s.resetLow = false ∧ s.cu.exec = .busy b ∧ regionDrained s 3 = true ∧ s.cu.enabled = true
      ∧ draining.resetLow = false ∧ regionDrained draining 6 = false := by decide +kernel

theorem witness_SetRegionRefusals :
    ringed.ready ∧ (2 : Word).toNat < 3 ∧ 6 < (7 : Word).toNat
      ∧ (connectedTo 1 .hosted .playing).ready ∧ (connectedTo 1 .hosted .playing).sc.path = .hosted
      ∧ (connectedTo 1 .hosted .playing).sc.connected.isSome = true ∧ (5 : Word).toNat ∉ [4, 8, 16, 32, 64, 128, 256]
      ∧ (connectedTo 1 .direct .playing).ready ∧ (connectedTo 1 .direct .playing).sc.path = .direct
      ∧ (0x1001 : Word).toNat % 4096 ≠ 0 ∧ 2 ^ 28 < (0x0FFE1000 : Word).toNat + 131072 :=
  ⟨ringed_ready, by decide, by decide, ⟨rfl, rfl⟩, by decide, by decide, by decide, ⟨rfl, rfl⟩, rfl, by decide, by decide⟩

theorem witness_SetRegionRefusals_overlap (n : Fin 7) (h : 3 ≤ n.val) :
    (∃ (m : Fin 7) (w : Range), m ≠ n ∧ ringed.pu.regions.role m = some w
      ∧ (0x02001000 : Word).toNat < w.base + w.size
      ∧ w.base < (0x02001000 : Word).toNat + (if n = 5 then 131072 else if n = 6 then 1024 else 2048 * (4 : Word).toNat))
      ∧ ringed.sc.connected = none ∧ (4 : Word).toNat ∈ [4, 8, 16, 32, 64, 128, 256]
      ∧ (0x02001000 : Word).toNat % 4096 = 0 :=
  ⟨⟨2, { base := 0x02001000, size := 1024 }, by omega, rfl, by decide, by revert n; decide⟩, rfl, by decide, by decide⟩

theorem witness_RestartQuiescesThenRestores :
    let s := (busyWith 0x04 .restart ringed).mapCu fun cu =>
      { cu with quiesce := true, status := { cu.status with writing := false } }
    let quiet := s.mapPu fun pu => { pu with requests := [] }
    ringed.ready ∧ quiet.resetLow = false ∧ partQuiet quiet = true ∧ quiet.cu.enabled = true
      ∧ quiet.cu.evWrite = none ∧ quiet.cu.pendingEvents.length < 32 ∧ eventRingFull quiet = false
      ∧ partQuiet s = false :=
  ⟨ringed_ready, by decide +kernel⟩

theorem witness_TuneBeginsTune :
    ringed.ready ∧ ringed.cu.quiesce = false ∧ bandOf (1 : Word).toNat = some .am ∧ ringed.eventRoom
      ∧ (tunerAt .tuning .idle).ready ∧ (tunerAt .tuning .idle).tc.st = .tuning ∧ (seeking false).ready :=
  ⟨ringed_ready, rfl, rfl, ringed_room, ⟨rfl, rfl⟩, rfl, ⟨rfl, rfl⟩⟩

theorem witness_SeekBeginsFirstStep :
    let s := tunerAt .tuned .idle
    s.ready ∧ s.cu.quiesce = false ∧ (1 : Word).toNat ≤ 1 ∧ s.tc.band = some .fm ∧ s.tc.channel = some 9910
      ∧ s.tc.st ≠ .seeking ∧ (tunerAt .untuned .idle).tc.st ≠ .tuned ∧ s.eventRoom
      ∧ (tunerAt .tuning .idle).tc.st ≠ .seeking ∧ (tunerAt .tuning .idle).eventRoom :=
  ⟨⟨rfl, rfl⟩, rfl, by decide, rfl, rfl, by decide, by decide, ⟨rfl, rfl, rfl, rfl, by decide⟩, by decide,
    ⟨rfl, rfl, rfl, rfl, by decide⟩⟩

theorem witness_PresetCommandsReachMemoryAndRecall :
    let s := updateStatus (withPreset (tunerAt .tuned .idle))
    s.ready ∧ (63 : Word).toNat = (63 : Fin 64).val ∧ s.pu.regions.preset = some { base := 0x40000, size := 1024 }
      ∧ s.imageCurrent ∧ s.tc.st = .tuned :=
  ⟨⟨by decide +kernel, by decide +kernel⟩, by decide, by decide +kernel, fun _ => by decide +kernel, by decide +kernel⟩

theorem witness_PresetCommandsReachMemoryAndRecall_read :
    let s := carrying (readOf .presetRead 0 4 none) (busyWith 0x11 (.recall 63) ringed)
    s.resetLow = false ∧ (∃ b, s.cu.exec = .busy b ∧ b.work = .recall 63 ∧ b.counts = true) ∧ s.cu.quiesce = false
      ∧ s.pu.port = .part (readOf .presetRead 0 4 none) ∧ (0 : Word).getLsbD 0 = false
      ∧ (0x201 : Word).getLsbD 0 = true ∧ 2 ≤ (byteOf 0x201 1).toNat
      ∧ (0x26B60101 : Word).getLsbD 0 = true ∧ bandOf (byteOf 0x26B60101 1).toNat = some .am :=
  ⟨rfl, ⟨_, rfl, rfl, rfl⟩, rfl, rfl, by decide⟩

theorem witness_HardResetClearsThenSetsValues : heldReset.resetLow = true := rfl

theorem witness_ProcessorTransactionIsJudged :
    let s := locking statusLine6 ringed
    (heading (oneBeat true 6 0) .waiting).pu.proc.head.isSome = true
      ∧ (heldReset.pu.proc.head = none ∧ heldReset.resetLow = true)
      ∧ (s.pu.proc.head = none ∧ s.resetLow = false ∧ ∃ l ∈ s.pu.locks, l.startLine ≤ 7 ∧ 7 < l.startLine + l.lines)
      ∧ (∀ l ∈ ringed.pu.locks, False) ∧ allGuarded ringed (oneBeat true 6 0) = true
      ∧ allGuarded ringed (oneBeat true 5 0) = false ∧ ringed.pu.faultRec = none := by decide

theorem witness_BeatsAreClassified :
    let b : Beat := { off := 7, be := 8, data := 0 }
    b.be ≠ 0 ∧ (oneBeat true 18 7).write = true ∧ 32 * (18 : BitVec 23).toNat + 4 * b.off.toNat = 0x25C
      ∧ 32 * (127 : BitVec 23).toNat + 4 * b.off.toNat = 0xFFC
      ∧ ∃ v, ringed.pu.regions.event = some v ∧ v.base ≤ 0x02001000 ∧ 0x02001000 < v.base + v.size :=
  ⟨by decide, rfl, by decide, by decide, _, rfl, by decide, by decide⟩

theorem witness_ArbiterGrantsInOrder :
    let waiting := heading (oneBeat false 3 0) .waiting
    let guarded := heading (oneBeat true 6 0) .waiting
    let mixed := heading mixedWrite .waiting
    (porting (.processor (oneBeat false 3 0))).pu.port ≠ .free
      ∧ (queued true true true (heading (oneBeat true 6 0) (.held .inputStore))).pu.queues.input.items ≠ []
      ∧ (waiting.pu.port = .free ∧ waiting.pu.proc.head = some (oneBeat false 3 0, .waiting))
      ∧ (queued true true true waiting).pu.runCount < (queued true true true waiting).pu.sliceH
      ∧ (allGuarded guarded (oneBeat true 6 0) = true ∧ guarded.pu.proc.behind = [])
      ∧ (allGuarded mixed mixedWrite = false ∧ mixed.pu.faultRec = none
          ∧ mixedWrite.beats.find? (fun b => decide (beatAction mixed mixedWrite b = .guard))
              = some { off := 3, be := 0xF, data := 5 }
          ∧ ∀ x ∈ mixedWrite.beats, beatAction mixed mixedWrite x ≠ .tap)
      ∧ (∀ b ∈ (oneBeat false 3 0).beats, beatAction waiting (oneBeat false 3 0) b = .forward)
      ∧ (queued true true true ringed).pu.queues.render.items ≠ []
      ∧ (queued false true true ringed).pu.queues.render.items = []
      ∧ (queued false false true ringed).pu.queues.input.items = []
      ∧ (queued false false true ringed).pu.queues.control.items ≠ [] ∧ ringed.pu.proc.head = none := by decide

theorem witness_GrantedAnchorWriteActsAsItsRow :
    let s := heading (oneBeat true 1 7) .waiting
    s.resetLow = false ∧ s.pu.port = .free
      ∧ s.pu.proc.head = some ({ write := true, line := 1, beats := [{ off := 7, be := 0xF, data := 5 }] }, .waiting)
      ∧ (∀ q : Queue, (s.pu.queues.get q).items = []) ∧ (0xF : BitVec 4) ≠ 0
      ∧ 32 * (1 : BitVec 23).toNat + 4 * (7 : BitVec 3).toNat = s.pu.regions.control + 4 * (15 : Fin 16).val :=
  ⟨rfl, rfl, rfl, fun q => by cases q <;> rfl, by decide, by decide⟩

/-- The processor's read on the port, and this transaction behind it. -/
def following (nx : ProcTx) : State :=
  (porting (.processor (oneBeat false 3 0))).mapPu fun pu =>
    { pu with proc := { head := some (oneBeat false 3 0, .granted), behind := [nx], answers := [] } }

theorem witness_ProcessorAnswerIsPassedOn :
    let held := locking statusLine6 (following (oneBeat true 6 0))
    (following (oneBeat false 7 0)).pu.port = .processor (oneBeat false 3 0)
      ∧ (following (oneBeat false 7 0)).pu.proc.behind = [oneBeat false 7 0]
      ∧ (∀ l ∈ (following (oneBeat false 7 0)).pu.locks, False)
      ∧ allGuarded (following (oneBeat false 7 0)) (oneBeat false 7 0) = false
      ∧ (held.resetLow = false ∧ held.pu.port = .processor (oneBeat false 3 0)
          ∧ ∃ l ∈ held.pu.locks, l.startLine ≤ 6 ∧ 6 < l.startLine + l.lines ∧ (oneBeat true 6 0).write = true)
      ∧ ((following (oneBeat true 6 0)).resetLow = false ∧ (∀ l ∈ (following (oneBeat true 6 0)).pu.locks, False)
          ∧ allGuarded (following (oneBeat true 6 0)) (oneBeat true 6 0) = true
          ∧ (following (oneBeat true 6 0)).pu.faultRec = none)
      ∧ ({ following (oneBeat false 7 0) with resetLow := true } : State).resetLow = true
      ∧ (porting (.processor (oneBeat true 3 0))).pu.proc.behind = [] := by decide

theorem witness_ProcessorAnswerIsPassedOn_none : ∀ tx, ringed.pu.port ≠ .processor tx := fun _ h => by cases h

/-- The writer of an index word in these conditions. -/
def writing (w : IndexWord) (v : WordWriter) (s : State) : State :=
  s.mapCu fun cu => { cu with words := cu.words.set w.place v }

theorem witness_PartAnswerOkServesControl :
    let word := writing .eventsDropped { inFlight := true, again := true }
      (porting (.part (writeOf (.indexWord .eventsDropped) 0x54 [0] none)))
    let follows := quiescing ((writing .eventProducer { inFlight := true, again := true }
      (porting (.part (writeOf (.indexWord .eventProducer) 0x48 [0] none)))).mapCu fun cu =>
        { cu with producerFollows := true })
    let event := (porting (.part (writeOf .eventWrite 0x02001000 [0, 0, 0, 0] none))).mapCu fun cu =>
      { cu with evWrite := some { event := eventNow ringed .completion 1 0 7, stale := false } }
    (word.resetLow = false ∧ word.cu.words[IndexWord.eventsDropped.place] = { inFlight := true, again := true }
        ∧ word.cu.quiesce = false ∧ (quiescing word).cu.quiesce = true ∧ (quiescing word).cu.producerFollows = false)
      ∧ (follows.cu.words[IndexWord.eventProducer.place] = { inFlight := true, again := true }
          ∧ follows.cu.quiesce = true ∧ follows.cu.producerFollows = true)
      ∧ (event.cu.evWrite.isSome = true ∧ event.cu.pendingEvents = []
          ∧ event.cu.words[(2 : Fin 6)].inFlight = false
          ∧ (writing .eventProducer { inFlight := true, again := false } event).cu.words[(2 : Fin 6)].inFlight = true)
      ∧ (faulted true).cu.faultWriter.again = false
      ∧ (porting (.orphan (readOf .presetRead 0 4 none))).resetLow = false ∧ ringed.pu.port = .free := by decide

/-- The wanted text, a copy of which is being written. -/
def writingText : StationText := { version := false, chars := [0x41] }

theorem witness_PartAnswerOkServesControl_locked :
    let last := writeOf (.statusLine true) 0xC0 (List.replicate 8 0) (some .statusWrite)
    let status := updateStatus (locking statusLine6 (porting (.part last)))
    let text := locking { owner := .textWrite, startLine := 16, lines := 3 }
      (carrying (writeOf (.textLine true) 0x200 (List.replicate 8 0) (some .textWrite))
        (updateStatus (ringed.mapSd fun sd => { sd with writer := some writingText })))
    (status.pu.proc.head = none ∧ status.imageCurrent ∧ status.cu.quiesce = false)
      ∧ (text.sd.writer = some writingText ∧ text.sd.wanted ≠ writingText ∧ text.pu.proc.head = none
          ∧ text.imageCurrent) :=
  ⟨⟨rfl, fun _ => by decide +kernel, by decide +kernel⟩, by decide +kernel, by decide +kernel, by decide +kernel,
    fun _ => by decide +kernel⟩

theorem witness_PartAnswerOkServesControl_commands :
    let cut := (porting (.part (readOf .commandFetch 0x02000000 8 none))).mapCu fun cu => { cu with fetchDiscard := true }
    let more := cut.mapCu fun cu => { cu with tail := 1 }
    let read := carrying (readOf .storeRead 0x403E0 8 (some .presetStore))
      (busyWith 0x12 (.store 63) (withPreset (tunerAt .tuned .idle)))
    let write := carrying (writeOf .storeWrite 0x403E0 (List.replicate 8 0) (some .presetStore))
      (busyWith 0x12 (.store 63) (withPreset (tunerAt .tuned .idle)))
    (cut.cu.fetchDiscard = true ∧ cut.cu.tail = cut.cu.head)
      ∧ (more.cu.fetchDiscard = true ∧ more.cu.enabled = true ∧ more.cu.quiesce = false ∧ more.cu.tail ≠ more.cu.head)
      ∧ (read.cu.exec = .busy { tag := 7, kind := 0x12, index := 0, counts := true, work := .store 63 }
          ∧ read.pu.regions.preset = some { base := 0x40000, size := 1024 } ∧ read.tc.band = some .fm
          ∧ read.tc.channel = some 9910 ∧ read.sd.identity = none)
      ∧ write.cu.exec = read.cu.exec ∧ write.pu.proc.head = none := by decide

/-- A fetch of a slot with these reads still to come. -/
def slotJob (left : Nat) (discard : Bool) : FetchJob :=
  { slotAddr := 0x90000, channels := 2, disc := false, last := false, words := [], left := left, discard := discard }

theorem witness_PartAnswerOkServesAudio :
    let fetching := fun (r : Requester) (j : FetchJob) =>
      (porting (.part (readOf r 0x90000 8 (some .outputFetch)))).mapRe fun re => { re with fetch := .fetching j }
    let header := fetching .fetchHeader (slotJob 0 false)
    (header.resetLow = false ∧ header.pu.port = .part (readOf .fetchHeader 0x90000 8 (some .outputFetch))
        ∧ header.re.fetch = .fetching (slotJob 0 false) ∧ header.pu.proc.head = none ∧ header.pu.faultRec = none)
      ∧ ((byteOf 2 0).toNat = 2 ∧ (byteOf 6 0).toNat = 6 ∧ (byteOf 8 0).toNat = 8 ∧ (byteOf 7 0).toNat = 7)
      ∧ (1 < (slotJob 2 false).left ∧ (slotJob 1 false).left = 1 ∧ (slotJob 1 true).discard = true)
      ∧ (fetching .fetchSamples (slotJob 1 true)).cu.outProd = (fetching .fetchSamples (slotJob 1 true)).re.outCons := by
  decide

theorem witness_PartAnswerOkServesAudio_delay :
    let read := carrying (readOf (.delayRead 7 0 3) 0x08009C14 8 none) (ringed.mapDu fun du =>
      { du with speakers := du.speakers.set 7 { du.speakers[7] with
          prepared := some { generation := 0, frames := zeroChan, lines := [{ start := 3, status := .pending }] } } })
    read.du.speakers[(7 : Fin 8)].prepared
        = some { generation := 0, frames := zeroChan, lines := [{ start := 3, status := .pending }] }
      ∧ 3 + 8 ≤ zeroChan.length ∧ (0 : Nat) ≠ 1
      ∧ (carrying (writeOf .inputHeader 0x800 [] (some .inputStore)) ringed).pu.proc.head = none := by decide

theorem witness_PartAnswerErrorRaisesFault :
    let fetch := porting (.part (readOf .commandFetch 0x02000000 8 none))
    let header := locking { owner := .inputStore, startLine := 64, lines := 64 }
      (porting (.part (writeOf .inputHeader 0x800 (List.replicate 8 0) (some .inputStore))))
    let slot := (porting (.part (readOf .fetchHeader 0x90000 8 (some .outputFetch)))).mapRe fun re =>
      { re with fetch := .fetching (slotJob 0 false) }
    fetch.resetLow = false ∧ fetch.cu.fetchDiscard = false ∧ fetch.eventRoom ∧ header.pu.faultRec = none
      ∧ header.pu.port = .part (writeOf .inputHeader 0x800 (List.replicate 8 0) (some .inputStore))
      ∧ slot.re.fetch = .fetching (slotJob 0 false) ∧ (slotJob 0 false).discard = false
      ∧ (readOf .fetchHeader 0x90000 8 (some .outputFetch)).sequence = some .outputFetch :=
  ⟨rfl, rfl, ⟨rfl, rfl, rfl, rfl, by decide⟩, rfl, rfl, rfl, rfl, rfl⟩

theorem witness_PartAnswerErrorRaisesFault_requesters :
    let preset := carrying (readOf .presetRead 0x403F0 4 none) (busyWith 0x11 (.recall 63) ringed)
    let event := (porting (.part (writeOf .eventWrite 0x02001000 [0, 0, 0, 0] none))).mapCu fun cu =>
      { cu with evWrite := some { event := eventNow ringed .completion 1 0 7, stale := false } }
    let word := writing .inputProducer { inFlight := true, again := false }
      (porting (.part (writeOf (.indexWord .inputProducer) 0x4C [0] none)))
    (preset.cu.exec = .busy { tag := 7, kind := 0x11, index := 0, counts := true, work := .recall 63 }
        ∧ preset.pu.proc.head = none ∧ (readOf .presetRead 0x403F0 4 none).sequence = none)
      ∧ (event.cu.evWrite.isSome = true ∧ event.cu.enabled = true ∧ event.cu.quiesce = false
          ∧ event.cu.pendingEvents = [] ∧ eventRingFull event = false)
      ∧ word.cu.words[IndexWord.inputProducer.place] = { inFlight := true, again := false }
      ∧ (ringed.du.speakers[(7 : Fin 8)].prepared
          = some { generation := 0, frames := zeroChan, lines := [] }) := by decide

theorem witness_LockAndQueueAdmitOldest :
    let waiting := heading (oneBeat false 7 0) .waiting
    let blocked := locking statusLine6 ringed
    let item := readOf .presetRead 0 4 none
    let room : TransferQueue := { items := List.replicate 15 item, waiting := [item] }
    (waiting.resetLow = false ∧ waiting.pu.requests = [statusLine6] ∧ waiting.pu.locks.length < 4
        ∧ statusLine6.startLine ≤ 7 ∧ 7 < statusLine6.startLine + statusLine6.lines)
      ∧ waiting.imageCurrent ∧ blocked.imageCurrent ∧ blocked.pu.requests = [statusLine6] ∧ blocked.pu.locks = [statusLine6]
      ∧ room.waiting = [item] ∧ room.items.length < 16 :=
  ⟨by decide, fun _ => by decide +kernel, fun _ => by decide +kernel, rfl, rfl, rfl, by decide⟩

theorem witness_LockAndQueueAdmitOldest_sequences :
    let slot := asking { owner := .outputFetch, startLine := 0x4800, lines := 64 }
      (updateStatus (ringed.mapRe fun re => { re with fetch := .fetching (slotJob 0 false) }))
    let store := asking { owner := .presetStore, startLine := 0x201F, lines := 1 }
      (updateStatus (busyWith 0x12 (.store 63) (withPreset (tunerAt .tuned .idle))))
    let text := asking { owner := .textWrite, startLine := 16, lines := 3 }
      (updateStatus (ringed.mapSd fun sd => { sd with writer := some writingText }))
    (slot.imageCurrent ∧ slot.re.fetch = .fetching (slotJob 0 false) ∧ slot.pu.requests.length = 1)
      ∧ (store.imageCurrent
          ∧ store.cu.exec = .busy { tag := 7, kind := 0x12, index := 0, counts := true, work := .store 63 }
          ∧ store.pu.regions.preset = some { base := 0x40000, size := 1024 })
      ∧ (text.imageCurrent ∧ text.sd.writer = some writingText ∧ text.pu.locks = []) :=
  ⟨⟨fun _ => by decide +kernel, by decide +kernel, by decide +kernel⟩,
    ⟨fun _ => by decide +kernel, by decide +kernel, by decide +kernel⟩, fun _ => by decide +kernel, by decide +kernel,
    by decide +kernel⟩

theorem witness_LockAndQueueAdmitOldest_store :
    let job : StoreJob :=
      { frames := List.replicate 32 [0, 0], source := 0, port := 1, cls := .k48, format := .encoded, channels := 2,
        stamp := 0, disc := true, drops := 0, slotAddr := 0x80000 }
    let s := asking { owner := .inputStore, startLine := 0x4000, lines := 64 }
      (updateStatus (ringed.mapRe fun re => { re with store := some job }))
    s.resetLow = false ∧ s.imageCurrent ∧ s.re.store = some job ∧ s.pu.locks.length < 4 :=
  ⟨by decide +kernel, fun _ => by decide +kernel, by decide +kernel, by decide +kernel⟩

theorem witness_RingControlEnablesAndDisables :
    let r := State.reset.pu.regions
    let s := State.reset.mapPu fun pu => { pu with shadow := #v[0x02000000, 4, 0x02001000, 6, 0, 16, 0xFFFFFFC0, 0, 0, 0] }
    s.resetLow = false ∧ s.cu.enabled = false ∧ ringed.cu.enabled = true ∧ ringed.resetLow = false
      ∧ geometryStatus r { cmdBase := 0x02000000, cmdLog := 4, evtBase := 0x02001000, evtLog := 6 } = .ok
      ∧ geometryStatus r { cmdBase := 0x02000000, cmdLog := 11, evtBase := 0x02001000, evtLog := 6 } = .cmdSize
      ∧ geometryStatus r { cmdBase := 0x02000000, cmdLog := 10, evtBase := 0x02001000, evtLog := 5 } = .evtSize
      ∧ geometryStatus r { cmdBase := 0x02000010, cmdLog := 4, evtBase := 0x02001000, evtLog := 6 } = .cmdBase
      ∧ geometryStatus r { cmdBase := 0x02000000, cmdLog := 4, evtBase := 0x0FFFFFF0, evtLog := 6 } = .evtBase
      ∧ geometryStatus r { cmdBase := 0xFE0, cmdLog := 4, evtBase := 0x02001000, evtLog := 6 } = .cmdOverlap
      ∧ geometryStatus r { cmdBase := 0x02000000, cmdLog := 4, evtBase := 0x020001F0, evtLog := 6 } = .evtOverlap := by
  decide +kernel

theorem witness_IndexWordsAreChecked :
    let hosted := (connectedTo 1 .hosted .playing).mapPu fun pu =>
      { pu with regions := { pu.regions with output := some { base := 0x90000, size := 8192 } } }
    (ringed.resetLow = false ∧ ((0xF : BitVec 4) ≠ 0) ∧ commandSlots ringed = 16 ∧ eventSlots ringed = 64
      ∧ ((16 : Index) - ringed.cu.head).toNat ≤ 16 ∧ 16 < ((17 : Index) - ringed.cu.head).toNat
      ∧ (ringed.cu.evProd - (0xFFC0 : Index)).toNat ≤ 64 ∧ 64 < (ringed.cu.evProd - (0xFFBF : Index)).toNat)
      ∧ ringed.pu.regions.input = none ∧ hosted.sc.path = .hosted
      ∧ hosted.sc.connected.isSome = true ∧ hosted.re.fetch = .free ∧ hosted.cu.quiesce = false
      ∧ ((4 : Index) - hosted.re.outCons).toNat ≤ 8192 / 2048 ∧ 8192 / 2048 < ((5 : Index) - hosted.re.outCons).toNat := by
  decide

theorem witness_AnchorWordWriteActsByOffset :
    ringed.resetLow = false ∧ (8 : BitVec 4) ≠ 0 ∧ ringed.cu.enabled = true ∧ State.reset.cu.enabled = false
      ∧ (9 : Fin 10).val = (9 : Fin 16).val ∧ 10 ≤ (10 : Fin 16).val ∧ (3 : Fin 16).val < 4 := by decide

theorem witness_RateWindowMovesLocks :
    ringed.resetLow = false ∧ ringed.ports[(5 : Fin 6)].lock = .noSignal ∧ classify 100 = .cls .k96
      ∧ classify 101 = .out := by decide

theorem witness_PortFrameFillsBlock :
    let full := (connectedTo 1 .direct .playing).mapPort 1 fun p =>
      { p with lock := .locked .k48, filling := List.replicate 31 [0, 0] }
    full.resetLow = false ∧ full.ports[(1 : Fin 6)].lock = .locked full.clock.cls
      ∧ full.ports[(1 : Fin 6)].filling.length = 31 ∧ full.sc.connected = some 0
      ∧ full.sc.table[(0 : Fin 8)].port = 1 ∧ full.ports[(1 : Fin 6)].format = .pcm ∧ full.sc.st = .playing
      ∧ full.ou.link.source ≠ .port 1 ∧ ∀ c, ringed.ports[(1 : Fin 6)].lock ≠ .locked c :=
  ⟨rfl, rfl, rfl, rfl, rfl, rfl, rfl, by decide, fun _ h => by cases h⟩

/-- Source 0 plays this port on the HOSTED path over an INPUT ring of four slots; the port is LOCKED at this class, one
frame short of a block. -/
def storing (port : Fin 6) (st : SwitchState) (c : RateClass) : State :=
  ((connectedTo port .hosted st).mapPort port fun p =>
    { p with lock := .locked c, filling := List.replicate 31 [0, 0], mark := true }).mapPu fun pu =>
      { pu with regions := { pu.regions with input := some { base := 0x80000, size := 8192 } } }

/-- A store under way. -/
def storeJob : StoreJob :=
  { frames := [], source := 0, port := 1, cls := .k48, format := .pcm, channels := 2, stamp := 0, disc := false,
    drops := 0, slotAddr := 0x80000 }

theorem witness_PortFrameFillsBlock_ring :
    let s := storing 1 .playing .k48
    let with' := fun (producer : Index) (job : Option StoreJob) =>
      s.mapRe fun re => { re with inProd := producer, store := job }
    (s.resetLow = false ∧ s.ports[(1 : Fin 6)].lock = .locked .k48 ∧ s.ports[(1 : Fin 6)].filling.length = 31
        ∧ s.sc.connected = some 0 ∧ s.sc.table[(0 : Fin 8)].port = 1 ∧ s.sc.path = .hosted
        ∧ s.pu.regions.input = some { base := 0x80000, size := 8192 } ∧ s.sc.connectRequest = false
        ∧ s.ports[(1 : Fin 6)].change = false ∧ s.sc.st ≠ .drain ∧ s.clock.cls = .k48)
      ∧ (s.re.store = none ∧ (s.re.inProd - s.cu.inCons).toNat ≠ 8192 / 2048 ∧ s.cu.quiesce = false)
      ∧ (quiescing s).cu.quiesce = true
      ∧ ((with' 4 none).re.inProd - s.cu.inCons).toNat = 8192 / 2048 ∧ ((with' 3 none).re.inProd - s.cu.inCons).toNat = 3
      ∧ (with' 0 (some storeJob)).re.store ≠ none ∧ s.re.dropRun = false ∧ s.eventRoom
      ∧ (storing 4 .playing .k48).tc.st ≠ .tuned :=
  ⟨⟨rfl, rfl, rfl, rfl, rfl, rfl, rfl, rfl, rfl, by decide, rfl⟩, ⟨rfl, by decide, rfl⟩, rfl, by decide, by decide,
    by decide, rfl, ⟨rfl, rfl, rfl, rfl, by decide⟩, by decide⟩

theorem witness_PortFrameFillsBlock_class :
    let s := storing 1 .acquire .k44
    let radio := (storing 4 .acquire .k96).mapTc fun tc => { tc with st := .tuned }
    (s.resetLow = false ∧ s.ports[(1 : Fin 6)].lock = .locked .k44 ∧ RateClass.k44 ≠ s.clock.cls
        ∧ s.ports[(1 : Fin 6)].filling.length = 31 ∧ s.sc.connected = some 0 ∧ s.sc.table[(0 : Fin 8)].port = 1
        ∧ s.sc.st = .acquire ∧ s.sc.connectRequest = false ∧ s.ports[(1 : Fin 6)].change = false)
      ∧ (radio.ports[(4 : Fin 6)].lock = .locked .k96 ∧ radio.tc.st = .tuned ∧ radio.ports[(4 : Fin 6)].mark = true) :=
  ⟨⟨rfl, rfl, by decide, rfl, rfl, rfl, rfl, rfl, rfl⟩, rfl, rfl, rfl⟩

theorem witness_OwnBoundariesAdvanceTheBlock :
    let following := (connectedTo 1 .direct .playing).mapClock fun c => { c with following := true }
    ringed.resetLow = false ∧ ringed.clock.following = false ∧ following.clock.following = true
      ∧ following.clock.own = false ∧ following.sc.st = .playing := by decide

/-- A HOSTED source plays, its ring of four slots has a slot published, and the buffer and the ladder stand so. -/
def hostedAt (b : FetchBuffer) (l : Ladder) : State :=
  ((connectedTo 1 .hosted .playing).mapPu fun pu =>
    { pu with regions := { pu.regions with output := some { base := 0x90000, size := 8192 } } }).mapRe (fun re =>
      { re with fetch := b, ladder := l }) |>.mapCu fun cu => { cu with outProd := 1 }

theorem witness_RingSlotsMoveTheLadder :
    let block : HostedBlock := { HostedBlock.silence 6 with last := true }
    let s := hostedAt (.complete block) .flowing
    s.boundaryBy .freeRunBoundary ∧ s.eventRoom ∧ s.sc.st = .playing ∧ s.sc.connected = some 0 ∧ s.sc.path = .hosted
      ∧ s.pu.regions.output = some { base := 0x90000, size := 8192 } ∧ s.cu.quiesce = false
      ∧ s.cu.words[(4 : Fin 6)] = { inFlight := false, again := false }
      ∧ (s.re.fetch = .complete block ∧ block.last = true ∧ s.cu.outProd ≠ s.re.outCons)
      ∧ (hostedAt .failed .flowing).re.ladder = .flowing ∧ (hostedAt .free .repeated).re.ladder = .repeated
      ∧ (hostedAt .bad .starved).re.fetch = .bad ∧ (hostedAt (.fetching (slotJob 0 false)) .drained).boundaryBy .freeRunBoundary :=
  ⟨⟨rfl, rfl, .inl rfl⟩, ⟨rfl, rfl, rfl, rfl, by decide⟩, rfl, rfl, rfl, rfl, rfl, rfl, ⟨rfl, rfl, by decide⟩, rfl, rfl,
    rfl, ⟨rfl, rfl, .inl rfl⟩⟩

/-- The DELAY region set, and speaker 7 with a prepared block of this status, its delay line in use. -/
def delayed (st : ReadStatus) (s : State) : State :=
  (s.mapPu fun pu => { pu with regions := { pu.regions with delay := some { base := 0x08000000, size := 131072 } } }).mapDu
    fun du =>
      { du with
        lines := true, writeIndex := 4064, fill := 4096,
        speakers := du.speakers.set 7 { du.speakers[7] with
          history := 4096, inUse := 57,
          prepared := some { generation := 0, frames := zeroChan, lines := [{ start := 0, status := st }] } } }

theorem witness_DelayUnitWorksAtTheBoundary :
    let s := fun st => delayed st (placed 57 .none)
    (s .ok).boundaryBy .freeRunBoundary ∧ (s .ok).sc.st = .playing ∧ (s .ok).ru.speakers[(7 : Fin 8)].presence ≠ .absent
      ∧ (s .ok).ru.speakers[(0 : Fin 8)].presence = .absent ∧ (s .ok).cu.quiesce = false
      ∧ (s .ok).pu.regions.delay = some { base := 0x08000000, size := 131072 }
      ∧ (s .pending).boundaryBy .freeRunBoundary ∧ (s .error).boundaryBy .freeRunBoundary ∧ (s .abandoned).boundaryBy .freeRunBoundary
      ∧ ringed.pu.regions.delay = none ∧ (4095 : Nat) < 4096 ∧ (3840 : Nat) ≤ 3840 :=
  ⟨⟨rfl, rfl, .inl rfl⟩, rfl, by decide, rfl, rfl, rfl, ⟨rfl, rfl, .inl rfl⟩, ⟨rfl, rfl, .inl rfl⟩, ⟨rfl, rfl, .inl rfl⟩, rfl, by decide,
    by decide⟩

theorem witness_DelayUnitWorksAtTheBoundary_input :
    let block := HostedBlock.silence 6
    let fed := fun (s : State) => s.mapSc fun sc => { sc with feed := true }
    let hosted := fed (hostedAt (.complete block) .flowing)
    (hosted.boundaryBy .freeRunBoundary ∧ hosted.sc.st = .playing ∧ hosted.sc.feed = true ∧ hosted.sc.connected = some 0
        ∧ hosted.sc.path = .hosted ∧ hosted.pu.regions.output ≠ none ∧ hosted.re.fetch = .complete block
        ∧ hosted.cu.outProd ≠ hosted.re.outCons)
      ∧ (fed (placed 57 .none)).sc.path = .direct ∧ (placed 57 .none).sc.feed = false
      ∧ (placed 57 .none).ru.speakers[(7 : Fin 8)].presence ≠ .absent :=
  ⟨⟨⟨rfl, rfl, .inl rfl⟩, rfl, rfl, rfl, rfl, by decide, rfl, by decide⟩, rfl, rfl, by decide⟩

theorem witness_LevelsMoveAtTheBoundary :
    let s := placed 57 .down
    let derated : State := { placed 57 .up with ap := ringed.ap.set 3 { Pair.reset with st := .derate, counter := 130 } }
    s.boundaryBy .freeRunBoundary ∧ s.sc.st = .playing ∧ s.ru.levels[(7 : Fin 8)].dip = .down
      ∧ s.ru.speakers[(7 : Fin 8)].presence ≠ .absent ∧ s.ru.speakers[(0 : Fin 8)].presence = .absent
      ∧ derated.boundaryBy .freeRunBoundary ∧ (after .freeRunBoundary derated).ap[(3 : Fin 4)].st = .derate
      ∧ (connectedTo 0 .direct .drain).sc.st = .drain ∧ (connectedTo 0 .direct .drain).boundaryBy .freeRunBoundary :=
  ⟨⟨rfl, rfl, .inl rfl⟩, rfl, rfl, by decide, rfl, ⟨rfl, rfl, .inl rfl⟩, by decide +kernel, rfl, ⟨rfl, rfl, .inl rfl⟩⟩

/-- A block of 32 loud frames. -/
def loudBlock : RenderBlock :=
  { chans := Vector.replicate 8 (List.replicate 32 8000000), lfe := List.replicate 32 0,
    marks := Vector.replicate 8 false }

/-- The low-pass of a speaker after each frame of the loud block, at 48k and 80 Hz. -/
def lowOf : Nat → Int
  | 0 => 0
  | n + 1 => lowOf n + (8000000 - lowOf n) * crossoverAlpha .k48 80 / 32768

theorem witness_FoldAndBassFollowThePresence :
    (∀ i : Fin 8, loudBlock.chans[i].length = 32) ∧ loudBlock.lfe.length = 32
      ∧ ∀ i : Fin 8, lowOf 0 = ringed.ru.lp[i] ∧ ∀ j : Fin 32,
          lowOf (j.val + 1) = lowOf j.val + (loudBlock.chans[i].getD j.val 0 - lowOf j.val)
            * crossoverAlpha ringed.clock.cls ringed.ru.crossover / 32768 :=
  ⟨by decide, by decide, fun i => ⟨by revert i; decide, fun j => by
    have h : loudBlock.chans[i].getD j.val 0 = 8000000 := by revert i j; decide
    rw [h]; rfl⟩⟩

theorem witness_FoldAndBassFollowThePresence_decode :
    let surround := (connectedTo 1 .hosted .playing).mapRu fun ru =>
      { ru with speakers := ru.speakers.set 5 { ru.speakers[5] with presence := .small } }
    let mode := fun (s : State) (n : Nat) => (decodeBlock true (HostedBlock.silence n) s).2.ru.lastMode
    (HostedBlock.silence 2).frames.length = 32 ∧ (HostedBlock.silence 6).frames.length = 32
      ∧ mode ringed 2 = .stereo ∧ mode (connectedTo 1 .hosted .playing) 8 = .downmix
      ∧ mode surround 2 = .matrix ∧ mode surround 6 = .multi ∧ surround.ru.lastMode ≠ .matrix := by decide

/-- Source 0 plays port 1 LOCKED at the class in force, with this format and this state. -/
def settledIn (st : SwitchState) (f : Format) (cause : Option BlockCause) : State :=
  ((connectedTo 1 .direct st).mapPort 1 fun p => { p with lock := .locked .k48, format := f }).mapSc fun sc =>
    { sc with cause := cause }

theorem witness_SwitchActsAtTheBoundary :
    let s := settledIn .acquire .pcm none
    s.boundaryBy .freeRunBoundary ∧ s.eventRoom ∧ s.sc.st = .acquire ∧ s.sc.connectRequest = false ∧ s.sc.connected = some 0
      ∧ s.ports[(1 : Fin 6)].lock = .locked s.clock.cls ∧ s.ports[(1 : Fin 6)].format = .pcm
      ∧ (settledIn .acquire .encoded none).ports[(1 : Fin 6)].format ≠ .pcm
      ∧ (∀ i : Fin 8, (after .freeRunBoundary s).ru.levels[i].applied = targetAt false s (after .freeRunBoundary s) i)
      ∧ (settledIn .blocked .pcm (some .format)).sc.cause = some .format ∧ ringed.sc.st = .idle
      ∧ (settledIn .blocked .pcm (some .region)).sc.cause ≠ some .format
      ∧ (settledIn .hold .pcm none).clock.following = false ∧ (settledIn .playRamp .pcm none).boundaryBy .freeRunBoundary
      ∧ (connectedTo 1 .direct .acquire).ports[(1 : Fin 6)].lock = .noSignal :=
  ⟨⟨rfl, rfl, .inl rfl⟩, ⟨rfl, rfl, rfl, rfl, by decide⟩, rfl, rfl, rfl, rfl, rfl, by decide, by decide +kernel, rfl, rfl,
    by decide, rfl, ⟨rfl, rfl, .inl rfl⟩, rfl⟩

theorem witness_SwitchActsAtTheBoundary_hold :
    let s := (settledIn .hold .pcm none).mapClock fun c => { c with following := true, own := true }
    let loud := (placed 57 .none).mapRu fun ru => { ru with levels := ru.levels.set 7 { ru.levels[7] with applied := 0 } }
    s.boundaryBy .freeRunBoundary ∧ s.clock.following = true ∧ s.sc.st = .hold
      ∧ (after .freeRunBoundary (loud.mapSc fun sc => { sc with st := .drain })).ru.levels[(7 : Fin 8)].applied ≠ 192 :=
  ⟨⟨rfl, rfl, .inr rfl⟩, rfl, rfl, by decide +kernel⟩

theorem witness_ConnectTakesTheTarget :
    let requested := (settledIn .acquire .pcm none).mapSc fun sc =>
      { sc with connectRequest := true, target := .source 0 }
    let toNone := requested.mapSc fun sc => { sc with target := .none }
    let drained := (settledIn .drain .pcm none).mapSc fun sc => { sc with target := .source 0 }
    requested.boundaryBy .freeRunBoundary ∧ requested.eventRoom ∧ requested.sc.st = .acquire ∧ requested.sc.connectRequest = true
      ∧ requested.sc.target = .source 0 ∧ (∀ j, toNone.sc.target ≠ .source j)
      ∧ drained.sc.st = .drain ∧ drained.ports[(1 : Fin 6)].lock = .locked .k48
      ∧ (∀ i : Fin 8, (after .freeRunBoundary drained).ru.levels[i].applied = 192)
      ∧ (settledIn .drain .encoded none).ports[(1 : Fin 6)].format ≠ .pcm :=
  ⟨⟨rfl, rfl, .inl rfl⟩, ⟨rfl, rfl, rfl, rfl, by decide⟩, rfl, rfl, rfl, (fun _ h => by cases h), rfl, rfl,
    by decide +kernel, by decide⟩

/-! ## Boundaries that a completion makes, or a FOLLOW_TIMEOUT -/

/-- Source 0, its path chosen so, plays port 1 live, one frame short of a block, with this format and a change of
format expected or not. -/
def completing (st : SwitchState) (path : PathChoice) (f : Format) (change : Bool) : State :=
  ((settledIn st f none).mapSc fun sc =>
    { sc with feed := true, table := sc.table.set 0 { sc.table[0] with path := path } }).mapPort 1 fun p =>
      { p with filling := List.replicate 31 [8000000, -1], change := change }

/-- The completion of port 1, its FMT line at this level. -/
def completion (fmt : Bool) : Instr := .portFrame 1 (List.replicate 48 false) fmt

/-- The clock follows a port, which may go quiet. -/
def quiet (s : State) : State := s.mapClock fun c => { c with following := true }

theorem completing_boundary (st : SwitchState) (path : PathChoice) (f : Format) (change fmt : Bool) :
    (completing st path f change).boundaryBy (completion fmt) :=
  ⟨rfl, rfl, rfl, ⟨0, rfl, rfl⟩, fun h => by cases h⟩

theorem witness_OwnBoundariesAdvanceTheBlock_completion :
    let s := completing .playing .auto .pcm false
    let radio := (storing 4 .playing .k48).mapTc fun tc => { tc with st := .tuned }
    s.boundaryBy (completion true) ∧ ¬ s.connectsAt (completion true) (after (completion true) s)
      ∧ radio.boundaryBy (.portFrame 4 [] false) :=
  ⟨completing_boundary .playing .auto .pcm false true, by unfold State.connectsAt; decide +kernel,
    rfl, rfl, rfl, ⟨0, rfl, rfl⟩, fun _ => rfl⟩

theorem witness_RingSlotsMoveTheLadder_completion :
    let s := (storing 1 .playing .k48).mapPu fun pu =>
      { pu with regions := { pu.regions with output := some { base := 0x90000, size := 8192 } } }
    s.boundaryBy (completion false) ∧ s.sc.connected = some 0 ∧ s.sc.path = .hosted
      ∧ s.pu.regions.output = some { base := 0x90000, size := 8192 } ∧ (quiet s).boundaryBy .followTimeout
      ∧ ¬ s.connectsAt (completion false) (after (completion false) s) :=
  ⟨⟨rfl, rfl, rfl, ⟨0, rfl, rfl⟩, fun h => by cases h⟩, rfl, rfl, rfl, ⟨rfl, rfl⟩,
    by unfold State.connectsAt; decide +kernel⟩

theorem witness_DelayUnitWorksAtTheBoundary_completion :
    let s := completing .playing .direct .pcm false
    let radio := (storing 4 .playing .k48).mapTc fun tc => { tc with st := .tuned }
    let unmarked := radio.mapPort 4 fun p => { p with mark := false }
    let late := delayed .pending (placed 57 .none)
    (s.boundaryBy (completion false) ∧ (after (completion false) s).sc.feed = true ∧ s.sc.path = .direct
        ∧ (∃ frames, s.offeredAt (completion false) = some frames)
        ∧ ¬ s.connectsAt (completion false) (after (completion false) s))
      ∧ (unmarked.boundaryBy (.portFrame 4 [] false) ∧ unmarked.offeredAt (.portFrame 4 [] false) = none)
      ∧ (quiet s).boundaryBy .followTimeout
      ∧ (late.eventRoom ∧ late.du.speakers[(7 : Fin 8)].late = false
          ∧ ¬ late.connectsAt .freeRunBoundary (after .freeRunBoundary late)) :=
  ⟨⟨completing_boundary .playing .direct .pcm false false, by decide +kernel, rfl, ⟨_, rfl⟩,
      by unfold State.connectsAt; decide +kernel⟩,
    ⟨⟨rfl, rfl, rfl, ⟨0, rfl, rfl⟩, fun _ => rfl⟩, by decide⟩, ⟨rfl, rfl⟩,
    ⟨rfl, rfl, rfl, rfl, by decide⟩, rfl, by unfold State.connectsAt; decide +kernel⟩

theorem witness_LevelsMoveAtTheBoundary_completion :
    let s := completing .playing .direct .pcm true
    s.boundaryBy (completion true) ∧ s.mutedAt (completion true) (after (completion true) s) = true
      ∧ s.mutedAt (completion false) (after (completion false) s) = false
      ∧ ¬ s.connectsAt (completion true) (after (completion true) s) ∧ (quiet s).boundaryBy .followTimeout :=
  ⟨completing_boundary .playing .direct .pcm true true, by decide +kernel, by decide +kernel,
    by unfold State.connectsAt; decide +kernel, ⟨rfl, rfl⟩⟩

theorem witness_SwitchActsAtTheBoundary_completion :
    let lost := completing .playRamp .direct .pcm true
    let held := completing .hold .direct .pcm false
    let ramp := completing .playRamp .auto .pcm false
    let next := after (completion false) ramp
    (lost.boundaryBy (completion true) ∧ lost.autoMoves (completion true) = false
        ∧ lost.directLost (completion true) = true ∧ lost.eventRoom)
      ∧ (held.boundaryBy (completion false) ∧ held.clock.following = false
          ∧ held.followsAt (completion false) = true)
      ∧ (ramp.boundaryBy (completion false) ∧ ramp.autoMoves (completion false) = false
          ∧ ramp.directLost (completion false) = false ∧ ramp.eventRoom
          ∧ ∀ i : Fin 8, next.ru.levels[i].applied = targetAt false ramp next i)
      ∧ (quiet ramp).boundaryBy .followTimeout :=
  ⟨⟨completing_boundary .playRamp .direct .pcm true true, by decide, by decide, ⟨rfl, rfl, rfl, rfl, by decide⟩⟩,
    ⟨completing_boundary .hold .direct .pcm false false, rfl, rfl⟩,
    ⟨completing_boundary .playRamp .auto .pcm false false, by decide, by decide,
      ⟨rfl, rfl, rfl, rfl, by decide⟩, by decide +kernel⟩, ⟨rfl, rfl⟩⟩

theorem witness_ConnectTakesTheTarget_completion :
    let asked := completing .acquire .auto .pcm true
    let drained := completing .playing .auto .pcm true
    (asked.boundaryBy (completion true) ∧ asked.sc.st = .acquire ∧ asked.sc.connectRequest = false
        ∧ asked.autoMoves (completion true) = true)
      ∧ (drained.boundaryBy (completion true) ∧ drained.drainsAt (completion true) = true
          ∧ drained.drainTarget = .source 0
          ∧ ∀ i : Fin 8, (after (completion true) drained).ru.levels[i].applied = 192)
      ∧ (quiet asked).boundaryBy .followTimeout :=
  ⟨⟨completing_boundary .acquire .auto .pcm true true, rfl, rfl, by decide⟩,
    ⟨completing_boundary .playing .auto .pcm true true, by decide, rfl, by decide +kernel⟩, ⟨rfl, rfl⟩⟩

theorem witness_LaneAndRecordFramesAreSent_boundary :
    (completing .playing .auto .pcm false).boundaryBy (completion false)
      ∧ (quiet (completing .playing .auto .pcm false)).boundaryBy .followTimeout :=
  ⟨completing_boundary .playing .auto .pcm false false, ⟨rfl, rfl⟩⟩

/-- R19, R73, R75: a live DIRECT feed renders the block that the completion offers: two channels wait in the fold. -/
theorem test_direct_feed_renders_the_completed_block :
    (after (completion false) (completing .playing .direct .pcm false)).ou.link.mainNext.head?
      = some (4000000, -1) := by decide +kernel

/-- R23, R30: SOURCE PLAYING is raised as PLAY_RAMP ends. -/
theorem test_source_playing_is_raised :
    ((after .followTimeout (quiet (completing .playRamp .auto .pcm false))).eventsOut.map Event.name).contains
      (.source .playing) = true := by decide +kernel

theorem witness_SignalLossRegainAndFormatChange :
    let lost := (settledIn .playing .pcm none).mapPort 1 fun p => { p with miss := true, windowCount := 29 }
    let back := fun n : Nat => (connectedTo 1 .direct .hold).mapPort 1 fun p =>
      { p with lock := .measuring, candidate := some (classify n), windowCount := n }
    (lost.resetLow = false ∧ lost.sc.connected = some 0 ∧ lost.ports[(1 : Fin 6)].lock = .locked .k48
        ∧ lost.ports[(1 : Fin 6)].miss = true ∧ classify 29 ≠ .cls .k48)
      ∧ (back 50).ports[(1 : Fin 6)].candidate = some (.cls .k48) ∧ (back 50).clock.cls = .k48
      ∧ (back 85).ports[(1 : Fin 6)].candidate = some (.cls .k88) ∧ (back 85).sc.st = .hold
      ∧ (settledIn .playing .pcm none).ports[(1 : Fin 6)].miss = false := by decide

theorem witness_SignalLossRegainAndFormatChange_format :
    let s := fun (st : SwitchState) => (settledIn st .pcm none).mapPort 1 fun p =>
      { p with filling := List.replicate 31 [0, 0], change := true }
    let loud := (placed 57 .none).mapRu fun ru => { ru with levels := ru.levels.set 7 { ru.levels[7] with applied := 0 } }
    let auto := (loud.mapPort 1 fun p =>
      { p with lock := .locked .k48, filling := List.replicate 31 [0, 0], change := true })
    ((s .acquire).resetLow = false ∧ (s .acquire).sc.connected = some 0 ∧ (s .acquire).sc.connectRequest = false
        ∧ (s .acquire).sc.table[(0 : Fin 8)].path = .auto ∧ (s .acquire).ports[(1 : Fin 6)].change = true
        ∧ (s .acquire).ports[(1 : Fin 6)].filling.length = 31 ∧ (s .acquire).ports[(1 : Fin 6)].format ≠ .encoded)
      ∧ (auto.sc.table[(0 : Fin 8)].path = .auto
          ∧ (after (.portFrame 1 [] true) auto).ru.levels[(7 : Fin 8)].applied ≠ 192)
      ∧ (auto.mapSc fun sc => { sc with table := sc.table.set 0 { sc.table[0] with path := .direct } }).sc.path
          = .direct := by decide +kernel

/-- Source 0 is a radio source in this state, the tuner in its own, and IN4 LOCKED at this class. -/
def radioIn (st : SwitchState) (tuner : TunerState) (link : LinkState) (c : RateClass) : State :=
  ((connectedTo 4 .direct st).mapPort 4 fun p => { p with lock := .locked c }).mapTc fun tc =>
    { tc with st := tuner, band := some .fm, channel := some 9910, link := link }

theorem witness_SignalLossRegainAndFormatChange_tuner :
    let s := radioIn .playing .tuned .idle .k48
    (s.ready ∧ s.cu.quiesce = false ∧ s.tc.st = .tuned ∧ bandOf (1 : Word).toNat = some .am ∧ (1 : Word).toNat ≤ 1
        ∧ s.tc.channel = some 9910 ∧ s.eventRoom ∧ s.sc.connected = some 0 ∧ s.sc.table[(0 : Fin 8)].port = 4)
      ∧ (ringed.mapTc fun tc => { tc with st := .tuned }).sc.connected = none
      ∧ (radioIn .acquire .tuned .idle .k48).sc.st = .acquire ∧ (radioIn .drain .tuned .idle .k48).sc.st = .drain
      ∧ (radioIn .idle .tuned .idle .k48).sc.st = .idle :=
  ⟨⟨⟨rfl, rfl⟩, rfl, rfl, by decide, by decide, rfl, ⟨rfl, rfl, rfl, rfl, by decide⟩, rfl, rfl⟩, rfl, rfl, rfl, rfl⟩

theorem witness_SignalLossRegainAndFormatChange_return :
    let read := attemptOf .statusRead false
    let s := radioIn .hold .settling read .k48
    let ctx : SeekContext :=
      { up := true, threshold := 46, start := 9000, wrapped := false, stopPending := false, returning := false }
    let sought := (radioIn .hold .seeking read .k88).mapTc fun tc => { tc with seek := some ctx }
    (s.resetLow = false ∧ s.tc.link = read ∧ s.tc.band = some .fm ∧ (0x81 : Byte).getLsbD 7 = true
        ∧ s.tc.st = .settling ∧ s.sc.connected = some 0 ∧ s.sc.table[(0 : Fin 8)].port = 4 ∧ s.sc.st = .hold
        ∧ s.ports[(4 : Fin 6)].lock = .locked s.clock.cls)
      ∧ (sought.tc.st = .seeking ∧ sought.tc.seek = some ctx
          ∧ ctx.threshold ≤ min 127 (((50 : Byte).extractLsb' 0 7).toNat - 4 * ((0x81 : Byte).extractLsb' 0 4).toNat)
          ∧ sought.ports[(4 : Fin 6)].lock = .locked .k88 ∧ RateClass.k88 ≠ sought.clock.cls)
      ∧ (radioIn .acquire .settling read .k48).sc.st ≠ .hold :=
  ⟨⟨rfl, rfl, rfl, by decide, rfl, rfl, rfl, rfl, rfl⟩, ⟨rfl, rfl, by decide, rfl, by decide⟩, by decide⟩

theorem witness_HoldExpiryFallsBack :
    let due := (connectedTo 1 .direct .hold).mapSc fun sc =>
      { sc with timer := { running := true, remaining := 0, suspended := false } }
    let valid := due.mapSc fun sc => { sc with table := sc.table.set 1 { sc.table[1] with valid := true } }
    due.resetLow = false ∧ due.sc.timer.running = true ∧ due.sc.connected = some 0
      ∧ due.sc.table[(0 : Fin 8)].fallback = some 1 ∧ due.sc.table[(1 : Fin 8)].valid = false
      ∧ valid.sc.table[(1 : Fin 8)].valid = true ∧ due.eventRoom ∧ ringed.sc.connected = none :=
  ⟨rfl, rfl, rfl, rfl, rfl, rfl, ⟨rfl, rfl, rfl, rfl, by decide⟩, rfl⟩

theorem witness_LaneAndRecordFramesAreSent :
    let lane := { Lane.reset with running := true, count := 31, active := 0x80, map := Lane.reset.map.set 7 (some 0) }
    let s := ringed.mapOu fun ou =>
      { ou with lanes := ou.lanes.set 0 lane, delayed := ou.delayed.set 0 (some zeroChan),
                link := { ou.link with source := .main } }
    s.resetLow = false ∧ s.ou.lanes[(0 : Fin 2)].running = true ∧ s.ou.lanes[(0 : Fin 2)].count < 32
      ∧ s.ou.lanes[(0 : Fin 2)].active.getLsbD 7 = true ∧ s.ou.lanes[(0 : Fin 2)].map[(7 : Fin 8)] = some 0
      ∧ s.ou.delayed[(0 : Fin 8)] = some zeroChan ∧ s.ou.lanes[(1 : Fin 2)].running = false
      ∧ s.ou.link.source ≠ .off ∧ s.ou.link.count = 0 ∧ ringed.ou.link.source = .off := by decide

/-- The record link on this source, its blocks holding one frame. -/
def recording (r : RecordSource) (count : Nat) (s : State) : State :=
  s.mapOu fun ou => { ou with link := { ou.link with
    source := r, count := count, mainBlock := [(1740828, -1000)], portBlock := [(248676, 0)], following := true } }

theorem witness_LaneAndRecordFramesAreSent_record :
    let s := recording .main 0 (connectedTo 1 .direct .playing)
    let port := recording (.port 1) 127 (storing 1 .playing .k48)
    let lost := recording (.port 1) 5
      ((settledIn .playing .pcm none).mapPort 1 fun p => { p with miss := true, windowCount := 29 })
    (s.resetLow = false ∧ s.ou.link.source = .main ∧ s.ou.link.count = 0 ∧ s.sc.st = .playing ∧ s.boundaryBy .freeRunBoundary)
      ∧ (∀ i : Fin 8, loudBlock.chans[i].length = 32)
      ∧ (port.ou.link.source = .port 1 ∧ port.ou.link.count = 127 ∧ port.ports[(1 : Fin 6)].lock = .locked .k48
          ∧ port.ports[(1 : Fin 6)].filling.length = 31)
      ∧ (lost.resetLow = false ∧ lost.ou.link.source = .port 1 ∧ lost.ports[(1 : Fin 6)].lock = .locked .k48
          ∧ lost.ports[(1 : Fin 6)].miss = true ∧ classify lost.ports[(1 : Fin 6)].windowCount ≠ .cls .k48)
      ∧ ∀ (p : Fin 6) (c : RateClass), ringed.ou.link.source = .port p → ringed.ports[p].lock ≠ .locked c :=
  ⟨⟨rfl, rfl, rfl, rfl, ⟨rfl, rfl, .inl rfl⟩⟩, by decide, ⟨rfl, rfl, rfl, rfl⟩, ⟨rfl, rfl, rfl, rfl, by decide⟩,
    fun _ _ h => by cases h⟩

theorem witness_AmpFaultsStepTheCounter :
    let fault := { Pair.reset with st := .derate, counter := 255, blockFault := true }
    let s : State := { ringed with ap := #v[fault, Pair.reset, { Pair.reset with st := .shutdown, counter := 256 }, Pair.reset] }
    s.resetLow = false ∧ s.ap[(0 : Fin 4)].st = .derate ∧ s.ap[(0 : Fin 4)].blockFault = true
      ∧ s.ap[(1 : Fin 4)].st = .normal ∧ s.ap[(1 : Fin 4)].blockFault = false ∧ s.ap[(2 : Fin 4)].st = .shutdown
      ∧ ringed.cu.enabled = true := by decide

theorem witness_AmpFaultsStepTheCounter_recovering :
    let back : Pair := { Pair.reset with st := .recovering, counter := 256 }
    let s : State := { ringed with ap := #v[{ back with recFaults := 6, blockFault := true },
      { back with recFaults := 7, blockFault := true, first := true }, { back with windowBlocks := 15, windows := 31 },
      { back with first := true }] }
    s.eventRoom ∧ (s.ap[(0 : Fin 4)].blockFault = true ∧ s.ap[(0 : Fin 4)].recFaults < 7)
      ∧ (s.ap[(1 : Fin 4)].blockFault = true ∧ 7 ≤ s.ap[(1 : Fin 4)].recFaults)
      ∧ (s.ap[(2 : Fin 4)].first = false ∧ 15 ≤ s.ap[(2 : Fin 4)].windowBlocks ∧ 31 ≤ s.ap[(2 : Fin 4)].windows)
      ∧ s.ap[(3 : Fin 4)].first = true ∧ s.ap[(3 : Fin 4)].blockFault = false :=
  ⟨⟨rfl, rfl, rfl, rfl, by decide⟩, by decide⟩

theorem witness_TuneStagesFollow :
    let write := tunerAt .tuning (attemptOf .tuneWrite false)
    let read := tunerAt .settling (attemptOf .statusRead false)
    let timed := (tunerAt .settling .idle).mapTc fun tc => { tc with settle := { running := true, remaining := 0 } }
    write.resetLow = false ∧ write.tc.link = attemptOf .tuneWrite false ∧ write.tc.band = some .fm
      ∧ read.tc.link = attemptOf .statusRead false ∧ read.tc.st = .settling ∧ read.eventRoom
      ∧ timed.tc.settle.running = true ∧ timed.cu.quiesce = false ∧ (∀ a, timed.tc.link ≠ .attempt a)
      ∧ ringed.tc.settle.running = false :=
  ⟨rfl, rfl, rfl, rfl, rfl, ⟨rfl, rfl, rfl, rfl, by decide⟩, rfl, rfl, (fun _ h => by cases h), rfl⟩

theorem witness_LinkFailureRetriesThenGoesOffline :
    let third := (tunerAt .tuning (attemptOf .tuneWrite false)).mapTc fun tc => { tc with retry := 3 }
    let stale := (tunerAt .tuning (attemptOf .tuneWrite true)).mapTc fun tc => { tc with owed := true }
    third.resetLow = false ∧ third.cu.quiesce = false ∧ third.tc.link = attemptOf .tuneWrite false ∧ 3 ≤ third.tc.retry
      ∧ third.tc.st ≠ .tuned ∧ third.eventRoom ∧ stale.tc.link = attemptOf .tuneWrite true
      ∧ (tunerAt .tuning (attemptOf .tuneWrite false)).tc.retry < 3
      ∧ (tunerAt .tuning (.retry .tuneWrite)).tc.link = .retry .tuneWrite ∧ ringed.tc.link = .idle :=
  ⟨rfl, rfl, rfl, by decide, by decide, ⟨rfl, rfl, rfl, rfl, by decide⟩, rfl, by decide, rfl, rfl⟩

theorem witness_BitsAndWindowsMoveSync :
    let found := station (bitsOf 24 0x5D213E) .search
    let probe := station twoBlocks .probe
    let lost := (station (bitsOf 24 0x5D213E) .sync).mapSd fun sd => { sd with badCount := 5 }
    (found.resetLow = false ∧ found.tc.st = .tuned ∧ found.tc.band = some .fm ∧ found.sd.due = true
        ∧ found.sd.sync = .search ∧ 24 ≤ found.sd.bitCount
        ∧ validPosition (windowFrom found.sd (found.sd.bitCount - 24)) = some 0)
      ∧ (probe.sd.candidate = some { firstBit := 0, position := 0 } ∧ probe.sd.bitCount = 0 + 48
          ∧ validPosition (windowFrom probe.sd (0 + 24)) = some probe.sd.expected)
      ∧ (lost.sd.bitCount = lost.sd.nextEnd ∧ 5 ≤ lost.sd.badCount
          ∧ validPosition (windowFrom lost.sd (lost.sd.bitCount - 24)) ≠ some lost.sd.expected)
      ∧ (tunerAt .tuned .idle).sd.due = false ∧ ¬ (ringed.tc.st = .tuned ∧ ringed.tc.band = some .fm) := by
  decide +kernel

theorem witness_SeekStepsEndOrGoOn :
    let s := (seeking false).mapTc fun tc => { tc with link := attemptOf .statusRead false }
    s.resetLow = false ∧ s.cu.quiesce = false ∧ s.tc.st = .seeking ∧ s.tc.link = attemptOf .statusRead false
      ∧ s.tc.band = some .fm ∧ s.tc.channel = some 9910 ∧ s.eventRoom
      ∧ s.tc.seek = some { up := true, threshold := 50, start := 9000, wrapped := false, stopPending := false,
                           returning := false }
      ∧ (∃ ctx, (seeking true).tc.seek = some ctx ∧ ctx.stopPending = true ∧ ctx.returning = false)
      ∧ (0x80 : Byte).getLsbD 7 = true ∧ 50 ≤ ((50 : Byte).extractLsb' 0 7).toNat
      ∧ ((49 : Byte).extractLsb' 0 7).toNat < 50 :=
  ⟨rfl, rfl, rfl, rfl, rfl, rfl, ⟨rfl, rfl, rfl, rfl, by decide⟩, rfl, ⟨_, rfl, rfl, rfl⟩, by decide, by decide,
    by decide⟩

/-- A good block of this word at position `p`, judged in SYNC with these words held. -/
def goodBlock (p : Fin 4) (w : BitVec 16) (held : List (BitVec 16)) : State :=
  (station (bitsOf 16 w.toNat ++ bitsOf 8 (crcOf (bitsOf 16 w.toNat) ^^^ positionMask p).toNat) .sync).mapSd fun sd =>
    { sd with expected := p, partialGroup := held }

theorem witness_GoodBlocksBuildGroups :
    let is := fun (s : State) (p : Fin 4) =>
      decide (s.resetLow = false ∧ s.tc.st = .tuned ∧ s.tc.band = some .fm ∧ s.sd.due = true ∧ s.sd.sync = .sync
        ∧ s.sd.bitCount = s.sd.nextEnd ∧ s.sd.expected = p
        ∧ validPosition (windowFrom s.sd (s.sd.bitCount - 24)) = some p)
    let last := goodBlock 3 0x4142 [0x5D21, 0x0400, 0]
    let other := last.mapSd fun sd =>
      { sd with identity := some 0x1111, changeCand := some 0x5D21, recalled := some { identity := 2, known := true } }
    is (goodBlock 0 0x5D21 []) 0 = true ∧ is (goodBlock 2 0 [0x5D21, 0x10A0]) 2 = true
      ∧ is (goodBlock 1 0x10A0 []) 1 = true ∧ is last 3 = true ∧ last.sd.identity = none
      ∧ is other 3 = true ∧ other.sd.identity ≠ some 0x5D21 ∧ other.sd.changeCand = some 0x5D21
      ∧ (0x0400 : BitVec 16).extractLsb' 12 4 = 0 := by decide +kernel

/-- An enabled slot that takes every group, FULL or not. -/
def openSlot (full : Bool) : CaptureSlot :=
  { CaptureSlot.reset with
    enable := true, group := if full then some { words := [1, 2, 3, 4], stamp := 0 } else none }

/-- Slots 3 and 7 take every group, and slot 3 is FULL. -/
def catching (s : State) : State :=
  s.mapSd fun sd => { sd with slots := (sd.slots.set 7 (openSlot false)).set 3 (openSlot true) }

theorem witness_GroupsFillTextAndSlots :
    let s := catching (goodBlock 3 0x4344 [0x5D21, 0x100F, 0x4142])
    let taken := (catching s).mapSd fun sd => { sd with slots := sd.slots.set 7 CaptureSlot.reset }
    (s.resetLow = false ∧ s.tc.st = .tuned ∧ s.tc.band = some .fm ∧ s.sd.due = true ∧ s.sd.sync = .sync
        ∧ s.sd.bitCount = s.sd.nextEnd ∧ s.sd.expected = 3 ∧ s.sd.partialGroup = [0x5D21, 0x100F, 0x4142]
        ∧ s.cu.quiesce = false ∧ validPosition (windowFrom s.sd (s.sd.bitCount - 24)) = some 3)
      ∧ ((0x100F : BitVec 16).extractLsb' 12 4 = 1 ∧ s.sd.writer = none ∧ s.sd.lastWritten = none)
      ∧ (s.sd.slots[(3 : Fin 8)].group.isSome = true ∧ s.sd.slots[(7 : Fin 8)].group = none
          ∧ s.sd.slots[(7 : Fin 8)].enable = true ∧ s.sd.slots[(7 : Fin 8)].varMask = false)
      ∧ (taken.sd.slots[(3 : Fin 8)].group.isSome = true ∧ taken.sd.slots[(7 : Fin 8)].enable = false) := by
  decide +kernel

theorem witness_EnvelopesGainsAndSamples :
    (4 : Int) ≤ 8388608 ∧ (0 : Int) ≤ 8388608 ∧ (32 : Int) ≤ 32 ∧ (128 : Int) + 127 < 256 ∧ (256 : Int) ≤ 256 + 0
      ∧ ((-32767 : Int) - 32767).natAbs ≤ 1024 * 64 ∧ 12 * 15 + (11 : Fin 12).val < 192
      ∧ (-8388608 : Int) ≤ -8388608 ∧ (-8388608 : Int) ≤ 8388607 := by decide

theorem witness_PlanChannelsAreNearest :
    (200 : Nat) = 200 ∧ planLow .fm 200 = 8790 ∧ planHigh .fm 200 = 10790 ∧ 8790 + 100 * planStep .fm 200 ≤ 10790
      ∧ planHigh .am 9 = 522 + 132 * planStep .am 9 ∧ planHigh .am 10 = 520 + 119 * planStep .am 10 := by decide

end Sys2Proof.Tests
end

