-- ==== Sys2Proof/Proofs/Reset.lean ====
section
/-! SUPPORT. Hard reset (R54): what the fall and the rise of RESET_N give. -/

namespace Sys2Proof.Machine

theorem exec_hardResetAssert (s : State) : exec .hardResetAssert s = .next (assertReset s) := rfl

theorem exec_hardResetRelease {s : State} (cb : BitVec 8) (h : s.resetLow = true) :
    exec (.hardResetRelease cb) s = .next (State.afterReset cb s.pu.port s.pu.proc s.pending s.freeUsed) := by
  change Host.Outcome.next (releaseReset cb s) = _
  rw [releaseReset, if_pos h]

/-- R54: the memory port once RESET_N has fallen. -/
theorem assertReset_port (s : State) :
    (assertReset s).pu.port = (match s.pu.port with
      | .part x => .orphan x
      | p => p) := by
  cases h : s.pu.port <;> simp [assertReset, drivePins, PathUnit.inReset, MemPort.cutOff, h]

theorem OutputUnit.inReset_running (ou : OutputUnit) (l : Fin 2) : ou.inReset.lanes[l].running = false := by
  simp [OutputUnit.inReset, Lane.inReset]

/-- R152: AMP_EN is low while RESET_N is. -/
theorem assertReset_ampEn (s : State) (p : Fin 4) : (assertReset s).pins.ampEn[p] = false := by
  simp [assertReset, drivePins, pinLevels]

theorem SwitchUnit.reset_table (i : Fin 8) : SwitchUnit.reset.table[i] = Source.cleared := by
  simp [SwitchUnit.reset]

theorem RenderUnit.reset_speakers (i : Fin 8) : RenderUnit.reset.speakers[i] = Speaker.reset := by
  simp [RenderUnit.reset]

theorem RenderUnit.reset_levels (i : Fin 8) : RenderUnit.reset.levels[i] = Level.reset := by
  simp [RenderUnit.reset]

theorem OutputUnit.reset_lanes (l : Fin 2) : OutputUnit.reset.lanes[l] = Lane.reset := by
  simp [OutputUnit.reset]

section
variable (cb : BitVec 8) (port : MemPort) (proc : ProcPort) (pending : List Instr) (freeUsed : Nat)

theorem afterReset_ports (p : Fin 6) : (State.afterReset cb port proc pending freeUsed).ports[p] = PortState.reset := by
  simp [State.afterReset]

theorem afterReset_ap (p : Fin 4) : (State.afterReset cb port proc pending freeUsed).ap[p] = Pair.reset := by
  simp [State.afterReset]

theorem afterReset_ampEn (p : Fin 4) : (State.afterReset cb port proc pending freeUsed).pins.ampEn[p] = true := by
  simp [State.afterReset]

theorem afterReset_shadow (n : Fin 10) : (State.afterReset cb port proc pending freeUsed).pu.shadow[n] = 0 := by
  simp [State.afterReset, PathUnit.reset]

/-- R205: the image at the rise is the one of the reset values; neither port shows in it. -/
theorem afterReset_image : (State.afterReset cb port proc pending freeUsed).cu.image
    = statusImage (State.afterReset cb port proc pending freeUsed) := by
  have atReset : resetImage = statusImage State.reset := by decide
  exact atReset
end

/-- Settles O27: each edge of RESET_N is one value of the model, and each clause reads a field of it. -/
theorem hardResetClearsThenSetsValues : Obligations.HardResetClearsThenSetsValues := by
  unfold Obligations.HardResetClearsThenSetsValues
  refine ⟨fun s => ⟨_, exec_hardResetAssert s, rfl, rfl, assertReset_port s, rfl, rfl, rfl, rfl, rfl,
    assertReset_ampEn s, OutputUnit.inReset_running s.ou, rfl, rfl, rfl⟩,
    fun s cb h => ⟨_, exec_hardResetRelease cb h, ?_⟩⟩
  refine ⟨rfl, rfl, rfl, rfl, rfl, afterReset_shadow cb _ _ _ _, rfl, rfl, rfl, rfl, rfl, rfl, rfl, rfl, rfl, rfl,
    rfl, rfl, rfl, rfl, rfl, afterReset_image cb _ _ _ _, fun p => ?_, rfl, rfl, rfl,
    fun i => congrArg Source.valid (SwitchUnit.reset_table i), rfl, rfl, rfl, rfl, rfl, rfl, rfl, rfl, rfl, rfl, rfl,
    rfl, rfl, rfl, fun i => ⟨congrArg Speaker.presence (RenderUnit.reset_speakers i),
      congrArg Level.applied (RenderUnit.reset_levels i)⟩, rfl, rfl, rfl, fun l => ?_, rfl, rfl,
    fun p => ⟨?_, ?_, afterReset_ampEn cb _ _ _ _ p⟩, rfl, rfl, rfl, rfl, rfl, rfl, rfl, rfl⟩
  · rw [afterReset_ports]; exact ⟨rfl, rfl, rfl, rfl⟩
  · have lane := OutputUnit.reset_lanes l
    exact ⟨congrArg Lane.running lane, congrArg Lane.active lane, congrArg Lane.pending lane⟩
  · rw [afterReset_ap]; rfl
  · rw [afterReset_ap]; rfl

end Sys2Proof.Machine
end

