-- ==== Sys2Proof/Proofs/UnitFrames.lean ====
section
/-! SUPPORT. What the work of each unit leaves alone: a mask of `Kept` for each unit hides what its work may change,
and one lemma per function says that the rest is unchanged. -/

namespace Sys2Proof.Machine

/-! ## The masks -/

/-- All that the Ring Engine's work leaves alone. -/
def Kept.butRe (k : Kept) : Kept := { k with re := RingEngine.reset }

/-- All that the Render Unit's work leaves alone. -/
def Kept.butRu (k : Kept) : Kept := { k with ru := RenderUnit.reset }

/-- All that the Delay Unit's work leaves alone. -/
def Kept.butDu (k : Kept) : Kept := { k with du := DelayUnit.reset }

/-- All that a change of the Switch Controller alone leaves as it is. -/
def Kept.butSc (k : Kept) : Kept := { k with sc := SwitchUnit.reset }

/-- The fault latch and the block fault of a pair, which only a boundary's first stage and a sample move (R141). -/
def Pair.faults (p : Pair) : Pair := { Pair.reset with latch := p.latch, blockFault := p.blockFault }

/-- All that the amplifier update leaves alone. -/
def Kept.butAp (k : Kept) : Kept := { k with ap := k.ap.map Pair.faults }

/-- All that ring, render and amplifier update leave alone. -/
def Kept.butAudio (k : Kept) : Kept := { k.butAp with re := RingEngine.reset, ru := RenderUnit.reset }

/-- What an output restart leaves of the record link: with source MAIN its class and its count change (R133, R137). -/
def RecordLink.butRestart (k : RecordLink) : RecordLink :=
  if k.source = .main then { k with cls := .k48, count := 0 } else k

/-- What an output restart leaves of the Output Unit: the lanes' counts change too (R128). -/
def OutputUnit.butRestart (ou : OutputUnit) : OutputUnit :=
  { ou with lanes := ou.lanes.map fun l => { l with count := 0 }, link := ou.link.butRestart }

/-- All that a connect leaves alone (R21, R29, R69, R74, R95, R112). -/
def Kept.butConnect (k : Kept) : Kept :=
  { k with
    sc := SwitchUnit.reset, re := RingEngine.reset, du := DelayUnit.reset,
    ru := { k.ru with steering := Steering.reset, heldCount := 0, lp := Vector.replicate 8 0 },
    clock := { k.clock with cls := .k48, following := false, own := false },
    ou := k.ou.butRestart }

section
variable (s : State)

@[simp] theorem butRe_mapRe (f : RingEngine → RingEngine) : (s.mapRe f).kept.butRe = s.kept.butRe := rfl
@[simp] theorem butRu_mapRu (f : RenderUnit → RenderUnit) : (s.mapRu f).kept.butRu = s.kept.butRu := rfl
@[simp] theorem butDu_mapDu (f : DelayUnit → DelayUnit) : (s.mapDu f).kept.butDu = s.kept.butDu := rfl
@[simp] theorem butSc_mapSc (f : SwitchUnit → SwitchUnit) : (s.mapSc f).kept.butSc = s.kept.butSc := rfl

@[simp] theorem butAp_mapPair (p : Fin 4) (f : Pair → Pair) (hl : ∀ q, (f q).latch = q.latch)
    (hb : ∀ q, (f q).blockFault = q.blockFault) : (s.mapPair p f).kept.butAp = s.kept.butAp := by
  have vec : (s.ap.set p (f s.ap[p])).map Pair.faults = s.ap.map Pair.faults := by
    ext1 i hi
    simp only [Vector.getElem_map, Vector.getElem_set]
    split
    · rename_i e; subst e; simp [Pair.faults, hl, hb]
    · rfl
  simp only [Kept.butAp, State.kept, State.mapPair] at *
  rw [vec]

/-- A mask that one step of a fold keeps is kept by the fold. -/
theorem mask_foldl {α : Type} (mask : Kept → Kept) {f : State → α → State}
    (hf : ∀ s a, mask (f s a).kept = mask s.kept) (l : List α) : mask (l.foldl f s).kept = mask s.kept := by
  induction l generalizing s with
  | nil => rfl
  | cons a l ih => exact (ih (f s a)).trans (hf s a)

/-! ## The Ring Engine -/

@[simp] theorem butRe_dropBlock (c : DropCause) : (dropBlock c s).kept.butRe = s.kept.butRe := by
  unfold dropBlock; dsimp only; split <;> simp

@[simp] theorem butRe_markDiscontinuity : (markDiscontinuity s).kept.butRe = s.kept.butRe := rfl

@[simp] theorem butRe_beginStore (src : Fin 8) (p : Fin 6) (c : RateClass) (f : Format) (fs : List Frame) (r : Range) :
    (beginStore src p c f fs r s).kept.butRe = s.kept.butRe := by
  simp [beginStore]

@[simp] theorem butRe_offerToStore (src : Fin 8) (p : Fin 6) (c : RateClass) (f : Format) (fs : List Frame) :
    (offerToStore src p c f fs s).kept.butRe = s.kept.butRe := by
  unfold offerToStore
  split
  · rfl
  · split_ifs <;> simp

@[simp] theorem butRe_testSlotFetch : (testSlotFetch s).kept.butRe = s.kept.butRe := by
  unfold testSlotFetch
  split
  · split <;> simp
  · rfl

@[simp] theorem butRe_handOn (b : HostedBlock) : (handOn b s).2.kept.butRe = s.kept.butRe := rfl

@[simp] theorem butRe_advanceConsumer : (advanceConsumer s).kept.butRe = s.kept.butRe := by
  simp [advanceConsumer]

@[simp] theorem butRe_ladderTaken : (ladderTaken s).kept.butRe = s.kept.butRe := by
  unfold ladderTaken; dsimp only; split <;> simp

@[simp] theorem butRe_ladderEnd : (ladderEnd s).kept.butRe = s.kept.butRe := by
  simp [ladderEnd]

@[simp] theorem butRe_ladderMiss : (ladderMiss s).2.kept.butRe = s.kept.butRe := by
  unfold ladderMiss; dsimp only; split <;> simp

@[simp] theorem butRe_takeComplete (b : HostedBlock) : (takeComplete b s).2.kept.butRe = s.kept.butRe := by
  unfold takeComplete; dsimp only; split <;> simp

@[simp] theorem butRe_takeBad : (takeBad s).2.kept.butRe = s.kept.butRe := by
  simp [takeBad]

@[simp] theorem butRe_freeWithdrawn : (freeWithdrawn s).kept.butRe = s.kept.butRe := by
  unfold freeWithdrawn; split <;> simp

@[simp] theorem butRe_consumeSlot : (consumeSlot s).2.kept.butRe = s.kept.butRe := by
  unfold consumeSlot
  split
  · simp
  · split <;> simp

/-- R66 to R70: a boundary of the Ring Engine moves nothing but the Ring Engine. -/
@[simp] theorem butRe_ringBoundary : (ringBoundary s).2.kept.butRe = s.kept.butRe := by
  unfold ringBoundary; split <;> simp

@[simp] theorem butRe_ringConnect : (ringConnect s).kept.butRe = s.kept.butRe := by
  unfold ringConnect flushOutputRing; dsimp only; split <;> simp

/-! ## The Render Unit -/

@[simp] theorem butRu_decodeBlock (live : Bool) (input : HostedBlock) :
    (decodeBlock live input s).2.kept.butRu = s.kept.butRu := by
  unfold decodeBlock resetCrossover resetSteering; dsimp only
  split <;> split_ifs <;> simp

@[simp] theorem butRu_renderDecode (o : Option OfferedBlock) (h : Option HostedBlock) :
    (renderDecode o h s).2.kept.butRu = s.kept.butRu := by
  simp [renderDecode]

@[simp] theorem butRu_bassBlock (b : RenderBlock) : (bassBlock b s).2.kept.butRu = s.kept.butRu := rfl

@[simp] theorem butRu_levelStage (b : RenderBlock) : (levelStage b s).2.kept.butRu = s.kept.butRu := rfl

/-! ## Amplifier protection -/

@[simp] theorem kept_raiseProtect (p : Fin 4) (c : ProtectCode) (d1 d2 : Nat) :
    (raiseProtect p c d1 d2 s).kept = s.kept := by
  simp [raiseProtect]

@[simp] theorem kept_raiseStateEvent (p : Fin 4) (st : PairState) (n : Nat) (c : ProtectCause) :
    (raiseStateEvent p st n c s).kept = s.kept := by
  unfold raiseStateEvent; split <;> simp

@[simp] theorem butAp_stepActive (p : Fin 4) (b : Bool) : (stepActive p b s).kept.butAp = s.kept.butAp := by
  unfold stepActive; dsimp only; split <;> simp 

@[simp] theorem butAp_recoveryFault (p : Fin 4) : (recoveryFault p s).kept.butAp = s.kept.butAp := by
  unfold recoveryFault failRecovery; dsimp only; split <;> simp 

@[simp] theorem butAp_recoveryQuiet (p : Fin 4) : (recoveryQuiet p s).kept.butAp = s.kept.butAp := by
  unfold recoveryQuiet succeedRecovery; dsimp only; split_ifs <;> simp 

@[simp] theorem butAp_stepRecovering (p : Fin 4) : (stepRecovering p s).kept.butAp = s.kept.butAp := by
  unfold stepRecovering; dsimp only; split_ifs <;> simp 

@[simp] theorem butAp_stepPair (marks : Vector Bool 8) (p : Fin 4) :
    (stepPair marks p s).kept.butAp = s.kept.butAp := by
  unfold stepPair; split <;> simp

/-- R141, R142: the update moves nothing but the pairs, and neither their latches nor their block faults. -/
@[simp] theorem butAp_ampUpdate (marks : Vector Bool 8) : (ampUpdate marks s).kept.butAp = s.kept.butAp :=
  mask_foldl _ Kept.butAp (fun s p => butAp_stepPair s marks p) _

/-! ## The Delay Unit -/

@[simp] theorem kept_dropUnplacedDelay : (dropUnplacedDelay s).kept = s.kept := rfl

@[simp] theorem butDu_mapLine (i : Fin 8) (f : DelayLine → DelayLine) :
    (mapLine i f s).kept.butDu = s.kept.butDu := rfl

@[simp] theorem butDu_mapLines (f : DelayLine → DelayLine) : (mapLines f s).kept.butDu = s.kept.butDu := rfl

@[simp] theorem butDu_abandonUnplaced : (abandonUnplaced s).kept.butDu = s.kept.butDu := by
  simp [abandonUnplaced]

@[simp] theorem butDu_noteLateness (i : Fin 8) (c : Option LateCause) :
    (noteLateness i c s).kept.butDu = s.kept.butDu := by
  unfold noteLateness beginLateRun
  split
  · simp
  · split <;> simp

@[simp] theorem butDu_handOnSpeaker (i : Fin 8) (acc : Vector (Option Chan) 8 × State) :
    (handOnSpeaker i acc).2.kept.butDu = acc.2.kept.butDu := by
  unfold handOnSpeaker; dsimp only; split <;> simp

@[simp] theorem butDu_delayHandOn : (delayHandOn s).2.kept.butDu = s.kept.butDu := by
  suffices ∀ (l : List (Fin 8)) acc,
      (l.foldl (fun acc i => handOnSpeaker i acc) acc).2.kept.butDu = acc.2.kept.butDu from
    (this _ _).trans (butDu_abandonUnplaced s)
  intro l
  induction l with
  | nil => exact fun _ => rfl
  | cons i l ih => exact fun acc => (ih _).trans (butDu_handOnSpeaker i acc)

@[simp] theorem butDu_takeDelayMode : (takeDelayMode s).kept.butDu = s.kept.butDu := by
  unfold takeDelayMode; dsimp only; split <;> simp

@[simp] theorem butDu_takeDistances (swaps : Vector Bool 8) : (takeDistances swaps s).kept.butDu = s.kept.butDu := by
  simp [takeDistances]

@[simp] theorem kept_placeWrites (base w : Nat) (i : Fin 8) (p : Option Chan) :
    (placeWrites base w i p s).kept = s.kept := by
  unfold placeWrites; split <;> simp

@[simp] theorem butDu_countWritten (blocks : Vector (Option Chan) 8) :
    (countWritten blocks s).kept.butDu = s.kept.butDu := rfl

@[simp] theorem butDu_placeReads (base w : Nat) (i : Fin 8) : (placeReads base w i s).kept.butDu = s.kept.butDu := by
  simp [placeReads]

@[simp] theorem butDu_delayLinesWork (base : Nat) (blocks : Vector (Option Chan) 8) :
    (delayLinesWork base blocks s).kept.butDu = s.kept.butDu := by
  unfold delayLinesWork; dsimp only
  rw [mask_foldl _ Kept.butDu, butDu_countWritten, mask_foldl _ Kept.butDu]
  · intro s i; rw [kept_placeWrites]
  · intro s i; split <;> simp

@[simp] theorem butDu_bypassWork (blocks : Vector (Option Chan) 8) :
    (bypassWork blocks s).kept.butDu = s.kept.butDu := rfl

/-- R113: a boundary of the Delay Unit moves nothing but the Delay Unit. -/
@[simp] theorem butDu_delayBoundary (h : HandOn) : (delayBoundary h s).2.kept.butDu = s.kept.butDu := by
  unfold delayBoundary; dsimp only; split <;> simp

end
end Sys2Proof.Machine
end

