-- ==== Sys2Proof/Proofs/SwitchFrames.lean ====
section
/-! SUPPORT. What the Switch Controller's work and a connect leave alone. -/

namespace Sys2Proof.Machine

section
variable (s : State)

@[simp] theorem raiseEvent_sc (n : EventName) (sub : BitVec 16) (d1 d2 : Word) :
    (raiseEvent n sub d1 d2 s).sc = s.sc := congrArg Kept.sc (kept_raiseEvent s n sub d1 d2)

/-! ## The Switch Controller's own changes -/

@[simp] theorem butSc_enterPlayRamp : (enterPlayRamp s).kept.butSc = s.kept.butSc := rfl

@[simp] theorem butSc_enterDrain (t : Target) : (enterDrain t s).kept.butSc = s.kept.butSc := rfl

@[simp] theorem butSc_enterBlocked (c : BlockCause) : (enterBlocked c s).kept.butSc = s.kept.butSc := by
  simp [enterBlocked]

@[simp] theorem butSc_startHoldTimer : (startHoldTimer s).kept.butSc = s.kept.butSc := by
  unfold startHoldTimer; split <;> simp

@[simp] theorem butSc_suspendTimer (b : Bool) : (suspendTimer b s).kept.butSc = s.kept.butSc := by
  unfold suspendTimer; split <;> simp

@[simp] theorem butSc_testReadiness : (testReadiness s).kept.butSc = s.kept.butSc := by
  unfold testReadiness
  split
  · rfl
  · split_ifs <;> simp

@[simp] theorem butSc_testBlocked : (testBlocked s).kept.butSc = s.kept.butSc := by
  unfold testBlocked
  split
  · rfl
  · split <;> simp

@[simp] theorem butSc_enterPlaying : (enterPlaying s).kept.butSc = s.kept.butSc := by
  simp [enterPlaying]

@[simp] theorem butSc_regain (c : RateClass) : (regain c s).kept.butSc = s.kept.butSc := by
  unfold regain stopHoldTimer
  split
  · split <;> simp
  · rfl

@[simp] theorem butSc_formatChanged (src : Source) (f : Format) :
    (formatChanged src f s).kept.butSc = s.kept.butSc := by
  unfold formatChanged
  split
  case h_7 => rfl
  all_goals split_ifs <;> simp

@[simp] theorem butSc_connectEnter : (connectEnter s).kept.butSc = s.kept.butSc := by
  unfold connectEnter; split <;> simp

/-! ## Connects -/

variable {s} in
theorem butConnect_of_butSc {t : State} (h : t.kept.butSc = s.kept.butSc) : t.kept.butConnect = s.kept.butConnect := by
  change Kept.butConnect t.kept.butSc = Kept.butConnect s.kept.butSc
  rw [h]

variable {s} in
theorem butConnect_of_butRe {t : State} (h : t.kept.butRe = s.kept.butRe) : t.kept.butConnect = s.kept.butConnect := by
  change Kept.butConnect t.kept.butRe = Kept.butConnect s.kept.butRe
  rw [h]

@[simp] theorem butConnect_mapSc (f : SwitchUnit → SwitchUnit) :
    (s.mapSc f).kept.butConnect = s.kept.butConnect := rfl

@[simp] theorem butConnect_stopFollowing : (stopFollowing s).kept.butConnect = s.kept.butConnect := rfl

@[simp] theorem butConnect_renderConnect : (renderConnect s).kept.butConnect = s.kept.butConnect := rfl

@[simp] theorem butConnect_delayConnect : (delayConnect s).kept.butConnect = s.kept.butConnect := rfl

@[simp] theorem butConnect_delayOutputRestart : (delayOutputRestart s).kept.butConnect = s.kept.butConnect := rfl

@[simp] theorem butConnect_takeTarget : (takeTarget s).kept.butConnect = s.kept.butConnect := rfl

@[simp] theorem butConnect_ringConnect : (ringConnect s).kept.butConnect = s.kept.butConnect :=
  butConnect_of_butRe (butRe_ringConnect s)

@[simp] theorem butConnect_connectEnter : (connectEnter s).kept.butConnect = s.kept.butConnect :=
  butConnect_of_butSc (butSc_connectEnter s)

variable {s} in
theorem butConnect_of_butRestart {t : State} (h : t.kept = { s.kept with ou := t.ou })
    (ou : t.ou.butRestart = s.ou.butRestart) : t.kept.butConnect = s.kept.butConnect := by
  rw [h]
  simp only [Kept.butConnect, ou]
  rfl

/-- R128: an output restart takes the lanes' counts alone. -/
@[simp] theorem butConnect_lanesOutputRestart : (lanesOutputRestart s).kept.butConnect = s.kept.butConnect := by
  refine butConnect_of_butRestart rfl ?_
  have lanes : (Vector.ofFn fun l : Fin 2 => { s.ou.lanes[l] with count := 0 }).map (fun l => { l with count := 0 })
      = s.ou.lanes.map fun l => { l with count := 0 } := by
    ext1 i hi; simp
  simp only [lanesOutputRestart, State.mapOu_ou, OutputUnit.butRestart, lanes]

/-- R133, R137: an output restart takes the link's class and count, and these only with source MAIN. -/
@[simp] theorem butConnect_linkOutputRestart : (linkOutputRestart s).kept.butConnect = s.kept.butConnect := by
  unfold linkOutputRestart
  split
  · rename_i main
    exact butConnect_of_butRestart rfl (by simp [mapLink, OutputUnit.butRestart, RecordLink.butRestart, main])
  · rfl

theorem RecordLink.butRestart_of_ne {k : RecordLink} (h : k.source ≠ .main) : k.butRestart = k := if_neg h

@[simp] theorem RecordLink.butRestart_source (k : RecordLink) : k.butRestart.source = k.source := by
  unfold RecordLink.butRestart; split <;> rfl

@[simp] theorem butConnect_outputRestart (c : RateClass) : (outputRestart c s).kept.butConnect = s.kept.butConnect := by
  simp only [outputRestart, butConnect_linkOutputRestart, butConnect_lanesOutputRestart,
    butConnect_delayOutputRestart]
  rfl

@[simp] theorem butConnect_connectClass (src : Source) : (connectClass src s).kept.butConnect = s.kept.butConnect := by
  unfold connectClass
  split
  · split <;> simp
  · rfl

@[simp] theorem butConnect_connectFollowing (b : Bool) :
    (connectFollowing b s).kept.butConnect = s.kept.butConnect := by
  unfold connectFollowing; split <;> simp

@[simp] theorem butConnect_connect : (connect s).kept.butConnect = s.kept.butConnect := by
  unfold connect connectNone connectSource; dsimp only; split <;> simp

@[simp] theorem butConnect_connectAtMute : (connectAtMute s).kept.butConnect = s.kept.butConnect := by
  unfold connectAtMute; dsimp only
  split
  · exact (butConnect_of_butSc (butSc_testReadiness _)).trans (butConnect_connect s)
  · exact butConnect_connect s

end

/-! ## The Switch Controller at a boundary -/

/-- R20, R21: the boundary's first stage makes a connect that was requested. -/
def State.connectDue (s : State) : Prop := (s.sc.st = .idle ∨ s.sc.st = .acquire) ∧ s.sc.connectRequest = true

/-- With no connect requested the stage before the render moves the Switch Controller alone. -/
theorem butSc_switchBefore {s : State} (h : ¬ s.connectDue) : (switchBefore s).kept.butSc = s.kept.butSc := by
  unfold switchBefore
  split
  · rename_i st; rw [if_neg fun k => h ⟨.inl st, k⟩]
  · rename_i st; rw [if_neg fun k => h ⟨.inr st, k⟩]; simp
  · split <;> simp
  · simp
  · rfl

@[simp] theorem butConnect_switchBefore (s : State) : (switchBefore s).kept.butConnect = s.kept.butConnect := by
  by_cases h : s.connectDue
  · obtain ⟨st, request⟩ := h
    have made : switchBefore s = connect s := by
      rcases st with st | st <;> simp [switchBefore, st, request]
    rw [made, butConnect_connect]
  · exact butConnect_of_butSc (butSc_switchBefore h)

/-- The readiness test enters DRAIN from no state. -/
theorem testReadiness_drain {s : State} (drain : (testReadiness s).sc.st = .drain) : s.sc.st = .drain := by
  unfold testReadiness enterBlocked at drain
  split at drain
  · exact drain
  · split_ifs at drain <;> simp_all [enterPlayRamp]

/-- Nor does the stage before the render. -/
theorem switchBefore_drain {s : State} (h : ¬ s.connectDue) (drain : (switchBefore s).sc.st = .drain) :
    s.sc.st = .drain := by
  unfold switchBefore at drain
  split at drain
  · rename_i st; rw [if_neg fun k => h ⟨.inl st, k⟩] at drain; exact drain
  · rename_i st; rw [if_neg fun k => h ⟨.inr st, k⟩] at drain; exact testReadiness_drain drain
  · split at drain
    · exact testReadiness_drain drain
    · exact drain
  · unfold testBlocked at drain
    split at drain
    · exact drain
    · split at drain
      · cases drain
      · exact drain
  · exact drain

/-- R21, R23: unless a DRAIN has reached mute, the stage after the level stage moves the Switch Controller alone. -/
theorem butSc_switchAfter {s : State} (before : State) (h : ¬ (s.sc.st = .drain ∧ muteReached s = true)) :
    (switchAfter before s).kept.butSc = s.kept.butSc := by
  unfold switchAfter
  split
  · rename_i st; rw [if_neg fun k => h ⟨st, k⟩]
  · split <;> simp
  · rfl

@[simp] theorem butConnect_switchAfter (before s : State) :
    (switchAfter before s).kept.butConnect = s.kept.butConnect := by
  by_cases h : s.sc.st = .drain ∧ muteReached s = true
  · obtain ⟨st, mute⟩ := h
    simp [switchAfter, st, mute]
  · exact butConnect_of_butSc (butSc_switchAfter before h)

/-- R23: in PLAYING neither stage does anything. -/
theorem switchBefore_playing {s : State} (h : s.sc.st = .playing) : switchBefore s = s := by
  simp [switchBefore, h]

theorem switchAfter_playing {s : State} (before : State) (h : s.sc.st = .playing) : switchAfter before s = s := by
  simp [switchAfter, h]

end Sys2Proof.Machine
end

