-- ==== Sys2Proof/Proofs/BoundaryStages.lean ====
section
/-! SUPPORT. The work of a block boundary (log entry 14), stage by stage: what it leaves alone, and what it gives the
lanes, the record link, the latches, the switch and the clock. -/

namespace Sys2Proof.Machine

variable (offered : Option OfferedBlock) (s : State)

/-! ## Reading a unit behind a mask -/

section
variable {a b : State}

theorem clock_of_butSc (h : a.kept.butSc = b.kept.butSc) : a.clock = b.clock := congrArg Kept.clock h
theorem clock_of_butDu (h : a.kept.butDu = b.kept.butDu) : a.clock = b.clock := congrArg Kept.clock h
theorem clock_of_butAudio (h : a.kept.butAudio = b.kept.butAudio) : a.clock = b.clock := congrArg Kept.clock h
theorem sc_of_butDu (h : a.kept.butDu = b.kept.butDu) : a.sc = b.sc := congrArg Kept.sc h
theorem sc_of_butAudio (h : a.kept.butAudio = b.kept.butAudio) : a.sc = b.sc := congrArg Kept.sc h
theorem ru_of_butDu (h : a.kept.butDu = b.kept.butDu) : a.ru = b.ru := congrArg Kept.ru h
theorem levels_of_butConnect (h : a.kept.butConnect = b.kept.butConnect) : a.ru.levels = b.ru.levels :=
  congrArg (fun k => k.ru.levels) h
end

/-! ## The stages -/

/-- The state once the level stage of a boundary has run: everything before mute reached is tested for. -/
def levelledState : State :=
  let ring := ringBoundary (switchBefore (takeLatches s))
  let decoded := renderDecode offered ring.1 ring.2
  (renderLevel decoded.1 decoded.2).2

/-- Ring, decoder, bass, amplifier update and level stage leave everything else to the switch. -/
theorem butAudio_levelledState :
    (levelledState offered s).kept.butAudio = (switchBefore (takeLatches s)).kept.butAudio := by
  have re {a b : State} (h : a.kept.butRe = b.kept.butRe) : a.kept.butAudio = b.kept.butAudio := by
    change a.kept.butRe.butAudio = b.kept.butRe.butAudio
    rw [h]
  have ru {a b : State} (h : a.kept.butRu = b.kept.butRu) : a.kept.butAudio = b.kept.butAudio := by
    change a.kept.butRu.butAudio = b.kept.butRu.butAudio
    rw [h]
  have ap {a b : State} (h : a.kept.butAp = b.kept.butAp) : a.kept.butAudio = b.kept.butAudio := by
    unfold Kept.butAudio
    rw [h]
  unfold levelledState renderLevel
  dsimp only
  rw [ru (butRu_levelStage _ _), ap (butAp_ampUpdate _ _), ru (butRu_bassBlock _ _), ru (butRu_renderDecode _ _ _),
    re (butRe_ringBoundary _)]

/-- After the level stage come the switch, the Delay Unit and the Output Unit. -/
theorem boundaryWork_eq : ∃ delayed rendered before d,
    boundaryWork offered s = outputBoundary delayed rendered d
      ∧ d.kept.butDu = (switchAfter before (levelledState offered s)).kept.butDu :=
  ⟨_, _, _, _, rfl, butDu_delayBoundary _ _⟩

/-- All that no stage between the latches and the Output Unit's changes. -/
def Kept.butBoundary (k : Kept) : Kept := { k.butAp.butConnect with ru := RenderUnit.reset }

theorem Kept.butBoundary_eq_of_butDu {a b : Kept} (h : a.butDu = b.butDu) : a.butBoundary = b.butBoundary := by
  have hides (k : Kept) : k.butBoundary = k.butDu.butBoundary := rfl
  rw [hides a, h, ← hides b]

theorem Kept.butBoundary_eq_of_butConnect {a b : Kept} (h : a.butConnect = b.butConnect) :
    a.butBoundary = b.butBoundary := by
  have hides (k : Kept) : k.butBoundary = { k.butConnect.butAp with ru := RenderUnit.reset } := rfl
  rw [hides a, h, ← hides b]

theorem Kept.butBoundary_eq_of_butAudio {a b : Kept} (h : a.butAudio = b.butAudio) :
    a.butBoundary = b.butBoundary := by
  have hides (k : Kept) : k.butBoundary = { k.butAudio.butConnect with ru := RenderUnit.reset } := rfl
  rw [hides a, h, ← hides b]

/-- The Output Unit's stage begins from a state that differs from the first only behind the mask. -/
theorem boundaryWork_frame : ∃ delayed rendered d,
    boundaryWork offered s = outputBoundary delayed rendered d
      ∧ d.kept.butBoundary = (takeLatches s).kept.butBoundary := by
  obtain ⟨delayed, rendered, before, d, work, du⟩ := boundaryWork_eq offered s
  refine ⟨delayed, rendered, d, work, ?_⟩
  calc d.kept.butBoundary
      = (switchAfter before (levelledState offered s)).kept.butBoundary := Kept.butBoundary_eq_of_butDu du
    _ = (levelledState offered s).kept.butBoundary := Kept.butBoundary_eq_of_butConnect (butConnect_switchAfter _ _)
    _ = (switchBefore (takeLatches s)).kept.butBoundary :=
      Kept.butBoundary_eq_of_butAudio (butAudio_levelledState offered s)
    _ = (takeLatches s).kept.butBoundary := Kept.butBoundary_eq_of_butConnect (butConnect_switchBefore _)

/-! ## What a boundary leaves alone -/

/-- The units outside the audio path, the stamp and the measurement window (R5, R10) stay as they are. -/
theorem boundaryWork_outside :
    (boundaryWork offered s).ports = s.ports ∧ (boundaryWork offered s).tc = s.tc
      ∧ (boundaryWork offered s).sd = s.sd ∧ (boundaryWork offered s).clock.stamp = s.clock.stamp
      ∧ (boundaryWork offered s).clock.windowPos = s.clock.windowPos := by
  obtain ⟨delayed, rendered, d, work, frame⟩ := boundaryWork_frame offered s
  rw [work]
  exact ⟨congrArg Kept.ports frame, congrArg Kept.tc frame, congrArg Kept.sd frame,
    congrArg (fun k => k.clock.stamp) frame, congrArg (fun k => k.clock.windowPos) frame⟩

/-- R141: each pair's latch becomes its block fault, and no later stage moves either. -/
theorem boundaryWork_faults (p : Fin 4) :
    (boundaryWork offered s).ap[p].blockFault = s.ap[p].latch ∧ (boundaryWork offered s).ap[p].latch = false := by
  obtain ⟨delayed, rendered, d, work, frame⟩ := boundaryWork_frame offered s
  have pair : d.ap[p].faults = ((takeLatches s).ap[p]).faults := by
    have := congrArg (fun k => k.ap[p]) frame
    simpa [Kept.butBoundary, Kept.butConnect, Kept.butAp, State.kept] using this
  have taken : (takeLatches s).ap[p] = { s.ap[p] with blockFault := s.ap[p].latch, latch := false } := by
    simp [takeLatches]
  rw [taken] at pair
  rw [work]
  exact ⟨congrArg Pair.blockFault pair, congrArg Pair.latch pair⟩

/-! ## What a boundary gives the Output Unit -/

/-- R126, R127: a lane takes its mask and begins a new block. -/
theorem boundaryWork_lane (l : Fin 2) :
    (boundaryWork offered s).ou.lanes[l].active = s.ou.lanes[l].pending
      ∧ (boundaryWork offered s).ou.lanes[l].pending = s.ou.lanes[l].pending
      ∧ (boundaryWork offered s).ou.lanes[l].count = 0
      ∧ (boundaryWork offered s).ou.lanes[l].running = decide (s.ou.lanes[l].pending ≠ 0) := by
  obtain ⟨delayed, rendered, d, work, frame⟩ := boundaryWork_frame offered s
  have mask : d.ou.lanes[l].pending = s.ou.lanes[l].pending := by
    have := congrArg (fun k => k.ou.lanes[l].pending) frame
    simpa [Kept.butBoundary, Kept.butConnect, Kept.butAp, OutputUnit.butRestart, State.kept, takeLatches] using this
  rw [work]
  simp only [Fin.getElem_fin] at mask ⊢
  simp [outputBoundary, laneBoundary, mask]

theorem RecordLink.butRestart_blocks (k : RecordLink) (block next : List (Int × Int)) :
    RecordLink.butRestart { k with mainBlock := block, mainNext := next }
      = { k.butRestart with mainBlock := block, mainNext := next } := by
  unfold RecordLink.butRestart; split <;> rfl

@[simp] theorem RecordLink.butRestart_mainNext (k : RecordLink) : k.butRestart.mainNext = k.mainNext := by
  unfold RecordLink.butRestart; split <;> rfl

/-- R134: the link sends the block rendered before, and keeps the one just rendered; the rest of it is left alone, but
for an output restart. -/
theorem boundaryWork_link :
    (boundaryWork offered s).ou.link.mainBlock = s.ou.link.mainNext
      ∧ (boundaryWork offered s).ou.link.butRestart
        = { s.ou.link.butRestart with
            mainBlock := (boundaryWork offered s).ou.link.mainBlock,
            mainNext := (boundaryWork offered s).ou.link.mainNext } := by
  obtain ⟨delayed, rendered, d, work, frame⟩ := boundaryWork_frame offered s
  have link : d.ou.link.butRestart = s.ou.link.butRestart := congrArg (fun k => k.ou.link) frame
  rw [work, ← link]
  have next : d.ou.link.mainNext = s.ou.link.mainNext := by
    simpa using congrArg RecordLink.mainNext link
  exact ⟨next, RecordLink.butRestart_blocks d.ou.link d.ou.link.mainNext rendered⟩

/-- R134, R135: off MAIN no output restart reaches the link either. -/
theorem boundaryWork_link_of_ne (h : s.ou.link.source ≠ .main) :
    (boundaryWork offered s).ou.link
      = { s.ou.link with
          mainBlock := (boundaryWork offered s).ou.link.mainBlock,
          mainNext := (boundaryWork offered s).ou.link.mainNext } := by
  obtain ⟨-, link⟩ := boundaryWork_link offered s
  generalize boundaryWork offered s = t at link ⊢
  have source : t.ou.link.source = s.ou.link.source := by
    simpa using congrArg RecordLink.source link
  have off : t.ou.link.source ≠ .main := by rwa [source]
  rwa [RecordLink.butRestart_of_ne h, RecordLink.butRestart_of_ne off] at link

/-! ## What a boundary does to the switch and the clock -/

/-- The level stage's attenuations are those the boundary leaves. -/
theorem boundaryWork_levels : (boundaryWork offered s).ru.levels = (levelledState offered s).ru.levels := by
  obtain ⟨delayed, rendered, before, d, work, du⟩ := boundaryWork_eq offered s
  have levels : d.ru.levels = (switchAfter before (levelledState offered s)).ru.levels := by rw [ru_of_butDu du]
  rw [work]
  exact levels.trans (levels_of_butConnect (butConnect_switchAfter before _))

theorem muteReached_iff {s : State} : muteReached s = true ↔ ∀ i : Fin 8, s.ru.levels[i].applied = 192 := by
  have all (i : Fin 8) : i ∈ speakerIds := by revert i; decide
  simp [muteReached, all]

/-- R29: without a connect, requested or at mute reached, the clock goes on as it was. -/
theorem boundaryWork_clock (requested : ¬ s.connectDue)
    (atMute : ¬ (s.sc.st = .drain ∧ ∀ i : Fin 8, (boundaryWork offered s).ru.levels[i].applied = 192)) :
    (boundaryWork offered s).clock = s.clock := by
  obtain ⟨delayed, rendered, before, d, work, du⟩ := boundaryWork_eq offered s
  have audio := butAudio_levelledState offered s
  have due : ¬ (takeLatches s).connectDue := requested
  have muted : ¬ ((levelledState offered s).sc.st = .drain ∧ muteReached (levelledState offered s) = true) := by
    rw [muteReached_iff, ← boundaryWork_levels, sc_of_butAudio audio]
    exact fun ⟨drain, mute⟩ => atMute ⟨switchBefore_drain (s := takeLatches s) due drain, mute⟩
  rw [work]
  calc d.clock
      = (switchAfter before (levelledState offered s)).clock := clock_of_butDu du
    _ = (levelledState offered s).clock := clock_of_butSc (butSc_switchAfter before muted)
    _ = (switchBefore (takeLatches s)).clock := clock_of_butAudio audio
    _ = (takeLatches s).clock := clock_of_butSc (butSc_switchBefore due)

/-- R19, R29: in PLAYING a boundary moves neither the switch nor the clock. -/
theorem boundaryWork_playing (h : s.sc.st = .playing) :
    (boundaryWork offered s).sc = s.sc ∧ (boundaryWork offered s).clock = s.clock := by
  obtain ⟨delayed, rendered, before, d, work, du⟩ := boundaryWork_eq offered s
  have audio := butAudio_levelledState offered s
  rw [switchBefore_playing (s := takeLatches s) h] at audio
  have sc : (levelledState offered s).sc = (takeLatches s).sc := sc_of_butAudio audio
  have clock : (levelledState offered s).clock = (takeLatches s).clock := clock_of_butAudio audio
  have playing : (levelledState offered s).sc.st = .playing := by rw [sc]; exact h
  rw [switchAfter_playing before playing] at du
  rw [work]
  exact ⟨(sc_of_butDu du).trans sc, (clock_of_butDu du).trans clock⟩

end Sys2Proof.Machine
end

