-- ==== Sys2Proof/Proofs/Completions.lean ====
section
/-! SUPPORT. A block completion (R12 to R15, R29; its order is log entry 15): the frame that completes the block, what
the completion does before the boundary's work, and every command that makes a boundary in one equation. -/

namespace Sys2Proof.Machine

/-! ## The format line -/

section
variable (s : State)

theorem kept_of_butSc {s t : State} (h : t.kept.butSc = s.kept.butSc) : t.kept = { s.kept with sc := t.sc } := by
  have hides (u : State) (x : SwitchUnit) : ({ u.kept with sc := x } : Kept) = { u.kept.butSc with sc := x } := rfl
  calc t.kept = { t.kept with sc := t.sc } := rfl
    _ = { s.kept with sc := t.sc } := by rw [hides, h, ← hides]

theorem kept_of_butRe {s t : State} (h : t.kept.butRe = s.kept.butRe) : t.kept = { s.kept with re := t.re } := by
  have hides (u : State) (x : RingEngine) : ({ u.kept with re := x } : Kept) = { u.kept.butRe with re := x } := rfl
  calc t.kept = { t.kept with re := t.re } := rfl
    _ = { s.kept with re := t.re } := by rw [hides, h, ← hides]

@[simp] theorem kept_raisePort (p : Fin 6) (c : PortCode) (d1 d2 : Nat) : (raisePort p c d1 d2 s).kept = s.kept := by
  simp [raisePort]

/-- R15: a port once its FMT line has been sampled. -/
def PortState.sampled (q : PortState) (fmt : Bool) : PortState :=
  { q with
    format := if q.change then formatOnLine fmt else q.format,
    change := !q.change && decide (q.format ≠ formatOnLine fmt) }

theorem PortState.sampled_of_eq {q : PortState} {fmt : Bool} (h : q.format = formatOnLine fmt) :
    q.sampled fmt = { q with change := false } := by
  simp [PortState.sampled, h]

theorem PortState.sampled_of_change {q : PortState} {fmt : Bool} (change : q.change = true) :
    q.sampled fmt = { q with format := formatOnLine fmt, change := false } := by
  simp [PortState.sampled, change]

theorem PortState.sampled_of_ne {q : PortState} {fmt : Bool} (h : q.format ≠ formatOnLine fmt)
    (change : ¬ q.change = true) : q.sampled fmt = { q with change := true } := by
  simp [PortState.sampled, h, change]

@[simp] theorem raisePort_sc (p : Fin 6) (c : PortCode) (d1 d2 : Nat) : (raisePort p c d1 d2 s).sc = s.sc :=
  congrArg Kept.sc (kept_raisePort s p c d1 d2)

theorem butSc_changeFormat (p : Fin 6) (f : Format) (cls : RateClass) :
    (changeFormat p f cls s).kept.butSc
      = (s.mapPort p fun q => { q with format := f, change := false }).kept.butSc := by
  unfold changeFormat; dsimp only
  split
  · split <;> simp
  · simp

/-- R20a: a format change reaches the switch only through the connected source. -/
theorem changeFormat_sc (p : Fin 6) (f : Format) (cls : RateClass) :
    (changeFormat p f cls s).sc = s.sc
      ∨ ∃ i t, s.sc.connected = some i ∧ s.sc.table[i].port = p ∧ t.sc = s.sc
          ∧ (changeFormat p f cls s).sc = (formatChanged s.sc.table[i] f t).sc := by
  unfold changeFormat; dsimp only
  split
  · rename_i src found
    split
    · rename_i port
      obtain ⟨i, connected, entry⟩ : ∃ i, s.sc.connected = some i ∧ s.sc.table[i] = src := by
        simpa [connectedSource] using found
      refine .inr ⟨i, _, connected, by rw [entry, port], ?_,
        congrArg (fun x => (formatChanged x f _).sc) entry.symm⟩
      rw [raisePort_sc]; rfl
    · simp
  · simp

/-- R15: the sample of a port's line moves that port, and the switch at most. -/
theorem kept_sampleFormat (p : Fin 6) (fmt : Bool) (cls : RateClass) :
    (sampleFormat p fmt cls s).kept
      = { s.kept with ports := s.ports.set p (s.ports[p].sampled fmt), sc := (sampleFormat p fmt cls s).sc } := by
  refine (kept_of_butSc (s := s.mapPort p fun q => q.sampled fmt) ?_).trans rfl
  have same (g : PortState → PortState) (h : s.ports[p].sampled fmt = g s.ports[p]) :
      s.mapPort p g = s.mapPort p fun q => q.sampled fmt := by
    unfold State.mapPort; rw [← h]
  unfold sampleFormat; dsimp only
  split
  · rename_i format; rw [same _ (PortState.sampled_of_eq format)]
  · rename_i format
    split
    · rename_i change; rw [butSc_changeFormat, same _ (PortState.sampled_of_change change)]
    · rename_i change; rw [same _ (PortState.sampled_of_ne format change)]

/-- R20a: the sample moves the switch only by a change of the connected source's format. -/
theorem sampleFormat_sc (p : Fin 6) (fmt : Bool) (cls : RateClass) :
    (sampleFormat p fmt cls s).sc = s.sc
      ∨ ∃ i t, s.sc.connected = some i ∧ s.sc.table[i].port = p ∧ s.ports[p].change = true
          ∧ s.ports[p].format ≠ formatOnLine fmt ∧ t.sc = s.sc
          ∧ (sampleFormat p fmt cls s).sc = (formatChanged s.sc.table[i] (formatOnLine fmt) t).sc := by
  unfold sampleFormat; dsimp only
  split
  · exact .inl rfl
  · rename_i format
    split
    · rename_i change
      exact (changeFormat_sc s p (formatOnLine fmt) cls).imp id
        fun ⟨i, t, connected, port, sc, moved⟩ => ⟨i, t, connected, port, change, format, sc, moved⟩
    · exact .inl rfl

/-- R20a: a format change of an AUTO source enters DRAIN from every state but IDLE and ACQUIRE. -/
theorem formatChanged_drain (src : Source) (f : Format) (h : (formatChanged src f s).sc.st = .drain) :
    s.sc.st = .drain ∨ (s.sc.st ≠ .idle ∧ s.sc.st ≠ .acquire ∧ src.path = .auto) := by
  unfold formatChanged enterBlocked at h
  split at h <;> rename_i st
  case h_3 => split at h <;> simp_all
  case h_6 => exact .inl st
  case h_7 => simp [st] at h
  all_goals split_ifs at h <;> simp_all

/-- R20a: a format change requests a connect in ACQUIRE alone, for an AUTO source. -/
theorem formatChanged_connectDue (src : Source) (f : Format) (h : (formatChanged src f s).connectDue) :
    s.connectDue ∨ (s.sc.st = .acquire ∧ src.path = .auto) := by
  unfold formatChanged enterBlocked at h
  split at h <;> rename_i st
  case h_3 => split at h <;> simp_all [State.connectDue]
  case h_6 => split at h <;> simp_all [State.connectDue]
  case h_7 => exact .inl h
  all_goals split_ifs at h <;> simp_all [State.connectDue, enterDrain]

/-! ## What a completion offers -/

/-- R135: the record link once a completed block of its port has been offered to it. -/
def RecordLink.offered (k : RecordLink) (discarded : Bool) (p : Fin 6) (cls : RateClass) (format : Format)
    (frames : List Frame) : RecordLink :=
  if discarded = false ∧ k.source = .port p then
    { k with portBlock := frames.map fun f => (f.getD 0 0, f.getD 1 0), portInvalid := decide (format = .encoded),
             cls := cls, following := true }
  else k

@[simp] theorem RecordLink.offered_mainNext (k : RecordLink) (d : Bool) (p : Fin 6) (cls : RateClass) (f : Format)
    (frames : List Frame) : (k.offered d p cls f frames).mainNext = k.mainNext := by
  unfold RecordLink.offered; split <;> rfl

@[simp] theorem butRe_breakRun (p : Fin 6) : (breakRun p s).kept.butRe = s.kept.butRe := by
  unfold breakRun; split <;> simp

@[simp] theorem butRe_offerToRing (p : Fin 6) (cls : RateClass) (frames : List Frame) :
    (offerToRing p cls frames s).kept.butRe = s.kept.butRe := by
  unfold offerToRing
  split
  · split <;> simp
  · rfl

/-- R14: an offered block reaches the Ring Engine and the record link, and nothing else. -/
theorem kept_offerBlock (discarded : Bool) (p : Fin 6) (cls : RateClass) (frames : List Frame) :
    (offerBlock discarded p cls frames s).kept
      = { s.kept with
          re := (offerBlock discarded p cls frames s).re,
          ou := { s.ou with link := s.ou.link.offered discarded p cls s.ports[p].format frames } } := by
  cases discarded
  case true => exact kept_of_butRe (butRe_breakRun s p)
  case false =>
    have ring := kept_of_butRe (butRe_offerToRing s p cls frames)
    change (offerToLink p cls frames (offerToRing p cls frames s)).kept
      = { s.kept with
          re := (offerToLink p cls frames (offerToRing p cls frames s)).re,
          ou := { s.ou with link := s.ou.link.offered false p cls s.ports[p].format frames } }
    generalize offerToRing p cls frames s = t at ring ⊢
    have ou : t.ou = s.ou := congrArg Kept.ou ring
    have ports : t.ports = s.ports := congrArg Kept.ports ring
    unfold offerToLink RecordLink.offered
    rw [ou]
    by_cases source : s.ou.link.source = .port p
    · rw [if_pos source, if_pos ⟨rfl, source⟩, ← ports, ← ou]
      exact congrArg (fun k : Kept => { k with ou := (takePortBlock cls t.ports[p].format frames t).ou }) ring
    · rw [if_neg source, if_neg fun h => source h.2]
      exact ring

/-- R12 to R15: what a completion does before a boundary's work, once the clock follows it. -/
def offeredState (p : Fin 6) (cls : RateClass) (fmt : Bool) : State :=
  offerBlock (decide (p = 4) && !s.ports[p].mark) p cls s.ports[p].filling
    (sampleFormat p fmt cls (swapHalves p s))

/-- The block that a completion offers at its boundary. -/
def offeredBlock (p : Fin 6) : Option OfferedBlock :=
  if decide (p = 4) && !s.ports[p].mark then none else some { port := p, frames := s.ports[p].filling }

@[simp] theorem followCompletion_ports (cls : RateClass) : (followCompletion cls s).ports = s.ports := by
  unfold followCompletion
  dsimp only
  split
  · rfl
  · exact congrArg Kept.ports (butConnect_outputRestart s cls)

/-- R29: a completion in the class in force restarts no output. -/
theorem followCompletion_inForce (cls : RateClass) (h : cls = s.clock.cls) : followCompletion cls s
    = s.mapClock fun c => { c with stamp := wrapSucc c.stamp, following := true, own := false } := by
  rw [followCompletion, if_pos h]

theorem completeBlock_eq (p : Fin 6) (cls : RateClass) (fmt : Bool) :
    completeBlock p cls fmt s =
      if completionIsBoundary p cls s then
        boundaryWork (offeredBlock s p) (offeredState (followCompletion cls s) p cls fmt)
      else offeredState s p cls fmt := by
  cases boundary : completionIsBoundary p cls s <;>
    simp [completeBlock, offeredState, offeredBlock, boundary]

/-- A port once its halves have exchanged roles and its line has been sampled (R13, R15). -/
def PortState.completed (q : PortState) (fmt : Bool) : PortState :=
  { q.sampled fmt with offered := some q.filling, filling := [], mark := false }

/-- R12 to R15: what a completion leaves. -/
theorem kept_offeredState (p : Fin 6) (cls : RateClass) (fmt : Bool) :
    (offeredState s p cls fmt).kept
      = { s.kept with
          ports := s.ports.set p (s.ports[p].completed fmt),
          sc := (sampleFormat p fmt cls (swapHalves p s)).sc,
          re := (offeredState s p cls fmt).re,
          ou := { s.ou with
            link := s.ou.link.offered (decide (p = 4) && !s.ports[p].mark) p cls (s.ports[p].sampled fmt).format
              s.ports[p].filling } } := by
  have sampled := kept_sampleFormat (swapHalves p s) p fmt cls
  have offer := kept_offerBlock (sampleFormat p fmt cls (swapHalves p s)) (decide (p = 4) && !s.ports[p].mark) p cls
    s.ports[p].filling
  unfold offeredState
  generalize sampleFormat p fmt cls (swapHalves p s) = t at sampled offer ⊢
  have completed : (swapHalves p s).ports.set p ((swapHalves p s).ports[p].sampled fmt)
      = s.ports.set p (s.ports[p].completed fmt) := by
    simp [swapHalves, PortState.completed, PortState.sampled]
  rw [completed] at sampled
  have ports : t.ports = s.ports.set p (s.ports[p].completed fmt) := congrArg Kept.ports sampled
  have ou : t.ou = s.ou := congrArg Kept.ou sampled
  have format : t.ports[p].format = (s.ports[p].sampled fmt).format := by
    rw [ports]; simp [PortState.completed]
  rw [offer, format, ou, sampled]
  rfl

/-! ## The frame that completes a block -/

/-- R9, R12, R14: a LOCKED port once a frame has joined its block. -/
def PortState.framed (q : PortState) (p : Fin 6) (settled : Bool) (bits : List Bool) : PortState :=
  { q with windowCount := q.windowCount + 1, mark := frameMark p settled q,
           filling := q.filling ++ [frameOfBits (portChannels p) bits] }

theorem mapPort_at (p : Fin 6) (f : PortState → PortState) : (s.mapPort p f).ports[p] = f s.ports[p] := by
  simp

/-- The state once a frame has joined the block of a LOCKED port. -/
def State.framed (p : Fin 6) (bits : List Bool) : State := s.mapPort p fun q => q.framed p (tunerSettled s) bits

theorem State.framed_at (p : Fin 6) (bits : List Bool) :
    (s.framed p bits).ports[p] = s.ports[p].framed p (tunerSettled s) bits := mapPort_at s p _

theorem takeFrame_locked {p : Fin 6} {c : RateClass} (bits : List Bool) (lock : s.ports[p].lock = .locked c) :
    takeFrame p bits s = s.framed p bits := by
  simp only [takeFrame, State.framed, State.mapPort, PortState.framed, lock, LockState.isLocked, if_true]

/-- R12: the thirty-second frame of a LOCKED port completes its block. -/
theorem exec_portFrame_completes {p : Fin 6} {c : RateClass} (bits : List Bool) (fmt : Bool)
    (high : s.resetLow = false) (lock : s.ports[p].lock = .locked c) (length : s.ports[p].filling.length = 31) :
    exec (.portFrame p bits fmt) s
      = .next (finish (completeBlock p c fmt (s.framed p bits))) := by
  refine (live_ready (portFrameWork p bits fmt) high).trans ?_
  unfold portFrameWork; dsimp only
  rw [takeFrame_locked s bits lock]
  have lock' : (s.framed p bits).ports[p].lock = .locked c := by
    rw [State.framed_at]; exact lock
  have length' : (s.framed p bits).ports[p].filling.length = 32 := by
    rw [State.framed_at]; simp only [PortState.framed, List.length_append, length, List.length_cons, List.length_nil]
  simp only [lock', length', if_true]

/-! ## Every command that makes a boundary -/

/-- The state a boundary's work begins from: the clock's stamp is in force, and a completion has offered its block. -/
def State.atBoundary (s : State) (cmd : Instr) : State :=
  match cmd with
  | .portFrame p bits fmt =>
    offeredState (followCompletion s.clock.cls (s.framed p bits)) p s.clock.cls fmt
  | .followTimeout => s.mapClock fun c => { c with stamp := wrapSucc c.stamp, own := true }
  | _ => s.mapClock fun c => { c with stamp := wrapSucc c.stamp }

/-- The block a boundary's work is offered. -/
def State.boundaryOffer (s : State) (cmd : Instr) : Option OfferedBlock :=
  match cmd with
  | .portFrame p bits _ => offeredBlock (s.framed p bits) p
  | _ => none

/-- R5, R29: every command that makes a boundary does the boundary's work. -/
theorem exec_boundaryBy {cmd : Instr} (h : s.boundaryBy cmd) :
    exec cmd s = .next (finish (boundaryWork (s.boundaryOffer cmd) (s.atBoundary cmd))) := by
  obtain ⟨high, made⟩ := h
  cases cmd <;> try exact made.elim
  case freeRunBoundary =>
    have goesOn : ¬ (s.clock.following = true ∧ ¬ s.clock.own = true) := by
      rcases made.2 with free | own <;> simp [*]
    refine (live_ready freeRun high).trans ?_
    rw [freeRun, if_neg goesOn]
    simp [clockBoundary, State.atBoundary, State.boundaryOffer]
  case followTimeout =>
    refine (live_ready followTimeout high).trans ?_
    rw [followTimeout, if_pos made]
    simp [clockBoundary, State.atBoundary, State.boundaryOffer]
  case portFrame p bits fmt =>
    obtain ⟨lock, length, ⟨i, connected, port⟩, tuned⟩ := made
    have boundary : completionIsBoundary p s.clock.cls (s.framed p bits) = true := by
      have settled : p ≠ 4 ∨ s.tc.st = .tuned := or_iff_not_imp_left.2 fun radio => tuned (not_not.1 radio)
      simp only [completionIsBoundary, connectedSource, State.framed, State.mapPort_sc, State.mapPort_clock, connected,
        Option.map_some, port, Source.isRadio, tunerSettled, State.mapPort_tc, decide_true, Bool.true_and, Bool.true_or]
      rcases settled with other | tuned <;> simp [*]
    rw [exec_portFrame_completes s bits fmt high lock length, completeBlock_eq, if_pos boundary]
    simp only [State.atBoundary, State.boundaryOffer]

/-- What the boundary's work begins from: but for what a completion does to its port, the switch, the ring and the
record link, the state before the step with the stamp risen and the clock following. -/
theorem kept_atBoundary {cmd : Instr} (h : s.boundaryBy cmd) :
    (s.atBoundary cmd).kept
      = { s.kept with
          clock := { s.clock with stamp := s.clock.stamp + 1, following := s.followsAt cmd, own := s.ownAt cmd },
          ports := (s.atBoundary cmd).ports, sc := (s.atBoundary cmd).sc, re := (s.atBoundary cmd).re,
          ou := { s.ou with link := (s.atBoundary cmd).ou.link } } := by
  obtain ⟨high, made⟩ := h
  cases cmd <;> try exact made.elim
  case freeRunBoundary => rfl
  case followTimeout => rfl
  case portFrame p bits fmt =>
    simp only [State.atBoundary]
    rw [followCompletion_inForce (s.framed p bits) s.clock.cls rfl]
    have offer := kept_offeredState ((s.framed p bits).mapClock fun c =>
      { c with stamp := wrapSucc c.stamp, following := true, own := false }) p s.clock.cls fmt
    generalize offeredState _ p s.clock.cls fmt = t at offer ⊢
    exact congrArg (fun k : Kept =>
      { k with ports := t.ports, sc := t.sc, re := t.re, ou := { k.ou with link := t.ou.link } }) offer

/-- R29: the clock a boundary's work begins with. -/
theorem atBoundary_clock {cmd : Instr} (h : s.boundaryBy cmd) :
    (s.atBoundary cmd).clock
      = { s.clock with stamp := s.clock.stamp + 1, following := s.followsAt cmd, own := s.ownAt cmd } :=
  congrArg Kept.clock (kept_atBoundary s h)

/-! ## What a completion gives its port, the switch and the record link -/

theorem offeredState_ports (p : Fin 6) (cls : RateClass) (fmt : Bool) :
    (offeredState s p cls fmt).ports = s.ports.set p (s.ports[p].completed fmt) :=
  congrArg Kept.ports (kept_offeredState s p cls fmt)

theorem offeredState_link (p : Fin 6) (cls : RateClass) (fmt : Bool) :
    (offeredState s p cls fmt).ou.link
      = s.ou.link.offered (decide (p = 4) && !s.ports[p].mark) p cls (s.ports[p].sampled fmt).format
          s.ports[p].filling :=
  congrArg (fun k => k.ou.link) (kept_offeredState s p cls fmt)

theorem offeredState_sc (p : Fin 6) (cls : RateClass) (fmt : Bool) :
    (offeredState s p cls fmt).sc = (sampleFormat p fmt cls (swapHalves p s)).sc :=
  congrArg Kept.sc (kept_offeredState s p cls fmt)

/-- R13, R15: the ports at a boundary that a completion makes. -/
theorem atBoundary_ports (p : Fin 6) (bits : List Bool) (fmt : Bool) :
    (s.atBoundary (.portFrame p bits fmt)).ports
      = s.ports.set p ((s.ports[p].framed p (tunerSettled s) bits).completed fmt) := by
  simp only [State.atBoundary]
  rw [offeredState_ports, followCompletion_ports, State.framed_at]
  simp [State.framed]

/-- R20a: a completion moves the switch only by a change of the connected source's format. -/
theorem atBoundary_sc (p : Fin 6) (bits : List Bool) (fmt : Bool) :
    (s.atBoundary (.portFrame p bits fmt)).sc = s.sc
      ∨ ∃ i t, s.sc.connected = some i ∧ s.sc.table[i].port = p ∧ s.ports[p].change = true
          ∧ s.ports[p].format ≠ formatOnLine fmt ∧ t.sc = s.sc
          ∧ (s.atBoundary (.portFrame p bits fmt)).sc = (formatChanged s.sc.table[i] (formatOnLine fmt) t).sc := by
  simp only [State.atBoundary]
  rw [offeredState_sc, followCompletion_inForce (s.framed p bits) s.clock.cls rfl]
  have moved := sampleFormat_sc (swapHalves p ((s.framed p bits).mapClock fun c =>
    { c with stamp := wrapSucc c.stamp, following := true, own := false })) p fmt s.clock.cls
  have port : (swapHalves p ((s.framed p bits).mapClock fun c =>
      { c with stamp := wrapSucc c.stamp, following := true, own := false })).ports[p]
      = { s.ports[p].framed p (tunerSettled s) bits with
          offered := some (s.ports[p].framed p (tunerSettled s) bits).filling, filling := [], mark := false } := by
    rw [swapHalves, mapPort_at, State.mapClock_ports, State.framed_at]
  rw [port] at moved
  exact moved

end

end Sys2Proof.Machine
end

