-- ==== Sys2Proof/Proofs/OwnBoundaries.lean ====
section
/-! SUPPORT. What every boundary advances (R5, R13, R15, R29, R126, R127, R141). -/

namespace Sys2Proof.Machine

variable (s : State)

section
@[simp] theorem finish_ports : (finish s).ports = s.ports := congrArg Kept.ports (kept_finish s)
@[simp] theorem finish_sc : (finish s).sc = s.sc := congrArg Kept.sc (kept_finish s)
@[simp] theorem finish_clock : (finish s).clock = s.clock := congrArg Kept.clock (kept_finish s)
@[simp] theorem finish_ru : (finish s).ru = s.ru := congrArg Kept.ru (kept_finish s)
@[simp] theorem finish_ou : (finish s).ou = s.ou := congrArg Kept.ou (kept_finish s)
@[simp] theorem finish_ap : (finish s).ap = s.ap := congrArg Kept.ap (kept_finish s)
@[simp] theorem finish_tc : (finish s).tc = s.tc := congrArg Kept.tc (kept_finish s)
@[simp] theorem finish_sd : (finish s).sd = s.sd := congrArg Kept.sd (kept_finish s)
end

/-- R15, R20a: the change of format that a completion makes for an AUTO source is `State.autoMoves`. -/
theorem autoMoves_of_change {s : State} {i : Fin 8} {p : Fin 6} (bits : List Bool) {fmt : Bool}
    (connected : s.sc.connected = some i) (port : s.sc.table[i].port = p) (change : s.ports[p].change = true)
    (format : s.ports[p].format ≠ formatOnLine fmt) (auto : s.sc.table[i].path = .auto) :
    s.autoMoves (.portFrame p bits fmt) = true := by
  have differs : (if fmt = true then Format.encoded else .pcm) ≠ s.ports[p].format := format.symm
  simp only [State.autoMoves, State.formatMoves, connected, port, State.formatAt, change, auto, and_self, if_true,
    decide_eq_true differs, decide_true, Bool.and_self]

/-- R21, R20a: a connect that a completion's boundary finds requested is one that `State.connectsAt` names. -/
theorem connectsAt_of_connectDue {s : State} {p : Fin 6} {bits : List Bool} {fmt : Bool} (t : State)
    (h : (s.atBoundary (.portFrame p bits fmt)).connectDue) : s.connectsAt (.portFrame p bits fmt) t := by
  have named (due : s.connectDue) : s.connectsAt (.portFrame p bits fmt) t := by
    obtain ⟨idle | acquire, request⟩ := due
    · exact .inl ⟨idle, request⟩
    · exact .inr (.inl ⟨acquire, .inl request⟩)
  rcases atBoundary_sc s p bits fmt with same | ⟨i, u, connected, port, change, format, sc, moved⟩
  · exact named (by rwa [State.connectDue, same] at h)
  · rw [State.connectDue, moved] at h
    rcases formatChanged_connectDue u _ _ h with due | ⟨acquire, auto⟩
    · exact named (by rwa [State.connectDue, sc] at due)
    · exact .inr (.inl ⟨sc ▸ acquire, .inr (autoMoves_of_change bits connected port change format auto)⟩)

/-- R20, R20a: the DRAIN that a completion's boundary finds is one that `State.drainsAt` names. -/
theorem drainsAt_of_drain {s : State} {p : Fin 6} {bits : List Bool} {fmt : Bool}
    (h : (s.atBoundary (.portFrame p bits fmt)).sc.st = .drain) : s.drainsAt (.portFrame p bits fmt) = true := by
  rcases atBoundary_sc s p bits fmt with same | ⟨i, u, connected, port, change, format, sc, moved⟩
  · rw [same] at h; simp [State.drainsAt, h]
  · rw [moved] at h
    rcases formatChanged_drain u _ _ h with drain | ⟨idle, acquire, auto⟩
    · rw [sc] at drain; simp [State.drainsAt, drain]
    · rw [sc] at idle acquire
      have moves := autoMoves_of_change bits connected port change format auto
      simp [State.drainsAt, idle, acquire, moves]

/-- R5, R10: every boundary raises the stamp, and leaves the measurement window, the tuner and the station data alone;
the ports are as a completion left them. -/
theorem boundary_outside {s : State} {cmd : Instr} (h : s.boundaryBy cmd) :
    let t := boundaryWork (s.boundaryOffer cmd) (s.atBoundary cmd)
    t.clock.stamp = s.clock.stamp + 1 ∧ t.clock.windowPos = s.clock.windowPos
      ∧ t.ports = (s.atBoundary cmd).ports ∧ t.tc = s.tc ∧ t.sd = s.sd := by
  intro t
  have start := kept_atBoundary s h
  obtain ⟨ports, tc, sd, stamp, windowPos⟩ := boundaryWork_outside (s.boundaryOffer cmd) (s.atBoundary cmd)
  rw [atBoundary_clock s h] at stamp windowPos
  exact ⟨stamp, windowPos, ports, tc.trans (congrArg Kept.tc start), sd.trans (congrArg Kept.sd start)⟩

/-- R126, R127, R141: every boundary gives the lanes their masks and new blocks, and the pairs their block faults. -/
theorem boundary_advances {s : State} {cmd : Instr} (h : s.boundaryBy cmd) :
    let t := boundaryWork (s.boundaryOffer cmd) (s.atBoundary cmd)
    (∀ l : Fin 2, t.ou.lanes[l].active = s.ou.lanes[l].pending ∧ t.ou.lanes[l].pending = s.ou.lanes[l].pending
        ∧ t.ou.lanes[l].count = 0 ∧ t.ou.lanes[l].running = decide (s.ou.lanes[l].pending ≠ 0))
      ∧ ∀ p : Fin 4, t.ap[p].blockFault = s.ap[p].latch ∧ t.ap[p].latch = false := by
  intro t
  have start := kept_atBoundary s h
  have lanes : (s.atBoundary cmd).ou.lanes = s.ou.lanes := congrArg (fun k => k.ou.lanes) start
  have ap : (s.atBoundary cmd).ap = s.ap := congrArg Kept.ap start
  refine ⟨fun l => ?_, fun p => ?_⟩
  · rw [← lanes]; exact boundaryWork_lane (s.boundaryOffer cmd) (s.atBoundary cmd) l
  · rw [← ap]; exact boundaryWork_faults (s.boundaryOffer cmd) (s.atBoundary cmd) p

/-- R29: a completion's boundary without a connect leaves the clock following in the class in force. -/
theorem completion_clock {s : State} {p : Fin 6} {bits : List Bool} {fmt : Bool}
    (h : s.boundaryBy (.portFrame p bits fmt))
    (stays : ¬ s.connectsAt (.portFrame p bits fmt)
      (finish (boundaryWork (s.boundaryOffer (.portFrame p bits fmt)) (s.atBoundary (.portFrame p bits fmt))))) :
    (boundaryWork (s.boundaryOffer (.portFrame p bits fmt)) (s.atBoundary (.portFrame p bits fmt))).clock
      = { s.clock with stamp := s.clock.stamp + 1, following := true, own := false } := by
  refine (boundaryWork_clock _ _ (fun due => stays (connectsAt_of_connectDue _ due)) ?_).trans
    (atBoundary_clock s h)
  rintro ⟨drain, mute⟩
  refine stays (.inr (.inr ⟨drainsAt_of_drain drain, fun i => ?_⟩))
  rw [finish_ru]
  exact mute i

/-- R13, R15: the port whose completion made the boundary. -/
theorem framed_completed (q : PortState) (p : Fin 6) (settled : Bool) (bits : List Bool) (fmt : Bool) :
    (q.framed p settled bits).completed fmt
      = { q with
          windowCount := q.windowCount + 1, mark := false, filling := [],
          offered := some (q.filling ++ [frameOfBits (portChannels p) bits]),
          format := if q.change then formatOnLine fmt else q.format,
          change := !q.change && decide (q.format ≠ formatOnLine fmt) } := rfl

/-- `t` is `s` after a boundary of the clock's own, as far as stamp, lanes and latches go. -/
def State.advancesTo (s t : State) : Prop :=
  t.clock.stamp = s.clock.stamp + 1 ∧ t.clock.windowPos = s.clock.windowPos
    ∧ (∀ l : Fin 2, t.ou.lanes[l].active = s.ou.lanes[l].pending
        ∧ t.ou.lanes[l].pending = s.ou.lanes[l].pending ∧ t.ou.lanes[l].count = 0
        ∧ t.ou.lanes[l].running = decide (s.ou.lanes[l].pending ≠ 0))
    ∧ (∀ p : Fin 4, t.ap[p].blockFault = s.ap[p].latch ∧ t.ap[p].latch = false)
    ∧ t.ports = s.ports ∧ t.tc = s.tc ∧ t.sd = s.sd

/-- R5, R29: a boundary of the clock's own advances the block, and in PLAYING moves neither the switch nor the clock
further. -/
theorem ownBoundary_advances {s : State} {cmd : Instr} (own : clocksOwn cmd = true) (h : s.boundaryBy cmd) :
    ∃ t, exec cmd s = .next t ∧ s.advancesTo t
      ∧ (s.sc.st = .playing → t.sc = s.sc
          ∧ t.clock = { s.clock with
              stamp := s.clock.stamp + 1, following := s.followsAt cmd, own := s.ownAt cmd }) := by
  have begins : (s.atBoundary cmd).ports = s.ports ∧ (s.atBoundary cmd).sc = s.sc := by
    cases cmd
    case freeRunBoundary => exact ⟨rfl, rfl⟩
    case followTimeout => exact ⟨rfl, rfl⟩
    all_goals cases own
  obtain ⟨ports, sc⟩ := begins
  obtain ⟨stamp, windowPos, unchanged, tc, sd⟩ := boundary_outside h
  obtain ⟨lanes, faults⟩ := boundary_advances h
  refine ⟨_, exec_boundaryBy s h, ?_, fun st => ?_⟩
  · simp only [State.advancesTo, finish_ports, finish_clock, finish_ou, finish_ap, finish_tc, finish_sd]
    exact ⟨stamp, windowPos, lanes, faults, unchanged.trans ports, tc, sd⟩
  · have playing : (s.atBoundary cmd).sc.st = .playing := by rw [sc, st]
    obtain ⟨sameSc, sameClock⟩ := boundaryWork_playing (s.boundaryOffer cmd) _ playing
    rw [finish_sc, finish_clock]
    exact ⟨sameSc.trans sc, sameClock.trans (atBoundary_clock s h)⟩

/-- R29: while the clock follows a port that has not gone quiet, a FREE_RUN_BOUNDARY finds nothing to do (log entry
2). -/
theorem exec_freeRunBoundary_following {s : State} (high : s.resetLow = false) (following : s.clock.following = true)
    (own : s.clock.own = false) : exec .freeRunBoundary s = .next (finish s) := by
  refine (live_ready freeRun high).trans ?_
  rw [freeRun, if_pos ⟨following, by simp [own]⟩]

/-- R29: a free-running clock has no FOLLOW_TIMEOUT (log entry 2). -/
theorem exec_followTimeout_free {s : State} (high : s.resetLow = false) (free : s.clock.following = false) :
    exec .followTimeout s = .next (finish s) := by
  refine (live_ready followTimeout high).trans ?_
  rw [followTimeout, if_neg (by simp [free])]

/-- R5, R13, R15, R29: the boundary that a completion makes in the class in force. -/
theorem completion_advances {s : State} {p : Fin 6} {bits : List Bool} {fmt : Bool}
    (h : s.boundaryBy (.portFrame p bits fmt)) :
    ∃ t, exec (.portFrame p bits fmt) s = .next t
      ∧ (∀ q : Fin 6, q ≠ p → t.ports[q] = s.ports[q])
      ∧ t.ports[p] = (s.ports[p].framed p (tunerSettled s) bits).completed fmt
      ∧ (¬ s.connectsAt (.portFrame p bits fmt) t →
          t.clock = { s.clock with stamp := s.clock.stamp + 1, following := true, own := false })
      ∧ { s with ports := t.ports }.advancesTo t := by
  obtain ⟨stamp, windowPos, ports, tc, sd⟩ := boundary_outside h
  obtain ⟨lanes, faults⟩ := boundary_advances h
  have clock := completion_clock h
  refine ⟨_, exec_boundaryBy s h, ?_⟩
  rw [atBoundary_ports] at ports
  simp only [State.advancesTo, finish_clock, finish_ou, finish_ap, finish_tc, finish_sd]
  generalize boundaryWork _ _ = t at *
  rw [← finish_ports] at ports
  refine ⟨fun q other => ?_, ?_, clock, stamp, windowPos, lanes, faults, trivial, tc, sd⟩
  · simp only [ports]; exact Vector.getElem_set_ne _ _ fun same => other (Fin.ext same.symm)
  · simp only [ports, Fin.getElem_fin, Vector.getElem_set_self]

/-- Settles O42: a boundary of the clock's own and one that a completion makes do the same work, from a state that
the completion has prepared. -/
theorem ownBoundariesAdvanceTheBlock : Obligations.OwnBoundariesAdvanceTheBlock := by
  unfold Obligations.OwnBoundariesAdvanceTheBlock
  refine ⟨fun s high => ⟨?_, ?_⟩, fun s p bits fmt h => ?_⟩
  · by_cases free : s.clock.following = false ∨ s.clock.own = true
    · obtain ⟨t, run, made, playing⟩ := ownBoundary_advances (cmd := .freeRunBoundary) rfl ⟨high, high, free⟩
      refine ⟨t, run, fun following own => ?_, fun _ => ⟨made, playing⟩⟩
      simp [following, own] at free
    · obtain ⟨following, own⟩ : s.clock.following = true ∧ s.clock.own = false := by simpa using free
      exact ⟨_, exec_freeRunBoundary_following high following own, fun _ _ => kept_finish s,
        fun made => absurd made free⟩
  · by_cases following : s.clock.following = true
    · obtain ⟨t, run, made, playing⟩ := ownBoundary_advances (cmd := .followTimeout) rfl ⟨high, following⟩
      exact ⟨t, run, fun free => by simp [following] at free, fun _ => ⟨made, playing⟩⟩
    · exact ⟨_, exec_followTimeout_free high (by simpa using following), fun _ => kept_finish s,
        fun made => absurd made following⟩
  · obtain ⟨t, run, others, port, clock, stamp, windowPos, lanes, faults, -, tc, sd⟩ := completion_advances h
    refine ⟨t, run, stamp, windowPos, fun stays => ?_, lanes, faults, tc, sd, others, ?_⟩
    · rw [clock stays]; exact ⟨rfl, rfl, rfl⟩
    · rw [port, framed_completed]
      refine ⟨rfl, rfl, rfl, rfl, rfl, ?_, rfl⟩
      simp [State.formatAt, formatOnLine]

end Sys2Proof.Machine
end

