-- ==== Sys2Proof/Proofs/LaneFrames.lean ====
section
/-! SUPPORT. The slots of a lane frame (R2, R123, R125). -/

namespace Sys2Proof.Machine

variable {s : State}

theorem speakerIds_getElem? (n : Fin 8) : speakerIds[n.val]? = some n := by
  revert n; decide

theorem laneSlots_getElem? (l : Lane) (n : Fin 8) : (laneSlots s l)[n.val]? = some (slotWord (slotValue s l n)) := by
  rw [laneSlots, List.getElem?_map, speakerIds_getElem?]; rfl

/-! ## What a slot carries -/

theorem PairState.silences_iff {p : PairState} : p.silences = true ↔ p = .shutdown ∨ p = .recovering := by
  simp [PairState.silences]

theorem slotValue_of_disabled {l : Lane} {n : Fin 8} (h : l.active.getLsbD n.val = false) : slotValue s l n = 0 := by
  rw [slotValue, h]; rfl

theorem slotValue_of_unmapped {l : Lane} {n : Fin 8} (h : l.map[n] = none) : slotValue s l n = 0 := by
  unfold slotValue; rw [h]; simp

/-- R125: a pair in SHUTDOWN or RECOVERING silences the slots of its speakers. -/
theorem slotValue_of_silenced {l : Lane} {n i : Fin 8} {p : Fin 4} (mapped : l.map[n] = some i)
    (pair : s.ou.pairs[i] = some p) (h : s.ap[p].st = .shutdown ∨ s.ap[p].st = .recovering) :
    slotValue s l n = 0 := by
  have silenced : slotSilenced s i = true := by
    unfold slotSilenced; rw [pair]; exact PairState.silences_iff.2 h
  unfold slotValue; rw [mapped]; simp [silenced]

/-- R125: any other slot carries its speaker's delayed sample of the lane's count. -/
theorem slotValue_of_sounding {l : Lane} {n i : Fin 8} {xs : Chan} (enabled : l.active.getLsbD n.val = true)
    (mapped : l.map[n] = some i)
    (h : ∀ p, s.ou.pairs[i] = some p → s.ap[p].st ≠ .shutdown ∧ s.ap[p].st ≠ .recovering)
    (delayed : s.ou.delayed[i] = some xs) : slotValue s l n = xs.getD l.count 0 := by
  have sounding : ¬ slotSilenced s i = true := by
    unfold slotSilenced
    split
    · simp
    · rename_i p pair
      rw [PairState.silences_iff, not_or]
      exact h p pair
  unfold slotValue
  rw [if_pos enabled, mapped]
  dsimp only
  rw [if_neg sounding, delayed]
  rfl

/-- R2: the 24 bits of a slot's sample stand above eight zeros. -/
theorem slotWord_eq (x : Int) : slotWord x = BitVec.ofInt 32 (256 * x) := by
  rw [slotWord, mul_comm]

theorem slotWord_zero : slotWord 0 = 0 := by decide

/-! ## The step -/

theorem exec_laneFrame (l : Fin 2) (high : s.resetLow = false) :
    exec (.laneFrame l) s = .next (finish (laneFrameWork l s)) := live_ready (laneFrameWork l) high

/-- R123, log entry 23: a parked lane, or one at count 32, sends nothing. -/
theorem laneFrameWork_idle {l : Fin 2} (h : s.ou.lanes[l].running = false ∨ 32 ≤ s.ou.lanes[l].count) :
    laneFrameWork l s = s := by
  have idle : ¬ (s.ou.lanes[l].running = true ∧ s.ou.lanes[l].count < 32) := by
    rintro ⟨running, count⟩
    rcases h with parked | last
    · rw [running] at parked; cases parked
    · omega
  unfold laneFrameWork; dsimp only; rw [if_neg idle]

/-- R125: a running lane sends the slots of its count. -/
theorem laneFrameWork_running {l : Fin 2} (running : s.ou.lanes[l].running = true) (count : s.ou.lanes[l].count < 32) :
    laneFrameWork l s = s.mapOu fun ou =>
      { ou with lanes := ou.lanes.set l { s.ou.lanes[l] with
          sent := laneSlots s s.ou.lanes[l], count := s.ou.lanes[l].count + 1 } } := by
  unfold laneFrameWork; dsimp only; rw [if_pos ⟨running, count⟩]

/-- R2, R123, R125: LANE_FRAME. -/
theorem laneFrame_sends (l : Fin 2) (high : s.resetLow = false) : ∃ t, exec (.laneFrame l) s = .next t
    ∧ ((s.ou.lanes[l].running = false ∨ 32 ≤ s.ou.lanes[l].count) → t.kept = s.kept)
    ∧ (s.ou.lanes[l].running = true → s.ou.lanes[l].count < 32 →
        t.kept = { s.kept with ou := { s.ou with
          lanes := s.ou.lanes.set l { s.ou.lanes[l] with
            count := s.ou.lanes[l].count + 1, sent := t.ou.lanes[l].sent } } }
        ∧ t.ou.lanes[l].sent = laneSlots s s.ou.lanes[l]) := by
  refine ⟨_, exec_laneFrame l high, fun idle => ?_, fun running count => ?_⟩
  · rw [laneFrameWork_idle idle, kept_finish]
  · rw [laneFrameWork_running running count]
    have sent : (finish (s.mapOu fun ou =>
        { ou with lanes := ou.lanes.set l { s.ou.lanes[l] with
            sent := laneSlots s s.ou.lanes[l], count := s.ou.lanes[l].count + 1 } })).ou.lanes[l].sent
        = laneSlots s s.ou.lanes[l] := by
      simp
    rw [sent, kept_finish]
    exact ⟨rfl, rfl⟩

end Sys2Proof.Machine
end

