-- ==== Sys2Proof/Proofs/RecordBlocks.lean ====
section
/-! SUPPORT. The steps that give the record link its blocks: a boundary (R134), and a completion of its port (R14,
R135). -/

namespace Sys2Proof.Machine

variable {s : State}

/-- R134: a boundary gives the link the block rendered at the one before. -/
theorem boundary_mainBlock {cmd : Instr} (h : s.boundaryBy cmd) :
    ∃ t, exec cmd s = .next t ∧ t.ou.link.mainBlock = s.ou.link.mainNext := by
  have next : (s.atBoundary cmd).ou.link.mainNext = s.ou.link.mainNext := by
    cases cmd
    case portFrame p bits fmt =>
      simp only [State.atBoundary]
      rw [offeredState_link, followCompletion_inForce (s.framed p bits) s.clock.cls rfl, RecordLink.offered_mainNext]
      rfl
    all_goals rfl
  refine ⟨_, exec_boundaryBy s h, ?_⟩
  rw [finish_ou, (boundaryWork_link _ _).1, next]

theorem followCompletion_link (cls : RateClass) (h : s.ou.link.source ≠ .main) :
    (followCompletion cls s).ou.link = s.ou.link := by
  unfold followCompletion; dsimp only
  split
  · rfl
  · have masked : (outputRestart cls s).ou.link.butRestart = s.ou.link.butRestart :=
      congrArg (fun k => k.ou.link) (butConnect_outputRestart s cls)
    have source : (outputRestart cls s).ou.link.source = s.ou.link.source := by
      simpa using congrArg RecordLink.source masked
    have off : (outputRestart cls s).ou.link.source ≠ .main := by rwa [source]
    rw [RecordLink.butRestart_of_ne h, RecordLink.butRestart_of_ne off] at masked
    exact masked

/-- R135: off MAIN a completion leaves the link as it offers its block to it, but for the main blocks. -/
theorem completeBlock_link (p : Fin 6) (cls : RateClass) (fmt : Bool) (h : s.ou.link.source ≠ .main) :
    let offered := s.ou.link.offered (decide (p = 4) && !s.ports[p].mark) p cls (s.ports[p].sampled fmt).format
      s.ports[p].filling
    (completeBlock p cls fmt s).ou.link
      = { offered with
          mainBlock := (completeBlock p cls fmt s).ou.link.mainBlock,
          mainNext := (completeBlock p cls fmt s).ou.link.mainNext } := by
  intro offered
  rw [completeBlock_eq]
  split
  · have link : (offeredState (followCompletion cls s) p cls fmt).ou.link = offered := by
      rw [offeredState_link, followCompletion_link cls h, followCompletion_ports]
    have off : (offeredState (followCompletion cls s) p cls fmt).ou.link.source ≠ .main := by
      rw [link]; simp only [offered, RecordLink.offered]; split <;> exact h
    rw [← link]
    exact boundaryWork_link_of_ne _ _ off
  · rw [offeredState_link]

/-- R14: IN4 discards the block unless its mark covers it and the tuner is TUNED still. -/
theorem framed_kept_iff {p : Fin 6} {q : PortState} (bits : List Bool) (length : q.filling.length = 31) :
    (decide (p = 4) && !(q.framed p (tunerSettled s) bits).mark) = false
      ↔ p ≠ 4 ∨ (s.tc.st = .tuned ∧ q.mark = true) := by
  have begun : q.filling.isEmpty = false := by
    cases h : q.filling
    · rw [h] at length; cases length
    · rfl
  by_cases radio : p = 4 <;> simp [PortState.framed, frameMark, tunerSettled, begun, radio]

/-- R15, R135: whether a completed block counts as ENCODED, after the completion's own sample. -/
theorem sampled_encoded (q : PortState) (fmt : Bool) :
    decide ((q.sampled fmt).format = .encoded) = if q.change then fmt else decide (q.format = .encoded) := by
  cases change : q.change <;> cases fmt <;> simp [PortState.sampled, formatOnLine, change]

/-- R14, R135: a completion of the link's own port, and what IN4 discards. -/
theorem portFrame_link {p : Fin 6} {c : RateClass} (bits : List Bool) (fmt : Bool) (high : s.resetLow = false)
    (source : s.ou.link.source = .port p) (lock : s.ports[p].lock = .locked c)
    (length : s.ports[p].filling.length = 31) :
    ∃ t, exec (.portFrame p bits fmt) s = .next t
      ∧ (let q := s.ports[p]
         let frames := q.filling ++ [frameOfBits (if p = 0 then 8 else 2) bits]
         let encoded := if q.change then fmt else decide (q.format = .encoded)
         let good := p ≠ 4 ∨ (s.tc.st = .tuned ∧ q.mark = true)
         let taken := { s.ou.link with
           portBlock := frames.map fun f => (f.getD 0 0, f.getD 1 0), portInvalid := encoded, cls := c,
           following := true }
         t.ou.link = { (if good then taken else s.ou.link) with
           mainBlock := t.ou.link.mainBlock, mainNext := t.ou.link.mainNext }) := by
  refine ⟨_, exec_portFrame_completes s bits fmt high lock length, ?_⟩
  rw [finish_ou]
  have off : (s.framed p bits).ou.link.source ≠ .main := by
    change s.ou.link.source ≠ .main; rw [source]; exact RecordSource.noConfusion
  have link := completeBlock_link (s := s.framed p bits) p c fmt off
  rw [State.framed_at] at link
  generalize completeBlock p c fmt (s.framed p bits) = t at link ⊢
  refine link.trans ?_
  have encoded : decide (((s.ports[p].framed p (tunerSettled s) bits).sampled fmt).format = .encoded)
      = if s.ports[p].change then fmt else decide (s.ports[p].format = .encoded) := sampled_encoded _ fmt
  have ou : (s.framed p bits).ou = s.ou := rfl
  simp only [RecordLink.offered, framed_kept_iff bits length, ou, source, and_true, encoded]
  rfl

end Sys2Proof.Machine
end

