-- ==== Sys2Proof/Proofs/RateWindow.lean ====
section
/-! SUPPORT. The end of a measurement window as the Output Unit sees it (R10, R11, R136): the record link loses its
port exactly when that port leaves LOCKED. -/

namespace Sys2Proof.Machine

section
variable (s : State) (p : Fin 6)

/-! ## What the window of one port leaves alone -/

/-- All that the window of port `p` leaves alone besides the record link: the other ports, and the units that neither
a port's lock nor the connected source's signal reach. -/
def Kept.butPort (k : Kept) : Kept :=
  { k with sc := SwitchUnit.reset, clock := ClockUnit.reset, re := RingEngine.reset,
           ports := k.ports.set p PortState.reset }

variable {p} in
theorem Kept.butPort_eq_of_butSc {a b : Kept} (h : a.butSc = b.butSc) : a.butPort p = b.butPort p := by
  have hides (k : Kept) : k.butPort p = k.butSc.butPort p := rfl
  rw [hides a, h, ← hides b]

variable {p} in
theorem Kept.butPort_eq_of_butRe {a b : Kept} (h : a.butRe = b.butRe) : a.butPort p = b.butPort p := by
  have hides (k : Kept) : k.butPort p = k.butRe.butPort p := rfl
  rw [hides a, h, ← hides b]

variable {p} in
theorem ou_of_butPort {a b : Kept} (h : a.butPort p = b.butPort p) : a.ou = b.ou := by
  have ou := congrArg Kept.ou h
  exact ou

variable {p} in
theorem ports_of_butPort {a b : Kept} (h : a.butPort p = b.butPort p) {q : Fin 6} (other : q ≠ p) :
    a.ports[q] = b.ports[q] := by
  have ne : p.val ≠ q.val := fun same => other (Fin.ext same.symm)
  have ports := congrArg (fun k => k.ports[q]) h
  simpa [Kept.butPort, Vector.getElem_set_ne, ne] using ports

@[simp] theorem butPort_mapPort (f : PortState → PortState) : (s.mapPort p f).kept.butPort p = s.kept.butPort p := by
  simp [Kept.butPort, State.kept, State.mapPort]

@[simp] theorem butPort_breakRun (q : Fin 6) : (breakRun q s).kept.butPort p = s.kept.butPort p :=
  Kept.butPort_eq_of_butRe (butRe_breakRun s q)

@[simp] theorem butPort_regain (c : RateClass) : (regain c s).kept.butPort p = s.kept.butPort p :=
  Kept.butPort_eq_of_butSc (butSc_regain s c)

@[simp] theorem butSc_enterHold (c : LossCause) : (enterHold c s).kept.butSc = s.kept.butSc := by
  simp [enterHold]

@[simp] theorem butPort_loseSignal (c : LossCause) : (loseSignal c s).kept.butPort p = s.kept.butPort p := by
  refine Eq.trans (Kept.butPort_eq_of_butSc ?_) (rfl : (stopFollowing s).kept.butPort p = s.kept.butPort p)
  unfold loseSignal; dsimp only
  split
  case h_4 => split <;> simp
  case h_5 => split <;> simp
  all_goals simp

/-! ## The loss and the lock of a port -/

/-- R136: the Output Unit once port `p` is lost. -/
def OutputUnit.losesPort (ou : OutputUnit) : OutputUnit :=
  if ou.link.source = .port p then { ou with link := { ou.link with portBlock := [], following := false } } else ou

theorem kept_linkLosesPort : (linkLosesPort p s).kept = { s.kept with ou := s.ou.losesPort p } := by
  unfold linkLosesPort OutputUnit.losesPort
  split <;> rfl

/-- R11, R136: a port that leaves LOCKED moves the link if the link is set to it, and no other port. -/
theorem butPort_portLost (had : RateClass) :
    (portLost p had s).kept.butPort p = { s.kept with ou := s.ou.losesPort p }.butPort p := by
  unfold portLost; dsimp only
  generalize raised : breakRun p (raisePort p _ _ _ (s.mapPort p _)) = r
  have start : r.kept.butPort p = s.kept.butPort p := by
    rw [← raised, butPort_breakRun, kept_raisePort, butPort_mapPort]
  have lost : (linkLosesPort p r).kept.butPort p = { s.kept with ou := s.ou.losesPort p }.butPort p := by
    have ou : r.ou = s.ou := ou_of_butPort start
    rw [kept_linkLosesPort, ou]
    exact congrArg (fun k : Kept => { k with ou := s.ou.losesPort p }) start
  split
  · rw [butPort_loseSignal, lost]
  · exact lost

theorem butPort_portLocked (c : RateClass) : (portLocked p c s).kept.butPort p = s.kept.butPort p := by
  unfold portLocked; dsimp only
  split <;> simp

theorem LockState.isLocked_iff {l : LockState} : l.isLocked = true ↔ ∃ c, l = .locked c := by
  cases l <;> simp [LockState.isLocked]

/-- R11, R16: of the changes of a port's lock only a loss reaches the link. -/
theorem butPort_lockChanged (count : Nat) (before after : LockState) :
    (lockChanged p count before after s).kept.butPort p
      = { s.kept with ou := if before.isLocked && !after.isLocked then s.ou.losesPort p else s.ou }.butPort p := by
  by_cases lost : before.isLocked = true ∧ after.isLocked = false
  · obtain ⟨locked, left⟩ := lost
    obtain ⟨c, rfl⟩ := LockState.isLocked_iff.1 locked
    have step : lockChanged p count (.locked c) after s = portLost p c s := by
      cases after
      case locked d => cases left
      all_goals rfl
    rw [if_pos (by simp [locked, left]), step, butPort_portLost]
  · rw [if_neg (by simpa using lost)]
    unfold lockChanged
    split
    case h_2 c after held =>
      refine absurd ⟨rfl, ?_⟩ lost
      simpa [LockState.isLocked_iff, ← Bool.not_eq_true] using held
    case h_3 => exact butPort_portLocked s p _
    case h_5 => rw [kept_raisePort]; rfl
    all_goals rfl

/-- R11: the window that ends takes the port out of LOCKED. -/
def PortState.leavesLock (q : PortState) : Bool :=
  q.lock.isLocked && !(lockStep q (classify q.windowCount)).1.isLocked

/-- R11: only the second window in a row that misses the class does so. -/
theorem PortState.leavesLock_iff {q : PortState} : q.leavesLock = true
    ↔ ∃ c, q.lock = .locked c ∧ q.miss = true ∧ classify q.windowCount ≠ .cls c := by
  unfold PortState.leavesLock lockStep
  cases lock : q.lock
  case locked c =>
    cases result : classify q.windowCount
    case cls d =>
      by_cases same : d = c
      · simp [LockState.isLocked, same]
      · cases miss : q.miss <;> simp [LockState.isLocked, same]
    all_goals cases miss : q.miss <;> simp [LockState.isLocked]
  all_goals simp [LockState.isLocked]

/-- R10, R11: the window of one port ends. -/
theorem butPort_portWindow : (portWindow p s).kept.butPort p
    = { s.kept with ou := if s.ports[p].leavesLock then s.ou.losesPort p else s.ou }.butPort p := by
  unfold portWindow; dsimp only
  rw [butPort_lockChanged]
  exact congrArg (fun k : Kept => { k with ou := if s.ports[p].leavesLock then s.ou.losesPort p else s.ou })
    (butPort_mapPort s p _)

end

/-! ## The windows of all ports -/

/-- The ports whose windows end leave the other ports alone. -/
theorem foldl_portWindow_ports (l : List (Fin 6)) {q : Fin 6} (h : q ∉ l) (s : State) :
    (l.foldl (fun s p => portWindow p s) s).ports[q] = s.ports[q] := by
  induction l generalizing s with
  | nil => rfl
  | cons p l ih =>
    obtain ⟨other, rest⟩ : q ≠ p ∧ q ∉ l := by simpa using h
    exact (ih rest _).trans (ports_of_butPort (butPort_portWindow s p) other)

/-- R136: they leave the link alone unless it is set to one of them. -/
theorem foldl_portWindow_ou (l : List (Fin 6)) (s : State) (h : ∀ p ∈ l, s.ou.link.source ≠ .port p) :
    (l.foldl (fun s p => portWindow p s) s).ou = s.ou := by
  induction l generalizing s with
  | nil => rfl
  | cons p l ih =>
    have ou : (portWindow p s).ou = s.ou := by
      refine (ou_of_butPort (butPort_portWindow s p)).trans ?_
      simp [OutputUnit.losesPort, h p (by simp)]
    refine (ih (portWindow p s) fun q mem => ?_).trans ou
    rw [ou]; exact h q (by simp [mem])

/-- R136: set to port `p`, the link sees the window of that port alone. -/
theorem windowEnd_ou_of_port {s : State} {p : Fin 6} (source : s.ou.link.source = .port p) :
    (windowEnd s).ou = if s.ports[p].leavesLock then s.ou.losesPort p else s.ou := by
  have all : ∀ p : Fin 6, p ∈ portIds := by decide
  obtain ⟨before, after, ids⟩ := List.append_of_mem (all p)
  have distinct : portIds.Nodup := by decide
  rw [ids] at distinct
  have notBefore : p ∉ before := fun h => (List.nodup_append.1 distinct).2.2 p h p (by simp) rfl
  have notAfter : p ∉ after := (List.nodup_cons.1 (List.nodup_append.1 distinct).2.1).1
  have elsewhere (l : List (Fin 6)) (t : State) (h : p ∉ l) (same : t.ou.link.source = .port p) :
      ∀ q ∈ l, t.ou.link.source ≠ .port q := by
    intro q mem eq
    rw [same] at eq
    cases eq
    exact h mem
  have run : windowEnd s = after.foldl (fun s p => portWindow p s) (portWindow p
      (before.foldl (fun s p => portWindow p s) (s.mapClock fun c => { c with windowPos := 0 }))) := by
    rw [windowEnd, ids, List.foldl_append, List.foldl_cons]
  have port := foldl_portWindow_ports before notBefore (s.mapClock fun c => { c with windowPos := 0 })
  have ou := foldl_portWindow_ou before (s.mapClock fun c => { c with windowPos := 0 })
    (elsewhere before _ notBefore source)
  generalize before.foldl (fun s p => portWindow p s) (s.mapClock _) = t at run port ou
  have window : (portWindow p t).ou = if s.ports[p].leavesLock then s.ou.losesPort p else s.ou := by
    refine (ou_of_butPort (butPort_portWindow t p)).trans ?_
    dsimp only
    rw [port, ou]; rfl
  have kept : (portWindow p t).ou.link.source = .port p := by
    rw [window]; unfold OutputUnit.losesPort; split_ifs <;> exact source
  rw [run, foldl_portWindow_ou after _ (elsewhere after _ notAfter kept), window]

/-- R136: set to no port, the link sees no window. -/
theorem windowEnd_ou_of_ne {s : State} (source : ∀ p, s.ou.link.source ≠ .port p) : (windowEnd s).ou = s.ou :=
  foldl_portWindow_ou portIds (s.mapClock _) fun p _ => source p

/-- R136: RATE_WINDOW_END, as the Output Unit sees it. -/
theorem rateWindowEnd_ou {s : State} (high : s.resetLow = false) : ∃ t, exec .rateWindowEnd s = .next t
    ∧ (∀ (p : Fin 6) (c : RateClass), s.ou.link.source = .port p → s.ports[p].lock = .locked c →
        s.ports[p].miss = true → classify s.ports[p].windowCount ≠ .cls c →
        t.ou = { s.ou with link := { s.ou.link with portBlock := [], following := false } })
    ∧ ((∀ (p : Fin 6) (c : RateClass), s.ou.link.source = .port p → s.ports[p].lock = .locked c →
          s.ports[p].miss = true → classify s.ports[p].windowCount = .cls c) → t.ou = s.ou) := by
  refine ⟨_, live_ready windowEnd high, fun p c source lock miss missed => ?_, fun holds => ?_⟩
  · have leaves : s.ports[p].leavesLock = true := PortState.leavesLock_iff.2 ⟨c, lock, miss, missed⟩
    rw [finish_ou, windowEnd_ou_of_port source, if_pos leaves, OutputUnit.losesPort, if_pos source]
  · rw [finish_ou]
    by_cases toPort : ∃ p, s.ou.link.source = .port p
    · obtain ⟨p, source⟩ := toPort
      have stays : ¬ s.ports[p].leavesLock = true := by
        rw [PortState.leavesLock_iff]
        rintro ⟨c, lock, miss, missed⟩
        exact missed (holds p c source lock miss)
      rw [windowEnd_ou_of_port source, if_neg stays]
    · exact windowEnd_ou_of_ne fun p source => toPort ⟨p, source⟩

end Sys2Proof.Machine
end

