-- ==== Sys2Proof/Proofs/RecordFrames.lean ====
section
/-! SUPPORT. The half-cells of the record link (R130, R131). -/

namespace Sys2Proof.Machine

/-! ## Biphase -/

@[simp] theorem biphase_length (level : Bool) (bs : List Bool) : (biphase level bs).length = 2 * bs.length := by
  induction bs generalizing level with
  | nil => rfl
  | cons b bs ih => simp [biphase, ih]; omega

/-- R131: the level changes where a cell begins: the first half-cell of a cell is not what was held before it. -/
theorem biphase_edge (level : Bool) (bs : List Bool) {j : Nat} (h : j < bs.length) :
    (biphase level bs).getD (2 * j) false = !(level :: biphase level bs).getD (2 * j) false := by
  induction bs generalizing level j with
  | nil => cases h
  | cons b bs ih =>
    cases j with
    | zero => rfl
    | succ j => exact ih _ (Nat.lt_of_succ_lt_succ h)

/-- R131: the two half-cells of a cell differ exactly for a 1. -/
theorem biphase_cell (level : Bool) (bs : List Bool) {j : Nat} (h : j < bs.length) :
    ((biphase level bs).getD (2 * j) false != (biphase level bs).getD (2 * j + 1) false) = bs.getD j false := by
  induction bs generalizing level j with
  | nil => cases h
  | cons b bs ih =>
    cases j with
    | zero => cases b <;> cases level <;> rfl
    | succ j => exact ih _ (Nat.lt_of_succ_lt_succ h)

/-! ## Cells -/

section
variable (x : Int) (invalid status : Bool)

@[simp] theorem sampleBits_length : (sampleBits x).length = 24 := by simp [sampleBits]

@[simp] theorem subframeCells_length : (subframeCells x invalid status).length = 28 := by
  simp [subframeCells]

/-- R130: the sample comes first, most significant bit first. -/
theorem subframeCells_sample {j : Nat} (h : j < 24) :
    (subframeCells x invalid status).getD j false = (BitVec.ofInt 24 x).getMsbD j := by
  have inBits : j < (sampleBits x).length := by rwa [sampleBits_length]
  rw [subframeCells, List.append_assoc, List.getD_append _ _ _ _ inBits]
  simp [sampleBits, h]

/-- R130: after the sample come validity, user bit and status bit. -/
theorem subframeCells_flags (k : Fin 3) :
    (subframeCells x invalid status).getD (24 + k.val) false = [invalid, false, status].getD k.val false := by
  have past : (sampleBits x).length ≤ 24 + k.val := by simp
  rw [subframeCells, List.append_assoc, List.getD_append_right _ _ _ _ past, sampleBits_length, Nat.add_sub_cancel_left]
  exact List.getD_append _ _ _ _ k.isLt

/-- R130: the parity cell makes the number of ones even. -/
theorem subframeCells_parity : ((subframeCells x invalid status).filter id).length % 2 = 0 := by
  unfold subframeCells
  dsimp only
  generalize sampleBits x ++ [invalid, false, status] = body
  rw [List.filter_append, List.length_append]
  by_cases odd : (body.filter id).length % 2 = 1
  · simp [odd]; omega
  · simp [odd]; omega

/-! ## Subframes -/

variable (level : Bool) (p : Preamble)

theorem Preamble.halves_length : p.halves.length = 8 := by cases p <;> rfl

@[simp] theorem subframe_length : (subframe level p x invalid status).length = 64 := by
  simp [subframe, Preamble.halves_length]

/-- R131: the preamble, against the level held before it. -/
theorem subframe_preamble {j : Nat} (h : j < 8) :
    (subframe level p x invalid status).getD j false = (p.halves.getD j false != level) := by
  have inPreamble : j < (p.halves.map fun h => if h then !level else level).length := by simpa [Preamble.halves_length]
  rw [subframe, List.getD_append _ _ _ _ inPreamble]
  simp [Preamble.halves_length, h]
  cases p.halves[j]'(by simpa [Preamble.halves_length]) <;> cases level <;> rfl

/-- R131: the cells follow the preamble, from the level of its last half-cell. -/
theorem subframe_cells : ∃ held, ∀ i, (subframe level p x invalid status).getD (i + 7) false
    = (held :: biphase held (subframeCells x invalid status)).getD i false := by
  refine ⟨(p.halves.map fun h => if h then !level else level).getLastD level, fun i => ?_⟩
  cases p <;> cases i <;> rfl

/-- R131: the level changes where each cell begins. -/
theorem subframe_edge {j : Nat} (h : j < 28) :
    (subframe level p x invalid status).getD (8 + 2 * j) false
      = !(subframe level p x invalid status).getD (7 + 2 * j) false := by
  obtain ⟨held, cells⟩ := subframe_cells x invalid status level p
  rw [show 8 + 2 * j = (2 * j + 1) + 7 by omega, show 7 + 2 * j = 2 * j + 7 by omega, cells, cells]
  exact biphase_edge held _ (by simpa using h)

/-- R131: the two half-cells of each cell differ exactly for a 1. -/
theorem subframe_cell {j : Nat} (h : j < 28) :
    ((subframe level p x invalid status).getD (8 + 2 * j) false
        != (subframe level p x invalid status).getD (9 + 2 * j) false)
      = (subframeCells x invalid status).getD j false := by
  obtain ⟨held, cells⟩ := subframe_cells x invalid status level p
  rw [show 8 + 2 * j = (2 * j + 1) + 7 by omega, show 9 + 2 * j = (2 * j + 1 + 1) + 7 by omega, cells, cells]
  exact biphase_cell held _ (by simpa using h)
end

/-! ## What a list of half-cells says -/

/-- `half` gives the 64 half-cells of a subframe sent from the level `before`, as R130 and R131 have them. -/
def spellsSubframe (half : Nat → Bool) (before : Bool) (preamble : List Bool) (x : Int)
    (invalid status : Bool) : Prop :=
  let cell := fun j : Nat => half (8 + 2 * j) != half (9 + 2 * j)
  (∀ j, j < 8 → half j = (preamble.getD j false != before))
    ∧ (∀ j, j < 28 → half (8 + 2 * j) = !half (7 + 2 * j))
    ∧ (∀ j, j < 24 → cell j = (BitVec.ofInt 24 x).getMsbD j)
    ∧ cell 24 = invalid ∧ cell 25 = false ∧ cell 26 = status
    ∧ ((List.range 28).filter cell).length % 2 = 0

theorem filter_range_getD (l : List Bool) :
    ((List.range l.length).filter fun j => l.getD j false).length = (l.filter id).length := by
  have spelled : (List.range l.length).map (fun j => l.getD j false) = l := by
    refine List.ext_getElem (by simp) fun j _ h => ?_
    simp [h]
  calc ((List.range l.length).filter fun j => l.getD j false).length
      = (((List.range l.length).map fun j => l.getD j false).filter id).length := by
        rw [List.filter_map, List.length_map]; rfl
    _ = (l.filter id).length := by rw [spelled]

/-- R130, R131: a subframe is its preamble and 28 cells in biphase. -/
theorem subframe_spells {half : Nat → Bool} {level : Bool} {p : Preamble} {x : Int} {invalid status : Bool}
    (sent : ∀ k, k < 64 → half k = (subframe level p x invalid status).getD k false) :
    spellsSubframe half level p.halves x invalid status := by
  have cell {j : Nat} (h : j < 28) :
      (half (8 + 2 * j) != half (9 + 2 * j)) = (subframeCells x invalid status).getD j false := by
    rw [sent _ (by omega), sent _ (by omega)]
    exact subframe_cell x invalid status level p h
  have flags := subframeCells_flags x invalid status
  refine ⟨fun j h => ?_, fun j h => ?_, fun j h => ?_, (cell (by omega)).trans (flags 0),
    (cell (by omega)).trans (flags 1), (cell (by omega)).trans (flags 2), ?_⟩
  · rw [sent j (by omega), subframe_preamble x invalid status level p h]
  · rw [sent _ (by omega), sent _ (by omega), subframe_edge x invalid status level p h]
  · exact (cell (by omega)).trans (subframeCells_sample x invalid status h)
  · have cells : (List.range 28).filter (fun j => half (8 + 2 * j) != half (9 + 2 * j))
        = (List.range 28).filter fun j => (subframeCells x invalid status).getD j false :=
      List.filter_congr fun j mem => cell (List.mem_range.1 mem)
    have count := filter_range_getD (subframeCells x invalid status)
    rw [subframeCells_length] at count
    rw [cells, count]
    exact subframeCells_parity x invalid status

/-! ## Frames -/

theorem getD_last {l : List Bool} {n : Nat} (h : l.length = n + 1) (d e : Bool) : l.getD n d = l.getLastD e := by
  rw [List.getLastD_eq_getLast?, List.getLast?_eq_getElem?, h]
  simp [h]

section
variable (level : Bool) (count : Nat) (l r : Int) (invalid status : Bool)

@[simp] theorem recordFrameHalves_length : (recordFrameHalves level count l r invalid status).length = 128 := by
  simp [recordFrameHalves]

/-- R131: the first subframe of a frame, from the level held before it. -/
theorem recordFrameHalves_left : spellsSubframe
    (fun k => (recordFrameHalves level count l r invalid status).getD k false) level
    (if count = 0 then Preamble.start else .left).halves l invalid status := by
  refine subframe_spells fun k h => ?_
  exact List.getD_append _ _ _ _ (by simpa using h)

/-- R131: the second subframe of a frame, from the level of the first one's end. -/
theorem recordFrameHalves_right : spellsSubframe
    (fun k => (recordFrameHalves level count l r invalid status).getD (64 + k) false)
    ((recordFrameHalves level count l r invalid status).getD 63 false) Preamble.right.halves r invalid status := by
  have before : (recordFrameHalves level count l r invalid status).getD 63 false
      = (subframe level (if count = 0 then .start else .left) l invalid status).getLastD level := by
    rw [recordFrameHalves, List.getD_append _ _ _ _ (by simp)]
    exact getD_last (by simp) false level
  rw [before]
  refine subframe_spells fun k h => ?_
  rw [recordFrameHalves, List.getD_append_right _ _ _ _ (by simp), subframe_length, Nat.add_sub_cancel_left]
end

/-! ## What a frame carries -/

variable {s : State}

/-- R134 to R136: the frame of its source's block that the link sends next, if it has one. -/
def nextFrame (s : State) : Option (Int × Int) :=
  if s.ou.link.source = .main then (if s.sc.st = .playing then s.ou.link.mainBlock.head? else none)
  else if s.ou.link.following then s.ou.link.portBlock.head? else none

/-- R134 to R136, log entry 20: with no frame the link sends zeros that are not valid. -/
theorem recordContent_eq (h : s.ou.link.source ≠ .off) : recordContent s
    = ((nextFrame s).getD (0, 0),
        (nextFrame s).isNone || (decide (s.ou.link.source ≠ .main) && s.ou.link.portInvalid)) := by
  unfold recordContent nextFrame
  cases source : s.ou.link.source
  case off => exact absurd source h
  case main =>
    cases block : s.ou.link.mainBlock
    case nil => simp
    case cons x xs => by_cases playing : s.sc.st = .playing <;> simp [playing]
  case port p =>
    cases block : s.ou.link.portBlock
    case nil => simp
    case cons x xs => by_cases following : s.ou.link.following <;> simp [following]

/-- R132: what a START does with the pending status record. -/
theorem startSwap_eq (k : RecordLink) :
    let starts := decide (k.count = 0) && k.pendingFlag
    startSwap k = { k with
      active := if starts then k.pending else k.active, pendingFlag := k.pendingFlag && !starts } := by
  intro starts
  by_cases start : k.count = 0 ∧ k.pendingFlag
  · have starting : starts = true := by simpa [starts] using start
    rw [startSwap, if_pos start, starting]; simp
  · have goesOn : starts = false := by
      rw [← Bool.not_eq_true]; simpa [starts] using start
    rw [startSwap, if_neg start, goesOn]; simp

/-- Log entry 52: a frame sent leaves the block of its source. -/
theorem dropSentFrame_eq {k : RecordLink} (h : k.source ≠ .off) : dropSentFrame k
    = { k with
        mainBlock := if k.source = .main then k.mainBlock.drop 1 else k.mainBlock,
        portBlock := if k.source = .main then k.portBlock else k.portBlock.drop 1 } := by
  unfold dropSentFrame
  cases source : k.source
  case off => exact absurd source h
  all_goals simp

/-- R131, R132: the half-cells of the frame the link sends in this state. -/
def frameHalves (s : State) : List Bool :=
  recordFrameHalves s.ou.link.level s.ou.link.count (recordContent s).1.1 (recordContent s).1.2 (recordContent s).2
    ((startSwap s.ou.link).active.getLsbD s.ou.link.count)

/-- R131, R132: RECORD_FRAME with a source. -/
theorem recordFrame_link (h : s.ou.link.source ≠ .off) :
    let starts := decide (s.ou.link.count = 0) && s.ou.link.pendingFlag
    recordFrameWork s = s.mapOu fun ou => { ou with link := { s.ou.link with
      count := (s.ou.link.count + 1) % 128,
      active := if starts then s.ou.link.pending else s.ou.link.active,
      pendingFlag := s.ou.link.pendingFlag && !starts,
      level := (frameHalves s).getLastD s.ou.link.level, sent := frameHalves s,
      mainBlock := if s.ou.link.source = .main then s.ou.link.mainBlock.drop 1 else s.ou.link.mainBlock,
      portBlock := if s.ou.link.source = .main then s.ou.link.portBlock else s.ou.link.portBlock.drop 1 } } := by
  intro starts
  have swap := startSwap_eq s.ou.link
  have source : (startSwap s.ou.link).source ≠ .off := by rw [swap]; exact h
  unfold recordFrameWork mapLink State.mapOu frameHalves
  rw [if_neg h]
  dsimp only
  rw [dropSentFrame_eq source, swap]

/-- R130 to R132, R134 to R136: a frame of the record link. -/
theorem recordFrame_sends (high : s.resetLow = false) : ∃ t, exec .recordFrame s = .next t
    ∧ (s.ou.link.source = .off → t.kept = s.kept)
    ∧ (s.ou.link.source ≠ .off →
        (let starts := decide (s.ou.link.count = 0) && s.ou.link.pendingFlag
         t.kept = { s.kept with ou := { s.ou with link := { s.ou.link with
           count := (s.ou.link.count + 1) % 128,
           active := if starts then s.ou.link.pending else s.ou.link.active,
           pendingFlag := s.ou.link.pendingFlag && !starts,
           level := t.ou.link.level, sent := t.ou.link.sent, mainBlock := t.ou.link.mainBlock,
           portBlock := t.ou.link.portBlock } } }
         ∧ t.ou.link.sent.length = 128 ∧ t.ou.link.sent.getLast? = some t.ou.link.level
         ∧ t.ou.link.mainBlock =
             (if s.ou.link.source = .main then s.ou.link.mainBlock.drop 1 else s.ou.link.mainBlock)
         ∧ t.ou.link.portBlock =
             (if s.ou.link.source = .main then s.ou.link.portBlock else s.ou.link.portBlock.drop 1)
         ∧ t.ou.link.sent = frameHalves s ∧ t.ou.link.active = (startSwap s.ou.link).active)) := by
  refine ⟨_, live_ready recordFrameWork high, fun off => ?_, fun on => ?_⟩
  · rw [recordFrameWork, if_pos off, kept_finish]
  · intro starts
    rw [recordFrame_link on, finish_ou, kept_finish]
    have length : (frameHalves s).length = 128 := recordFrameHalves_length ..
    have last : (frameHalves s).getLast? = some ((frameHalves s).getLastD s.ou.link.level) := by
      rw [List.getLastD_eq_getLast?]
      cases ends : (frameHalves s).getLast?
      · rw [List.getLast?_eq_none_iff.1 ends] at length; cases length
      · rfl
    exact ⟨rfl, length, last, rfl, rfl, rfl, by rw [startSwap_eq]; rfl⟩

/-- R130, R131, R134 to R136: each subframe of the frame that is sent spells its sample of the next frame. -/
theorem frameHalves_spell (on : s.ou.link.source ≠ .off) (n : Fin 2) : spellsSubframe
    (fun k => (frameHalves s).getD (64 * n.val + k) false)
    (if n = 0 then s.ou.link.level else (frameHalves s).getD 63 false)
    (if n = 1 then [true, true, true, true, false, false, true, false]
      else if s.ou.link.count = 0 then [true, true, true, true, false, false, false, true]
      else [true, true, true, true, false, true, false, false])
    (((nextFrame s).map fun x => if n = 0 then x.1 else x.2).getD 0)
    ((nextFrame s).isNone || (decide (s.ou.link.source ≠ .main) && s.ou.link.portInvalid))
    ((startSwap s.ou.link).active.getLsbD s.ou.link.count) := by
  unfold frameHalves
  rw [recordContent_eq on]
  match n with
  | 0 =>
    have left : ((nextFrame s).getD (0, 0)).1 = ((nextFrame s).map fun x => x.1).getD 0 := by
      cases nextFrame s <;> rfl
    have preamble : (if s.ou.link.count = 0 then Preamble.start else .left).halves
        = if s.ou.link.count = 0 then [true, true, true, true, false, false, false, true]
          else [true, true, true, true, false, true, false, false] := by
      split <;> rfl
    have spelled := recordFrameHalves_left s.ou.link.level s.ou.link.count ((nextFrame s).getD (0, 0)).1
      ((nextFrame s).getD (0, 0)).2
      ((nextFrame s).isNone || (decide (s.ou.link.source ≠ .main) && s.ou.link.portInvalid))
      ((startSwap s.ou.link).active.getLsbD s.ou.link.count)
    simpa [left, preamble] using spelled
  | 1 =>
    have right : ((nextFrame s).getD (0, 0)).2 = ((nextFrame s).map fun x => x.2).getD 0 := by
      cases nextFrame s <;> rfl
    have spelled := recordFrameHalves_right s.ou.link.level s.ou.link.count ((nextFrame s).getD (0, 0)).1
      ((nextFrame s).getD (0, 0)).2
      ((nextFrame s).isNone || (decide (s.ou.link.source ≠ .main) && s.ou.link.portInvalid))
      ((startSwap s.ou.link).active.getLsbD s.ou.link.count)
    simpa [right, Preamble.halves] using spelled

end Sys2Proof.Machine
end

