-- ==== Sys2Proof/Proofs/OutputFrames.lean ====
section
/-! SUPPORT. The two-channel fold (R134), and what the lanes and the record link send. -/

namespace Sys2Proof.Machine

/-! ## The two-channel fold (R134) -/

theorem addChan_at {a b : Chan} {j : Nat} {x y : Int} (ha : a[j]? = some x) (hb : b[j]? = some y) :
    (addChan a b)[j]? = some (x + y) := by
  simp [addChan, List.getElem?_zipWith, ha, hb]

theorem map_at {a : Chan} (f : Int → Int) {j : Nat} {x : Int} (ha : a[j]? = some x) : (a.map f)[j]? = some (f x) := by
  simp [ha]

/-- R79, R134: a frame of a folded channel. -/
theorem downmixSum_at {front centre side back : Chan} {j : Nat} {w x y z : Int} (hw : front[j]? = some w)
    (hx : centre[j]? = some x) (hy : side[j]? = some y) (hz : back[j]? = some z) :
    (downmixSum front centre side back)[j]? = some (w + kShare x + kShare y + kShare z) :=
  addChan_at (addChan_at (addChan_at hw (map_at kShare hx)) (map_at kShare hy)) (map_at kShare hz)

theorem downmixSum_length {front centre side back : Chan} (hw : front.length = 32) (hx : centre.length = 32)
    (hy : side.length = 32) (hz : back.length = 32) : (downmixSum front centre side back).length = 32 := by
  simp [downmixSum, addChan, hw, hx, hy, hz]

/-- R134: the two-channel fold of a block of 32 frames. -/
theorem mainFold_spec (b : RenderBlock) (h : ∀ i : Fin 8, b.chans[i].length = 32) :
    let x := fun (i : Fin 8) (j : Fin 32) => b.chans[i].getD j.val 0
    let share := fun v : Int => v * 23170 / 32768
    (mainFold b).length = 32
      ∧ ∀ j : Fin 32, (mainFold b)[j.val]? = some
          (sat24 (x 0 j + share (x 2 j) + share (x 4 j) + share (x 6 j)) / 2,
           sat24 (x 1 j + share (x 2 j) + share (x 5 j) + share (x 7 j)) / 2) := by
  intro x share
  have sample (i : Fin 8) (j : Fin 32) : b.chans[i][j.val]? = some (x i j) := by
    have inBlock : j.val < b.chans[i].length := by rw [h]; exact j.isLt
    simp only [x, List.getD_eq_getElem?_getD, List.getElem?_eq_getElem inBlock, Option.getD_some]
  constructor
  · simp only [mainFold, List.length_zip, List.length_map]
    have left : (downmixSum b.chans[0] b.chans[2] b.chans[4] b.chans[6]).length = 32 :=
      downmixSum_length (h 0) (h 2) (h 4) (h 6)
    have right : (downmixSum b.chans[1] b.chans[2] b.chans[5] b.chans[7]).length = 32 :=
      downmixSum_length (h 1) (h 2) (h 5) (h 7)
    rw [left, right, Nat.min_self]
  · intro j
    have left := map_at (fun x => asr (sat24 x) 1) (downmixSum_at (sample 0 j) (sample 2 j) (sample 4 j) (sample 6 j))
    have right := map_at (fun x => asr (sat24 x) 1) (downmixSum_at (sample 1 j) (sample 2 j) (sample 5 j) (sample 7 j))
    exact List.getElem?_zip_eq_some.2 ⟨left, right⟩

/-! ## The steps -/

/-- R2, R123, R125: what the slots of a lane frame carry. -/
theorem laneFrame_slots (s : State) (l : Fin 2) (n : Fin 8) :
    let carried := (laneSlots s s.ou.lanes[l])[n.val]?
    (s.ou.lanes[l].active.getLsbD n.val = false → carried = some 0)
      ∧ (s.ou.lanes[l].map[n] = none → carried = some 0)
      ∧ (∀ i p, s.ou.lanes[l].map[n] = some i → s.ou.pairs[i] = some p →
          (s.ap[p].st = .shutdown ∨ s.ap[p].st = .recovering) → carried = some 0)
      ∧ (∀ i xs, s.ou.lanes[l].active.getLsbD n.val = true → s.ou.lanes[l].map[n] = some i →
          (∀ p, s.ou.pairs[i] = some p → s.ap[p].st ≠ .shutdown ∧ s.ap[p].st ≠ .recovering) →
          s.ou.delayed[i] = some xs →
          carried = some (BitVec.ofInt 32 (256 * xs.getD s.ou.lanes[l].count 0))) := by
  intro carried
  have word : carried = some (slotWord (slotValue s s.ou.lanes[l] n)) := laneSlots_getElem? _ n
  have silent (zero : slotValue s s.ou.lanes[l] n = 0) : carried = some 0 := by rw [word, zero, slotWord_zero]
  refine ⟨fun disabled => silent (slotValue_of_disabled disabled),
    fun unmapped => silent (slotValue_of_unmapped unmapped), fun i p mapped pair st => silent (slotValue_of_silenced mapped pair st), fun i xs enabled mapped st delayed => ?_⟩
  rw [word, slotValue_of_sounding enabled mapped st delayed, slotWord_eq]

/-- Settles O51, clause by clause: a lane frame, a record frame, the fold, and the three steps that give the record link
its blocks or take them. -/
theorem laneAndRecordFramesAreSent : Obligations.LaneAndRecordFramesAreSent := by
  unfold Obligations.LaneAndRecordFramesAreSent
  refine ⟨fun s l high => ?_, fun s high => ?_, mainFold_spec, fun s cmd => boundary_mainBlock,
    fun s p bits fmt c high source lock length => portFrame_link bits fmt high source lock length,
    fun s => rateWindowEnd_ou⟩
  · obtain ⟨t, run, idle, sends⟩ := laneFrame_sends l high
    refine ⟨t, run, idle, fun running count => ?_⟩
    obtain ⟨kept, sent⟩ := sends running count
    rw [sent] at kept ⊢
    exact ⟨kept, by simp [laneSlots, speakerIds], laneFrame_slots s l⟩
  · obtain ⟨t, run, off, sends⟩ := recordFrame_sends high
    refine ⟨t, run, off, fun on => ?_⟩
    obtain ⟨kept, length, last, main, port, sent, active⟩ := sends on
    refine ⟨kept, length, last, main, port, fun n => ?_⟩
    rw [sent, active]
    exact frameHalves_spell on n

end Sys2Proof.Machine
end

