-- ==== Sys2Proof/Proofs/IdleStep.lean ====
section
/-! SUPPORT. One idle period of REF_CLK (R10, R26, R161). -/

namespace Sys2Proof.Machine

theorem step_idle {s : State} (h : s.pending = []) : step s = .next (clockTick s) := by
  unfold step; rw [h]

theorem clockTick_low {s : State} (h : s.resetLow = true) : clockTick s = s := if_pos h

theorem clockTick_high {s : State} (h : s.resetLow = false) : clockTick s
    = { s with sc := { s.sc with timer := s.sc.timer.tick }, tc := { s.tc with settle := s.tc.settle.tick },
               clock := { s.clock with windowPos := windowTick s.clock.windowPos } } := by
  unfold clockTick; rw [h]; rfl

/-- R26: a period counts a hold timer down by one exactly when it runs and is not suspended. -/
theorem HoldTimer.tick_eq (t : HoldTimer) : t.tick
    = { t with remaining := t.remaining - (if t.running = true ∧ t.suspended = false then 1 else 0) } := by
  by_cases counts : t.running = true ∧ t.suspended = false
  · rw [if_pos counts, HoldTimer.tick, if_pos (by simpa using counts)]
  · rw [if_neg counts, HoldTimer.tick, if_neg (by simpa using counts), Nat.sub_zero]

/-- R161: a period counts a settle timer down by one exactly when it runs. -/
theorem SettleTimer.tick_eq (t : SettleTimer) : t.tick
    = { t with remaining := t.remaining - (if t.running = true then 1 else 0) } := by
  by_cases counts : t.running = true
  · rw [if_pos counts, SettleTimer.tick, if_pos counts]
  · rw [if_neg counts, SettleTimer.tick, if_neg counts, Nat.sub_zero]

/-- Settles O2: with RESET_N high the idle period is one value of the model, and each timer has its equation. -/
theorem idleStepPassesOnePeriod : Obligations.IdleStepPassesOnePeriod := by
  unfold Obligations.IdleStepPassesOnePeriod
  refine fun s idle => ⟨_, step_idle idle, clockTick_low, fun high => ?_⟩
  rw [clockTick_high high]
  exact ⟨rfl, rfl, rfl, HoldTimer.tick_eq _, rfl, SettleTimer.tick_eq _⟩

end Sys2Proof.Machine
end

