-- ==== Sys2Proof/Proofs/RecordEffects.lean ====
section
/-! SUPPORT. Records that complete at once (R196): the parameter words they are read from, and the one argument that
every such record shares. -/

namespace Sys2Proof.Machine

/-! ## Parameter words (R202) -/

theorem finOf_of_eq {n : Nat} {w : Word} {i : Fin n} (h : w.toNat = i.val) : finOf n w = some i := by
  unfold finOf
  rw [dif_pos (h ▸ i.isLt)]
  exact congrArg some (Fin.ext h)

theorem finOf_of_le {n : Nat} {w : Word} (h : n ≤ w.toNat) : finOf n w = none := dif_neg (Nat.not_lt.2 h)

theorem toNat_widened (x : BitVec 16) : (x.setWidth 32).toNat = x.toNat :=
  BitVec.toNat_setWidth_of_le (by decide)

theorem pathOf_of_le {n : Nat} (h : 3 ≤ n) : pathOf n = none := by
  obtain ⟨k, rfl⟩ := Nat.exists_eq_add_of_le' h
  rfl

theorem preferenceOf_of_le {n : Nat} (h : 5 ≤ n) : preferenceOf n = none := by
  obtain ⟨k, rfl⟩ := Nat.exists_eq_add_of_le' h
  rfl

theorem presenceOf_of_le {n : Nat} (h : 4 ≤ n) : presenceOf n = none := by
  obtain ⟨k, rfl⟩ := Nat.exists_eq_add_of_le' h
  rfl

theorem bandOf_of_le {n : Nat} (h : 2 ≤ n) : bandOf n = none := by
  obtain ⟨k, rfl⟩ := Nat.exists_eq_add_of_le' h
  rfl

/-- R202: no small number is the word NONE. -/
theorem ne_noneWord {w : Word} (h : w.toNat < 256) : w ≠ noneWord := by
  rintro rfl
  exact absurd h (by decide)

/-! ## Records that complete at once -/

/-- R196: the record `i` of a ready Command Unit, whose owner's work `f` leaves `u` and completes with `r`. The owner
touches neither the Command Unit nor what a report is made from. -/
theorem record_completes {s u : State} {k : Kept} {i : Instr} {tag kind : BitVec 16} {r : ResultCode}
    {f : State → State} (ready : s.ready) (runs : exec i s = live (takeRecord tag kind f) s)
    (effect : f (beginCommand tag kind s) = complete r u) (kept : u.kept = k)
    (cu : u.cu = (beginCommand tag kind s).cu) (stamp : u.clock.stamp = s.clock.stamp) (pu : u.pu = s.pu) :
    ∃ t, exec i s = .next t ∧ t.kept = k ∧ s.completedAtOnce t tag kind r := by
  refine ⟨_, runs.trans (record_ready tag kind f ready), ?_, ?_⟩
  · rw [kept_finish, effect, kept_complete, kept]
  · rw [effect]
    exact complete_atOnce r cu stamp (by rw [pu]) (by rw [pu]) (by rw [pu])

/-- R196: the record `i` of a ready Command Unit, refused by its owner `f`. -/
theorem record_refused {s : State} {i : Instr} {tag kind : BitVec 16} {r : ResultCode} {f : State → State}
    (ready : s.ready) (runs : exec i s = live (takeRecord tag kind f) s)
    (effect : f (beginCommand tag kind s) = complete r (beginCommand tag kind s)) :
    ∃ t, exec i s = .next t ∧ t.kept = s.kept ∧ s.completedAtOnce t tag kind r :=
  record_completes ready runs effect rfl rfl rfl rfl

end Sys2Proof.Machine
end

