-- ==== Sys2Proof/Proofs/SourceCommands.lean ====
section
/-! SUPPORT. CONFIG_SOURCE and SELECT_SOURCE (R17, R20), case by case. -/

namespace Sys2Proof.Machine

section
variable {s : State} {id port path : BitVec 16} {valid : Bool} {pref trim lip fb hold w : Word} {i : Fin 8}

theorem sourceInUse_iff : sourceInUse s i = true ↔ s.sc.connected = some i ∨ s.sc.target = .source i := by
  simp [sourceInUse]

theorem sourceInUse_false (connected : s.sc.connected ≠ some i) (target : s.sc.target ≠ .source i) :
    sourceInUse s i = false := by
  rw [← Bool.not_eq_true, sourceInUse_iff]
  exact not_or.2 ⟨connected, target⟩

/-- R17: the fallback parameter. -/
theorem fallbackOf_eq {f : Option (Fin 8)}
    (h : match f with
      | none => fb = 0xFFFFFFFF
      | some j => fb.toNat = j.val) : fallbackOf fb = some f := by
  cases f with
  | none => exact if_pos h
  | some j =>
    have h : fb.toNat = j.val := h
    rw [fallbackOf, if_neg (ne_noneWord (by omega)), finOf_of_eq h]
    rfl

theorem fallbackOf_of_le (h : 8 ≤ fb.toNat) (some : fb ≠ noneWord) : fallbackOf fb = none := by
  rw [fallbackOf, if_neg some, finOf_of_le h]
  rfl

theorem sourceOf_eq {p : Fin 6} {c : PathChoice} {d : Preference} {f : Option (Fin 8)} (hport : port.toNat = p.val)
    (hpath : pathOf path.toNat = some c) (hpref : preferenceOf pref.toNat = some d) (hfb : fallbackOf fb = some f) :
    sourceOf port path pref trim lip fb hold
      = some { valid := true, port := p, path := c, preference := d, trim := min 24 trim.toNat,
               lipSync := min 100 lip.toNat, fallback := f, holdTime := min 100 hold.toNat } := by
  have hport : finOf 6 (port.setWidth 32) = some p := finOf_of_eq ((toNat_widened port).trans hport)
  simp only [sourceOf, hport, hpath, hpref, hfb]

/-- R17: a parameter out of its set names no entry. -/
theorem sourceOf_none
    (h : 6 ≤ port.toNat ∨ 3 ≤ path.toNat ∨ 5 ≤ pref.toNat ∨ (8 ≤ fb.toNat ∧ fb ≠ 0xFFFFFFFF)) :
    sourceOf port path pref trim lip fb hold = none := by
  unfold sourceOf
  split
  · rename_i hport hpath hpref hfb
    rcases h with h | h | h | ⟨h, some⟩
    · rw [finOf_of_le ((toNat_widened port).symm ▸ h)] at hport; cases hport
    · rw [pathOf_of_le h] at hpath; cases hpath
    · rw [preferenceOf_of_le h] at hpref; cases hpref
    · rw [fallbackOf_of_le h some] at hfb; cases hfb
  · rfl

/-! ## CONFIG_SOURCE -/

theorem configSourceEffect_outside (h : 8 ≤ id.toNat) :
    configSourceEffect id valid port path pref trim lip fb hold s = complete .refusedRange s := by
  rw [configSourceEffect, finOf_of_le ((toNat_widened id).symm ▸ h)]

theorem configSourceEffect_inUse (h : id.toNat = i.val) (used : sourceInUse s i = true) :
    configSourceEffect id valid port path pref trim lip fb hold s = complete .refusedState s := by
  have entry : finOf 8 (id.setWidth 32) = some i := finOf_of_eq ((toNat_widened id).trans h)
  simp only [configSourceEffect, entry, used, if_true]

theorem configSourceEffect_cleared (h : id.toNat = i.val) (free : sourceInUse s i = false) :
    configSourceEffect id false port path pref trim lip fb hold s
      = complete .done (writeSource i Source.cleared s) := by
  have entry : finOf 8 (id.setWidth 32) = some i := finOf_of_eq ((toNat_widened id).trans h)
  simp only [configSourceEffect, entry, free, Bool.false_eq_true, Bool.not_false, if_true, if_false]

theorem configSourceEffect_refused (h : id.toNat = i.val) (free : sourceInUse s i = false)
    (bad : sourceOf port path pref trim lip fb hold = none) :
    configSourceEffect id true port path pref trim lip fb hold s = complete .refusedRange s := by
  have entry : finOf 8 (id.setWidth 32) = some i := finOf_of_eq ((toNat_widened id).trans h)
  simp only [configSourceEffect, entry, free, bad, Bool.false_eq_true, Bool.not_true, if_false]

theorem configSourceEffect_written {src : Source} (h : id.toNat = i.val) (free : sourceInUse s i = false)
    (good : sourceOf port path pref trim lip fb hold = some src) :
    configSourceEffect id true port path pref trim lip fb hold s
      = complete (if 24 < trim.toNat ∨ 100 < lip.toNat ∨ 100 < hold.toNat then .clamped else .done)
          (writeSource i src s) := by
  have entry : finOf 8 (id.setWidth 32) = some i := finOf_of_eq ((toNat_widened id).trans h)
  simp only [configSourceEffect, entry, free, good, Bool.false_eq_true, Bool.not_true, if_false]

/-! ## SELECT_SOURCE -/

theorem selectSourceEffect_source (h : w.toNat = i.val) : selectSourceEffect w s
    = if s.sc.table[i].valid then complete .accepted (selectByState (.source i) s) else complete .refusedEmpty s := by
  rw [selectSourceEffect, if_neg (ne_noneWord (by omega)), finOf_of_eq h]

theorem selectSourceEffect_none : selectSourceEffect 0xFFFFFFFF s
    = if s.sc.st = .idle then complete .done s else complete .accepted (selectByState .none s) := rfl

theorem selectSourceEffect_invalid (h : w.toNat = i.val) (invalid : s.sc.table[i].valid = false) :
    selectSourceEffect w s = complete .refusedEmpty s := by
  rw [selectSourceEffect_source h, invalid]
  rfl

theorem selectSourceEffect_outside (h : 8 ≤ w.toNat) (some : w ≠ noneWord) :
    selectSourceEffect w s = complete .refusedRange s := by
  rw [selectSourceEffect, if_neg some, finOf_of_le h]

/-- R20: what a selection that is not refused makes of the switch. -/
def SwitchUnit.selected (sc : SwitchUnit) (x : Target) : SwitchUnit :=
  match sc.st with
  | .idle => if x = .none then sc else { sc with target := x, connectRequest := true }
  | .acquire => { sc with target := x, connectRequest := true, timer := stoppedTimer }
  | .drain => { sc with target := x }
  | _ => { sc with st := .drain, target := x, cause := none, timer := stoppedTimer }

theorem selectByState_eq {x : Target} (h : ¬ (s.sc.st = .idle ∧ x = .none)) :
    selectByState x s = s.mapSc fun sc => sc.selected x := by
  cases st : s.sc.st
  case idle => simp_all [selectByState, SwitchUnit.selected, State.mapSc]
  all_goals simp [selectByState, SwitchUnit.selected, State.mapSc, enterDrain, st]

/-- R20: a selection that the rule accepts, or of NONE in IDLE. -/
theorem selectSourceEffect_eq {x : Target}
    (h : match x with
      | .absent => False
      | .none => w = 0xFFFFFFFF
      | .source i => w.toNat = i.val ∧ s.sc.table[i].valid = true) :
    selectSourceEffect w s = complete (if s.sc.st = .idle ∧ x = .none then .done else .accepted)
      (s.mapSc fun sc => sc.selected x) := by
  cases x with
  | absent => exact h.elim
  | none =>
    obtain rfl : w = 0xFFFFFFFF := h
    rw [selectSourceEffect_none]
    by_cases idle : s.sc.st = .idle
    · have same : (s.mapSc fun sc => sc.selected .none) = s := by
        simp [State.mapSc, SwitchUnit.selected, idle]
      rw [if_pos idle, if_pos ⟨idle, rfl⟩, same]
    · rw [if_neg idle, if_neg (idle ·.1), selectByState_eq (idle ·.1)]
  | source i =>
    obtain ⟨word, valid⟩ := h
    have some : ¬ (s.sc.st = .idle ∧ Target.source i = .none) := fun none => by cases none.2
    rw [selectSourceEffect_source word, if_pos valid, if_neg some, selectByState_eq some]

end

/-- Settles O14: each record is one that completes at once, with the effect of its rule. -/
theorem sourceCommandsSetTableAndTarget : Obligations.SourceCommandsSetTableAndTarget := by
  unfold Obligations.SourceCommandsSetTableAndTarget
  refine ⟨fun s tag id port path pref trim lip fb hold i p c d f ready connected target hid hport hpath hpref hfb =>
    ?_,
    fun s tag id port path pref trim lip fb hold i ready connected target hid => ?_, fun s tag w x ready named => ?_⟩
  · have written := sourceOf_eq (trim := trim) (lip := lip) (hold := hold) hport hpath hpref (fallbackOf_eq hfb)
    exact record_completes ready rfl (configSourceEffect_written hid (sourceInUse_false connected target) written)
      rfl rfl rfl rfl
  · exact record_completes ready rfl (configSourceEffect_cleared hid (sourceInUse_false connected target))
      rfl rfl rfl rfl
  · exact record_completes ready rfl (selectSourceEffect_eq named) rfl rfl rfl rfl

end Sys2Proof.Machine
end

