-- ==== Sys2Proof/Proofs/Refusals.lean ====
section
/-! SUPPORT. The checks by which a command record is refused (R91, R138, R147, R158, R160, R163, R169, R170, R185). -/

namespace Sys2Proof.Machine

section
variable {s : State}

/-! ## CONFIG_SPEAKER (R91) -/

section
variable {id presence distance trim lane slot pair : Word} {i : Fin 8}

/-- R91: PRESENT is for SW alone, and SMALL and LARGE are for the others. -/
theorem presenceFor_none
    (h : 4 ≤ presence.toNat ∨ (i = 3 ∧ (presence.toNat = 1 ∨ presence.toNat = 2))
      ∨ (i ≠ 3 ∧ presence.toNat = 3)) :
    presenceFor i presence = none := by
  unfold presenceFor
  rcases h with unknown | ⟨sw, small | large⟩ | ⟨other, present⟩
  · rw [presenceOf_of_le unknown]
  · simp [small, presenceOf, sw]
  · simp [large, presenceOf, sw]
  · simp [present, presenceOf, other]

theorem presenceFor_some {pr : Presence} (known : presenceOf presence.toNat = some pr)
    (suits : if i = 3 then pr = .present else pr = .small ∨ pr = .large) : presenceFor i presence = some pr := by
  unfold presenceFor
  rw [known]
  by_cases sw : i = 3
  · rw [if_pos sw] at suits
    simp [suits, sw]
  · rw [if_neg sw] at suits
    rcases suits with rfl | rfl <;> simp [sw]

theorem pairFor_of_le (h : 4 ≤ pair.toNat) (some : pair ≠ noneWord) : pairFor pair = none := by
  rw [pairFor, if_neg some, finOf_of_le h]
  rfl

theorem pairFor_isSome (h : pair.toNat < 4 ∨ pair = noneWord) : ∃ q, pairFor pair = some q := by
  rcases h with small | none
  · rw [pairFor, if_neg (ne_noneWord (by omega)), finOf_of_eq (i := ⟨pair.toNat, small⟩) rfl]
    exact ⟨_, rfl⟩
  · exact ⟨_, if_pos none⟩

/-- R91 checks 1 and 2. -/
theorem speakerOf_none
    (h : 8 ≤ id.toNat ∨ 4 ≤ presence.toNat ∨ 2 ≤ lane.toNat ∨ 8 ≤ slot.toNat
      ∨ (4 ≤ pair.toNat ∧ pair ≠ 0xFFFFFFFF)
      ∨ (id.toNat = 3 ∧ (presence.toNat = 1 ∨ presence.toNat = 2)) ∨ (id.toNat ≠ 3 ∧ presence.toNat = 3)) :
    speakerOf id presence distance trim lane slot pair = none := by
  rcases Nat.lt_or_ge id.toNat 8 with inside | outside
  · have entry : finOf 8 id = some ⟨id.toNat, inside⟩ := finOf_of_eq rfl
    have sw : (⟨id.toNat, inside⟩ : Fin 8) = 3 ↔ id.toNat = 3 := by simp [Fin.ext_iff]
    rw [speakerOf, entry]
    dsimp only
    split
    · rename_i hpresence hlane hslot hpair
      rcases h with h | h | h | h | ⟨h, some⟩ | h | h
      · omega
      · rw [presenceFor_none (.inl h)] at hpresence; cases hpresence
      · rw [finOf_of_le h] at hlane; cases hlane
      · rw [finOf_of_le h] at hslot; cases hslot
      · rw [pairFor_of_le h some] at hpair; cases hpair
      · rw [presenceFor_none (.inr (.inl (by rwa [sw])))] at hpresence; cases hpresence
      · rw [presenceFor_none (.inr (.inr (by rwa [Ne, sw])))] at hpresence; cases hpresence
    · rfl
  · rw [speakerOf, finOf_of_le outside]

theorem configSpeakerEffect_refused (h : speakerOf id presence distance trim lane slot pair = none) :
    configSpeakerEffect id presence distance trim lane slot pair s = complete .refusedRange s := by
  rw [configSpeakerEffect, h]

theorem speaker_mem (j : Fin 8) : j ∈ speakerIds := by revert j; decide

/-- R91 check 3. -/
theorem slotTaken_of {sp : Speaker} {j : Fin 8} (other : j ≠ i) (present : s.ru.speakers[j].presence ≠ .absent)
    (lane : s.ru.speakers[j].lane = sp.lane) (slot : s.ru.speakers[j].slot = sp.slot) : slotTaken s i sp = true :=
  List.any_eq_true.2 ⟨j, speaker_mem j, by
    simp only [speakerPresent, Speaker.isPresent, decide_eq_true other, decide_eq_true present, decide_eq_true lane,
      decide_eq_true slot, Bool.and_self]⟩

theorem configSpeakerEffect_overlap {j : Fin 8} {pr : Presence} {l : Fin 2} {t : Fin 8} (hid : id.toNat = i.val)
    (known : presenceOf presence.toNat = some pr)
    (suits : if i = 3 then pr = .present else pr = .small ∨ pr = .large) (hlane : lane.toNat = l.val)
    (hslot : slot.toNat = t.val) (hpair : pair.toNat < 4 ∨ pair = noneWord) (other : j ≠ i)
    (present : s.ru.speakers[j].presence ≠ .absent) (sameLane : s.ru.speakers[j].lane = l)
    (sameSlot : s.ru.speakers[j].slot = t) :
    configSpeakerEffect id presence distance trim lane slot pair s = complete .refusedOverlap s := by
  obtain ⟨q, hpair⟩ := pairFor_isSome hpair
  have entry : speakerOf id presence distance trim lane slot pair
      = some (i, { presence := pr, distance := min 300 distance.toNat, trim := min 24 trim.toNat, lane := l, slot := t,
                   pair := q }) := by
    simp only [speakerOf, finOf_of_eq hid, presenceFor_some known suits, finOf_of_eq hlane, finOf_of_eq hslot, hpair]
  have isPresent : pr ≠ .absent := by
    rintro rfl
    split at suits <;> simp at suits
  rw [configSpeakerEffect, entry]
  refine if_pos ?_
  rw [slotTaken_of other present sameLane sameSlot, Bool.and_true]
  exact decide_eq_true isPresent

end

/-! ## CONFIG_RECORD_OUT (R138), AMP_RECOVER (R147) -/

theorem configRecordOutEffect_refused {source port w0 w1 w2 w3 : Word}
    (h : 3 ≤ source.toNat ∨ (source.toNat = 2 ∧ 6 ≤ port.toNat)) :
    configRecordOutEffect source port w0 w1 w2 w3 s = complete .refusedRange s := by
  have bad : recordSourceOf source port = none := by
    unfold recordSourceOf
    rcases h with h | ⟨two, h⟩
    · obtain ⟨k, h⟩ := Nat.exists_eq_add_of_le' h
      rw [h]; rfl
    · simp only [two, finOf_of_le h]; rfl
  rw [configRecordOutEffect, bad]

theorem ampRecoverEffect_outside {w : Word} (h : 4 ≤ w.toNat) : ampRecoverEffect w s = complete .refusedRange s := by
  rw [ampRecoverEffect, finOf_of_le h]

theorem ampRecoverEffect_refused {w : Word} {p : Fin 4} (h : w.toNat = p.val) (st : s.ap[p].st ≠ .shutdown) :
    ampRecoverEffect w s = complete .refusedState s := by
  simp only [ampRecoverEffect, finOf_of_eq h, st, if_false]

/-! ## The tuner's commands (R158, R160, R163, R169, R170) -/

theorem word_eq_iff {w : Word} {n : Nat} (h : n < 2 ^ 32) : w = BitVec.ofNat 32 n ↔ w.toNat = n := by
  rw [← BitVec.toNat_inj, BitVec.toNat_ofNat, Nat.mod_eq_of_lt h]

theorem tunerConfigInRange_iff {a f m : Word} : tunerConfigInRange a f m = true
    ↔ a.toNat ≤ 127 ∧ (f.toNat = 50 ∨ f.toNat = 100 ∨ f.toNat = 200) ∧ (m.toNat = 9 ∨ m.toNat = 10) := by
  have value {w : Word} {n : Nat} (h : n < 2 ^ 32) := word_eq_iff (w := w) h
  simp only [tunerConfigInRange, Bool.and_eq_true, Bool.or_eq_true, decide_eq_true_eq, BitVec.ofNat_eq_ofNat,
    value (n := 50) (by decide), value (n := 100) (by decide), value (n := 200) (by decide),
    value (n := 9) (by decide), value (n := 10) (by decide), and_assoc, or_assoc]

theorem configTunerEffect_refused {a f m : Word} (h : ¬ tunerConfigInRange a f m = true) :
    configTunerEffect a f m s = complete .refusedRange s := if_pos (by simpa using h)

theorem configTunerEffect_busy {a f m : Word} (h : tunerConfigInRange a f m = true)
    (busy : s.tc.st = .tuning ∨ s.tc.st = .settling ∨ s.tc.st = .seeking) :
    configTunerEffect a f m s = complete .refusedBusy s := by
  have working : tunerBusy s = true := by simpa [tunerBusy, or_assoc] using busy
  rw [configTunerEffect, if_neg (by simp [h]), if_pos working]

theorem tuneEffect_refused {b c : Word} (h : 2 ≤ b.toNat) : tuneEffect b c s = complete .refusedRange s := by
  rw [tuneEffect, bandOf_of_le h]

theorem seekEffect_outside {d h : Word} (out : 2 ≤ d.toNat) : seekEffect d h s = complete .refusedRange s :=
  if_pos out

theorem seekEffect_noChannel {d h : Word} (inside : d.toNat ≤ 1) (none : s.tc.channel = none) :
    seekEffect d h s = complete .refusedState s := by
  rw [seekEffect, if_neg (Nat.not_lt.2 inside), none]

theorem seekEffect_busy {d h : Word} (inside : d.toNat ≤ 1) (some : s.tc.channel.isSome = true)
    (seeking : s.tc.st = .seeking) : seekEffect d h s = complete .refusedBusy s := by
  obtain ⟨c, channel⟩ := Option.isSome_iff_exists.1 some
  simp only [seekEffect, Nat.not_lt.2 inside, if_false, channel, seeking, if_true]

section
variable {e : Word}

theorem presetEffects_outside (h : 64 ≤ e.toNat) : recallPresetEffect e s = complete .refusedRange s
    ∧ storePresetEffect e s = complete .refusedRange s := by
  rw [recallPresetEffect, storePresetEffect, finOf_of_le h]
  exact ⟨rfl, rfl⟩

theorem presetEffects_noRegion (inside : e.toNat < 64) (h : s.pu.regions.preset = none) :
    recallPresetEffect e s = complete .refusedState s ∧ storePresetEffect e s = complete .refusedState s := by
  rw [recallPresetEffect, storePresetEffect, finOf_of_eq (i := ⟨e.toNat, inside⟩) rfl, h]
  exact ⟨rfl, rfl⟩

theorem storePresetEffect_untuned (inside : e.toNat < 64) (h : s.pu.regions.preset.isSome = true)
    (st : s.tc.st ≠ .tuned) : storePresetEffect e s = complete .refusedState s := by
  obtain ⟨r, region⟩ := Option.isSome_iff_exists.1 h
  rw [storePresetEffect, finOf_of_eq (i := ⟨e.toNat, inside⟩) rfl, region]
  exact if_neg st
end

/-! ## CONFIG_CAPTURE (R185) -/

theorem configCaptureEffect_refused {slot en tm tk vm vk : Word}
    (h : 8 ≤ slot.toNat ∨ 15 < tm.toNat ∨ 15 < tk.toNat ∨ 1 < vm.toNat ∨ 1 < vk.toNat) :
    configCaptureEffect slot en tm tk vm vk s = complete .refusedRange s := by
  rcases Nat.lt_or_ge slot.toNat 8 with inside | outside
  · rw [configCaptureEffect, finOf_of_eq (i := ⟨slot.toNat, inside⟩) rfl]
    exact if_pos (h.resolve_left (Nat.not_le.2 inside))
  · rw [configCaptureEffect, finOf_of_le outside]

end

/-- Settles O20: each check that fails makes its record's effect the completion alone. -/
theorem refusedCommandsChangeNothing : Obligations.RefusedCommandsChangeNothing := by
  unfold Obligations.RefusedCommandsChangeNothing
  intro s tag ready refuses
  have refused {i : Instr} {kind : BitVec 16} {r : ResultCode} {f : State → State}
      (effect : f (beginCommand tag kind s) = complete r (beginCommand tag kind s))
      (runs : exec i s = live (takeRecord tag kind f) s) : refuses i kind r := record_refused ready runs effect
  refine ⟨fun id port path valid pref trim lip fb hold h => refused (configSourceEffect_outside h) rfl,
    fun id port path valid pref trim lip fb hold i hid h =>
      refused (configSourceEffect_inUse hid (sourceInUse_iff.2 h)) rfl,
    fun id port path pref trim lip fb hold i hid connected target h =>
      refused (configSourceEffect_refused hid (sourceInUse_false connected target) (sourceOf_none h)) rfl,
    fun w h some => refused (selectSourceEffect_outside h some) rfl,
    fun w i h invalid => refused (selectSourceEffect_invalid h invalid) rfl,
    fun id presence distance trim lane slot pair h => refused (configSpeakerEffect_refused (speakerOf_none h)) rfl,
    fun id presence distance trim lane slot pair i j pr l t hid known suits hlane hslot hpair other present sameLane
        sameSlot =>
          refused (configSpeakerEffect_overlap hid known suits hlane hslot hpair other present sameLane sameSlot)
          rfl,
    fun source port w0 w1 w2 w3 h => refused (configRecordOutEffect_refused h) rfl,
    fun w h => refused (ampRecoverEffect_outside h) rfl,
    fun w p h st => refused (ampRecoverEffect_refused h st) rfl,
    fun a f m h => refused (configTunerEffect_refused ?_) rfl,
    fun a f m busy ha hf hm => refused (configTunerEffect_busy (tunerConfigInRange_iff.2 ⟨ha, hf, hm⟩) busy) rfl,
    fun b c h => refused (tuneEffect_refused h) rfl,
    fun d h out => refused (seekEffect_outside out) rfl,
    fun d h inside none => refused (seekEffect_noChannel inside none) rfl,
    fun d h inside some seeking => refused (seekEffect_busy inside some seeking) rfl,
    fun e h => ⟨refused (presetEffects_outside h).1 rfl, refused (presetEffects_outside h).2 rfl⟩,
    fun e inside h => ⟨refused (presetEffects_noRegion (s := beginCommand tag _ s) inside h).1 rfl,
      refused (presetEffects_noRegion (s := beginCommand tag _ s) inside h).2 rfl⟩,
    fun e inside h st => refused (storePresetEffect_untuned inside h st) rfl,
    fun slot en tm tk vm vk h => refused (configCaptureEffect_refused h) rfl,
    fun kind _ => refused (f := unknownCommandEffect) rfl rfl⟩
  rw [tunerConfigInRange_iff]
  omega

end Sys2Proof.Machine
end

