-- ==== Sys2Proof/Proofs/EventFlow.lean ====
section
/-! SUPPORT. What becomes of the events of one step (R197): while the rings are enabled and no RESTART quiesces the
part, each event raised joins the events on their way, in order. -/

namespace Sys2Proof.Machine

/-! ## The events on their way -/

/-- All that decides what becomes of an event raised. -/
structure EventView where
  enabled : Bool
  quiesce : Bool
  evWrite : Option EventWrite
  pendingEvents : List Event
  evProd : Index
  evCons : Index
  region : Option Range

def State.eventView (s : State) : EventView :=
  { enabled := s.cu.enabled, quiesce := s.cu.quiesce, evWrite := s.cu.evWrite, pendingEvents := s.cu.pendingEvents,
    evProd := s.cu.evProd, evCons := s.cu.evCons, region := s.pu.regions.event }

/-- A change that moves no event. -/
def Quiet (s t : State) : Prop := t.eventView = s.eventView

section
variable {s t u : State}

theorem Quiet.refl : Quiet s s := rfl

theorem Quiet.trans (h : Quiet s t) (k : Quiet t u) : Quiet s u := Eq.trans k h

theorem Quiet.eventsOut (h : Quiet s t) : t.eventsOut = s.eventsOut := by
  have write : t.cu.evWrite = s.cu.evWrite := congrArg EventView.evWrite h
  have pending : t.cu.pendingEvents = s.cu.pendingEvents := congrArg EventView.pendingEvents h
  rw [State.eventsOut, State.eventsOut, write, pending]

theorem Quiet.ringFull (h : Quiet s t) : eventRingFull t = eventRingFull s := by
  have prod : t.cu.evProd = s.cu.evProd := congrArg EventView.evProd h
  have cons : t.cu.evCons = s.cu.evCons := congrArg EventView.evCons h
  have region : t.pu.regions.event = s.pu.regions.event := congrArg EventView.region h
  rw [eventRingFull, eventRingFull, eventSlots, eventSlots, prod, cons, region]

theorem quiet_finish (s : State) : Quiet s (finish s) := by
  unfold finish updateStatus
  split
  · rfl
  · unfold imageChanged
    split <;> rfl

theorem quiet_writeIndexWord (w : IndexWord) (s : State) : Quiet s (writeIndexWord w s) := by
  unfold writeIndexWord
  split_ifs <;> rfl

/-- Room for `n` more events: the rings are enabled, no RESTART quiesces the part, and the next event is written at
once or joins those that wait. -/
def State.takesEvents (s : State) (n : Nat) : Prop :=
  s.cu.enabled = true ∧ s.cu.quiesce = false
    ∧ (s.cu.evWrite = none → s.cu.pendingEvents = [] ∧ eventRingFull s = false)
    ∧ s.cu.pendingEvents.length + n ≤ 32

theorem State.eventRoom.takesEvents (h : s.eventRoom) : s.takesEvents 32 := by
  obtain ⟨enabled, running, none, empty, space⟩ := h
  exact ⟨enabled, running, fun _ => ⟨empty, space⟩, by simp [empty]⟩

theorem State.eventRoom.eventsOut (h : s.eventRoom) : s.eventsOut = [] := by
  obtain ⟨-, -, none, empty, -⟩ := h
  simp [State.eventsOut, none, empty]

theorem Quiet.takesEvents {n : Nat} (h : Quiet s t) (k : s.takesEvents n) : t.takesEvents n := by
  have full := h.ringFull
  simp only [Quiet, State.eventView, EventView.mk.injEq] at h
  obtain ⟨enabled, quiesce, write, pending, -⟩ := h
  rwa [State.takesEvents, enabled, quiesce, write, pending, full]

theorem Quiet.eventRoom (h : Quiet s t) (k : s.eventRoom) : t.eventRoom := by
  have full := h.ringFull
  simp only [Quiet, State.eventView, EventView.mk.injEq] at h
  obtain ⟨enabled, quiesce, write, pending, -⟩ := h
  rwa [State.eventRoom, enabled, quiesce, write, pending, full]

/-- R197: with room an event raised joins the events on their way. -/
theorem raiseEvent_joins {n : Nat} (name : EventName) (sub : BitVec 16) (d1 d2 : Word) (h : s.takesEvents (n + 1)) :
    (raiseEvent name sub d1 d2 s).takesEvents n
      ∧ (raiseEvent name sub d1 d2 s).eventsOut = s.eventsOut ++ [eventNow s name sub d1 d2] := by
  obtain ⟨enabled, running, next, room⟩ := h
  cases write : s.cu.evWrite with
  | none =>
    obtain ⟨empty, space⟩ := next write
    obtain ⟨ws, cu⟩ := raiseEvent_room name sub d1 d2 ⟨enabled, running, write, empty, space⟩
    refine ⟨?_, ?_⟩
    · rw [empty] at room
      simp only [State.takesEvents, cu]
      exact ⟨enabled, running, nofun, by simpa using Nat.le_of_succ_le room⟩
    · simp only [State.eventsOut, cu, write, empty]
      rfl
  | some w =>
    have waits : raiseEvent name sub d1 d2 s
        = s.mapCu fun cu => { cu with pendingEvents := cu.pendingEvents ++ [eventNow s name sub d1 d2] } := by
      rw [raiseEvent, queueEvent, if_pos ⟨enabled, by omega⟩, pumpEvents, if_pos (.inr (by simp [write]))]
      rfl
    rw [waits]
    refine ⟨⟨enabled, running, fun none => ?_, ?_⟩, ?_⟩
    · cases write.symm.trans none
    · simp only [State.mapCu_cu, List.length_append, List.length_singleton]; omega
    · simp [State.eventsOut]

/-! ## Steps that raise a bounded number of events -/

/-- From `s` to `t` at most `n` events are raised. -/
def Raises (n : Nat) (s t : State) : Prop :=
  ∀ k, s.takesEvents (n + k) → t.takesEvents k ∧ ∃ es, t.eventsOut = s.eventsOut ++ es

theorem Quiet.raises (h : Quiet s t) : Raises 0 s t := fun k room =>
  ⟨h.takesEvents (Nat.zero_add k ▸ room), [], by simp [h.eventsOut]⟩

theorem Raises.trans {m n : Nat} (h : Raises m s t) (k : Raises n t u) : Raises (m + n) s u := by
  intro j room
  obtain ⟨later, es, out⟩ := h (n + j) (by rwa [← Nat.add_assoc])
  obtain ⟨last, fs, out'⟩ := k j later
  exact ⟨last, es ++ fs, by rw [out', out, List.append_assoc]⟩

theorem State.takesEvents.mono {m n : Nat} (h : s.takesEvents n) (le : m ≤ n) : s.takesEvents m := by
  obtain ⟨enabled, running, next, room⟩ := h
  exact ⟨enabled, running, next, by omega⟩

theorem Raises.mono {m n : Nat} (h : Raises m s t) (le : m ≤ n) : Raises n s t :=
  fun k room => h k (room.mono (by omega))

theorem raises_event (name : EventName) (sub : BitVec 16) (d1 d2 : Word) (s : State) :
    Raises 1 s (raiseEvent name sub d1 d2 s) := fun k room => by
  obtain ⟨later, out⟩ := raiseEvent_joins name sub d1 d2 (Nat.add_comm 1 k ▸ room)
  exact ⟨later, _, out⟩

end

end Sys2Proof.Machine
end

