-- ==== Sys2Proof/Proofs/HoldExpiry.lean ====
section
/-! SUPPORT. HOLD_TIMER_EXPIRY (R26, R27). -/

namespace Sys2Proof.Machine

section
variable {s : State} {i : Fin 8}

/-- R26: the hold timer's expiry acts in this state. -/
def State.expiryDue (s : State) : Prop :=
  s.sc.timer.running = true ∧ s.sc.timer.suspended = false ∧ (s.sc.st = .acquire ∨ s.sc.st = .hold)

theorem connectedSource_of (h : s.sc.connected = some i) : connectedSource s = some s.sc.table[i] := by
  rw [connectedSource, h]; rfl

theorem connectedSubject_of (h : s.sc.connected = some i) : connectedSubject s = BitVec.ofNat 16 i.val := by
  rw [connectedSubject, h]; rfl

theorem holdExpiry_idle (h : ¬ s.expiryDue ∨ s.sc.connected = none) : holdExpiry s = s := by
  unfold holdExpiry
  split
  · rfl
  · rename_i src found
    refine if_neg fun due => ?_
    rcases h with h | h
    · exact h (by simpa [State.expiryDue] using due)
    · rw [connectedSource, h] at found; cases found

theorem holdExpiry_due (due : s.expiryDue) (connected : s.sc.connected = some i) :
    holdExpiry s = expireHold s.sc.table[i] s := by
  rw [holdExpiry, connectedSource_of connected]
  exact if_pos (by simpa [State.expiryDue] using due)

theorem expireHold_fallback {src : Source} {j : Fin 8} (fallback : src.fallback = some j)
    (valid : s.sc.table[j].valid = true) : expireHold src s
      = raiseEvent (.source .fallback) (connectedSubject s) (natWord j.val) 0 (enterDrain (.source j) s) := by
  have target : validFallback s src = some j := by simp only [validFallback, fallback, valid, if_true]
  rw [expireHold, target]

theorem expireHold_lost {src : Source} (none : ∀ j, src.fallback = some j → s.sc.table[j].valid = false) :
    expireHold src s = raiseEvent (.source .lost) (connectedSubject s) (optionWord (src.fallback.map Fin.val)) 0
      (stopHoldTimer s) := by
  have target : validFallback s src = .none := by
    unfold validFallback
    split
    · rfl
    · rename_i j fallback
      rw [none j fallback]
      rfl
  rw [expireHold, target]

end

/-- R30: a step of the switch alone that ends with an event. -/
theorem finish_raiseEvent_eventsOut {s t : State} (name : EventName) (sub : BitVec 16) (d1 d2 : Word)
    (quiet : Quiet s t) (stamp : t.clock.stamp = s.clock.stamp) (room : s.eventRoom) :
    (finish (raiseEvent name sub d1 d2 t)).eventsOut = [eventNow s name sub d1 d2] := by
  obtain ⟨-, out⟩ := raiseEvent_joins name sub d1 d2 (quiet.takesEvents room.takesEvents)
  rw [(quiet_finish _).eventsOut, out, quiet.eventsOut, room.eventsOut, eventNow, stamp]
  rfl

/-- Settles O50: the step does nothing, falls back, or loses the source. -/
theorem holdExpiryFallsBack : Obligations.HoldExpiryFallsBack := by
  unfold Obligations.HoldExpiryFallsBack
  refine fun s high => ⟨_, live_ready holdExpiry high, fun idle => ?_, fun i j due connected fallback valid => ?_,
    fun i due connected none => ?_⟩
  · rw [holdExpiry_idle idle]
    exact ⟨kept_finish s, (quiet_finish s).eventsOut⟩
  · rw [holdExpiry_due due connected, expireHold_fallback fallback valid, connectedSubject_of connected]
    refine ⟨?_, finish_raiseEvent_eventsOut _ _ _ _ rfl rfl⟩
    rw [kept_finish, kept_raiseEvent]
    rfl
  · rw [holdExpiry_due due connected, expireHold_lost none, connectedSubject_of connected]
    refine ⟨?_, finish_raiseEvent_eventsOut _ _ _ _ rfl rfl⟩
    rw [kept_finish, kept_raiseEvent]
    rfl

end Sys2Proof.Machine
end

