-- ==== Sys2Proof/Proofs/SwitchValues.lean ====
section
/-! SUPPORT. What each change of the Switch Controller makes of its unit (R20a, R22 to R28), as a value. -/

namespace Sys2Proof.Machine

/-! ## The unit's changes as values -/

/-- The entry of the connected source. -/
def SwitchUnit.source (sc : SwitchUnit) : Option Source := sc.connected.map fun i => sc.table[i]

/-- R26: the hold timer started for the connected source. -/
def SwitchUnit.timed (sc : SwitchUnit) (settled : Bool) : SwitchUnit :=
  match sc.source with
  | none => sc
  | some src => { sc with timer := startedTimer settled src }

/-- R26: the running timer of a radio source suspended, or counting on. -/
def SwitchUnit.suspended (sc : SwitchUnit) (b : Bool) : SwitchUnit :=
  if sc.timer.running then { sc with timer := { sc.timer with suspended := b } } else sc

/-- R22, R25, R28. -/
def SwitchUnit.ramping (sc : SwitchUnit) : SwitchUnit :=
  { sc with st := .playRamp, feed := true, timer := stoppedTimer, cause := none }

/-- R20a, R21, R22, R25. -/
def SwitchUnit.blocked (sc : SwitchUnit) (c : BlockCause) : SwitchUnit :=
  { sc with st := .blocked, feed := false, timer := stoppedTimer, cause := some c }

/-- R20, R20a, R25, R27. -/
def SwitchUnit.draining (sc : SwitchUnit) (t : Target) : SwitchUnit :=
  { sc with st := .drain, target := t, timer := stoppedTimer, cause := none }

/-- The connected source as a pending target. -/
def SwitchUnit.self (sc : SwitchUnit) : Target :=
  match sc.connected with
  | none => .none
  | some i => .source i

/-- R24: HOLD entered. -/
def SwitchUnit.holding (sc : SwitchUnit) (settled : Bool) : SwitchUnit :=
  { sc with st := .hold, feed := false, timer := stoppedTimer, cause := none }.timed settled

/-- R24: the signal of the connected source lost. -/
def SwitchUnit.lost (sc : SwitchUnit) (c : LossCause) (settled : Bool) : SwitchUnit :=
  match sc.st with
  | .playing => sc.holding settled
  | .playRamp => sc.holding settled
  | .blocked => sc.holding settled
  | .acquire => if c = .tuner then sc.suspended true else sc
  | .hold => if c = .tuner then sc.suspended true else sc
  | .drain => { sc with feed := false }
  | .idle => sc

/-- R25: the signal regained, at the class in force or at another. -/
def SwitchUnit.regained (sc : SwitchUnit) (inForce : Prop) [Decidable inForce] : SwitchUnit :=
  match sc.st with
  | .hold => if inForce then { sc with timer := stoppedTimer } else sc.draining sc.self
  | _ => sc

/-- R20a: the format of the connected source's port changed. -/
def SwitchUnit.reformed (sc : SwitchUnit) (src : Source) (f : Format) : SwitchUnit :=
  match sc.st with
  | .playing => if src.path = .auto then sc.draining sc.self
    else if sc.path = .direct ∧ f = .encoded then sc.blocked .format else sc
  | .playRamp => if src.path = .auto then sc.draining sc.self
    else if sc.path = .direct ∧ f = .encoded then sc.blocked .format else sc
  | .acquire => if src.path = .auto ∧ ¬ sc.connectRequest then { sc with connectRequest := true, target := sc.self }
    else sc
  | .blocked => if src.path = .auto then sc.draining sc.self else sc
  | .hold => if src.path = .auto then sc.draining sc.self else sc
  | .drain => if sc.path = .direct ∧ f = .encoded then { sc with feed := false } else sc
  | .idle => sc

/-! ## The state after each change -/

section
variable (s : State)

theorem connectedSource_eq : connectedSource s = s.sc.source := rfl

theorem startHoldTimer_eq : startHoldTimer s = s.mapSc fun sc => sc.timed (tunerSettled s) := by
  unfold startHoldTimer SwitchUnit.timed
  rw [connectedSource_eq, State.mapSc]
  cases s.sc.source <;> rfl

theorem suspendTimer_eq (b : Bool) : suspendTimer b s = s.mapSc fun sc => sc.suspended b := by
  unfold suspendTimer SwitchUnit.suspended State.mapSc
  dsimp only
  split <;> rfl

theorem kept_enterBlocked (c : BlockCause) : (enterBlocked c s).kept = { s.kept with sc := s.sc.blocked c } :=
  kept_raiseEvent _ _ _ _ _

theorem kept_enterHold (c : LossCause) :
    (enterHold c s).kept = { s.kept with sc := s.sc.holding (tunerSettled s) } := by
  unfold enterHold; dsimp only
  rw [kept_raiseEvent, startHoldTimer_eq]
  rfl

theorem kept_loseSignal (c : LossCause) : (loseSignal c s).kept
    = { s.kept with clock := { s.clock with following := false, own := false },
                    sc := s.sc.lost c (tunerSettled s) } := by
  have hold : (enterHold c (stopFollowing s)).kept = { s.kept with
      clock := { s.clock with following := false, own := false }, sc := s.sc.holding (tunerSettled s) } :=
    kept_enterHold _ c
  have waits : (if c = .tuner then suspendTimer true (stopFollowing s) else stopFollowing s).kept
      = { s.kept with clock := { s.clock with following := false, own := false },
                      sc := if c = .tuner then s.sc.suspended true else s.sc } := by
    rw [suspendTimer_eq]
    split <;> rfl
  have sc : (stopFollowing s).sc = s.sc := rfl
  cases st : s.sc.st <;> simp only [loseSignal, SwitchUnit.lost, sc, st]
  case playing => exact hold
  case playRamp => exact hold
  case blocked => exact hold
  case acquire => exact waits
  case hold => exact waits
  case drain => rw [← st]; rfl
  case idle => rfl

theorem kept_regain (c : RateClass) :
    (regain c s).kept = { s.kept with sc := s.sc.regained (c = s.clock.cls) } := by
  cases st : s.sc.st <;> simp only [regain, SwitchUnit.regained, st]
  case hold => rw [← st]; split <;> rfl
  all_goals rfl

theorem kept_formatChanged (src : Source) (f : Format) :
    (formatChanged src f s).kept = { s.kept with sc := s.sc.reformed src f } := by
  cases st : s.sc.st <;> simp only [formatChanged, SwitchUnit.reformed, st]
  case idle => rfl
  case acquire => rw [← st]; split <;> rfl
  case drain => rw [← st]; split <;> rfl
  case blocked => split <;> rfl
  case hold => split <;> rfl
  all_goals
    split
    · rfl
    · split
      · exact kept_enterBlocked s .format
      · rfl

end
end Sys2Proof.Machine
end

