-- ==== Sys2Proof/Proofs/LockWindows.lean ====
section
/-! SUPPORT. The end of a measurement window at one port: its count is classified, and its lock state moves (R10,
R11). -/

namespace Sys2Proof.Machine

/-! ## Classification (R10) -/

section
variable {n : Nat}

theorem classify_low (h : n ≤ 7) : classify n = .low := if_pos h

theorem classify_k32 (h : 30 ≤ n) (k : n ≤ 34) : classify n = .cls .k32 := by
  rw [classify, if_neg (by omega), if_pos (by omega)]

theorem classify_k44 (h : 42 ≤ n) (k : n ≤ 46) : classify n = .cls .k44 := by
  rw [classify, if_neg (by omega), if_neg (by omega), if_pos (by omega)]

theorem classify_k48 (h : 47 ≤ n) (k : n ≤ 50) : classify n = .cls .k48 := by
  rw [classify, if_neg (by omega), if_neg (by omega), if_neg (by omega), if_pos (by omega)]

theorem classify_k88 (h : 85 ≤ n) (k : n ≤ 91) : classify n = .cls .k88 := by
  rw [classify, if_neg (by omega), if_neg (by omega), if_neg (by omega), if_neg (by omega), if_pos (by omega)]

theorem classify_k96 (h : 92 ≤ n) (k : n ≤ 100) : classify n = .cls .k96 := by
  rw [classify, if_neg (by omega), if_neg (by omega), if_neg (by omega), if_neg (by omega), if_neg (by omega),
    if_pos (by omega)]

theorem classify_out (h : (8 ≤ n ∧ n < 30) ∨ (34 < n ∧ n < 42) ∨ (50 < n ∧ n < 85) ∨ 100 < n) :
    classify n = .out := by
  rw [classify, if_neg (by omega), if_neg (by omega), if_neg (by omega), if_neg (by omega), if_neg (by omega),
    if_neg (by omega)]
end

/-! ## What a change of lock moves -/

/-- R10, R11: the port once its window has been judged, the block being assembled aside. -/
def PortState.judged (q : PortState) : PortState :=
  { q with lock := (lockStep q (classify q.windowCount)).1, miss := (lockStep q (classify q.windowCount)).2,
           candidate := some (classify q.windowCount), windowCount := 0 }

/-- What a measurement window may move, and the tuner, on which that depends. -/
structure SignalView where
  ports : Vector PortState 6
  sc : SwitchUnit
  clock : ClockUnit
  tc : TunerUnit

def Kept.signals (k : Kept) : SignalView := { ports := k.ports, sc := k.sc, clock := k.clock, tc := k.tc }

/-- R29: the clock that stops following. -/
def ClockUnit.unled (c : ClockUnit) : ClockUnit := { c with following := false, own := false }

section
variable (s : State) (p : Fin 6)

@[simp] theorem signals_breakRun : (breakRun p s).kept.signals = s.kept.signals := by
  have ring := congrArg Kept.signals (butRe_breakRun s p)
  exact ring

@[simp] theorem signals_linkLosesPort : (linkLosesPort p s).kept.signals = s.kept.signals := by
  rw [kept_linkLosesPort]; rfl

/-- R24: whether the connected source plays a port, as the switch alone says it. -/
def SwitchUnit.plays (sc : SwitchUnit) (p : Fin 6) : Bool := decide (sc.source.map Source.port = some p)

theorem connectedOnPort_eq : connectedOnPort s p = s.sc.plays p := by
  rw [connectedOnPort, connectedSource_eq, SwitchUnit.plays]
  cases s.sc.source <;> simp

/-- R11, R12, R24: a port that leaves LOCKED. -/
theorem signals_portLost (had : RateClass) : (portLost p had s).kept.signals = { s.kept.signals with
    ports := s.ports.set p { s.ports[p] with filling := [], change := false, mark := false },
    clock := if s.sc.plays p then s.clock.unled else s.clock,
    sc := if s.sc.plays p then s.sc.lost .signal (tunerSettled s) else s.sc } := by
  unfold portLost; dsimp only
  generalize before : linkLosesPort p (breakRun p (raisePort p _ _ _ (s.mapPort p _))) = r
  have view : r.kept.signals = { s.kept.signals with
      ports := s.ports.set p { s.ports[p] with filling := [], change := false, mark := false } } := by
    rw [← before, signals_linkLosesPort, signals_breakRun, kept_raisePort]
    rfl
  obtain ⟨sc, clock, tc⟩ : r.sc = s.sc ∧ r.clock = s.clock ∧ r.tc = s.tc :=
    ⟨congrArg SignalView.sc view, congrArg SignalView.clock view, congrArg SignalView.tc view⟩
  rw [connectedOnPort_eq, sc]
  split
  · have lost := congrArg Kept.signals (kept_loseSignal r .signal)
    rw [lost, tunerSettled, tc, sc, clock]
    exact congrArg (fun v : SignalView =>
      { v with clock := s.clock.unled, sc := s.sc.lost .signal (tunerSettled s) }) view
  · exact view

/-- R12, R25: a port that enters LOCKED. -/
theorem signals_portLocked (c : RateClass) : (portLocked p c s).kept.signals = { s.kept.signals with
    ports := s.ports.set p { s.ports[p] with filling := [], mark := false },
    sc := if s.sc.plays p then s.sc.regained (c = s.clock.cls) else s.sc } := by
  unfold portLocked; dsimp only
  generalize before : raisePort p _ _ _ (s.mapPort p _) = r
  have view : r.kept.signals = { s.kept.signals with
      ports := s.ports.set p { s.ports[p] with filling := [], mark := false } } := by
    rw [← before, kept_raisePort]
    rfl
  obtain ⟨sc, clock⟩ : r.sc = s.sc ∧ r.clock = s.clock :=
    ⟨congrArg SignalView.sc view, congrArg SignalView.clock view⟩
  rw [connectedOnPort_eq, sc]
  split
  · rw [kept_regain, sc, clock]
    exact congrArg (fun v : SignalView => { v with sc := s.sc.regained (c = s.clock.cls) }) view
  · exact view

/-- R11, R12: a port once its lock state has moved: the block being assembled survives a move that neither enters
nor leaves LOCKED. -/
def PortState.relocked (q : PortState) (before after : LockState) : PortState :=
  if before.isLocked = after.isLocked then q
  else { q with filling := [], change := !before.isLocked && q.change, mark := false }

/-- R24, R25: the switch once the lock state of port `p` has moved. -/
def SwitchUnit.relocked (sc : SwitchUnit) (p : Fin 6) (before after : LockState) (settled : Bool)
    (inForce : RateClass) : SwitchUnit :=
  match before, after with
  | .locked _, .locked _ => sc
  | .locked _, _ => if sc.plays p then sc.lost .signal settled else sc
  | _, .locked c => if sc.plays p then sc.regained (c = inForce) else sc
  | _, _ => sc

/-- R11, R12, R24, R25: what a change of lock moves. -/
theorem signals_lockChanged (count : Nat) (before after : LockState) :
    (lockChanged p count before after s).kept.signals = { s.kept.signals with
      ports := s.ports.set p (s.ports[p].relocked before after),
      clock := if before.isLocked && !after.isLocked && s.sc.plays p then s.clock.unled else s.clock,
      sc := s.sc.relocked p before after (tunerSettled s) s.clock.cls } := by
  have still : s.kept.signals = { s.kept.signals with ports := s.ports.set p s.ports[p] } := by
    simp [Kept.signals, State.kept]
  cases before
  case locked c =>
    cases after
    case locked d => exact still
    all_goals exact signals_portLost s p c
  all_goals
    cases after
    case locked d => exact signals_portLocked s p d
    all_goals
      refine Eq.trans (congrArg Kept.signals (?_ : _ = s.kept)) still
      simp [lockChanged]

/-- R11: the lock state once the window has ended. -/
def PortState.nextLock (q : PortState) : LockState := (lockStep q (classify q.windowCount)).1

/-- R10, R11, R24, R25: the window of one port. -/
theorem signals_portWindow : (portWindow p s).kept.signals = { s.kept.signals with
    ports := s.ports.set p (s.ports[p].judged.relocked s.ports[p].lock s.ports[p].nextLock),
    clock := if s.ports[p].leavesLock && s.sc.plays p then s.clock.unled else s.clock,
    sc := s.sc.relocked p s.ports[p].lock s.ports[p].nextLock (tunerSettled s) s.clock.cls } := by
  unfold portWindow; dsimp only
  rw [signals_lockChanged, mapPort_at]
  simp only [State.mapPort_ports, Vector.set_set]
  rfl

end

/-! ## The windows of all ports -/

/-- R10: the window of one port stands among those of the others. -/
theorem windowEnd_at (p : Fin 6) : ∃ before after : List (Fin 6), p ∉ before ∧ p ∉ after ∧
    before.length + after.length = 5 ∧ ∀ s, windowEnd s = after.foldl (fun s p => portWindow p s)
      (portWindow p (before.foldl (fun s p => portWindow p s) (s.mapClock fun c => { c with windowPos := 0 }))) := by
  have all : ∀ p : Fin 6, p ∈ portIds := by decide
  obtain ⟨before, after, ids⟩ := List.append_of_mem (all p)
  have distinct : portIds.Nodup := by decide
  have length : portIds.length = 6 := rfl
  rw [ids] at distinct length
  refine ⟨before, after, fun h => (List.nodup_append.1 distinct).2.2 p h p (by simp) rfl,
    (List.nodup_cons.1 (List.nodup_append.1 distinct).2.1).1, ?_, fun s => ?_⟩
  · simp only [List.length_append, List.length_cons] at length; omega
  · rw [windowEnd, ids, List.foldl_append, List.foldl_cons]

/-- R10, R29: a window moves nothing of the clock but whether it follows. -/
theorem foldl_portWindow_clock (l : List (Fin 6)) (s : State) :
    (l.foldl (fun s p => portWindow p s) s).clock.unled = s.clock.unled := by
  induction l generalizing s with
  | nil => rfl
  | cons p l ih =>
    refine (ih _).trans ?_
    rw [show (portWindow p s).clock = _ from congrArg SignalView.clock (signals_portWindow s p)]
    dsimp only
    split <;> rfl

theorem portWindow_port (s : State) (p : Fin 6) : (portWindow p s).ports[p]
    = s.ports[p].judged.relocked s.ports[p].lock s.ports[p].nextLock := by
  have ports : (portWindow p s).ports = _ := congrArg SignalView.ports (signals_portWindow s p)
  simp only [ports, Fin.getElem_fin, Vector.getElem_set_self]

/-- R10, R11: a port once the measurement window has ended. -/
theorem windowEnd_port (s : State) (p : Fin 6) : (windowEnd s).ports[p]
    = s.ports[p].judged.relocked s.ports[p].lock s.ports[p].nextLock := by
  obtain ⟨before, after, notBefore, notAfter, -, run⟩ := windowEnd_at p
  rw [run, foldl_portWindow_ports after notAfter, portWindow_port, foldl_portWindow_ports before notBefore]
  rfl

theorem windowEnd_clock (s : State) : (windowEnd s).clock.unled = { s.clock with windowPos := 0 }.unled :=
  foldl_portWindow_clock portIds (s.mapClock fun c => { c with windowPos := 0 })

/-! ## R11's table -/

section
variable {q : PortState} {c : RateClass}

theorem lockStep_noSignal (h : q.lock = .noSignal) (r : WindowResult) :
    (lockStep q r).1 = if r = .low then .noSignal else .measuring := by
  cases r <;> simp [lockStep, h]

theorem lockStep_measuring (h : q.lock = .measuring) (r : WindowResult) : (lockStep q r).1 = match r with
    | .low => .noSignal
    | .cls c => if q.candidate = some (.cls c) then .locked c else .measuring
    | .out => if q.candidate = some .out then .unsupported else .measuring := by
  cases r <;> simp [lockStep, h]

theorem lockStep_unsupported (h : q.lock = .unsupported) (r : WindowResult) : (lockStep q r).1 = match r with
    | .low => .noSignal
    | .cls _ => .measuring
    | .out => .unsupported := by
  cases r <;> simp [lockStep, h]

theorem lockStep_hit (h : q.lock = .locked c) : lockStep q (.cls c) = (.locked c, false) := by
  simp [lockStep, h]

theorem lockStep_firstMiss {r : WindowResult} (h : q.lock = .locked c) (missed : r ≠ .cls c)
    (first : q.miss = false) :
    lockStep q r = (.locked c, true) := by
  cases r <;> simp_all [lockStep]

theorem lockStep_secondMiss {r : WindowResult} (h : q.lock = .locked c) (missed : r ≠ .cls c)
    (second : q.miss = true) :
    (lockStep q r).1 = if r = .low then .noSignal else .measuring := by
  cases r <;> simp_all [lockStep]

/-- R11: the lock state moves as judged. -/
theorem PortState.relocked_judged (q : PortState) (before after : LockState) :
    (q.judged.relocked before after).lock = q.nextLock
      ∧ (q.judged.relocked before after).miss = (lockStep q (classify q.windowCount)).2
      ∧ (q.judged.relocked before after).windowCount = 0
      ∧ (q.judged.relocked before after).candidate = some (classify q.windowCount)
      ∧ (q.judged.relocked before after).format = q.format
      ∧ (q.judged.relocked before after).offered = q.offered := by
  unfold PortState.relocked
  split <;> exact ⟨rfl, rfl, rfl, rfl, rfl, rfl⟩

end

/-- Settles O40: each port is judged on its own, by R11's table. -/
theorem rateWindowMovesLocks : Obligations.RateWindowMovesLocks := by
  unfold Obligations.RateWindowMovesLocks
  refine ⟨fun n => ⟨classify_low, classify_k32, classify_k44, classify_k48, classify_k88, classify_k96,
    classify_out⟩,
    fun s high => ⟨_, live_ready windowEnd high, ?_⟩⟩
  have clock := windowEnd_clock s
  simp only [ClockUnit.unled, ClockUnit.mk.injEq] at clock
  obtain ⟨cls, -, -, stamp, windowPos⟩ := clock
  simp only [finish_clock, finish_ports]
  refine ⟨windowPos, stamp, cls, fun p => ?_⟩
  obtain ⟨lock, miss, count, candidate, format, offered⟩ :=
    s.ports[p].relocked_judged s.ports[p].lock s.ports[p].nextLock
  rw [windowEnd_port, lock, miss, count, candidate, format, offered, PortState.nextLock]
  refine ⟨rfl, rfl, rfl, rfl, fun h => lockStep_noSignal h _, fun h => ?_, fun h => ?_,
    fun c h => ⟨fun hit => ?_, fun missed first => ?_, fun missed second low => ?_, fun missed second high => ?_⟩⟩
  · rw [lockStep_measuring h]
    exact ⟨fun low => by rw [low], fun c cls => by rw [cls], fun out => by rw [out]⟩
  · rw [lockStep_unsupported h]
    exact ⟨fun low => by rw [low], fun c cls => by rw [cls], fun out => by rw [out]⟩
  · rw [hit, lockStep_hit h]; exact ⟨rfl, rfl⟩
  · rw [lockStep_firstMiss h missed first]; exact ⟨rfl, rfl⟩
  · rw [lockStep_secondMiss h missed second, if_pos low]
  · rw [lockStep_secondMiss h missed second, if_neg high]

end Sys2Proof.Machine
end

