-- ==== Sys2Proof/Proofs/Restarts.lean ====
section
/-! SUPPORT. RESTART (R200): the quiesce it begins, and what the part holds once it is done. -/

namespace Sys2Proof.Machine

section
variable {s : State}

theorem finish_queues (s : State) : (finish s).pu.queues = s.pu.queues ∧ (finish s).pu.faultRec = s.pu.faultRec := by
  unfold finish updateStatus
  split
  · exact ⟨rfl, rfl⟩
  · unfold imageChanged
    split <;> exact ⟨rfl, rfl⟩

/-- The end of a step moves neither the command being run nor the head. -/
theorem finish_exec (s : State) : (finish s).cu.exec = s.cu.exec ∧ (finish s).cu.head = s.cu.head
    ∧ (finish s).cu.evProd = s.cu.evProd := by
  obtain ⟨image, status, cu⟩ := finish_cu s
  rw [cu]
  exact ⟨rfl, rfl, rfl⟩

/-! ## The quiesce begins -/

/-- R157, R200: the tuner as a RESTART leaves it until the part is quiet. -/
theorem kept_restartEffect (tag : BitVec 16) : (restartEffect (beginCommand tag 0x04 s)).kept = { s.kept with
    quiesce := true,
    tc := { s.tc with
      owed := false,
      link := match s.tc.link with
        | .attempt a => .attempt { a with discard := true }
        | _ => .idle } } := by
  unfold restartEffect
  rw [kept_holdFor]
  cases link : s.tc.link <;> simp [quiesceLink, State.kept, State.mapTc, State.mapCu, beginCommand, link]

theorem restartEffect_cu (tag : BitVec 16) : (restartEffect (beginCommand tag 0x04 s)).cu = { s.cu with
    exec := .busy { tag := tag, kind := 0x04, index := s.cu.head, counts := true, work := .restart },
    fetchDiscard := false, quiesce := true } := rfl

/-! ## The quiesce ends -/

/-- What the writes that a quiesce held back leave alone, besides `State.kept`: the Command Unit but for its writers,
and the fault record. -/
def OwedFrame (s t : State) : Prop :=
  (∃ ws fw, t.cu = { s.cu with words := ws, faultWriter := fw }) ∧ t.pu.faultRec = s.pu.faultRec

theorem OwedFrame.trans {t u : State} (h : OwedFrame s t) (k : OwedFrame t u) : OwedFrame s u := by
  obtain ⟨⟨ws, fw, cu⟩, faultRec⟩ := h
  obtain ⟨⟨ws', fw', cu'⟩, faultRec'⟩ := k
  exact ⟨⟨ws', fw', by rw [cu', cu]⟩, faultRec'.trans faultRec⟩

theorem owed_releaseOwedWord (w : IndexWord) (s : State) : OwedFrame s (releaseOwedWord w s) := by
  unfold releaseOwedWord
  split <;> exact ⟨⟨_, _, rfl⟩, rfl⟩

theorem owed_words (l : List IndexWord) (s : State) : OwedFrame s (l.foldl (fun s w => releaseOwedWord w s) s) := by
  induction l generalizing s with
  | nil => exact ⟨⟨_, _, rfl⟩, rfl⟩
  | cons w l ih => exact (owed_releaseOwedWord w s).trans (ih _)

theorem owed_releaseOwedRecord (s : State) : OwedFrame s (releaseOwedRecord s) := by
  unfold releaseOwedRecord
  split <;> exact ⟨⟨_, _, rfl⟩, rfl⟩

theorem owed_endQuiesce (s : State) : OwedFrame (s.mapCu fun cu => { cu with quiesce := false }) (endQuiesce s) :=
  (owed_words indexWords _).trans (owed_releaseOwedRecord _)

theorem owed_writeIndexWord (w : IndexWord) (s : State) : OwedFrame s (writeIndexWord w s) := by
  unfold writeIndexWord
  split_ifs <;> exact ⟨⟨_, _, rfl⟩, rfl⟩

theorem owed_writeRingIndices (s : State) : OwedFrame s (writeRingIndices s) :=
  (owed_writeIndexWord .inputProducer s).trans (owed_writeIndexWord .outputConsumer _)

theorem kept_endQuiesce (s : State) : (endQuiesce s).kept = { s.kept with quiesce := false } := by
  have word (s : State) (w : IndexWord) : (releaseOwedWord w s).kept = s.kept := by
    unfold releaseOwedWord
    split <;> simp
  have record (s : State) : (releaseOwedRecord s).kept = s.kept := by
    unfold releaseOwedRecord
    split <;> simp
  unfold endQuiesce
  rw [record]
  exact mask_foldl _ id word indexWords

@[simp] theorem kept_writeRingIndices (s : State) : (writeRingIndices s).kept = s.kept := by simp [writeRingIndices]

/-- R55, R71, R108, R122, R129, R139, R172, R191, R200: the values a RESTART gives, and what it keeps. -/
theorem kept_restartValues (s : State) : (restartValues s).kept = { s.kept with
    regions := { s.pu.regions with input := none, output := none, delay := none, preset := none },
    sliceH := 8, runCount := 0, sc := SwitchUnit.reset,
    clock := { s.clock with following := false, own := false },
    re := { RingEngine.reset with inProd := s.cu.inCons, outCons := s.cu.outProd },
    ru := RenderUnit.reset, du := DelayUnit.reset,
    ou := { s.ou with
      lanes := #v[{ s.ou.lanes[0] with pending := 0 }, { s.ou.lanes[1] with pending := 0 }],
      link := { RecordLink.reset with cls := s.ou.link.cls } },
    tc := TunerUnit.reset, sd := StationUnit.reset,
    ports := s.ports.set 4 { s.ports[(4 : Fin 6)] with mark := false } } := rfl

/-! ## The completion -/

/-- R196: a completion leaves the Command Unit as its COMPLETION event does, with the head moved on and no command. -/
theorem complete_cu {b : Busy} (r : ResultCode) (busy : s.cu.exec = .busy b) : ∃ ws e f, (complete r s).cu
      = { (raiseEvent .completion b.tag (natWord r.code) (word2 b.kind.toNat b.index.toNat) s).cu with
          words := ws, head := if b.counts then s.cu.head + 1 else s.cu.head, exec := e, fetchDiscard := f }
    ∧ (e = .idle ∨ e = .fetching) := by
  have raised := raiseEvent_cu .completion b.tag (natWord r.code) (word2 b.kind.toNat b.index.toNat) s
  simp only [complete, busy]
  generalize raiseEvent .completion _ _ _ s = t at raised ⊢
  obtain ⟨_, _, _, _, raised⟩ := raised
  have head : ∃ ws, (advanceHead b.counts t).cu
      = { t.cu with words := ws, head := if b.counts then s.cu.head + 1 else s.cu.head } := by
    have same : t.cu.head = s.cu.head := by rw [raised]
    unfold advanceHead
    split
    · obtain ⟨ws, cu⟩ := writeIndexWord_cu .commandHead (t.mapCu fun cu => { cu with head := cu.head + 1 })
      exact ⟨ws, by rw [cu, ← same]; rfl⟩
    · exact ⟨t.cu.words, by rw [← same]⟩
  obtain ⟨ws, head⟩ := head
  rcases testFetch_cu ((advanceHead b.counts t).mapCu fun cu => { cu with exec := .idle }) with cu | cu
  · exact ⟨ws, .idle, t.cu.fetchDiscard, by rw [cu, State.mapCu_cu, head], .inl rfl⟩
  · exact ⟨ws, .fetching, false, by rw [cu, State.mapCu_cu, head], .inr rfl⟩

/-- R197: with nothing being written an event raised behind those that wait sets the first of them on its way. -/
theorem raiseEvent_behind (name : EventName) (sub : BitVec 16) (d1 d2 : Word) (enabled : s.cu.enabled = true)
    (running : s.cu.quiesce = false) (none : s.cu.evWrite = none) (room : s.cu.pendingEvents.length < 32)
    (space : eventRingFull s = false) :
    (raiseEvent name sub d1 d2 s).cu.evWrite.isSome = true
      ∧ (raiseEvent name sub d1 d2 s).eventsOut = s.cu.pendingEvents ++ [eventNow s name sub d1 d2] := by
  have pumps : raiseEvent name sub d1 d2 s = writeOldest (s.cu.pendingEvents ++ [eventNow s name sub d1 d2])
      (s.mapCu fun cu => { cu with pendingEvents := cu.pendingEvents ++ [eventNow s name sub d1 d2] }) := by
    rw [raiseEvent, queueEvent, if_pos ⟨enabled, room⟩, pumpEvents, if_neg (by simp [running, none])]
    rfl
  rw [pumps]
  cases events : s.cu.pendingEvents ++ [eventNow s name sub d1 d2] with
  | nil => simp at events
  | cons e rest =>
    rw [writeOldest, if_neg (by rw [Bool.not_eq_true]; exact space)]
    exact ⟨rfl, rfl⟩

/-! ## RESTART done -/

/-- The state in which the COMPLETION of a RESTART is raised. -/
def restartedState (s : State) : State := endQuiesce (writeRingIndices (restartValues s))

theorem owed_restartedState (s : State) :
    OwedFrame (s.mapCu fun cu => { cu with quiesce := false }) (restartedState s) := by
  have indices := owed_writeRingIndices (restartValues s)
  have ended := owed_endQuiesce (writeRingIndices (restartValues s))
  have kept : (restartValues s).cu = s.cu ∧ (restartValues s).pu.faultRec = s.pu.faultRec := ⟨rfl, rfl⟩
  rw [← restartedState] at ended
  simp only [OwedFrame, State.mapCu_cu, State.mapCu_pu, kept] at indices ended ⊢
  obtain ⟨⟨ws, fw, cu⟩, faultRec⟩ := indices
  obtain ⟨⟨ws', fw', cu'⟩, faultRec'⟩ := ended
  exact ⟨⟨ws', fw', by rw [cu', cu]⟩, faultRec'.trans faultRec⟩

theorem kept_restartedState (s : State) :
    (restartedState s).kept = { (restartValues s).kept with quiesce := false } := by
  rw [restartedState, kept_endQuiesce, kept_writeRingIndices]

theorem kept_writeNewImage (s : State) : (writeNewImage s).kept = s.kept := rfl

theorem quiet_writeNewImage (s : State) : Quiet s (writeNewImage s) := rfl

theorem restartQuiescedWork_busy {b : Busy} (busy : s.cu.exec = .busy b) (work : b.work = .restart) :
    restartQuiescedWork s = if partQuiet s then restartDone s else s := by
  cases b
  simp only at work
  simp only [restartQuiescedWork, busy, work]

/-- R197: with a write under way the events that wait go on waiting. -/
theorem pumpEvents_writing (h : s.cu.evWrite.isSome = true) : pumpEvents s = s := if_pos (.inr h)

theorem dropEvent_cu (s : State) : ∃ ws d, (dropEvent s).cu = { s.cu with words := ws, evDropped := d } := by
  obtain ⟨ws, cu⟩ := writeIndexWord_cu .eventsDropped
    (s.mapCu fun cu => { cu with evDropped := wrapSucc cu.evDropped })
  exact ⟨ws, _, cu⟩

theorem writeOldest_cu (es : List Event) (s : State) : ∃ ws p w d, (writeOldest es s).cu
    = { s.cu with words := ws, pendingEvents := p, evWrite := w, evDropped := d } := by
  induction es generalizing s with
  | nil => exact ⟨_, _, _, _, rfl⟩
  | cons e es ih =>
    unfold writeOldest
    split
    · obtain ⟨ws, p, w, d, cu⟩ := ih (dropEvent s)
      obtain ⟨ws', d', cu'⟩ := dropEvent_cu s
      exact ⟨ws, p, w, d, by rw [cu, cu']⟩
    · exact ⟨_, _, _, _, rfl⟩

theorem pumpEvents_cu (s : State) : ∃ ws p w d, (pumpEvents s).cu
    = { s.cu with words := ws, pendingEvents := p, evWrite := w, evDropped := d } := by
  unfold pumpEvents
  split
  · exact ⟨_, _, _, _, rfl⟩
  · exact writeOldest_cu _ s

theorem pumpEvents_faultRec (s : State) : (pumpEvents s).pu.faultRec = s.pu.faultRec := by
  unfold pumpEvents
  split
  · rfl
  · exact (places_writeOldest _ s).1

theorem restartDone_eq (s : State) :
    restartDone s = writeNewImage (pumpEvents (complete .done (restartedState s))) := rfl

/-- R196, R200: what the end of a RESTART leaves of the Command Unit. -/
theorem restartEnd_cu {b : Busy} (busy : s.cu.exec = .busy b) :
    (writeNewImage (pumpEvents (complete .done s))).cu.evProd = s.cu.evProd
      ∧ (writeNewImage (pumpEvents (complete .done s))).cu.head = (if b.counts then s.cu.head + 1 else s.cu.head)
      ∧ ((writeNewImage (pumpEvents (complete .done s))).cu.exec = .idle
        ∨ (writeNewImage (pumpEvents (complete .done s))).cu.exec = .fetching) := by
  obtain ⟨ws, e, f, done, idle⟩ := complete_cu .done busy
  obtain ⟨_, _, _, _, raised⟩ := raiseEvent_cu .completion b.tag (natWord ResultCode.done.code)
    (word2 b.kind.toNat b.index.toNat) s
  obtain ⟨_, _, _, _, pumped⟩ := pumpEvents_cu (complete .done s)
  have image (t : State) : (writeNewImage t).cu.evProd = t.cu.evProd ∧ (writeNewImage t).cu.head = t.cu.head
      ∧ (writeNewImage t).cu.exec = t.cu.exec := ⟨rfl, rfl, rfl⟩
  obtain ⟨prod, head, exec⟩ := image (pumpEvents (complete .done s))
  rw [prod, head, exec, pumped, done, raised]
  exact ⟨rfl, rfl, idle⟩

/-- R55, R71, R200: what a RESTART that is done leaves of the units and the Command Unit. -/
theorem restartDone_spec {b : Busy} (busy : s.cu.exec = .busy b) :
    (restartDone s).kept = { (restartValues s).kept with quiesce := false }
      ∧ (restartDone s).pu.faultRec = s.pu.faultRec ∧ (restartDone s).cu.evProd = s.cu.evProd
      ∧ (restartDone s).cu.head = (if b.counts then s.cu.head + 1 else s.cu.head)
      ∧ ((restartDone s).cu.exec = .idle ∨ (restartDone s).cu.exec = .fetching) := by
  have owed := owed_restartedState s
  have kept := kept_restartedState s
  simp only [OwedFrame, State.mapCu_cu, State.mapCu_pu] at owed
  rw [restartDone_eq]
  generalize restartedState s = t at owed kept
  obtain ⟨⟨ws, fw, cu⟩, faultRec⟩ := owed
  have busy' : t.cu.exec = .busy b := by rw [cu]; exact busy
  have ended := restartEnd_cu busy'
  rw [cu] at ended
  refine ⟨?_, ?_, ended⟩
  · rw [kept_writeNewImage, kept_pumpEvents, kept_complete, kept]
  · have image (t : State) : (writeNewImage t).pu.faultRec = t.pu.faultRec := rfl
    rw [image, pumpEvents_faultRec, (places_complete .done t).1, faultRec]

/-- R197, R200: the COMPLETION stands behind the events that waited. -/
theorem restartDone_eventsOut {b : Busy} (busy : s.cu.exec = .busy b) (enabled : s.cu.enabled = true)
    (none : s.cu.evWrite = none) (room : s.cu.pendingEvents.length < 32) (space : eventRingFull s = false) :
    (restartDone s).eventsOut = s.cu.pendingEvents ++ [busyCompletion s b .done] := by
  have owed := owed_restartedState s
  have kept := kept_restartedState s
  rw [kept_restartValues] at kept
  simp only [OwedFrame, State.mapCu_cu, State.mapCu_pu] at owed
  obtain ⟨⟨ws, fw, cu⟩, -⟩ := owed
  rw [restartDone_eq, (quiet_writeNewImage _).eventsOut]
  generalize restartedState s = t at cu kept
  have stamp : t.clock.stamp = s.clock.stamp := congrArg (fun k => k.clock.stamp) kept
  have region : t.pu.regions.event = s.pu.regions.event := congrArg (fun k => k.regions.event) kept
  have busy' : t.cu.exec = .busy b := by rw [cu]; exact busy
  have pending : t.cu.pendingEvents = s.cu.pendingEvents := by rw [cu]
  have space' : eventRingFull t = false := by
    rw [eventRingFull, eventSlots, region, cu]; exact space
  have raised := raiseEvent_behind (s := t) .completion b.tag (natWord ResultCode.done.code)
    (word2 b.kind.toNat b.index.toNat) (by rw [cu]; exact enabled) (by rw [cu]) (by rw [cu]; exact none)
    (by rw [cu]; exact room) space'
  rw [pending] at raised
  obtain ⟨ws', e, f, done, -⟩ := complete_cu .done busy'
  have writing : (complete .done t).cu.evWrite.isSome = true := by rw [done]; exact raised.1
  rw [pumpEvents_writing writing, State.eventsOut, done, busyCompletion, eventNow, ← stamp]
  exact raised.2

end

/-- Settles O23: RESTART taken, waiting, and done. -/
theorem restartQuiescesThenRestores : Obligations.RestartQuiescesThenRestores := by
  unfold Obligations.RestartQuiescesThenRestores
  refine ⟨fun s tag ready => ⟨_, record_ready tag 0x04 restartEffect ready, ?_⟩,
    fun s b high busy work => ⟨_, live_ready restartQuiescedWork high, ?_⟩⟩
  · obtain ⟨exec, head, -⟩ := finish_exec (restartEffect (beginCommand tag 0x04 s))
    obtain ⟨queues, faultRec⟩ := finish_queues (restartEffect (beginCommand tag 0x04 s))
    rw [kept_finish, exec, head, (quiet_finish _).eventsOut, queues, faultRec, restartEffect_cu]
    exact ⟨kept_restartEffect tag, rfl, rfl, rfl, rfl, rfl⟩
  · rw [restartQuiescedWork_busy busy work]
    refine ⟨fun loud => ?_, fun quiet => ?_⟩
    · obtain ⟨exec, head, -⟩ := finish_exec s
      rw [loud]
      exact ⟨kept_finish s, exec, head, (quiet_finish s).eventsOut⟩
    · obtain ⟨exec, head, prod⟩ := finish_exec (restartDone s)
      obtain ⟨-, faultRec⟩ := finish_queues (restartDone s)
      rw [quiet, if_pos rfl, kept_finish, exec, head, prod, faultRec, (quiet_finish _).eventsOut]
      obtain ⟨kept, fault, prod, head, exec⟩ := restartDone_spec busy
      refine ⟨kept.trans ?_, fault, prod, head, exec, restartDone_eventsOut busy⟩
      rw [kept_restartValues]

end Sys2Proof.Machine
end

