-- ==== Sys2Proof/Proofs/BoundaryEvents.lean ====
section
/-! SUPPORT. How many events the work of a boundary, or of a completion, can raise: each function either moves no event
or raises a bounded number, so that no event of one step is dropped while there is room at its start. -/

namespace Sys2Proof.Machine

/-! ## An event on its way -/

/-- An event is on its way, the first of all if `first` says so, and there is room for `n` more. -/
def State.carries (s : State) (n : Nat) (e : Event) (first : Bool) : Prop :=
  s.takesEvents n ∧ e ∈ s.eventsOut ∧ (first = true → s.eventsOut.head? = some e)

section
variable {s t : State} {m n : Nat} {e : Event} {first : Bool}

theorem Raises.carries (h : Raises m s t) (k : s.carries (m + n) e first) : t.carries n e first := by
  obtain ⟨room, mem, head⟩ := k
  obtain ⟨later, es, out⟩ := h n room
  refine ⟨later, by rw [out]; exact List.mem_append_left _ mem, fun own => ?_⟩
  rw [out, List.head?_append, head own]
  rfl

theorem raiseEvent_carries (name : EventName) (sub : BitVec 16) (d1 d2 : Word) (room : s.takesEvents (n + 1))
    (none : first = true → s.eventsOut = []) :
    (raiseEvent name sub d1 d2 s).carries n (eventNow s name sub d1 d2) first := by
  obtain ⟨later, out⟩ := raiseEvent_joins name sub d1 d2 room
  refine ⟨later, by simp [out], fun own => ?_⟩
  rw [out, none own]
  rfl

theorem State.carries.mono (h : s.carries n e first) (le : m ≤ n) : s.carries m e first := by
  obtain ⟨room, rest⟩ := h
  exact ⟨room.mono le, rest⟩

end

section
variable {s t u : State} {n : Nat}

theorem Raises.quiet (h : Raises n s t) (k : Quiet t u) : Raises n s u := h.trans k.raises

theorem Quiet.then (h : Quiet s t) (k : Raises n t u) : Raises n s u :=
  (h.raises.trans k).mono (Nat.zero_add n).le

/-- A change that moves no event raises at most any number of them. -/
theorem Quiet.still (h : Quiet s t) : Raises n s t := h.raises.mono (Nat.zero_le n)

end

section
variable {s t : State}

theorem quiet_mapRe (f : RingEngine → RingEngine) (h : Quiet s t) : Quiet s (t.mapRe f) := h
theorem quiet_mapRu (f : RenderUnit → RenderUnit) (h : Quiet s t) : Quiet s (t.mapRu f) := h
theorem quiet_mapDu (f : DelayUnit → DelayUnit) (h : Quiet s t) : Quiet s (t.mapDu f) := h
theorem quiet_mapSc (f : SwitchUnit → SwitchUnit) (h : Quiet s t) : Quiet s (t.mapSc f) := h
theorem quiet_mapOu (f : OutputUnit → OutputUnit) (h : Quiet s t) : Quiet s (t.mapOu f) := h
theorem quiet_mapClock (f : ClockUnit → ClockUnit) (h : Quiet s t) : Quiet s (t.mapClock f) := h
theorem quiet_mapPair (p : Fin 4) (f : Pair → Pair) (h : Quiet s t) : Quiet s (t.mapPair p f) := h
theorem quiet_mapPort (p : Fin 6) (f : PortState → PortState) (h : Quiet s t) : Quiet s (t.mapPort p f) := h
theorem quiet_mapLine (i : Fin 8) (f : DelayLine → DelayLine) (h : Quiet s t) : Quiet s (mapLine i f t) := h
theorem quiet_mapLines (f : DelayLine → DelayLine) (h : Quiet s t) : Quiet s (mapLines f t) := h

theorem raises_eventAfter {name : EventName} {sub : BitVec 16} {d1 d2 : Word} (h : Quiet s t) :
    Raises 1 s (raiseEvent name sub d1 d2 t) := h.then (raises_event name sub d1 d2 t)

end

theorem raises_foldl {α : Type} {f : State → α → State} {n : Nat} (h : ∀ s a, Raises n s (f s a)) (l : List α)
    (s : State) : Raises (l.length * n) s (l.foldl f s) := by
  induction l generalizing s with
  | nil => exact Quiet.refl.raises.mono (Nat.zero_le _)
  | cons a l ih =>
    refine ((h s a).trans (ih (f s a))).mono ?_
    rw [List.length_cons, Nat.succ_mul, Nat.add_comm]

theorem quiet_foldl {α : Type} {f : State → α → State} (h : ∀ s a, Quiet s (f s a)) (l : List α) (s : State) :
    Quiet s (l.foldl f s) := by
  induction l generalizing s with
  | nil => exact .refl
  | cons a l ih => exact (h s a).trans (ih _)

section
variable (s : State)

theorem quiet_placeAll (q : Queue) (ts : List Transfer) : Quiet s (placeAll q ts s) := by
  unfold placeAll
  exact quiet_foldl (f := fun s t => placeTransfer q t s) (fun _ _ => rfl) ts s

/-! ## The Ring Engine -/

theorem raises_dropBlock (c : DropCause) : Raises 1 s (dropBlock c s) := by
  unfold dropBlock; dsimp only
  split
  · exact raises_eventAfter (quiet_mapRe _ .refl)
  · exact (quiet_mapRe _ .refl).still

theorem quiet_beginStore (src : Fin 8) (p : Fin 6) (c : RateClass) (f : Format) (fs : List Frame) (r : Range) :
    Quiet s (beginStore src p c f fs r s) := rfl

theorem raises_offerToStore (src : Fin 8) (p : Fin 6) (c : RateClass) (f : Format) (fs : List Frame) :
    Raises 1 s (offerToStore src p c f fs s) := by
  unfold offerToStore
  split
  · exact Quiet.refl.still
  · split_ifs
    · exact raises_dropBlock s _
    · exact raises_dropBlock s _
    · exact Quiet.refl.still
    · exact (quiet_beginStore s _ _ _ _ _ _).still

theorem quiet_testSlotFetch : Quiet s (testSlotFetch s) := by
  unfold testSlotFetch
  split
  · split <;> rfl
  · rfl

theorem quiet_advanceConsumer : Quiet s (advanceConsumer s) :=
  (quiet_mapRe _ .refl).trans (quiet_writeIndexWord _ _)

theorem raises_ladderTaken : Raises 1 s (ladderTaken s) := by
  unfold ladderTaken; dsimp only
  split
  · exact raises_eventAfter (quiet_mapRe _ .refl)
  · exact (quiet_mapRe _ .refl).still

theorem raises_ladderEnd : Raises 1 s (ladderEnd s) := raises_eventAfter (quiet_mapRe _ .refl)

theorem quiet_handOn (b : HostedBlock) : Quiet s (handOn b s).2 := quiet_mapRe _ .refl

theorem raises_ladderMiss : Raises 1 s (ladderMiss s).2 := by
  have missed := quiet_mapRe (fun re => { re with missRun := satSucc16 re.missRun }) (Quiet.refl (s := s))
  unfold ladderMiss; dsimp only
  split
  · exact (missed.trans (quiet_handOn _ _)).still
  · exact (missed.trans (quiet_handOn _ _)).still
  · exact raises_eventAfter (quiet_mapRe _ missed)
  · exact (raises_eventAfter (quiet_mapRe _ missed)).quiet (quiet_handOn _ _)
  · exact ((quiet_mapRe _ missed).trans (quiet_handOn _ _)).still

theorem raises_slotTaken : Raises 1 s (ladderTaken (advanceConsumer s)) :=
  (quiet_advanceConsumer s).then (raises_ladderTaken _)

theorem raises_takeComplete (b : HostedBlock) : Raises 2 s (takeComplete b s).2 := by
  unfold takeComplete; dsimp only
  split
  · exact ((raises_slotTaken s).trans (raises_ladderEnd _)).quiet (quiet_handOn _ _)
  · exact ((raises_slotTaken s).quiet (quiet_handOn _ _)).mono (by decide)

theorem raises_takeBad : Raises 1 s (takeBad s).2 :=
  (raises_slotTaken s).quiet ((quiet_mapRe _ .refl).trans (quiet_handOn _ _))

theorem quiet_freeWithdrawn : Quiet s (freeWithdrawn s) := by
  unfold freeWithdrawn
  split <;> rfl

theorem raises_consumeSlot : Raises 2 s (consumeSlot s).2 := by
  unfold consumeSlot
  split
  · exact ((quiet_freeWithdrawn s).then (raises_ladderMiss _)).mono (by decide)
  · split
    · exact raises_takeComplete s _
    · exact (raises_takeBad s).mono (by decide)
    · exact ((quiet_advanceConsumer s).then (raises_ladderMiss _)).mono (by decide)
    · exact (raises_ladderMiss s).mono (by decide)
    · exact (raises_ladderMiss s).mono (by decide)

theorem raises_ringBoundary : Raises 2 s (ringBoundary s).2 := by
  unfold ringBoundary
  split
  · exact (raises_consumeSlot s).quiet (quiet_testSlotFetch _)
  · exact Quiet.refl.still

theorem quiet_flushOutputRing : Quiet s (flushOutputRing s) :=
  ((quiet_mapRe _ .refl).trans (quiet_writeIndexWord _ _)).trans (quiet_testSlotFetch _)

theorem quiet_ringConnect : Quiet s (ringConnect s) := by
  unfold ringConnect; dsimp only
  split
  · exact (quiet_mapRe _ .refl).trans (quiet_flushOutputRing _)
  · exact quiet_mapRe _ .refl

/-! ## The Render Unit and the amplifier protection -/

theorem quiet_decodeBlock (live : Bool) (input : HostedBlock) : Quiet s (decodeBlock live input s).2 := by
  unfold decodeBlock resetCrossover resetSteering; dsimp only
  split <;> split_ifs <;> rfl

theorem raises_raiseProtect (p : Fin 4) (c : ProtectCode) (d1 d2 : Nat) : Raises 1 s (raiseProtect p c d1 d2 s) :=
  raises_event _ _ _ _ _

theorem raises_raiseStateEvent (p : Fin 4) (st : PairState) (n : Nat) (c : ProtectCause) :
    Raises 1 s (raiseStateEvent p st n c s) := by
  unfold raiseStateEvent
  split
  case h_5 => exact Quiet.refl.still
  all_goals exact raises_raiseProtect _ _ _ _ _

theorem raises_stepActive (p : Fin 4) (b : Bool) : Raises 1 s (stepActive p b s) := by
  unfold stepActive; dsimp only
  split
  · exact (quiet_mapPair _ _ .refl).still
  · exact (quiet_mapPair p _ .refl).then (raises_raiseStateEvent _ _ _ _ _)

theorem raises_failRecovery (p : Fin 4) : Raises 2 s (failRecovery p s) :=
  ((raises_raiseProtect s _ _ _ _).quiet (quiet_mapPair _ _ .refl)).trans (raises_raiseProtect _ _ _ _ _)

theorem raises_recoveryFault (p : Fin 4) : Raises 2 s (recoveryFault p s) := by
  unfold recoveryFault; dsimp only
  split
  · exact (quiet_mapPair _ _ .refl).then (raises_failRecovery _ _)
  · exact (quiet_mapPair _ _ .refl).still

theorem raises_recoveryQuiet (p : Fin 4) : Raises 1 s (recoveryQuiet p s) := by
  unfold recoveryQuiet; dsimp only
  split_ifs
  · exact (quiet_mapPair _ _ (quiet_mapPair _ _ .refl)).then (raises_raiseProtect _ _ _ _ _)
  · exact (quiet_mapPair _ _ .refl).still
  · exact (quiet_mapPair _ _ .refl).still

theorem raises_stepRecovering (p : Fin 4) : Raises 2 s (stepRecovering p s) := by
  unfold stepRecovering; dsimp only
  split_ifs
  · exact (quiet_mapPair _ _ .refl).then (raises_recoveryFault _ p)
  · exact (quiet_mapPair _ _ .refl).still
  · exact ((quiet_mapPair _ _ .refl).then (raises_recoveryQuiet _ p)).mono (by decide)

theorem raises_stepPair (marks : Vector Bool 8) (p : Fin 4) : Raises 2 s (stepPair marks p s) := by
  unfold stepPair
  split
  case h_1 => exact Quiet.refl.still
  case h_2 => exact raises_stepRecovering s p
  all_goals exact (raises_stepActive s p _).mono (by decide)

theorem raises_ampUpdate (marks : Vector Bool 8) : Raises 8 s (ampUpdate marks s) := by
  unfold ampUpdate
  exact raises_foldl (fun s p => raises_stepPair s marks p) pairIds s

theorem quiet_bassBlock (b : RenderBlock) : Quiet s (bassBlock b s).2 := rfl

theorem quiet_levelStage (b : RenderBlock) : Quiet s (levelStage b s).2 := rfl

theorem raises_renderLevel (b : RenderBlock) : Raises 8 s (renderLevel b s).2 := by
  unfold renderLevel; dsimp only
  exact ((quiet_bassBlock _ _).then (raises_ampUpdate _ _)).quiet (quiet_levelStage _ _)

/-! ## The Delay Unit -/

theorem raises_noteLateness (i : Fin 8) (c : Option LateCause) : Raises 1 s (noteLateness i c s) := by
  unfold noteLateness beginLateRun
  split
  · exact (quiet_mapDu _ .refl).still
  · split
    · exact Quiet.refl.still
    · exact raises_eventAfter (quiet_mapDu _ .refl)

theorem raises_handOnSpeaker (i : Fin 8) (acc : Vector (Option Chan) 8 × State) :
    Raises 1 acc.2 (handOnSpeaker i acc).2 := by
  unfold handOnSpeaker; dsimp only
  split
  · exact (quiet_mapLine i _ .refl).then (raises_noteLateness _ _ _)
  · exact (quiet_mapLine i _ .refl).still

theorem raises_handOnSpeakers (l : List (Fin 8)) (acc : Vector (Option Chan) 8 × State) :
    Raises l.length acc.2 (l.foldl (fun acc i => handOnSpeaker i acc) acc).2 := by
  induction l generalizing acc with
  | nil => exact Quiet.refl.raises
  | cons i l ih =>
    exact ((raises_handOnSpeaker i acc).trans (ih _)).mono (by rw [List.length_cons]; omega)

theorem quiet_abandonUnplaced : Quiet s (abandonUnplaced s) := rfl

theorem raises_delayHandOn : Raises 8 s (delayHandOn s).2 := by
  have eight : Raises 8 _ _ := raises_handOnSpeakers speakerIds (Vector.replicate 8 none, abandonUnplaced s)
  exact (quiet_abandonUnplaced s).then eight

theorem quiet_takeDelayMode : Quiet s (takeDelayMode s) := by
  unfold takeDelayMode; dsimp only
  split <;> rfl

theorem quiet_placeWrites (base w : Nat) (i : Fin 8) (p : Option Chan) : Quiet s (placeWrites base w i p s) := by
  unfold placeWrites
  split
  · exact .refl
  · exact quiet_placeAll s _ _

theorem quiet_placeReads (base w : Nat) (i : Fin 8) : Quiet s (placeReads base w i s) :=
  (quiet_mapLine i _ .refl).trans (quiet_placeAll _ _ _)

theorem quiet_countWritten (blocks : Vector (Option Chan) 8) : Quiet s (countWritten blocks s) :=
  quiet_mapDu _ .refl

theorem quiet_delayLinesWork (base : Nat) (blocks : Vector (Option Chan) 8) :
    Quiet s (delayLinesWork base blocks s) := by
  unfold delayLinesWork; dsimp only
  refine Quiet.trans (Quiet.trans (quiet_foldl (fun s i => quiet_placeWrites s _ _ i _) _ _)
    (quiet_countWritten _ _)) (quiet_foldl (fun s i => ?_) _ _)
  split
  · exact quiet_placeReads s _ _ _
  · exact .refl

theorem quiet_takeDistances (swaps : Vector Bool 8) : Quiet s (takeDistances swaps s) := quiet_mapDu _ .refl

theorem quiet_bypassWork (blocks : Vector (Option Chan) 8) : Quiet s (bypassWork blocks s) := quiet_mapDu _ .refl

theorem raises_delayBoundary (h : HandOn) : Raises 8 s (delayBoundary h s).2 := by
  have begun := ((raises_delayHandOn s).quiet (quiet_takeDelayMode _)).quiet (quiet_takeDistances _ h.swaps)
  unfold delayBoundary; dsimp only
  split
  · exact begun.quiet (quiet_mapDu _ (quiet_delayLinesWork _ _ _))
  · exact begun.quiet (quiet_mapDu _ (quiet_bypassWork _ _))

/-! ## The Switch Controller and connects -/

theorem raises_enterBlocked (c : BlockCause) : Raises 1 s (enterBlocked c s) := raises_eventAfter (quiet_mapSc _ .refl)

theorem quiet_startHoldTimer : Quiet s (startHoldTimer s) := by rw [startHoldTimer_eq]; exact quiet_mapSc _ .refl

theorem raises_connectEnter : Raises 1 s (connectEnter s) := by
  unfold connectEnter
  split
  · exact raises_enterBlocked s _
  · exact ((quiet_mapSc _ .refl).trans (quiet_startHoldTimer _)).still

theorem quiet_outputRestart (c : RateClass) : Quiet s (outputRestart c s) := by
  unfold outputRestart linkOutputRestart
  split <;> rfl

theorem quiet_connectClass (src : Source) : Quiet s (connectClass src s) := by
  unfold connectClass
  split
  · split
    · exact .refl
    · exact quiet_outputRestart s _
  · exact .refl

theorem quiet_connectFollowing (b : Bool) : Quiet s (connectFollowing b s) := by
  unfold connectFollowing
  split
  · exact .refl
  · exact quiet_mapClock _ .refl

theorem quiet_renderConnect : Quiet s (renderConnect s) := quiet_mapRu _ .refl

theorem quiet_delayConnect : Quiet s (delayConnect s) := quiet_mapLines _ .refl

theorem raises_connectSource (b : Bool) (src : Source) : Raises 2 s (connectSource b src s) := by
  unfold connectSource
  refine Raises.trans (raises_eventAfter ?_) (raises_connectEnter _)
  exact (((((quiet_mapSc _ .refl).trans (quiet_connectFollowing _ b)).trans (quiet_renderConnect _)).trans
    (quiet_delayConnect _)).trans (quiet_connectClass _ src)).trans (quiet_ringConnect _)

theorem raises_connectNone (previous : BitVec 16) : Raises 1 s (connectNone previous s) := by
  unfold connectNone
  refine raises_eventAfter ?_
  exact ((((quiet_mapSc _ .refl).trans (quiet_mapClock _ .refl)).trans (quiet_renderConnect _)).trans
    (quiet_delayConnect _)).trans (quiet_ringConnect _)

theorem quiet_takeTarget : Quiet s (takeTarget s) := quiet_mapSc _ .refl

theorem raises_connect : Raises 2 s (connect s) := by
  unfold connect; dsimp only
  split
  · exact ((quiet_takeTarget s).then (raises_connectNone _ _)).mono (by decide)
  · exact (quiet_takeTarget s).then (raises_connectSource _ _ _)

theorem raises_testReadiness : Raises 1 s (testReadiness s) := by
  unfold testReadiness
  split
  · exact Quiet.refl.still
  · split_ifs
    · exact (quiet_mapSc _ .refl).still
    · exact raises_enterBlocked s _
    · exact Quiet.refl.still

theorem quiet_testBlocked : Quiet s (testBlocked s) := by
  unfold testBlocked
  split
  · rfl
  · split <;> rfl

theorem raises_switchBefore : Raises 2 s (switchBefore s) := by
  unfold switchBefore
  split
  · split
    · exact raises_connect s
    · exact Quiet.refl.still
  · split
    · exact raises_connect s
    · exact (raises_testReadiness s).mono (by decide)
  · split
    · exact (raises_testReadiness s).mono (by decide)
    · exact Quiet.refl.still
  · exact (quiet_testBlocked s).still
  · exact Quiet.refl.still

theorem raises_connectAtMute : Raises 3 s (connectAtMute s) := by
  unfold connectAtMute; dsimp only
  split
  · exact (raises_connect s).trans (raises_testReadiness _)
  · exact (raises_connect s).mono (by decide)

theorem raises_enterPlaying : Raises 1 s (enterPlaying s) := raises_eventAfter (quiet_mapSc _ .refl)

theorem raises_switchAfter (before : State) : Raises 3 s (switchAfter before s) := by
  unfold switchAfter
  split
  · split
    · exact raises_connectAtMute s
    · exact Quiet.refl.still
  · split
    · exact (raises_enterPlaying s).mono (by decide)
    · exact Quiet.refl.still
  · exact Quiet.refl.still

/-! ## What a completion raises -/

theorem quiet_breakRun (p : Fin 6) : Quiet s (breakRun p s) := by
  unfold breakRun
  split <;> rfl

theorem quiet_offerToLink (p : Fin 6) (c : RateClass) (fs : List Frame) : Quiet s (offerToLink p c fs s) := by
  unfold offerToLink
  split <;> rfl

theorem raises_offerToRing (p : Fin 6) (c : RateClass) (fs : List Frame) : Raises 1 s (offerToRing p c fs s) := by
  unfold offerToRing
  split
  · split
    · exact raises_offerToStore s _ _ _ _ _
    · exact Quiet.refl.still
  · exact Quiet.refl.still

theorem raises_offerBlock (discarded : Bool) (p : Fin 6) (c : RateClass) (fs : List Frame) :
    Raises 1 s (offerBlock discarded p c fs s) := by
  unfold offerBlock
  split
  · exact (quiet_breakRun s p).still
  · exact (raises_offerToRing s p c fs).quiet (quiet_offerToLink _ _ _ _)

theorem quiet_enterDrain (t : Target) : Quiet s (enterDrain t s) := quiet_mapSc _ .refl

theorem raises_formatChanged (src : Source) (f : Format) : Raises 1 s (formatChanged src f s) := by
  have reformed (auto direct : Prop) [Decidable auto] [Decidable direct] :
      Raises 1 s (if auto then enterDrain (selfTarget s) s else if direct then enterBlocked .format s else s) := by
    split_ifs
    · exact (quiet_enterDrain s _).still
    · exact raises_enterBlocked s _
    · exact Quiet.refl.still
  unfold formatChanged
  split
  case h_1 => exact reformed _ _
  case h_2 => exact reformed _ _
  case h_7 => exact Quiet.refl.still
  all_goals
    split_ifs
    · exact (quiet_mapSc _ .refl).still
    · exact Quiet.refl.still

theorem raises_changeFormat (p : Fin 6) (f : Format) (cls : RateClass) : Raises 2 s (changeFormat p f cls s) := by
  have raised : Raises 1 s (raisePort p .formatChanged f.code cls.code
      (s.mapPort p fun q => { q with format := f, change := false })) := raises_eventAfter (quiet_mapPort _ _ .refl)
  unfold changeFormat; dsimp only
  split
  · split
    · exact raised.trans (raises_formatChanged _ _ _)
    · exact raised.mono (by decide)
  · exact raised.mono (by decide)

theorem raises_sampleFormat (p : Fin 6) (fmt : Bool) (cls : RateClass) : Raises 2 s (sampleFormat p fmt cls s) := by
  unfold sampleFormat; dsimp only
  split_ifs
  · exact (quiet_mapPort _ _ .refl).still
  · exact raises_changeFormat s _ _ _
  · exact (quiet_mapPort _ _ .refl).still

end
end Sys2Proof.Machine
end

