-- ==== Sys2Proof/Proofs/BoundaryValues.lean ====
section
/-! SUPPORT. The stages of a boundary's work (log entry 14) as states of their own, what each leaves alone, and the
events that reach the end of the step. -/

namespace Sys2Proof.Machine

/-! ## The stages -/

section
variable (offered : Option OfferedBlock) (s : State)

/-- Once the latches are taken and the switch has acted on the state the boundary finds. -/
def begunState : State := switchBefore (takeLatches s)

/-- Once ring and decoder have run. -/
def decodedState : State :=
  (renderDecode offered (ringBoundary (begunState s)).1 (ringBoundary (begunState s)).2).2

/-- Once bass management and the amplifier update have run: the state that the level stage reads. -/
def protectedState : State :=
  let decoded := renderDecode offered (ringBoundary (begunState s)).1 (ringBoundary (begunState s)).2
  let bass := bassBlock (foldBlock decoded.2 decoded.1) decoded.2
  ampUpdate bass.1.marks bass.2

/-- Once the switch has acted on the attenuations. -/
def settledState : State := switchAfter (decodedState offered s) (levelledState offered s)

/-- R102: every speaker's step, in the state that the level stage reads. -/
def State.levelled (m : State) : State :=
  m.mapRu fun ru => { ru with levels := Vector.ofFn fun i => levelStep m ru.speakers[i] ru.levels[i] }

theorem levelStage_state (b : RenderBlock) (m : State) : (levelStage b m).2 = m.levelled := rfl

theorem levelledState_eq : levelledState offered s = (protectedState offered s).levelled := by
  simp only [levelledState, protectedState, renderLevel, levelStage_state, begunState]

/-- The Delay Unit and the Output Unit end the work. -/
theorem boundaryWork_settled : ∃ h main, boundaryWork offered s
    = outputBoundary (delayBoundary h (settledState offered s)).1 main
        (delayBoundary h (settledState offered s)).2 :=
  let decoded := renderDecode offered (ringBoundary (begunState s)).1 (ringBoundary (begunState s)).2
  ⟨(renderLevel decoded.1 decoded.2).1, mainFold decoded.1, by
    simp only [boundaryWork, settledState, decodedState, levelledState, begunState, decoded]⟩

/-! ## What the stages leave alone -/

/-- The Render Unit but for its filters and its decoder. -/
def RenderUnit.console (ru : RenderUnit) : RenderUnit :=
  { ru with steering := Steering.reset, lastMode := .stereo, heldCount := 0, lp := Vector.replicate 8 0 }

theorem console_decodeBlock (live : Bool) (input : HostedBlock) :
    (decodeBlock live input s).2.ru.console = s.ru.console := by
  unfold decodeBlock resetCrossover resetSteering; dsimp only
  split <;> split_ifs <;> rfl

theorem console_of_butConnect {a b : State} (h : a.kept.butConnect = b.kept.butConnect) :
    a.ru.console = b.ru.console := congrArg (fun k => k.ru.console) h

theorem begunState_butConnect : (begunState s).kept.butConnect = (takeLatches s).kept.butConnect :=
  butConnect_switchBefore _

theorem butAudio_mapRu (f : RenderUnit → RenderUnit) : (s.mapRu f).kept.butAudio = s.kept.butAudio := rfl

/-- Ring, decoder and level stage pass the state on but for their own units. -/
theorem butAudio_decodedState : (decodedState offered s).kept.butAudio = (begunState s).kept.butAudio := by
  have ring := congrArg Kept.butAudio (butRe_ringBoundary (begunState s))
  have ru := congrArg Kept.butAudio (butRu_renderDecode (ringBoundary (begunState s)).2 offered
    (ringBoundary (begunState s)).1)
  exact Eq.trans ru ring

theorem butAudio_protectedState : (protectedState offered s).kept.butAudio = (begunState s).kept.butAudio := by
  have levelled : (levelledState offered s).kept.butAudio = (protectedState offered s).kept.butAudio := by
    rw [levelledState_eq, State.levelled, butAudio_mapRu]
  exact levelled.symm.trans (butAudio_levelledState offered s)

theorem decodedState_console : (decodedState offered s).ru.console = s.ru.console := by
  have ring : (ringBoundary (begunState s)).2.ru = (begunState s).ru :=
    congrArg Kept.ru (butRe_ringBoundary (begunState s))
  have begun : (begunState s).ru.console = (takeLatches s).ru.console := console_of_butConnect (begunState_butConnect s)
  exact (console_decodeBlock _ _ _).trans ((congrArg RenderUnit.console ring).trans begun)

theorem protectedState_console : (protectedState offered s).ru.console = s.ru.console := by
  have amp (t : State) (marks : Vector Bool 8) : (ampUpdate marks t).ru = t.ru :=
    congrArg Kept.ru (butAp_ampUpdate t marks)
  exact (congrArg RenderUnit.console (amp _ _)).trans (decodedState_console offered s)

theorem settledState_butConnect :
    (settledState offered s).kept.butConnect = (levelledState offered s).kept.butConnect :=
  butConnect_switchAfter _ _

theorem boundaryWork_butDu : ∃ delayed rendered d, boundaryWork offered s = outputBoundary delayed rendered d
    ∧ d.kept.butDu = (settledState offered s).kept.butDu := by
  obtain ⟨h, main, work⟩ := boundaryWork_settled offered s
  exact ⟨_, _, _, work, butDu_delayBoundary _ h⟩

section
variable {a b : State}

theorem re_of_butDu (h : a.kept.butDu = b.kept.butDu) : a.re = b.re := congrArg Kept.re h
theorem ap_of_butDu (h : a.kept.butDu = b.kept.butDu) : a.ap = b.ap := congrArg Kept.ap h
theorem ap_of_butConnect (h : a.kept.butConnect = b.kept.butConnect) : a.ap = b.ap := congrArg Kept.ap h

end

theorem boundaryWork_sc : (boundaryWork offered s).sc = (settledState offered s).sc := by
  obtain ⟨delayed, rendered, d, work, du⟩ := boundaryWork_butDu offered s
  have same := sc_of_butDu du
  rw [work, ← same]; rfl

theorem boundaryWork_re : (boundaryWork offered s).re = (settledState offered s).re := by
  obtain ⟨delayed, rendered, d, work, du⟩ := boundaryWork_butDu offered s
  have same := re_of_butDu du
  rw [work, ← same]; rfl

theorem boundaryWork_ru : (boundaryWork offered s).ru = (settledState offered s).ru := by
  obtain ⟨delayed, rendered, d, work, du⟩ := boundaryWork_butDu offered s
  have same := ru_of_butDu du
  rw [work, ← same]; rfl

theorem boundaryWork_settledClock : (boundaryWork offered s).clock = (settledState offered s).clock := by
  obtain ⟨delayed, rendered, d, work, du⟩ := boundaryWork_butDu offered s
  have same := clock_of_butDu du
  rw [work, ← same]; rfl

theorem boundaryWork_ap : (boundaryWork offered s).ap = (protectedState offered s).ap := by
  obtain ⟨delayed, rendered, d, work, du⟩ := boundaryWork_butDu offered s
  have settled := ap_of_butConnect (settledState_butConnect offered s)
  rw [levelledState_eq, State.levelled] at settled
  have same := (ap_of_butDu du).trans settled
  rw [State.mapRu_ap] at same
  rw [work, ← same]; rfl

theorem protectedState_sc : (protectedState offered s).sc = (begunState s).sc :=
  sc_of_butAudio (butAudio_protectedState _ _)

theorem levelledState_sc : (levelledState offered s).sc = (begunState s).sc :=
  sc_of_butAudio (butAudio_levelledState _ _)

/-! ## The events of a boundary -/

theorem quiet_takeLatches : Quiet s (takeLatches s) := rfl

theorem raises_levelledState : Raises 10 (begunState s) (levelledState offered s) :=
  ((raises_ringBoundary _).quiet (quiet_decodeBlock _ _ _)).trans (raises_renderLevel _ _)

theorem raises_settledState : Raises 3 (levelledState offered s) (settledState offered s) := raises_switchAfter _ _

theorem raises_boundaryWork_settled : Raises 8 (settledState offered s) (boundaryWork offered s) := by
  obtain ⟨h, main, work⟩ := boundaryWork_settled offered s
  rw [work]
  exact (raises_delayBoundary _ h).quiet (quiet_mapOu _ .refl)

theorem raises_boundaryWork_levelled : Raises 11 (levelledState offered s) (boundaryWork offered s) :=
  (raises_settledState offered s).trans (raises_boundaryWork_settled offered s)

theorem raises_boundaryWork_begun : Raises 21 (begunState s) (boundaryWork offered s) :=
  (raises_levelledState offered s).trans (raises_boundaryWork_levelled offered s)

end

end Sys2Proof.Machine
end

