-- ==== Sys2Proof/Proofs/Arrivals.lean ====
section
/-! SUPPORT. The Switch Controller and the ports that a boundary's work finds (R15, R20a): what the sample of the
completed block's format has made of them. -/

namespace Sys2Proof.Machine

/-! ## The sample of a port's line -/

/-- R15, R20a: the Switch Controller once the line of port `p`, in state `q`, has been sampled. -/
def SwitchUnit.sampled (sc : SwitchUnit) (p : Fin 6) (q : PortState) (fmt : Bool) : SwitchUnit :=
  match sc.connected with
  | none => sc
  | some i =>
    if sc.table[i].port = p ∧ q.change = true ∧ q.format ≠ formatOnLine fmt then
      sc.reformed sc.table[i] (formatOnLine fmt)
    else sc

theorem SwitchUnit.sampled_still {sc : SwitchUnit} {p : Fin 6} {q : PortState} {fmt : Bool}
    (h : ¬ (q.change = true ∧ q.format ≠ formatOnLine fmt)) : sc.sampled p q fmt = sc := by
  unfold SwitchUnit.sampled
  split
  · rfl
  · rw [if_neg fun moves => h moves.2]

theorem SwitchUnit.sampled_unplayed {sc : SwitchUnit} {p : Fin 6} {q : PortState} {fmt : Bool}
    (other : ∀ i, sc.connected = some i → sc.table[i].port ≠ p) : sc.sampled p q fmt = sc := by
  unfold SwitchUnit.sampled
  split
  · rfl
  · rename_i i connected
    rw [if_neg fun moves => other i connected moves.1]

theorem SwitchUnit.sampled_changed {sc : SwitchUnit} {i : Fin 8} {q : PortState} {fmt : Bool}
    (connected : sc.connected = some i) (change : q.change = true) (differs : q.format ≠ formatOnLine fmt) :
    sc.sampled sc.table[i].port q fmt = sc.reformed sc.table[i] (formatOnLine fmt) := by
  simp only [SwitchUnit.sampled, connected]
  exact if_pos ⟨trivial, change, differs⟩

section
variable (s : State)

/-- R15: the port and the event of a change of format. -/
def State.reformatted (p : Fin 6) (f : Format) (cls : RateClass) : State :=
  raisePort p .formatChanged f.code cls.code (s.mapPort p fun q => { q with format := f, change := false })

theorem changeFormat_played {i : Fin 8} {p : Fin 6} (f : Format) (cls : RateClass) (connected : s.sc.connected = some i)
    (port : s.sc.table[i].port = p) :
    changeFormat p f cls s = formatChanged s.sc.table[i] f (s.reformatted p f cls) := by
  have sc : (s.reformatted p f cls).sc = s.sc := raisePort_sc _ _ _ _ _
  change (match connectedSource (s.reformatted p f cls) with
    | some src => if src.port = p then formatChanged src f (s.reformatted p f cls) else s.reformatted p f cls
    | none => s.reformatted p f cls) = _
  rw [connectedSource, sc, connected]
  exact if_pos port

theorem changeFormat_unplayed {p : Fin 6} (f : Format) (cls : RateClass)
    (other : ∀ i, s.sc.connected = some i → s.sc.table[i].port ≠ p) :
    changeFormat p f cls s = s.reformatted p f cls := by
  have sc : (s.reformatted p f cls).sc = s.sc := raisePort_sc _ _ _ _ _
  change (match connectedSource (s.reformatted p f cls) with
    | some src => if src.port = p then formatChanged src f (s.reformatted p f cls) else s.reformatted p f cls
    | none => s.reformatted p f cls) = _
  rw [connectedSource, sc]
  cases connected : s.sc.connected with
  | none => rfl
  | some i => exact if_neg (other i connected)

theorem sampleFormat_changes {p : Fin 6} {fmt : Bool} (cls : RateClass) (change : s.ports[p].change = true)
    (differs : s.ports[p].format ≠ formatOnLine fmt) :
    sampleFormat p fmt cls s = changeFormat p (formatOnLine fmt) cls s := by
  simp only [sampleFormat, if_neg differs, if_pos change]

theorem sampleFormat_keeps {p : Fin 6} {fmt : Bool} (cls : RateClass)
    (h : ¬ (s.ports[p].change = true ∧ s.ports[p].format ≠ formatOnLine fmt)) :
    (sampleFormat p fmt cls s).sc = s.sc := by
  unfold sampleFormat; dsimp only
  split_ifs with same change
  · rfl
  · exact absurd ⟨change, same⟩ h
  · rfl

theorem sampleFormat_sampled (p : Fin 6) (fmt : Bool) (cls : RateClass) :
    (sampleFormat p fmt cls s).sc = s.sc.sampled p s.ports[p] fmt := by
  by_cases moves : s.ports[p].change = true ∧ s.ports[p].format ≠ formatOnLine fmt
  · obtain ⟨change, differs⟩ := moves
    have sc : (s.reformatted p (formatOnLine fmt) cls).sc = s.sc := raisePort_sc _ _ _ _ _
    rw [sampleFormat_changes s cls change differs]
    by_cases played : ∃ i, s.sc.connected = some i ∧ s.sc.table[i].port = p
    · obtain ⟨i, connected, rfl⟩ := played
      have formed := congrArg Kept.sc (kept_formatChanged (s.reformatted s.sc.table[i].port (formatOnLine fmt) cls)
        s.sc.table[i] (formatOnLine fmt))
      rw [changeFormat_played s _ cls connected rfl, SwitchUnit.sampled_changed connected change differs]
      calc _ = (s.reformatted s.sc.table[i].port (formatOnLine fmt) cls).sc.reformed s.sc.table[i] (formatOnLine fmt) :=
            formed
        _ = _ := by rw [sc]
    · have other (i) (connected : s.sc.connected = some i) : s.sc.table[i].port ≠ p :=
        fun port => played ⟨i, connected, port⟩
      rw [changeFormat_unplayed s _ cls other, SwitchUnit.sampled_unplayed other, sc]
  · rw [sampleFormat_keeps s cls moves, SwitchUnit.sampled_still moves]

theorem offeredState_sampled (p : Fin 6) (cls : RateClass) (fmt : Bool) :
    (offeredState s p cls fmt).sc = s.sc.sampled p s.ports[p] fmt := by
  rw [offeredState_sc, sampleFormat_sampled, swapHalves, mapPort_at]
  rfl

theorem followCompletion_sc (cls : RateClass) : (followCompletion cls s).sc = s.sc := by
  unfold followCompletion outputRestart linkOutputRestart; dsimp only
  split_ifs <;> rfl

/-- R15, R20a: the switch once a frame has completed its port's block and the block's line has been sampled. -/
theorem completed_sc (p : Fin 6) (bits : List Bool) (cls : RateClass) (fmt : Bool) :
    (offeredState (followCompletion cls (s.framed p bits)) p cls fmt).sc = s.sc.sampled p s.ports[p] fmt := by
  rw [offeredState_sampled, followCompletion_sc, followCompletion_ports, State.framed_at]
  rfl

end

/-! ## What a boundary finds -/

section
variable {s : State} {cmd : Instr}

theorem formatMoves_of_connected {i : Fin 8} (connected : s.sc.connected = some i) :
    s.formatMoves cmd = decide (s.formatAt cmd s.sc.table[i].port ≠ s.ports[s.sc.table[i].port].format) := by
  simp only [State.formatMoves, connected]

theorem autoMoves_of_connected {i : Fin 8} (connected : s.sc.connected = some i) :
    s.autoMoves cmd = (s.formatMoves cmd && decide (s.sc.table[i].path = .auto)) := by
  simp only [State.autoMoves, connected]

theorem directLost_of_connected {i : Fin 8} (connected : s.sc.connected = some i) :
    s.directLost cmd = (s.formatMoves cmd && decide (s.sc.table[i].path ≠ .auto) && decide (s.sc.path = .direct)
      && decide (s.formatAt cmd s.sc.table[i].port = .encoded)) := by
  simp only [State.directLost, connected]

/-- The Switch Controller as a boundary finds it. -/
def State.arrivedSc (s : State) (cmd : Instr) : SwitchUnit :=
  match s.sc.connected with
  | none => s.sc
  | some i =>
    if s.formatMoves cmd = true then s.sc.reformed s.sc.table[i] (s.formatAt cmd s.sc.table[i].port) else s.sc

theorem arrivedSc_of_connected {i : Fin 8} (connected : s.sc.connected = some i) : s.arrivedSc cmd
    = if s.formatMoves cmd = true then s.sc.reformed s.sc.table[i] (s.formatAt cmd s.sc.table[i].port) else s.sc := by
  unfold State.arrivedSc
  rw [connected]

/-- R20a: a boundary's work finds the switch as the sample left it. -/
theorem atBoundary_arrived (h : s.boundaryBy cmd) : (s.atBoundary cmd).sc = s.arrivedSc cmd := by
  have own (keeps : ∀ p, s.formatAt cmd p = s.ports[p].format) : s.arrivedSc cmd = s.sc := by
    unfold State.arrivedSc
    split
    · rfl
    · rename_i i connected
      rw [formatMoves_of_connected connected, keeps]
      simp
  obtain ⟨high, made⟩ := h
  cases cmd <;> try exact made.elim
  case freeRunBoundary => exact (own fun _ => rfl).symm
  case followTimeout => exact (own fun _ => rfl).symm
  case portFrame p bits fmt =>
    obtain ⟨lock, length, ⟨i, connected, port⟩, tuned⟩ := made
    subst port
    have line : s.formatAt (.portFrame s.sc.table[i].port bits fmt) s.sc.table[i].port
        = if s.ports[s.sc.table[i].port].change = true then formatOnLine fmt
          else s.ports[s.sc.table[i].port].format := by
      simp only [State.formatAt, true_and]; rfl
    simp only [State.atBoundary, State.arrivedSc, connected]
    rw [completed_sc, formatMoves_of_connected connected, line]
    by_cases change : s.ports[s.sc.table[i].port].change = true
    · rw [if_pos change]
      by_cases same : s.ports[s.sc.table[i].port].format = formatOnLine fmt
      · rw [SwitchUnit.sampled_still fun moves => moves.2 same, if_neg (by rw [same]; simp)]
      · rw [SwitchUnit.sampled_changed connected change same, if_pos (decide_eq_true (Ne.symm same))]
    · rw [if_neg change, SwitchUnit.sampled_still fun moves => change moves.1, if_neg (by simp)]

/-- R20a: a source with a fixed path loses its feed, in the DIRECT path, to an encoded signal. -/
theorem SwitchUnit.reformed_fixed (sc : SwitchUnit) {src : Source} {f : Format} (fixed : src.path ≠ .auto) :
    sc.reformed src f
      = if sc.path = .direct ∧ f = .encoded then
          if sc.st = .playing ∨ sc.st = .playRamp then sc.blocked .format
          else if sc.st = .drain then { sc with feed := false } else sc
        else sc := by
  obtain ⟨table, st, connected, target, path, request, feed, timer, cause⟩ := sc
  cases st <;> simp only [SwitchUnit.reformed, fixed, false_and, if_false, reduceCtorEq, or_false,
    or_true, if_true, ite_self]

/-- R20a: with no AUTO source changing format a boundary finds the switch BLOCKED, its feed stopped, or as it was. -/
theorem arrivedSc_of_not_auto (auto : s.autoMoves cmd = false) : s.arrivedSc cmd
    = if s.directLost cmd = true then
        if s.sc.st = .playing ∨ s.sc.st = .playRamp then s.sc.blocked .format
        else if s.sc.st = .drain then { s.sc with feed := false } else s.sc
      else s.sc := by
  obtain connected | ⟨i, connected⟩ := s.sc.connected.eq_none_or_eq_some
  · simp only [State.arrivedSc, State.directLost, connected, Bool.false_eq_true, if_false]
  · rw [arrivedSc_of_connected connected]
    rw [directLost_of_connected connected]
    rw [autoMoves_of_connected connected] at auto
    cases moves : s.formatMoves cmd with
    | false => simp
    | true =>
      have fixed : s.sc.table[i].path ≠ .auto := by simpa [moves] using auto
      rw [if_pos rfl, SwitchUnit.reformed_fixed _ fixed]
      refine if_congr ?_ rfl rfl
      simp only [Bool.true_and, Bool.and_eq_true, decide_eq_true_eq, and_assoc]
      exact (and_iff_right fixed).symm

/-- R15: a port as a boundary finds it: its lock is as before and its format as sampled. -/
theorem atBoundary_port (h : s.boundaryBy cmd) (p : Fin 6) :
    (s.atBoundary cmd).ports[p].lock = s.ports[p].lock
      ∧ (s.atBoundary cmd).ports[p].format = s.formatAt cmd p := by
  obtain ⟨high, made⟩ := h
  cases cmd <;> try exact made.elim
  case freeRunBoundary => exact ⟨rfl, rfl⟩
  case followTimeout => exact ⟨rfl, rfl⟩
  case portFrame q bits fmt =>
    rw [atBoundary_ports]
    by_cases same : p = q
    · subst same
      simp only [Fin.getElem_fin, Vector.getElem_set_self, State.formatAt, true_and]
      exact ⟨rfl, rfl⟩
    · have other : (q : Nat) ≠ (p : Nat) := fun k => same (Fin.ext k.symm)
      simp only [Fin.getElem_fin, Vector.getElem_set_ne _ _ other, State.formatAt, same, false_and, if_false,
        and_self]

theorem atBoundary_tc (h : s.boundaryBy cmd) : (s.atBoundary cmd).tc = s.tc := congrArg Kept.tc (kept_atBoundary s h)

theorem atBoundary_regions (h : s.boundaryBy cmd) : (s.atBoundary cmd).pu.regions = s.pu.regions :=
  congrArg Kept.regions (kept_atBoundary s h)

theorem atBoundary_ru (h : s.boundaryBy cmd) : (s.atBoundary cmd).ru = s.ru := congrArg Kept.ru (kept_atBoundary s h)

/-! ## The events that a boundary finds on their way -/

/-- A boundary of the clock's own finds the events as they were. -/
theorem quiet_atBoundary (own : clocksOwn cmd = true) : Quiet s (s.atBoundary cmd) := by
  cases cmd
  case freeRunBoundary => exact quiet_mapClock _ .refl
  case followTimeout => exact quiet_mapClock _ .refl
  all_goals cases own

theorem quiet_followCompletion (cls : RateClass) : Quiet s (followCompletion cls s) := by
  unfold followCompletion; dsimp only
  split
  · exact quiet_mapClock _ .refl
  · exact quiet_mapClock _ (quiet_outputRestart s cls)

theorem quiet_framed (p : Fin 6) (bits : List Bool) : Quiet s (s.framed p bits) := quiet_mapPort _ _ .refl

theorem quiet_swapHalves (p : Fin 6) : Quiet s (swapHalves p s) := quiet_mapPort _ _ .refl

theorem raises_offeredState (p : Fin 6) (cls : RateClass) (fmt : Bool) : Raises 3 s (offeredState s p cls fmt) :=
  ((quiet_swapHalves p).then (raises_sampleFormat _ p fmt cls)).trans (raises_offerBlock _ _ _ _ _)

theorem raises_atBoundary (h : s.boundaryBy cmd) : Raises 3 s (s.atBoundary cmd) := by
  obtain ⟨high, made⟩ := h
  cases cmd <;> try exact made.elim
  case freeRunBoundary => exact (quiet_atBoundary rfl).still
  case followTimeout => exact (quiet_atBoundary rfl).still
  case portFrame p bits fmt =>
    exact ((quiet_framed p bits).trans (quiet_followCompletion _)).then (raises_offeredState p _ fmt)

end

end Sys2Proof.Machine
end

