-- ==== Sys2Proof/Proofs/SwitchBoundaries.lean ====
section
/-! SUPPORT. The Switch Controller at a boundary without a connect (R20a, R22, R23, R25, R28): the readiness tests, the
end of PLAY_RAMP, and the events they raise. -/

namespace Sys2Proof.Machine

/-! ## The readiness test -/

section
variable {s : State} {src : Source}

/-- R22: the source's signal is in the class in force, its path has its regions, and its tuner is settled. -/
def State.settles (s : State) (src : Source) : Prop :=
  s.ports[src.port].lock = .locked s.clock.cls
    ∧ (s.sc.path = .hosted → s.pu.regions.input.isSome = true ∧ s.pu.regions.output.isSome = true)
    ∧ (src.port = 4 → s.tc.st = .tuned)

theorem readyButFormat_iff : readyButFormat s src = true ↔ s.settles src := by
  have path : s.sc.path = .direct ↔ s.sc.path ≠ .hosted := by cases s.sc.path <;> simp
  simp only [readyButFormat, lockedInForce, hostedRegionsSet, tunerSettled, Source.isRadio, State.settles,
    Bool.and_eq_true, Bool.or_eq_true, decide_eq_true_eq, Bool.not_eq_true', decide_eq_false_iff_not, path,
    and_assoc, imp_iff_not_or, ne_eq]

theorem sourceReady_eq_true (settled : s.settles src) (suits : signalSuits s src = true) :
    sourceReady s src = true := by
  rw [sourceReady, readyButFormat_iff.2 settled, suits]
  rfl

theorem testReadiness_plays (connected : connectedSource s = some src) (settled : s.settles src)
    (suits : signalSuits s src = true) : testReadiness s = enterPlayRamp s := by
  rw [testReadiness, connected]
  exact if_pos (sourceReady_eq_true settled suits)

theorem testReadiness_blocks (connected : connectedSource s = some src) (settled : s.settles src)
    (unsuited : ¬ signalSuits s src = true) : testReadiness s = enterBlocked .format s := by
  have notReady : ¬ sourceReady s src = true := by
    rw [sourceReady, Bool.and_eq_true]
    exact fun ready => unsuited ready.2
  rw [testReadiness, connected]
  exact (if_neg notReady).trans (if_pos (readyButFormat_iff.2 settled))

theorem testReadiness_waits (connected : connectedSource s = some src) (unsettled : ¬ s.settles src) :
    testReadiness s = s := by
  have unready : ¬ readyButFormat s src = true := fun ready => unsettled (readyButFormat_iff.1 ready)
  have notReady : ¬ sourceReady s src = true := by
    rw [sourceReady, Bool.and_eq_true]
    exact fun ready => unready ready.1
  rw [testReadiness, connected]
  exact (if_neg notReady).trans (if_neg unready)

theorem testBlocked_plays (connected : connectedSource s = some src) (cause : s.sc.cause = some .format)
    (settled : s.settles src) (suits : signalSuits s src = true) : testBlocked s = enterPlayRamp s := by
  rw [testBlocked, connected]
  exact if_pos ⟨cause, sourceReady_eq_true settled suits⟩

theorem testBlocked_waits (connected : connectedSource s = some src)
    (h : ¬ (s.sc.cause = some .format ∧ s.settles src ∧ signalSuits s src = true)) : testBlocked s = s := by
  rw [testBlocked, connected]
  refine if_neg fun ⟨cause, ready⟩ => h ⟨cause, ?_⟩
  rw [sourceReady, Bool.and_eq_true, readyButFormat_iff] at ready
  exact ready

theorem testBlocked_none (none : connectedSource s = none) : testBlocked s = s := by
  rw [testBlocked, none]

theorem enterBlocked_carries {n : Nat} {first : Bool} (c : BlockCause) (room : s.takesEvents (n + 1))
    (none : first = true → s.eventsOut = []) :
    (enterBlocked c s).carries n
      (eventNow s (.source .blocked) (connectedSubject s) (natWord c.code) (natWord (connectedFormatCode s))) first :=
  raiseEvent_carries (s := s.mapSc fun sc => sc.blocked c) _ _ _ _ room none

end

/-! ## The end of PLAY_RAMP -/

theorem speakerPair_of_present {sp : Speaker} (present : sp.presence ≠ .absent) : speakerPair sp = sp.pair := by
  simp [speakerPair, Speaker.isPresent, present]

/-- R101: a speaker's target, in the state that a stage of the boundary reads. -/
theorem targetAttenuation_eq {s m t : State} (i : Fin 8) (dip : Dip) (master : m.ru.master = s.ru.master)
    (mute : m.ru.mute = s.ru.mute) (speakers : m.ru.speakers = s.ru.speakers) (ap : m.ap = t.ap)
    (levels : dip = s.ru.levels[i].dip)
    (source : switchMute m = false → m.sc.connected = s.sc.connected ∧ m.sc.table = s.sc.table) :
    targetAttenuation m m.ru.speakers[i] dip = targetAt (switchMute m) s t i := by
  subst levels
  unfold targetAttenuation targetAt
  dsimp only
  rw [master, mute, speakers]
  by_cases silent : s.ru.speakers[i].presence = .absent ∨ s.ru.mute = true ∨ switchMute m = true
      ∨ s.ru.levels[i].dip = .down
  · rw [if_pos silent, if_pos]
    simpa [Speaker.isPresent, or_assoc] using silent
  · rw [if_neg silent, if_neg (by simpa [Speaker.isPresent, or_assoc] using silent)]
    simp only [not_or] at silent
    obtain ⟨present, -, loud, -⟩ := silent
    obtain ⟨connected, table⟩ := source (by simpa using loud)
    rw [speakerDerated, speakerPair_of_present present, connectedSource, connected, table, ap]
    cases s.sc.connected <;> cases s.ru.speakers[i].pair <;> simp

/-! ## What a boundary makes of the switch -/

section
variable {s : State} {cmd : Instr}

/-- The state that a boundary of `s` leaves before the step ends. -/
def State.boundaryDone (s : State) (cmd : Instr) : State := boundaryWork (s.boundaryOffer cmd) (s.atBoundary cmd)

/-- The switch's first stage finds what the boundary found. -/
def State.arrived (s : State) (cmd : Instr) : State := takeLatches (s.atBoundary cmd)

theorem begunState_arrived : begunState (s.atBoundary cmd) = switchBefore (s.arrived cmd) := rfl

theorem arrived_sc (h : s.boundaryBy cmd) : (s.arrived cmd).sc = s.arrivedSc cmd := atBoundary_arrived h

/-- R20, R21: without a stage after the attenuations to act, the switch stays as the first stage left it. -/
theorem boundaryWork_rests {offered : Option OfferedBlock} {u : State} {x : SwitchUnit}
    (begun : (begunState u).sc = x) (drain : x.st ≠ .drain) (ramp : x.st ≠ .playRamp) :
    (boundaryWork offered u).sc = x := by
  have sc := levelledState_sc offered u
  rw [begun] at sc
  rw [boundaryWork_sc, settledState]
  generalize levelledState _ _ = m at sc ⊢
  subst sc
  unfold switchAfter
  split
  · exact absurd ‹_› drain
  · exact absurd ‹_› ramp
  · rfl

/-- R21: DRAIN goes on while a speaker sounds. -/
theorem boundaryWork_drains {offered : Option OfferedBlock} {u : State} {x : SwitchUnit}
    (begun : (begunState u).sc = x) (drain : x.st = .drain)
    (loud : ∃ i : Fin 8, (boundaryWork offered u).ru.levels[i].applied ≠ 192) : (boundaryWork offered u).sc = x := by
  have sc := levelledState_sc offered u
  rw [begun] at sc
  obtain ⟨i, loud⟩ := loud
  have heard : ¬ muteReached (levelledState offered u) = true := by
    rw [muteReached_iff, ← boundaryWork_levels]
    exact fun silent => loud (silent i)
  rw [boundaryWork_sc, settledState]
  generalize levelledState _ _ = m at sc heard ⊢
  subst sc
  unfold switchAfter
  rw [drain]
  exact congrArg State.sc (if_neg heard)

theorem boundaryDone_rests {x : SwitchUnit} (begun : (switchBefore (s.arrived cmd)).sc = x) (drain : x.st ≠ .drain)
    (ramp : x.st ≠ .playRamp) : (finish (s.boundaryDone cmd)).sc = x := by
  rw [finish_sc]
  exact boundaryWork_rests begun drain ramp

theorem boundaryDone_drains {x : SwitchUnit} (begun : (switchBefore (s.arrived cmd)).sc = x) (drain : x.st = .drain)
    (loud : ∃ i : Fin 8, (finish (s.boundaryDone cmd)).ru.levels[i].applied ≠ 192) :
    (finish (s.boundaryDone cmd)).sc = x := by
  rw [finish_ru] at loud
  rw [finish_sc]
  exact boundaryWork_drains begun drain loud

/-- R23: every speaker has its target or is forced to zero. -/
def State.reaches (s t : State) : Prop :=
  ∀ i : Fin 8, t.ru.levels[i].forced = true ∨ t.ru.levels[i].applied = targetAt false s t i

theorem RenderUnit.settings_of_console {a b : RenderUnit} (h : a.console = b.console) :
    a.master = b.master ∧ a.mute = b.mute ∧ a.crossover = b.crossover ∧ a.speakers = b.speakers
      ∧ a.levels = b.levels := by
  simp only [RenderUnit.console, RenderUnit.mk.injEq, true_and] at h
  obtain ⟨speakers, crossover, master, mute, levels⟩ := h
  exact ⟨master, mute, crossover, speakers, levels⟩

theorem levelledState_settings (offered : Option OfferedBlock) (s : State) :
    (levelledState offered s).ru.master = s.ru.master ∧ (levelledState offered s).ru.mute = s.ru.mute
      ∧ (levelledState offered s).ru.crossover = s.ru.crossover
      ∧ (levelledState offered s).ru.speakers = s.ru.speakers := by
  obtain ⟨master, mute, crossover, speakers, -⟩ :=
    RenderUnit.settings_of_console (protectedState_console offered s)
  rw [levelledState_eq]
  generalize protectedState offered s = m at master mute crossover speakers ⊢
  exact ⟨master, mute, crossover, speakers⟩

theorem levelledState_ap (offered : Option OfferedBlock) (s : State) :
    (levelledState offered s).ap = (protectedState offered s).ap := by
  rw [levelledState_eq]
  generalize protectedState offered s = m
  rfl

theorem targetsReached_iff (h : s.boundaryBy cmd) {x : SwitchUnit} (begun : (switchBefore (s.arrived cmd)).sc = x)
    (ramp : x.st = .playRamp) (connected : x.connected = s.sc.connected) (table : x.table = s.sc.table) :
    targetsReached (decodedState (s.boundaryOffer cmd) (s.atBoundary cmd))
        (levelledState (s.boundaryOffer cmd) (s.atBoundary cmd)) = true
      ↔ s.reaches (finish (s.boundaryDone cmd)) := by
  have sc := levelledState_sc (s.boundaryOffer cmd) (s.atBoundary cmd)
  rw [begunState_arrived, begun] at sc
  have before := congrArg RenderUnit.levels (decodedState_console (s.boundaryOffer cmd) (s.atBoundary cmd))
  obtain ⟨master, mute, crossover, speakers⟩ := levelledState_settings (s.boundaryOffer cmd) (s.atBoundary cmd)
  have levels : (finish (s.boundaryDone cmd)).ru.levels
      = (levelledState (s.boundaryOffer cmd) (s.atBoundary cmd)).ru.levels := by
    rw [finish_ru]; exact boundaryWork_levels _ _
  have ap : (levelledState (s.boundaryOffer cmd) (s.atBoundary cmd)).ap = (finish (s.boundaryDone cmd)).ap := by
    rw [finish_ap, levelledState_ap]; exact (boundaryWork_ap _ _).symm
  rw [atBoundary_ru h] at before master mute speakers
  generalize decodedState _ _ = d at before ⊢
  generalize levelledState _ _ = m at sc master mute speakers levels ap ⊢
  subst sc
  have playing : switchMute m = false := by simp [switchMute, ramp]
  have all (i : Fin 8) : i ∈ speakerIds := by revert i; decide
  have dips (i : Fin 8) : d.ru.levels[i].dip = s.ru.levels[i].dip :=
    congrArg (fun v : Vector Level 8 => v[i].dip) before
  have target (i : Fin 8) := targetAttenuation_eq (t := finish (s.boundaryDone cmd)) i d.ru.levels[i].dip master mute
    speakers ap (dips i) fun _ => ⟨connected, table⟩
  simp only [targetsReached, List.all_eq_true, all, true_imp_iff, Bool.or_eq_true, decide_eq_true_eq, target, playing,
    State.reaches, levels]

/-! ## The events of a boundary of `s` -/

theorem arrived_takesEvents (h : s.boundaryBy cmd) (room : s.eventRoom) : (s.arrived cmd).takesEvents 29 := by
  obtain ⟨later, -⟩ := raises_atBoundary h 29 room.takesEvents
  exact (quiet_takeLatches _).takesEvents later

theorem arrived_eventsOut (room : s.eventRoom) (own : clocksOwn cmd = true) : (s.arrived cmd).eventsOut = [] :=
  ((quiet_atBoundary own).trans (quiet_takeLatches _)).eventsOut.trans room.eventsOut

theorem arrived_clock (h : s.boundaryBy cmd) : (s.arrived cmd).clock
    = { s.clock with stamp := s.clock.stamp + 1, following := s.followsAt cmd, own := s.ownAt cmd } :=
  atBoundary_clock s h

theorem State.carries.raisesAt {t : State} {n : Nat} {e : Event}
    (h : s.eventRoom → t.carries n { e with stamp := s.clock.stamp + 1 } (clocksOwn cmd)) : s.raisesAt cmd t e := by
  intro room
  obtain ⟨-, mem, head⟩ := h room
  exact ⟨mem, head⟩

/-- An event of the switch's first stage reaches the end of the step. -/
theorem boundaryDone_carries {e : Event} {first : Bool}
    (h : (switchBefore (s.arrived cmd)).carries 21 e first) : (finish (s.boundaryDone cmd)).carries 0 e first :=
  ((raises_boundaryWork_begun (s.boundaryOffer cmd) (s.atBoundary cmd)).quiet (quiet_finish _)).carries h

/-- R23: the end of PLAY_RAMP. -/
theorem boundaryDone_ramps (h : s.boundaryBy cmd) {x : SwitchUnit} (begun : (switchBefore (s.arrived cmd)).sc = x)
    (ramp : x.st = .playRamp) (connected : x.connected = s.sc.connected) (table : x.table = s.sc.table) :
    (s.reaches (finish (s.boundaryDone cmd)) → (finish (s.boundaryDone cmd)).sc = { x with st := .playing }
        ∧ (s.eventRoom →
            { eventNow s (.source .playing) (sourceSubject s.sc.connected) (natWord x.path.code) 0 with
                stamp := s.clock.stamp + 1 } ∈ (finish (s.boundaryDone cmd)).eventsOut))
      ∧ (¬ s.reaches (finish (s.boundaryDone cmd)) → (finish (s.boundaryDone cmd)).sc = x) := by
  rw [← targetsReached_iff h begun ramp connected table]
  have sc := levelledState_sc (s.boundaryOffer cmd) (s.atBoundary cmd)
  rw [begunState_arrived, begun] at sc
  have done : (finish (s.boundaryDone cmd)).sc = (settledState (s.boundaryOffer cmd) (s.atBoundary cmd)).sc := by
    rw [finish_sc]; exact boundaryWork_sc _ _
  have stamp : (levelledState (s.boundaryOffer cmd) (s.atBoundary cmd)).clock.stamp = s.clock.stamp + 1 := by
    have audio := clock_of_butAudio (butAudio_levelledState (s.boundaryOffer cmd) (s.atBoundary cmd))
    have kept := congrArg (fun k => k.clock.stamp) (butConnect_switchBefore (s.arrived cmd))
    rw [audio]
    exact Eq.trans kept (congrArg ClockUnit.stamp (arrived_clock h))
  have room (k : s.eventRoom) : (levelledState (s.boundaryOffer cmd) (s.atBoundary cmd)).takesEvents 17 := by
    obtain ⟨begun, -⟩ := raises_switchBefore (s.arrived cmd) 27 (arrived_takesEvents h k)
    obtain ⟨levelled, -⟩ := raises_levelledState (s.boundaryOffer cmd) (s.atBoundary cmd) 17 begun
    exact levelled
  have ends := (raises_boundaryWork_settled (s.boundaryOffer cmd) (s.atBoundary cmd)).quiet (quiet_finish _)
  change Raises 8 _ (finish (s.boundaryDone cmd)) at ends
  rw [done]
  rw [settledState] at ends ⊢
  generalize decodedState _ _ = d at ends ⊢
  generalize levelledState _ _ = m at sc stamp room ends ⊢
  subst sc
  refine ⟨fun reached => ?_, fun short => ?_⟩
  · have plays : switchAfter d m = enterPlaying m := by
      unfold switchAfter; rw [ramp]; exact if_pos reached
    rw [plays] at ends ⊢
    refine ⟨raiseEvent_sc _ _ _ _ _, fun k => ?_⟩
    have raised := raiseEvent_carries (s := m.mapSc fun sc => { sc with st := .playing }) (n := 8) (first := false)
      (.source .playing) (connectedSubject m) (natWord m.sc.path.code) 0 ((room k).mono (by decide)) (by simp)
    obtain ⟨-, mem, -⟩ := Raises.carries (n := 0) ends raised
    rwa [eventNow, State.mapSc_clock, stamp, connectedSubject, connected] at mem
  · have waits : switchAfter d m = m := by
      unfold switchAfter; rw [ramp]; exact if_neg short
    rw [waits]

end

end Sys2Proof.Machine
end

