-- ==== Sys2Proof/Proofs/SwitchActs.lean ====
section
/-! The Switch Controller at a boundary while no AUTO source changes format (R20a, R22, R23, R25, R28, R30). -/

namespace Sys2Proof.Machine

/-! ## A feed lost to an encoded signal -/

section
variable {s : State} {i : Fin 8}

theorem formatChanged_blocks {src : Source} {f : Format} (fixed : src.path ≠ .auto) (direct : s.sc.path = .direct)
    (encoded : f = .encoded) (st : s.sc.st = .playing ∨ s.sc.st = .playRamp) :
    formatChanged src f s = enterBlocked .format s := by
  rcases st with st | st <;> simp only [formatChanged, st]
  · exact (if_neg fixed).trans (if_pos ⟨direct, encoded⟩)
  · exact (if_neg fixed).trans (if_pos ⟨direct, encoded⟩)

theorem raises_reformatted (p : Fin 6) (f : Format) (cls : RateClass) : Raises 1 s (s.reformatted p f cls) :=
  raises_eventAfter (quiet_mapPort _ _ .refl)

theorem sampleFormat_blocks {n : Nat} {p : Fin 6} {fmt : Bool} (cls : RateClass) (connected : s.sc.connected = some i)
    (port : s.sc.table[i].port = p) (change : s.ports[p].change = true)
    (differs : s.ports[p].format ≠ formatOnLine fmt) (fixed : s.sc.table[i].path ≠ .auto)
    (direct : s.sc.path = .direct) (encoded : formatOnLine fmt = .encoded)
    (st : s.sc.st = .playing ∨ s.sc.st = .playRamp) (room : s.takesEvents (n + 2)) :
    (sampleFormat p fmt cls s).carries n
      (eventNow s (.source .blocked) (BitVec.ofNat 16 i.val) 0 (natWord Format.encoded.code)) false := by
  subst port
  have raised : (s.reformatted s.sc.table[i].port .encoded cls).takesEvents (n + 1) := by
    obtain ⟨later, -⟩ := raises_reformatted (s := s) s.sc.table[i].port .encoded cls (n + 1) (room.mono (by omega))
    exact later
  have kept : (s.reformatted s.sc.table[i].port .encoded cls).kept
      = (s.mapPort s.sc.table[i].port fun q => { q with format := .encoded, change := false }).kept :=
    kept_raisePort _ _ _ _ _
  have sc : (s.reformatted s.sc.table[i].port .encoded cls).sc = s.sc := congrArg Kept.sc kept
  have stamp : (s.reformatted s.sc.table[i].port .encoded cls).clock.stamp = s.clock.stamp :=
    congrArg (fun k => k.clock.stamp) kept
  have format : (s.reformatted s.sc.table[i].port .encoded cls).ports[s.sc.table[i].port].format = .encoded := by
    have ports : (s.reformatted s.sc.table[i].port .encoded cls).ports
        = (s.mapPort s.sc.table[i].port fun q => { q with format := .encoded, change := false }).ports :=
      congrArg Kept.ports kept
    rw [ports, mapPort_at]
  have blocked := enterBlocked_carries (first := false) .format raised (by simp)
  rw [sampleFormat_changes s cls change differs, changeFormat_played s _ cls connected rfl, encoded,
    formatChanged_blocks fixed (by rw [sc]; exact direct) rfl (by rw [sc]; exact st)]
  rw [connectedSubject, connectedFormatCode, connectedSource, sc, connected, Option.map_some, Option.map_some,
    format, eventNow, stamp] at blocked
  exact blocked

/-- R20a: the event of the BLOCKED that a completed block brings about, with the stamp then in force. -/
theorem offeredState_blocks {n : Nat} {p : Fin 6} {fmt : Bool} (cls : RateClass) (connected : s.sc.connected = some i)
    (port : s.sc.table[i].port = p) (change : s.ports[p].change = true)
    (differs : s.ports[p].format ≠ formatOnLine fmt) (fixed : s.sc.table[i].path ≠ .auto)
    (direct : s.sc.path = .direct) (encoded : formatOnLine fmt = .encoded)
    (st : s.sc.st = .playing ∨ s.sc.st = .playRamp) (room : s.takesEvents (n + 3)) :
    (offeredState s p cls fmt).carries n
      (eventNow s (.source .blocked) (BitVec.ofNat 16 i.val) 0 (natWord Format.encoded.code)) false := by
  have halves : (swapHalves p s).ports[p]
      = { s.ports[p] with offered := some s.ports[p].filling, filling := [], mark := false } := by
    rw [swapHalves, mapPort_at]
  refine Raises.carries (raises_offerBlock _ _ _ _ _) ?_
  exact sampleFormat_blocks (s := swapHalves p s) cls connected port (by rw [halves]; exact change)
    (by rw [halves]; exact differs) fixed direct encoded st ((quiet_swapHalves p).takesEvents (room.mono (by omega)))

variable {cmd : Instr}

/-- R20a: what `State.directLost` says of the command that makes the boundary. -/
theorem directLost_completion (h : s.boundaryBy cmd) (connected : s.sc.connected = some i)
    (lost : s.directLost cmd = true) :
    ∃ bits fmt, cmd = .portFrame s.sc.table[i].port bits fmt ∧ s.ports[s.sc.table[i].port].change = true
      ∧ s.ports[s.sc.table[i].port].format ≠ formatOnLine fmt ∧ formatOnLine fmt = .encoded
      ∧ s.sc.table[i].path ≠ .auto ∧ s.sc.path = .direct := by
  rw [directLost_of_connected connected, formatMoves_of_connected connected] at lost
  simp only [Bool.and_eq_true, decide_eq_true_eq] at lost
  obtain ⟨⟨⟨moves, fixed⟩, direct⟩, encoded⟩ := lost
  obtain ⟨high, made⟩ := h
  cases cmd <;> try exact made.elim
  case freeRunBoundary => exact absurd rfl moves
  case followTimeout => exact absurd rfl moves
  case portFrame p bits fmt =>
    obtain ⟨lock, length, ⟨j, played, port⟩, tuned⟩ := made
    cases connected.symm.trans played
    subst port
    simp only [State.formatAt, true_and] at moves encoded
    by_cases change : s.ports[s.sc.table[i].port].change = true
    · rw [if_pos change] at moves encoded
      exact ⟨bits, fmt, rfl, change, Ne.symm moves, encoded, fixed, direct⟩
    · rw [if_neg change] at moves
      exact absurd rfl moves

theorem atBoundary_blocks (h : s.boundaryBy cmd) (connected : s.sc.connected = some i)
    (lost : s.directLost cmd = true) (st : s.sc.st = .playing ∨ s.sc.st = .playRamp) (room : s.eventRoom) :
    clocksOwn cmd = false ∧ (s.atBoundary cmd).carries 29
      { eventNow s (.source .blocked) (BitVec.ofNat 16 i.val) 0 (natWord Format.encoded.code) with
        stamp := s.clock.stamp + 1 } false := by
  obtain ⟨bits, fmt, rfl, change, differs, encoded, fixed, direct⟩ := directLost_completion h connected lost
  refine ⟨rfl, ?_⟩
  have follows := followCompletion_inForce (s.framed s.sc.table[i].port bits) s.clock.cls rfl
  have port : (followCompletion s.clock.cls (s.framed s.sc.table[i].port bits)).ports[s.sc.table[i].port]
      = s.ports[s.sc.table[i].port].framed s.sc.table[i].port (tunerSettled s) bits := by
    rw [followCompletion_ports, State.framed_at]
  have quiet : Quiet s (followCompletion s.clock.cls (s.framed s.sc.table[i].port bits)) :=
    (quiet_framed _ bits).trans (quiet_followCompletion _)
  have sc : (followCompletion s.clock.cls (s.framed s.sc.table[i].port bits)).sc = s.sc := followCompletion_sc _ _
  have stamp : (followCompletion s.clock.cls (s.framed s.sc.table[i].port bits)).clock.stamp = s.clock.stamp + 1 := by
    rw [follows]; rfl
  have blocked := offeredState_blocks (n := 29) (i := i)
    (s := followCompletion s.clock.cls (s.framed s.sc.table[i].port bits)) (p := s.sc.table[i].port) (fmt := fmt)
    s.clock.cls (by rw [sc]; exact connected) (by rw [sc]) (by rw [port]; exact change)
    (by rw [port]; exact differs) (by rw [sc]; exact fixed) (by rw [sc]; exact direct) encoded
    (by rw [sc]; exact st) (quiet.takesEvents room.takesEvents)
  rw [eventNow, stamp] at blocked
  exact blocked

/-! ## The first stage's cases -/

theorem switchBefore_still (st : s.sc.st = .playing ∨ s.sc.st = .playRamp ∨ s.sc.st = .drain) :
    switchBefore s = s := by
  rcases st with st | st | st <;> simp only [switchBefore, st]

theorem switchBefore_idle (st : s.sc.st = .idle) (request : s.sc.connectRequest = false) : switchBefore s = s := by
  simp [switchBefore, st, request]

theorem switchBefore_acquire (st : s.sc.st = .acquire) (request : s.sc.connectRequest = false) :
    switchBefore s = testReadiness s := by
  simp [switchBefore, st, request]

theorem switchBefore_hold (st : s.sc.st = .hold) (follows : s.clock.following = true) :
    switchBefore s = testReadiness s := by
  simp [switchBefore, st, follows]

theorem switchBefore_holdFree (st : s.sc.st = .hold) (free : s.clock.following = false) : switchBefore s = s := by
  simp [switchBefore, st, free]

theorem switchBefore_blocked (st : s.sc.st = .blocked) : switchBefore s = testBlocked s := by
  simp only [switchBefore, st]

/-! ## What a boundary makes of each state -/

theorem arrived_connected (h : s.boundaryBy cmd) (same : s.arrivedSc cmd = s.sc) (connected : s.sc.connected = some i) :
    connectedSource (s.arrived cmd) = some s.sc.table[i] := by
  rw [connectedSource, arrived_sc h, same, connected]
  rfl

/-- R22: the readiness that a boundary finds. -/
theorem arrived_settles (h : s.boundaryBy cmd) (same : s.arrivedSc cmd = s.sc) (src : Source) :
    (s.arrived cmd).settles src ↔ s.settles src := by
  have lock : (s.arrived cmd).ports[src.port].lock = s.ports[src.port].lock := by
    obtain ⟨lock, -⟩ := atBoundary_port h src.port
    exact lock
  have cls : (s.arrived cmd).clock.cls = s.clock.cls := by rw [arrived_clock h]
  have regions : (s.arrived cmd).pu.regions = s.pu.regions := atBoundary_regions h
  have tc : (s.arrived cmd).tc = s.tc := atBoundary_tc h
  rw [State.settles, State.settles, lock, cls, regions, tc, arrived_sc h, same]

theorem arrived_suits (h : s.boundaryBy cmd) (same : s.arrivedSc cmd = s.sc) (src : Source) :
    signalSuits (s.arrived cmd) src = true ↔ s.sc.path = .hosted ∨ s.formatAt cmd src.port = .pcm := by
  have format : (s.arrived cmd).ports[src.port].format = s.formatAt cmd src.port := by
    obtain ⟨-, format⟩ := atBoundary_port h src.port
    exact format
  rw [signalSuits, format, arrived_sc h, same, Bool.or_eq_true, decide_eq_true_eq, decide_eq_true_eq]

theorem arrivedSc_same (auto : s.autoMoves cmd = false)
    (st : s.directLost cmd = true → s.sc.st ≠ .playing ∧ s.sc.st ≠ .playRamp ∧ s.sc.st ≠ .drain) :
    s.arrivedSc cmd = s.sc := by
  rw [arrivedSc_of_not_auto auto]
  split
  · rename_i lost
    obtain ⟨playing, ramp, drain⟩ := st lost
    rw [if_neg (by simp [playing, ramp]), if_neg drain]
  · rfl

/-- R22, R25, R28: a test that finds the source ready enters PLAY_RAMP, which may end at the same boundary (R23). -/
theorem boundaryDone_enters (h : s.boundaryBy cmd) (same : s.arrivedSc cmd = s.sc)
    (enters : switchBefore (s.arrived cmd) = enterPlayRamp (s.arrived cmd)) :
    (s.reaches (finish (s.boundaryDone cmd)) →
        (finish (s.boundaryDone cmd)).sc = { s.sc.ramping with st := .playing }
        ∧ (s.eventRoom →
            { eventNow s (.source .playing) (sourceSubject s.sc.connected) (natWord s.sc.path.code) 0 with
                stamp := s.clock.stamp + 1 } ∈ (finish (s.boundaryDone cmd)).eventsOut))
      ∧ (¬ s.reaches (finish (s.boundaryDone cmd)) → (finish (s.boundaryDone cmd)).sc = s.sc.ramping) := by
  refine boundaryDone_ramps h (x := s.sc.ramping) ?_ rfl rfl rfl
  rw [enters, ← same, ← arrived_sc h]
  rfl

/-- R20a: a test that finds the signal ENCODED on the DIRECT path enters BLOCKED. -/
theorem boundaryDone_refuses (h : s.boundaryBy cmd) (same : s.arrivedSc cmd = s.sc)
    (connected : s.sc.connected = some i)
    (enters : switchBefore (s.arrived cmd) = enterBlocked .format (s.arrived cmd)) :
    (finish (s.boundaryDone cmd)).sc = s.sc.blocked .format
      ∧ s.raisesAt cmd (finish (s.boundaryDone cmd))
          (eventNow s (.source .blocked) (BitVec.ofNat 16 i.val) 0
            (natWord (s.formatAt cmd s.sc.table[i].port).code)) := by
  have sc : (switchBefore (s.arrived cmd)).sc = s.sc.blocked .format := by
    rw [enters, enterBlocked, raiseEvent_sc]
    exact congrArg (fun x : SwitchUnit => x.blocked .format) ((arrived_sc h).trans same)
  have source : connectedSource (s.arrived cmd) = some s.sc.table[i] := arrived_connected h same connected
  have subject : connectedSubject (s.arrived cmd) = BitVec.ofNat 16 i.val := by
    rw [connectedSubject, arrived_sc h, same, connected]; rfl
  have format : connectedFormatCode (s.arrived cmd) = (s.formatAt cmd s.sc.table[i].port).code := by
    obtain ⟨-, format⟩ := atBoundary_port h s.sc.table[i].port
    rw [connectedFormatCode, source]
    exact congrArg Format.code format
  have stamp : (s.arrived cmd).clock.stamp = s.clock.stamp + 1 := congrArg ClockUnit.stamp (arrived_clock h)
  refine ⟨boundaryDone_rests sc (by simp [SwitchUnit.blocked]) (by simp [SwitchUnit.blocked]),
    State.carries.raisesAt (n := 0) fun room => boundaryDone_carries ?_⟩
  have blocked := enterBlocked_carries (n := 21) .format ((arrived_takesEvents h room).mono (by decide))
    (arrived_eventsOut (cmd := cmd) room)
  rw [subject, format, eventNow, stamp] at blocked
  rw [enters]
  exact blocked

/-- R20a: a source whose feed an encoded signal takes is found BLOCKED, and the first stage leaves it so. -/
theorem arrived_lost (h : s.boundaryBy cmd) (auto : s.autoMoves cmd = false) (connected : s.sc.connected = some i)
    (lost : s.directLost cmd = true) (st : s.sc.st = .playing ∨ s.sc.st = .playRamp) :
    (s.arrived cmd).sc = s.sc.blocked .format ∧ switchBefore (s.arrived cmd) = s.arrived cmd := by
  have sc : (s.arrived cmd).sc = s.sc.blocked .format := by
    rw [arrived_sc h, arrivedSc_of_not_auto auto, if_pos lost, if_pos st]
  rw [directLost_of_connected connected] at lost
  simp only [Bool.and_eq_true, decide_eq_true_eq] at lost
  obtain ⟨⟨-, direct⟩, encoded⟩ := lost
  have source : connectedSource (s.arrived cmd) = some s.sc.table[i] := by
    rw [connectedSource, sc, SwitchUnit.blocked, connected]; rfl
  refine ⟨sc, ?_⟩
  rw [switchBefore_blocked (by rw [sc]; rfl)]
  refine testBlocked_waits source fun ⟨_, _, suits⟩ => ?_
  obtain ⟨-, format⟩ := atBoundary_port h s.sc.table[i].port
  have line : (s.arrived cmd).ports[s.sc.table[i].port].format = .encoded := format.trans encoded
  rw [signalSuits, line, sc] at suits
  simp [SwitchUnit.blocked, direct] at suits

theorem boundaryDone_lost (h : s.boundaryBy cmd) (auto : s.autoMoves cmd = false)
    (connected : s.sc.connected = some i) (lost : s.directLost cmd = true)
    (st : s.sc.st = .playing ∨ s.sc.st = .playRamp) :
    (finish (s.boundaryDone cmd)).sc = s.sc.blocked .format
      ∧ s.raisesAt cmd (finish (s.boundaryDone cmd))
          (eventNow s (.source .blocked) (BitVec.ofNat 16 i.val) 0
            (natWord (s.formatAt cmd s.sc.table[i].port).code)) := by
  obtain ⟨sc, stays⟩ := arrived_lost h auto connected lost st
  have encoded : s.formatAt cmd s.sc.table[i].port = .encoded := by
    rw [directLost_of_connected connected] at lost
    simp only [Bool.and_eq_true, decide_eq_true_eq] at lost
    exact lost.2
  refine ⟨boundaryDone_rests (by rw [stays, sc]) (by simp [SwitchUnit.blocked]) (by simp [SwitchUnit.blocked]),
    State.carries.raisesAt (n := 0) fun room => boundaryDone_carries ?_⟩
  obtain ⟨own, blocked⟩ := atBoundary_blocks h connected lost st room
  rw [stays, own, encoded]
  exact Raises.carries (m := 0) (n := 21) (quiet_takeLatches _).raises (blocked.mono (by decide))

/-- A boundary leaves the switch as it was where its first stage does and no later stage acts. -/
theorem boundaryDone_same (h : s.boundaryBy cmd) (same : s.arrivedSc cmd = s.sc)
    (stays : switchBefore (s.arrived cmd) = s.arrived cmd) (drain : s.sc.st ≠ .drain) (ramp : s.sc.st ≠ .playRamp) :
    (finish (s.boundaryDone cmd)).sc = s.sc :=
  boundaryDone_rests (by rw [stays, arrived_sc h, same]) drain ramp

/-- R19: in PLAYING only an encoded signal on the DIRECT path moves the switch. -/
theorem boundaryDone_plays (h : s.boundaryBy cmd) (same : s.arrivedSc cmd = s.sc) (st : s.sc.st = .playing) :
    (finish (s.boundaryDone cmd)).sc = s.sc := by
  have sc := (arrived_sc h).trans same
  exact boundaryDone_same h same (switchBefore_still (.inl (by rw [sc, st]))) (by simp [st]) (by simp [st])

/-- R23: PLAY_RAMP goes on, or ends. -/
theorem boundaryDone_climbs (h : s.boundaryBy cmd) (same : s.arrivedSc cmd = s.sc) (st : s.sc.st = .playRamp) :
    (s.reaches (finish (s.boundaryDone cmd)) →
        (finish (s.boundaryDone cmd)).sc = { s.sc with st := .playing }
        ∧ (s.eventRoom →
            { eventNow s (.source .playing) (sourceSubject s.sc.connected) (natWord s.sc.path.code) 0 with
                stamp := s.clock.stamp + 1 } ∈ (finish (s.boundaryDone cmd)).eventsOut))
      ∧ (¬ s.reaches (finish (s.boundaryDone cmd)) → (finish (s.boundaryDone cmd)).sc = s.sc) := by
  have sc := (arrived_sc h).trans same
  refine boundaryDone_ramps h (x := s.sc) ?_ st rfl rfl
  rw [switchBefore_still (.inr (.inl (by rw [sc, st]))), sc]

/-- R20a, R21: DRAIN before mute is reached. -/
theorem boundaryDone_fades (h : s.boundaryBy cmd) (auto : s.autoMoves cmd = false) (st : s.sc.st = .drain)
    (loud : ∃ i : Fin 8, (finish (s.boundaryDone cmd)).ru.levels[i].applied ≠ 192) :
    (finish (s.boundaryDone cmd)).sc = if s.directLost cmd = true then { s.sc with feed := false } else s.sc := by
  have sc : (s.arrived cmd).sc = if s.directLost cmd = true then { s.sc with feed := false } else s.sc := by
    rw [arrived_sc h, arrivedSc_of_not_auto auto]
    refine if_congr Iff.rfl ?_ rfl
    rw [if_neg (by simp [st]), if_pos st]
  have drains : (if s.directLost cmd = true then { s.sc with feed := false } else s.sc).st = .drain := by
    split <;> exact st
  refine boundaryDone_drains ?_ drains loud
  rw [switchBefore_still (.inr (.inr (by rw [sc, drains]))), sc]

end

/-- Settles O47: each state's part of the boundary, from what the sample leaves (`arrivedSc_of_not_auto`), the switch's
first stage, and the stage after the attenuations. -/
theorem switchActsAtTheBoundary : Obligations.SwitchActsAtTheBoundary := by
  unfold Obligations.SwitchActsAtTheBoundary
  intro s cmd h
  refine ⟨finish (s.boundaryDone cmd), exec_boundaryBy s h, fun auto => ?_⟩
  have idle (st : s.sc.st ≠ .playing ∧ s.sc.st ≠ .playRamp ∧ s.sc.st ≠ .drain) : s.arrivedSc cmd = s.sc :=
    arrivedSc_same auto fun _ => st
  intro stopped subject code reached tells plays blocks
  have named : subject = sourceSubject s.sc.connected := by
    simp only [subject]; cases s.sc.connected <;> rfl
  have lost (st : s.sc.st = .playing ∨ s.sc.st = .playRamp) (k : s.directLost cmd = true) : blocks := by
    obtain none | ⟨i, connected⟩ := s.sc.connected.eq_none_or_eq_some
    · simp [State.directLost, none] at k
    · simp only [blocks, subject, code, connected]
      rw [← connected]
      exact boundaryDone_lost h auto connected k st
  have kept (k : ¬ s.directLost cmd = true) : s.arrivedSc cmd = s.sc := arrivedSc_same auto fun l => absurd l k
  refine ⟨fun st => ?_, fun st => ?_, fun st request => ?_, fun st loud => ?_, fun st free => ?_, fun st cause => ?_,
    fun i connected => ?_⟩
  · split_ifs with k
    · exact lost (.inl st) k
    · exact boundaryDone_plays h (kept k) st
  · split_ifs with k
    · exact lost (.inr st) k
    · simp only [tells, named]
      exact boundaryDone_climbs h (kept k) st
  · have same := idle (by simp [st])
    have sc := (arrived_sc h).trans same
    exact boundaryDone_same h same (switchBefore_idle (by rw [sc, st]) (by rw [sc, request])) (by simp [st])
      (by simp [st])
  · exact boundaryDone_fades h auto st loud
  · have same := idle (by simp [st])
    have sc := (arrived_sc h).trans same
    exact boundaryDone_same h same (switchBefore_holdFree (by rw [sc, st]) (by rw [arrived_clock h, free]))
      (by simp [st]) (by simp [st])
  · have same := idle (by simp [st])
    have sc := (arrived_sc h).trans same
    refine boundaryDone_same h same ?_ (by simp [st]) (by simp [st])
    rw [switchBefore_blocked (by rw [sc, st])]
    cases source : connectedSource (s.arrived cmd) with
    | none => exact testBlocked_none source
    | some src => exact testBlocked_waits source fun test => cause (by rw [← sc]; exact test.1)
  · intro src settled suits
    have test (st : s.sc.st ≠ .playing ∧ s.sc.st ≠ .playRamp ∧ s.sc.st ≠ .drain) :
        connectedSource (s.arrived cmd) = some src ∧ ((s.arrived cmd).settles src ↔ settled)
          ∧ (signalSuits (s.arrived cmd) src = true ↔ suits) :=
      ⟨arrived_connected h (idle st) connected, arrived_settles h (idle st) src, arrived_suits h (idle st) src⟩
    have enters (st : s.sc.st ≠ .playing ∧ s.sc.st ≠ .playRamp ∧ s.sc.st ≠ .drain)
        (ready : switchBefore (s.arrived cmd) = enterPlayRamp (s.arrived cmd)) : plays := by
      simp only [plays, tells, named]
      exact boundaryDone_enters h (idle st) ready
    refine ⟨fun at_ => ?_, fun st cause => ?_⟩
    · have st : s.sc.st ≠ .playing ∧ s.sc.st ≠ .playRamp ∧ s.sc.st ≠ .drain := by
        rcases at_ with ⟨st, -⟩ | ⟨st, -⟩ <;> simp [st]
      have sc := (arrived_sc h).trans (idle st)
      have tested : switchBefore (s.arrived cmd) = testReadiness (s.arrived cmd) := by
        rcases at_ with ⟨st, request⟩ | ⟨st, follows⟩
        · exact switchBefore_acquire (by rw [sc, st]) (by rw [sc, request])
        · exact switchBefore_hold (by rw [sc, st]) (by rw [arrived_clock h, follows])
      obtain ⟨source, settles, suit⟩ := test st
      refine ⟨fun ready fits => ?_, fun ready unfit => ?_, fun unready => ?_⟩
      · exact enters st (tested.trans (testReadiness_plays source (settles.2 ready) (suit.2 fits)))
      · have refused := boundaryDone_refuses h (idle st) connected
          (tested.trans (testReadiness_blocks source (settles.2 ready) fun k => unfit (suit.1 k)))
        simp only [blocks, subject, code, connected]
        rw [← connected]
        exact refused
      · refine boundaryDone_same h (idle st) ?_ st.2.2 st.2.1
        exact tested.trans (testReadiness_waits source fun k => unready (settles.1 k))
    · have other : s.sc.st ≠ .playing ∧ s.sc.st ≠ .playRamp ∧ s.sc.st ≠ .drain := by simp [st]
      have sc := (arrived_sc h).trans (idle other)
      have tested := switchBefore_blocked (s := s.arrived cmd) (by rw [sc, st])
      obtain ⟨source, settles, suit⟩ := test other
      refine ⟨fun ready fits => ?_, fun unready => ?_⟩
      · exact enters other (tested.trans
          (testBlocked_plays source (by rw [sc, cause]) (settles.2 ready) (suit.2 fits)))
      · refine boundaryDone_same h (idle other) ?_ other.2.2 other.2.1
        exact tested.trans (testBlocked_waits source fun k => unready ⟨settles.1 k.2.1, suit.1 k.2.2⟩)

end Sys2Proof.Machine
end

