-- ==== Sys2Proof/Proofs/ConnectValues.lean ====
section
/-! SUPPORT. What a connect (R21, R29, R69) makes of each unit, as a value. -/

namespace Sys2Proof.Machine

/-! ## The Switch Controller -/

/-- R21: the pending target taken. -/
def SwitchUnit.taken (sc : SwitchUnit) : SwitchUnit :=
  { sc with
    connected := match sc.target with
      | .source i => some i
      | _ => none,
    target := .absent, connectRequest := false, timer := stoppedTimer, feed := false, cause := none }

/-- R21, R22: a source connected: its path without its regions is BLOCKED, any other goes to ACQUIRE. -/
def SwitchUnit.plugged (sc : SwitchUnit) (src : Source) (path : EffPath) (bare settled : Bool) : SwitchUnit :=
  if bare then { sc.taken with path := path, st := .blocked, cause := some .region }
  else { sc.taken with path := path, st := .acquire, timer := startedTimer settled src }

/-- R21, R22: the state that a connected source begins in. -/
def SwitchUnit.entering (sc : SwitchUnit) (regions settled : Bool) : SwitchUnit :=
  if sc.path = .hosted ∧ ¬ regions = true then sc.blocked .region else { sc with st := .acquire }.timed settled

theorem taken_source {sc : SwitchUnit} {j : Fin 8} (h : sc.target = .source j) : sc.taken.connected = some j := by
  rw [SwitchUnit.taken, h]

theorem taken_none {sc : SwitchUnit} (h : ∀ j, sc.target ≠ .source j) : sc.taken.connected = none := by
  cases target : sc.target with
  | source j => exact absurd target (h j)
  | absent => simp only [SwitchUnit.taken, target]
  | none => simp only [SwitchUnit.taken, target]

theorem plugged_eq_entering {sc : SwitchUnit} {j : Fin 8} (h : sc.target = .source j) (path : EffPath)
    (regions settled : Bool) : ({ sc.taken with path := path } : SwitchUnit).entering regions settled
      = sc.plugged sc.table[j] path (decide (path = .hosted) && !regions) settled := by
  have source : ({ sc.taken with path := path, st := .acquire } : SwitchUnit).source = some sc.table[j] := by
    rw [SwitchUnit.source]
    change (sc.taken.connected.map fun i => sc.table[i]) = _
    rw [taken_source h]
    rfl
  unfold SwitchUnit.entering SwitchUnit.plugged
  by_cases bare : path = .hosted ∧ ¬ regions = true
  · rw [if_pos bare, if_pos (by simpa using bare)]
    rfl
  · rw [if_neg bare, if_neg (by simpa using bare), SwitchUnit.timed, source]

/-! ## The clock -/

/-- The class of a port's signal, and without one the class in force. -/
def LockState.classOr (l : LockState) (c : RateClass) : RateClass :=
  match l with
  | .locked k => k
  | _ => c

/-- R29: the clock at a connect. -/
def ClockUnit.connecting (k : ClockUnit) (cls : RateClass) (same : Bool) : ClockUnit :=
  { k with cls := cls, following := k.following && (same && decide (cls = k.cls)),
           own := k.own && (same && decide (cls = k.cls)) }

theorem ClockUnit.connecting_inForce {k : ClockUnit} {c : RateClass} (h : c = k.cls) (same : Bool) :
    k.connecting c same = { k with following := k.following && same, own := k.own && same } := by
  simp [ClockUnit.connecting, h]

theorem ClockUnit.connecting_other {k : ClockUnit} {c : RateClass} (h : c ≠ k.cls) (same : Bool) :
    k.connecting c same = { k with cls := c, following := false, own := false } := by
  simp [ClockUnit.connecting, h]

/-! ## The Ring Engine -/

/-- R69: the Ring Engine at a connect. -/
def RingEngine.cut (re : RingEngine) : RingEngine :=
  { re with fetch := dropFetched re.fetch, last := HostedBlock.silence 2, ladder := .waiting, missRun := 0 }

/-- R69: the output ring flushed for a source on the HOSTED path. -/
def RingEngine.flushed (re : RingEngine) (prod : Index) : RingEngine :=
  { re.cut with outCons := prod, disc := true, pendingDrops := 0, dropRun := false }

section
variable (s : State)

theorem testSlotFetch_empty (h : s.cu.outProd = s.re.outCons) : testSlotFetch s = s := by
  unfold testSlotFetch
  split
  · exact if_neg fun k => k.1 h
  · rfl

theorem ringConnect_re : (ringConnect s).re
    = if (servedSource s).isSome then s.re.flushed s.cu.outProd else s.re.cut := by
  unfold ringConnect; dsimp only
  have served : servedSource (s.mapRe RingEngine.cut) = servedSource s := rfl
  change (if (servedSource (s.mapRe RingEngine.cut)).isSome = true then flushOutputRing (s.mapRe RingEngine.cut)
    else s.mapRe RingEngine.cut).re = _
  rw [served]
  split
  · have written := kept_writeIndexWord (s.mapRe fun re => re.flushed s.cu.outProd) .outputConsumer
    have flushed : flushOutputRing (s.mapRe RingEngine.cut)
        = testSlotFetch (writeIndexWord .outputConsumer (s.mapRe fun re => re.flushed s.cu.outProd)) := rfl
    have prod : (writeIndexWord .outputConsumer (s.mapRe fun re => re.flushed s.cu.outProd)).cu.outProd
        = s.cu.outProd := congrArg Kept.outProd written
    have re : (writeIndexWord .outputConsumer (s.mapRe fun re => re.flushed s.cu.outProd)).re
        = s.re.flushed s.cu.outProd := congrArg Kept.re written
    rw [flushed, testSlotFetch_empty _ (by rw [prod, re]; rfl), re]
  · rfl

/-! ## The connect -/

theorem connect_none (h : ∀ j, s.sc.target ≠ .source j) :
    connect s = connectNone (connectedSubject s) (s.mapSc SwitchUnit.taken) := by
  have taken : takeTarget s = s.mapSc SwitchUnit.taken := rfl
  have none : connectedSource (s.mapSc SwitchUnit.taken) = none := by
    cases target : s.sc.target with
    | source j => exact absurd target (h j)
    | absent => simp [connectedSource, SwitchUnit.taken, target]
    | none => simp [connectedSource, SwitchUnit.taken, target]
  simp only [connect, taken, none]

theorem connect_source {j : Fin 8} (h : s.sc.target = .source j) : connect s
    = connectSource (decide ((connectedSource s).map Source.port = some s.sc.table[j].port)) s.sc.table[j]
        (s.mapSc SwitchUnit.taken) := by
  have taken : takeTarget s = s.mapSc SwitchUnit.taken := rfl
  have source : connectedSource (s.mapSc SwitchUnit.taken) = some s.sc.table[j] := by
    rw [connectedSource, State.mapSc_sc, taken_source h]; rfl
  simp only [connect, taken, source]

/-- R21, R74, R112: the units that start afresh for the new source. -/
def connectFresh (same : Bool) (src : Source) (s : State) : State :=
  delayConnect (renderConnect (connectFollowing same (s.mapSc fun sc => { sc with path := pathAtConnect s src })))

/-- R21: what precedes the event of a connect to a source. -/
def connectPrepared (same : Bool) (src : Source) (s : State) : State :=
  ringConnect (connectClass src (connectFresh same src s))

theorem connectSource_eq (same : Bool) (src : Source) : connectSource same src s
    = connectEnter (raiseEvent (.source .connected) (connectedSubject (connectPrepared same src s))
        (natWord (connectPrepared same src s).sc.path.code) (natWord (connectPrepared same src s).clock.cls.code)
        (connectPrepared same src s)) := rfl

theorem kept_connectFresh (same : Bool) (src : Source) : (connectFresh same src s).kept
    = { s.kept with
        sc := { s.sc with path := pathAtConnect s src },
        clock := { s.clock with following := s.clock.following && same, own := s.clock.own && same },
        ru := (renderConnect s).ru, du := (delayConnect s).du } := by
  cases same <;> simp only [Bool.and_true, Bool.and_false] <;> rfl

/-- R121, R128, R133, R137: an output restart. -/
theorem kept_outputRestart (c : RateClass) : (outputRestart c s).kept
    = { s.kept with
        clock := { s.clock with cls := c, following := false, own := false },
        du := (delayOutputRestart s).du, ou := (outputRestart c s).ou } := by
  unfold outputRestart linkOutputRestart
  split <;> rfl

/-- R29, R121: a connect restarts the outputs only for a port LOCKED at another class. -/
theorem connectClass_eq (src : Source) : connectClass src s
    = if s.ports[src.port].lock.classOr s.clock.cls = s.clock.cls then s
      else outputRestart (s.ports[src.port].lock.classOr s.clock.cls) s := by
  unfold connectClass LockState.classOr
  cases s.ports[src.port].lock <;> simp only [if_true]

/-- What a connect to a source leaves before its event. -/
theorem kept_connectPrepared (same : Bool) (src : Source) : (connectPrepared same src s).kept
    = { s.kept with
        sc := { s.sc with path := pathAtConnect s src },
        clock := s.clock.connecting (s.ports[src.port].lock.classOr s.clock.cls) same,
        re := (connectPrepared same src s).re, ru := (renderConnect s).ru,
        du := (connectPrepared same src s).du, ou := (connectPrepared same src s).ou } := by
  have fresh := kept_connectFresh s same src
  have ring := kept_of_butRe (butRe_ringConnect (connectClass src (connectFresh same src s)))
  have lock : (connectFresh same src s).ports[src.port].lock = s.ports[src.port].lock :=
    congrArg (fun k => k.ports[src.port].lock) fresh
  have cls : (connectFresh same src s).clock.cls = s.clock.cls := congrArg (fun k => k.clock.cls) fresh
  unfold connectPrepared
  rw [connectClass_eq, lock, cls] at ring ⊢
  generalize connectFresh same src s = u at fresh ring ⊢
  generalize s.ports[src.port].lock.classOr s.clock.cls = c at ring ⊢
  by_cases inForce : c = s.clock.cls
  · rw [if_pos inForce] at ring ⊢
    have du : (ringConnect u).du = u.du := congrArg Kept.du ring
    have ou : (ringConnect u).ou = u.ou := congrArg Kept.ou ring
    rw [ring, du, ou, ClockUnit.connecting_inForce inForce]
    exact congrArg (fun k : Kept => { k with re := (ringConnect u).re, du := u.du, ou := u.ou }) fresh
  · rw [if_neg inForce] at ring ⊢
    have du : (ringConnect (outputRestart c u)).du = (outputRestart c u).du := congrArg Kept.du ring
    have ou : (ringConnect (outputRestart c u)).ou = (outputRestart c u).ou := congrArg Kept.ou ring
    rw [ring, du, ou, ClockUnit.connecting_other inForce]
    have restarted := (kept_outputRestart u c).trans (congrArg (fun k : Kept =>
      { k with
        clock := { k.clock with cls := c, following := false, own := false },
        du := (delayOutputRestart u).du, ou := (outputRestart c u).ou }) fresh)
    exact congrArg (fun k : Kept =>
      { k with
        re := (ringConnect (outputRestart c u)).re, du := (outputRestart c u).du, ou := (outputRestart c u).ou })
      restarted

theorem connectPrepared_re {j : Fin 8} (same : Bool) (src : Source) (connected : s.sc.connected = some j) :
    (connectPrepared same src s).re
      = if pathAtConnect s src = .hosted then s.re.flushed s.cu.outProd else s.re.cut := by
  have classed : (connectClass src (connectFresh same src s)).kept.butConnect = s.kept.butConnect :=
    (butConnect_connectClass _ src).trans (by simp only [connectFresh, butConnect_delayConnect,
      butConnect_renderConnect, butConnect_connectFollowing, butConnect_mapSc])
  have prod : (connectClass src (connectFresh same src s)).cu.outProd = s.cu.outProd := congrArg Kept.outProd classed
  have fresh := kept_connectFresh s same src
  have units : (connectClass src (connectFresh same src s)).sc = (connectFresh same src s).sc
      ∧ (connectClass src (connectFresh same src s)).re = (connectFresh same src s).re := by
    rw [connectClass_eq]
    split
    · exact ⟨rfl, rfl⟩
    · have restarted := kept_outputRestart (connectFresh same src s)
        ((connectFresh same src s).ports[src.port].lock.classOr (connectFresh same src s).clock.cls)
      exact ⟨congrArg Kept.sc restarted, congrArg Kept.re restarted⟩
  obtain ⟨sc, re⟩ := units
  have sc := sc.trans (congrArg Kept.sc fresh)
  have re : _ = s.re := re.trans (congrArg Kept.re fresh)
  have served : (servedSource (connectClass src (connectFresh same src s))).isSome
      = decide (pathAtConnect s src = .hosted) := by
    rw [servedSource, sc]
    change (match pathAtConnect s src with
      | .hosted => s.sc.connected
      | .direct => none).isSome = _
    rw [connected]
    cases pathAtConnect s src <;> rfl
  rw [connectPrepared, ringConnect_re, served, prod, re]
  simp only [decide_eq_true_eq]

theorem kept_connectEnter : (connectEnter s).kept
    = { s.kept with sc := s.sc.entering (hostedRegionsSet s) (tunerSettled s) } := by
  unfold connectEnter SwitchUnit.entering
  split
  · exact kept_enterBlocked s _
  · rw [startHoldTimer_eq]; rfl

/-- R21, R74, R112: the units that start afresh with NONE connected. -/
def unpluggedFresh (s : State) : State :=
  delayConnect (renderConnect (stopFollowing (s.mapSc fun sc => { sc.taken with st := .idle })))

/-- R21: NONE connected. -/
theorem kept_connect_none (h : ∀ j, s.sc.target ≠ .source j) : (connect s).kept
    = { s.kept with
        sc := { s.sc.taken with st := .idle },
        clock := { s.clock with following := false, own := false }, re := s.re.cut, ru := (renderConnect s).ru,
        du := (delayConnect s).du } := by
  have none : s.sc.taken.connected = none := taken_none h
  have fresh : (unpluggedFresh s).kept = { s.kept with
      sc := { s.sc.taken with st := .idle }, clock := { s.clock with following := false, own := false },
      ru := (renderConnect s).ru, du := (delayConnect s).du } := rfl
  have served : servedSource (unpluggedFresh s) = Option.none := by
    change (match s.sc.taken.path with
      | .hosted => s.sc.taken.connected
      | .direct => Option.none) = Option.none
    rw [none]
    cases s.sc.taken.path <;> rfl
  have re : (ringConnect (unpluggedFresh s)).re = s.re.cut := by
    rw [ringConnect_re, served]; rfl
  have made : connect s = raiseEvent (.source .idle) (connectedSubject s) 0 0 (ringConnect (unpluggedFresh s)) :=
    connect_none s h
  rw [made, kept_raiseEvent, kept_of_butRe (butRe_ringConnect _), re]
  exact congrArg (fun k : Kept => { k with re := s.re.cut }) fresh

/-- The state that a connect to a source has before its event. -/
def connectReady (j : Fin 8) (s : State) : State :=
  connectPrepared (decide ((connectedSource s).map Source.port = some s.sc.table[j].port)) s.sc.table[j]
    (s.mapSc SwitchUnit.taken)

theorem connect_du {j : Fin 8} (h : s.sc.target = .source j) : (connect s).du = (connectReady j s).du := by
  rw [connect_source s h, connectSource_eq]
  exact (congrArg Kept.du (kept_connectEnter _)).trans (congrArg Kept.du (kept_raiseEvent _ _ _ _ _))

theorem connect_ou {j : Fin 8} (h : s.sc.target = .source j) : (connect s).ou = (connectReady j s).ou := by
  rw [connect_source s h, connectSource_eq]
  exact (congrArg Kept.ou (kept_connectEnter _)).trans (congrArg Kept.ou (kept_raiseEvent _ _ _ _ _))

/-- R21, R29, R69: a source connected. -/
theorem kept_connect_source {j : Fin 8} (h : s.sc.target = .source j) : (connect s).kept
    = { s.kept with
        sc := s.sc.plugged s.sc.table[j] (pathAtConnect s s.sc.table[j])
          (decide (pathAtConnect s s.sc.table[j] = .hosted) && !hostedRegionsSet s) (tunerSettled s),
        clock := s.clock.connecting (s.ports[s.sc.table[j].port].lock.classOr s.clock.cls)
          (decide ((connectedSource s).map Source.port = some s.sc.table[j].port)),
        re := if pathAtConnect s s.sc.table[j] = .hosted then s.re.flushed s.cu.outProd else s.re.cut,
        ru := (renderConnect s).ru, du := (connect s).du, ou := (connect s).ou } := by
  have du := connect_du s h
  have ou := connect_ou s h
  have prepared := kept_connectPrepared (s.mapSc SwitchUnit.taken)
    (decide ((connectedSource s).map Source.port = some s.sc.table[j].port)) s.sc.table[j]
  rw [connectPrepared_re (j := j) _ _ _ (taken_source h)] at prepared
  rw [du, ou, connect_source s h, connectSource_eq, connectReady]
  generalize connectPrepared _ s.sc.table[j] (s.mapSc SwitchUnit.taken) = u at prepared ⊢
  have raised := kept_raiseEvent u (.source .connected) (connectedSubject u) (natWord u.sc.path.code)
    (natWord u.clock.cls.code)
  rw [prepared] at raised
  generalize raiseEvent _ _ _ _ u = v at raised ⊢
  have entries : v.pu.regions = s.pu.regions := congrArg Kept.regions raised
  have regions : hostedRegionsSet v = hostedRegionsSet s := by rw [hostedRegionsSet, entries]; rfl
  have tuner : v.tc = s.tc := congrArg Kept.tc raised
  have settled : tunerSettled v = tunerSettled s := by rw [tunerSettled, tuner]; rfl
  have sc : v.sc = { s.sc.taken with path := pathAtConnect s s.sc.table[j] } := congrArg Kept.sc raised
  rw [kept_connectEnter, regions, settled, sc, plugged_eq_entering h]
  generalize s.sc.plugged _ _ _ _ = x
  exact congrArg (fun k : Kept => { k with sc := x }) raised

theorem connect_sc_none (h : ∀ j, s.sc.target ≠ .source j) : (connect s).sc = { s.sc.taken with st := .idle } :=
  congrArg Kept.sc (kept_connect_none s h)

theorem connect_sc_source {j : Fin 8} (h : s.sc.target = .source j) : (connect s).sc
    = s.sc.plugged s.sc.table[j] (pathAtConnect s s.sc.table[j])
        (decide (pathAtConnect s s.sc.table[j] = .hosted) && !hostedRegionsSet s) (tunerSettled s) :=
  congrArg Kept.sc (kept_connect_source s h)

/-- R21: a connect leaves the switch without a feed, in IDLE, ACQUIRE or BLOCKED. -/
theorem connect_waits : (connect s).sc.feed = false
    ∧ ((connect s).sc.st = .idle ∨ (connect s).sc.st = .acquire ∨ (connect s).sc.st = .blocked) := by
  by_cases target : ∃ j, s.sc.target = .source j
  · obtain ⟨j, target⟩ := target
    rw [connect_sc_source s target, SwitchUnit.plugged]
    split
    · exact ⟨rfl, .inr (.inr rfl)⟩
    · exact ⟨rfl, .inr (.inl rfl)⟩
  · rw [connect_sc_none s fun j k => target ⟨j, k⟩]
    exact ⟨rfl, .inl rfl⟩

end

end Sys2Proof.Machine
end

