-- ==== Sys2Proof/Proofs/RingOffers.lean ====
section
/-! SUPPORT. What a completed block moves in the Ring Engine (R58, R70), and what a boundary hands to the decoder (R66
to R68, R72). -/

namespace Sys2Proof.Machine

/-! ## The offer of a completed block -/

/-- The Ring Engine but for its store side. -/
def RingEngine.butStore (re : RingEngine) : RingEngine :=
  { re with store := none, disc := false, pendingDrops := 0, dropRun := false, dropped := 0 }

theorem RingEngine.of_butStore {a b : RingEngine} (h : a.butStore = b.butStore) :
    a = { b with store := a.store, disc := a.disc, pendingDrops := a.pendingDrops, dropRun := a.dropRun,
                 dropped := a.dropped } := by
  obtain ⟨inProd, outCons, store, fetch, last, ladder, missRun, disc, drops, run, dropped, repeats, silent⟩ := a
  simp only [RingEngine.butStore, RingEngine.mk.injEq, true_and] at h ⊢
  exact h

section
variable (s : State)

theorem butStore_dropBlock (c : DropCause) : (dropBlock c s).re.butStore = s.re.butStore := by
  unfold dropBlock; dsimp only
  split
  · exact congrArg (fun k => k.re.butStore) (kept_raiseEvent _ _ _ _ _)
  · rfl

theorem butStore_offerToStore (src : Fin 8) (p : Fin 6) (c : RateClass) (f : Format) (fs : List Frame) :
    (offerToStore src p c f fs s).re.butStore = s.re.butStore := by
  unfold offerToStore
  split
  · rfl
  · split_ifs
    · exact butStore_dropBlock s _
    · exact butStore_dropBlock s _
    · rfl
    · rfl

theorem butStore_offerBlock (discarded : Bool) (p : Fin 6) (c : RateClass) (fs : List Frame) :
    (offerBlock discarded p c fs s).re.butStore = s.re.butStore := by
  have ring : (offerToRing p c fs s).re.butStore = s.re.butStore := by
    unfold offerToRing
    split
    · split
      · exact butStore_offerToStore s _ _ _ _ _
      · rfl
    · rfl
  have link (t : State) : (offerToLink p c fs t).re = t.re := by
    unfold offerToLink; split <;> rfl
  unfold offerBlock
  split
  · unfold breakRun; split <;> rfl
  · rw [link, ring]

theorem butStore_offeredState (p : Fin 6) (c : RateClass) (fmt : Bool) :
    (offeredState s p c fmt).re.butStore = s.re.butStore := by
  have sampled : (sampleFormat p fmt c (swapHalves p s)).re = s.re :=
    congrArg Kept.re (kept_sampleFormat (swapHalves p s) p fmt c)
  rw [offeredState, butStore_offerBlock, sampled]

theorem followCompletion_re (c : RateClass) : (followCompletion c s).re = s.re := by
  unfold followCompletion; dsimp only
  split
  · rfl
  · exact congrArg Kept.re (kept_outputRestart s c)

end

/-- A boundary finds the Ring Engine as it was, but for what a completion offers it. -/
theorem atBoundary_butStore {s : State} {cmd : Instr} (h : s.boundaryBy cmd) :
    (s.atBoundary cmd).re.butStore = s.re.butStore := by
  obtain ⟨high, made⟩ := h
  cases cmd <;> try exact made.elim
  case freeRunBoundary => rfl
  case followTimeout => rfl
  case portFrame p bits fmt =>
    simp only [State.atBoundary]
    rw [butStore_offeredState, followCompletion_re]
    rfl

/-! ## What the output ring hands on -/

/-- R66 to R68: the channels of the block that a served source's boundary renders. -/
def State.ringChannels (s : State) : Nat :=
  match s.re.fetch with
  | .complete b => if s.cu.outProd ≠ s.re.outCons then b.channels else s.re.last.channels
  | _ => s.re.last.channels

section
variable (s : State)

theorem ladderMiss_channels : (ladderMiss s).1.channels = s.re.last.channels := by
  unfold ladderMiss; dsimp only
  split <;> rfl

theorem slotTaken_last : (ladderTaken (advanceConsumer s)).re.last = s.re.last := by
  have advanced : (advanceConsumer s).re.last = s.re.last :=
    congrArg (fun k => k.re.last) (kept_writeIndexWord (s.mapRe fun re =>
      { re with outCons := re.outCons + 1, fetch := .free }) .outputConsumer)
  unfold ladderTaken; dsimp only
  split
  · have raised (n : EventName) (sub : BitVec 16) (d1 d2 : Word) (t : State) :
        (raiseEvent n sub d1 d2 t).re.last = t.re.last :=
      congrArg (fun k => k.re.last) (kept_raiseEvent t n sub d1 d2)
    rw [raised]
    exact advanced
  · exact advanced

theorem consumeSlot_channels : (consumeSlot s).1.channels = s.ringChannels := by
  unfold consumeSlot State.ringChannels
  split
  · rename_i empty
    have last : (freeWithdrawn s).re.last = s.re.last := by unfold freeWithdrawn; split <;> rfl
    rw [ladderMiss_channels, last]
    split
    · rw [if_neg (not_not.2 empty)]
    · rfl
  · rename_i filled
    cases fetch : s.re.fetch with
    | complete b => rfl
    | bad =>
      have silent : (takeBad s).1.channels = (ladderTaken (advanceConsumer s)).re.last.channels := rfl
      exact silent.trans (congrArg HostedBlock.channels (slotTaken_last s))
    | failed =>
      have advanced : (advanceConsumer s).re.last = s.re.last :=
        congrArg (fun k => k.re.last) (kept_writeIndexWord (s.mapRe fun re =>
          { re with outCons := re.outCons + 1, fetch := .free }) .outputConsumer)
      exact (ladderMiss_channels _).trans (congrArg HostedBlock.channels advanced)
    | fetching j => exact ladderMiss_channels s
    | free => exact ladderMiss_channels s

/-- R72: without a served source or an output region the ring hands on nothing. -/
theorem ringBoundary_block : (ringBoundary s).1.map HostedBlock.channels
    = if (servedSource s).isSome && s.pu.regions.output.isSome then some s.ringChannels else none := by
  unfold ringBoundary
  cases served : servedSource s with
  | none => rfl
  | some i =>
    cases entry : s.pu.regions.output with
    | none => rfl
    | some r => exact congrArg some (consumeSlot_channels s)

end

end Sys2Proof.Machine
end

