-- ==== Sys2Proof/Proofs/BoundaryBegins.lean ====
section
/-! SUPPORT. What a boundary's first stage makes of the switch, in every case (R20, R20a, R21, R22, R25, R28). -/

namespace Sys2Proof.Machine

section
variable {sc : SwitchUnit} {src : Source} (f : Format)

/-- R20a: an AUTO source begins anew at a change of format. -/
theorem SwitchUnit.reformed_drains (auto : src.path = .auto)
    (st : sc.st = .playing ∨ sc.st = .playRamp ∨ sc.st = .blocked ∨ sc.st = .hold) :
    sc.reformed src f = sc.draining sc.self := by
  rcases st with st | st | st | st <;> simp only [SwitchUnit.reformed, st, if_pos auto]

theorem SwitchUnit.reformed_requests (auto : src.path = .auto) (st : sc.st = .acquire) : sc.reformed src f
    = if sc.connectRequest = true then sc else { sc with connectRequest := true, target := sc.self } := by
  obtain ⟨table, state, connected, target, path, request, feed, timer, cause⟩ := sc
  subst st
  cases request <;> simp only [SwitchUnit.reformed, auto, true_and, not_true, not_false_eq_true, if_true, if_false,
    Bool.false_eq_true]

theorem SwitchUnit.reformed_silences (st : sc.st = .drain) : sc.reformed src f
    = if sc.path = .direct ∧ f = .encoded then { sc with feed := false } else sc := by
  obtain ⟨table, state, connected, target, path, request, feed, timer, cause⟩ := sc
  subst st
  rfl

theorem SwitchUnit.reformed_idle (st : sc.st = .idle) : sc.reformed src f = sc := by
  simp only [SwitchUnit.reformed, st]

end

section
variable {s : State} {cmd : Instr}

theorem autoMoves_connected (auto : s.autoMoves cmd = true) :
    ∃ i, s.sc.connected = some i ∧ s.formatMoves cmd = true ∧ s.sc.table[i].path = .auto := by
  obtain none | ⟨i, connected⟩ := s.sc.connected.eq_none_or_eq_some
  · simp [State.autoMoves, none] at auto
  · rw [autoMoves_of_connected connected, Bool.and_eq_true, decide_eq_true_eq] at auto
    exact ⟨i, connected, auto⟩

/-- R20a: an AUTO source that changes format is found on its way to a new connect. -/
theorem arrivedSc_of_auto (auto : s.autoMoves cmd = true) :
    ((s.sc.st = .playing ∨ s.sc.st = .playRamp ∨ s.sc.st = .blocked ∨ s.sc.st = .hold) →
      s.arrivedSc cmd = s.sc.draining s.sc.self)
    ∧ (s.sc.st = .acquire → s.arrivedSc cmd
        = if s.sc.connectRequest = true then s.sc else { s.sc with connectRequest := true, target := s.sc.self })
    ∧ (s.sc.st = .drain → s.arrivedSc cmd = s.sc ∨ s.arrivedSc cmd = { s.sc with feed := false })
    ∧ (s.sc.st = .idle → s.arrivedSc cmd = s.sc) := by
  obtain ⟨i, connected, moves, path⟩ := autoMoves_connected auto
  rw [arrivedSc_of_connected connected, if_pos moves]
  refine ⟨SwitchUnit.reformed_drains _ path, SwitchUnit.reformed_requests _ path, fun st => ?_,
    SwitchUnit.reformed_idle _⟩
  rw [SwitchUnit.reformed_silences _ st]
  split_ifs
  · exact .inr rfl
  · exact .inl rfl

/-- R20, R20a: the boundary finds DRAIN where `State.drainsAt` says so. -/
theorem arrivedSc_drain_iff : (s.arrivedSc cmd).st = .drain ↔ s.drainsAt cmd = true := by
  cases auto : s.autoMoves cmd with
  | false =>
    rw [arrivedSc_of_not_auto auto, State.drainsAt, auto]
    split_ifs with lost playing drain
    · rcases playing with st | st <;> simp [SwitchUnit.blocked, st]
    · simp [drain]
    · simp
    · simp
  | true =>
    obtain ⟨moves, acquire, drain, idle⟩ := arrivedSc_of_auto auto
    rw [State.drainsAt, auto]
    cases st : s.sc.st with
    | idle => simp [idle st, st]
    | acquire => rw [acquire st]; split <;> simp [st]
    | drain => rcases drain st with same | fed <;> simp [*]
    | playing => simp [moves (.inl st), SwitchUnit.draining]
    | playRamp => simp [moves (.inr (.inl st)), SwitchUnit.draining]
    | blocked => simp [moves (.inr (.inr (.inl st))), SwitchUnit.draining]
    | hold => simp [moves (.inr (.inr (.inr st))), SwitchUnit.draining]

/-- What the first stage of a boundary of `s` makes of the switch. -/
inductive State.Begins (s : State) (cmd : Instr) (x : SwitchUnit) : Prop
  /-- R20, R20a: a DRAIN goes on, or begins. -/
  | drains (drains : s.drainsAt cmd = true) (sc : x = s.arrivedSc cmd)
  /-- R21: a connect. -/
  | connects (made : s.drainsAt cmd = false) (due : (s.arrived cmd).connectDue) (feed : x.feed = false)
      (st : s.sc.st = .idle ∨ s.sc.st = .acquire) (waits : x.st = .idle ∨ x.st = .acquire ∨ x.st = .blocked)
  /-- R20a: the feed goes on. -/
  | plays (made : s.drainsAt cmd = false) (st : s.sc.st = .playing ∨ s.sc.st = .playRamp)
      (fed : s.directLost cmd = false) (sc : x = s.sc)
  /-- R20a: an encoded signal on the DIRECT path. -/
  | lost (made : s.drainsAt cmd = false) (st : s.sc.st = .playing ∨ s.sc.st = .playRamp)
      (lost : s.directLost cmd = true) (sc : x = s.sc.blocked .format)
  /-- R22, R25, R28: a source that waits, tested or not. -/
  | tests (made : s.drainsAt cmd = false) (st : s.sc.st ≠ .playing ∧ s.sc.st ≠ .playRamp ∧ s.sc.st ≠ .drain)
      (sc : x = s.sc ∨ x = s.sc.blocked .format ∨ x = s.sc.ramping)

theorem testReadiness_sc (s : State) : (testReadiness s).sc = s.sc
    ∨ (testReadiness s).sc = s.sc.blocked .format ∨ (testReadiness s).sc = s.sc.ramping := by
  unfold testReadiness
  split
  · exact .inl rfl
  · split_ifs
    · exact .inr (.inr rfl)
    · exact .inr (.inl (congrArg Kept.sc (kept_enterBlocked s .format)))
    · exact .inl rfl

theorem testBlocked_sc (s : State) : (testBlocked s).sc = s.sc ∨ (testBlocked s).sc = s.sc.ramping := by
  unfold testBlocked
  split
  · exact .inl rfl
  · split
    · exact .inr rfl
    · exact .inl rfl

theorem arrivedSc_st : (s.arrivedSc cmd).st = s.sc.st ∨ (s.arrivedSc cmd).st = .drain
    ∨ (s.arrivedSc cmd).st = .blocked := by
  cases auto : s.autoMoves cmd with
  | false =>
    rw [arrivedSc_of_not_auto auto]
    split_ifs
    · exact .inr (.inr rfl)
    · exact .inl rfl
    · exact .inl rfl
    · exact .inl rfl
  | true =>
    by_cases drains : s.drainsAt cmd = true
    · exact .inr (.inl (arrivedSc_drain_iff.2 drains))
    · obtain ⟨-, acquire, -, idle⟩ := arrivedSc_of_auto auto
      cases st : s.sc.st with
      | idle => rw [idle st, st]; exact .inl rfl
      | acquire => rw [acquire st]; split <;> exact .inl st
      | _ => simp [State.drainsAt, st, auto] at drains

/-- With no connect due, no DRAIN and no feed the sample leaves the switch as it was. -/
theorem arrivedSc_waits (h : s.boundaryBy cmd) (drains : s.drainsAt cmd = false) (due : ¬ (s.arrived cmd).connectDue)
    (st : s.sc.st ≠ .playing ∧ s.sc.st ≠ .playRamp) : s.arrivedSc cmd = s.sc := by
  obtain ⟨playing, ramp⟩ := st
  have drain : s.sc.st ≠ .drain := fun st => by simp [State.drainsAt, st] at drains
  cases auto : s.autoMoves cmd with
  | false => exact arrivedSc_same auto fun _ => ⟨playing, ramp, drain⟩
  | true =>
    obtain ⟨-, acquire, -, idle⟩ := arrivedSc_of_auto auto
    cases st : s.sc.st with
    | idle => exact idle st
    | acquire =>
      have found := (arrived_sc h).trans (acquire st)
      split at found
      · rename_i request
        exact absurd ⟨.inr (by rw [found, st]), by rw [found, request]⟩ due
      · exact absurd ⟨.inr (by rw [found]; exact st), by rw [found]⟩ due
    | _ => simp [State.drainsAt, st, auto] at drains

/-- A switch that waits is tested, or waits on. -/
theorem switchBefore_waits {s : State} (due : ¬ s.connectDue) :
    (switchBefore s).sc = s.sc ∨ (switchBefore s).sc = s.sc.blocked .format
      ∨ (switchBefore s).sc = s.sc.ramping := by
  unfold switchBefore
  split
  · rename_i idle; rw [if_neg fun k => due ⟨.inl idle, k⟩]; exact .inl rfl
  · rename_i acquire; rw [if_neg fun k => due ⟨.inr acquire, k⟩]; exact testReadiness_sc s
  · split
    · exact testReadiness_sc s
    · exact .inl rfl
  · exact (testBlocked_sc s).imp_right .inr
  · exact .inl rfl

theorem begins (h : s.boundaryBy cmd) : s.Begins cmd (switchBefore (s.arrived cmd)).sc := by
  have sc := arrived_sc h
  cases drains : s.drainsAt cmd with
  | true =>
    have st := arrivedSc_drain_iff.2 drains
    exact .drains drains (by rw [switchBefore_still (.inr (.inr (by rw [sc, st]))), sc])
  | false =>
    by_cases due : (s.arrived cmd).connectDue
    · obtain ⟨st, request⟩ := due
      have made : switchBefore (s.arrived cmd) = connect (s.arrived cmd) := by
        rcases st with st | st <;> simp only [switchBefore, st, request, if_true]
      obtain ⟨feed, waits⟩ := connect_waits (s.arrived cmd)
      rw [made]
      refine .connects drains ⟨st, request⟩ feed ?_ waits
      rw [sc] at st
      rcases arrivedSc_st (s := s) (cmd := cmd) with same | drain | blocked
      · rwa [same] at st
      · rw [drain] at st; simp at st
      · rw [blocked] at st; simp at st
    · by_cases fed : s.sc.st = .playing ∨ s.sc.st = .playRamp
      · have auto : s.autoMoves cmd = false := by
          rcases fed with st | st <;> simpa [State.drainsAt, st] using drains
        cases lost : s.directLost cmd with
        | true =>
          obtain none | ⟨i, connected⟩ := s.sc.connected.eq_none_or_eq_some
          · simp [State.directLost, none] at lost
          · obtain ⟨found, stays⟩ := arrived_lost h auto connected lost fed
            exact .lost drains fed lost (by rw [stays, found])
        | false =>
          have same : s.arrivedSc cmd = s.sc := arrivedSc_same auto (by simp [lost])
          have stays := switchBefore_still (s := s.arrived cmd) (by rw [sc, same]; exact fed.imp_right .inl)
          exact .plays drains fed lost (by rw [stays, sc, same])
      · rw [not_or] at fed
        have same := arrivedSc_waits h drains due fed
        have tested := switchBefore_waits due
        rw [sc, same] at tested
        exact .tests drains ⟨fed.1, fed.2, fun st => by simp [State.drainsAt, st] at drains⟩ tested

end

end Sys2Proof.Machine
end

