-- ==== Sys2Proof/Proofs/LevelBoundaries.lean ====
section
/-! The attenuations, the dips and the decode mode at a boundary (R19, R20a, R75, R101 to R104). -/

namespace Sys2Proof.Machine

/-! ## The switch-mute -/

section
variable {s : State} {cmd : Instr}

/-- R19: the switch-mute that the level stage finds is `State.mutedAt`. -/
theorem mutedAt_eq (h : s.boundaryBy cmd) : s.mutedAt cmd (finish (s.boundaryDone cmd))
    = switchMute (switchBefore (s.arrived cmd)) := by
  have begun := begins h
  generalize begunSc : (switchBefore (s.arrived cmd)).sc = x at begun
  rw [switchMute, begunSc]
  cases begun with
  | drains drains sc => simp [State.mutedAt, drains, sc, arrivedSc_drain_iff.2 drains]
  | connects made due feed st waits =>
    have rests : (finish (s.boundaryDone cmd)).sc = x :=
      boundaryDone_rests begunSc (by rcases waits with w | w | w <;> simp [w])
        (by rcases waits with w | w | w <;> simp [w])
    rw [State.mutedAt, made, rests]
    rcases st with st | st <;> simp [st]
  | plays made st fed sc =>
    rw [State.mutedAt, made, fed, sc]
    rcases st with st | st <;> simp [st]
  | lost made st lost sc => 
    rw [State.mutedAt, made, lost, sc]
    simp [st, SwitchUnit.blocked]
  | tests made st sc =>
    obtain ⟨playing, ramp, drain⟩ := st
    have muted : s.mutedAt cmd (finish (s.boundaryDone cmd))
        = (decide ((finish (s.boundaryDone cmd)).sc.st ≠ .playRamp)
          && decide ((finish (s.boundaryDone cmd)).sc.st ≠ .playing)) := by
      rw [State.mutedAt, made, if_neg (by simp [playing, ramp]), Bool.false_or]
    rw [muted]
    rcases sc with sc | sc | sc
    · rw [boundaryDone_rests begunSc (by rw [sc]; exact drain) (by rw [sc]; exact ramp)]
    · rw [boundaryDone_rests begunSc (by rw [sc]; simp [SwitchUnit.blocked]) (by rw [sc]; simp [SwitchUnit.blocked])]
    · obtain ⟨ends, climbs⟩ := boundaryDone_ramps h begunSc (by rw [sc]; rfl) (by rw [sc]; rfl) (by rw [sc]; rfl)
      by_cases reached : s.reaches (finish (s.boundaryDone cmd))
      · obtain ⟨done, -⟩ := ends reached
        rw [done, sc]
        rfl
      · rw [climbs reached]

/-- R19, R101: with the switch heard the first stage kept the source, and PLAY_RAMP is every state but PLAYING. -/
theorem begun_heard (h : s.boundaryBy cmd) (heard : switchMute (switchBefore (s.arrived cmd)) = false) :
    (switchBefore (s.arrived cmd)).sc.connected = s.sc.connected
      ∧ (switchBefore (s.arrived cmd)).sc.table = s.sc.table
      ∧ ((switchBefore (s.arrived cmd)).sc.st = .playRamp ↔ s.sc.st ≠ .playing) := by
  have begun := begins h
  unfold switchMute at heard
  generalize (switchBefore (s.arrived cmd)).sc = x at begun heard ⊢
  cases begun with
  | drains drains sc => simp [sc, arrivedSc_drain_iff.2 drains] at heard
  | connects made due feed st waits => rcases waits with w | w | w <;> simp [w] at heard
  | plays made st fed sc => rw [sc]; rcases st with st | st <;> simp [st]
  | lost made st lost sc => simp [sc, SwitchUnit.blocked] at heard
  | tests made st sc =>
    obtain ⟨playing, ramp, drain⟩ := st
    rcases sc with sc | sc | sc
    · simp [sc, playing, ramp] at heard
    · simp [sc, SwitchUnit.blocked] at heard
    · rw [sc]; simp [SwitchUnit.ramping, playing]

/-! ## A speaker's step -/

/-- R101 to R104: the step of one speaker, with what it reads of its pair and of the switch as arguments. -/
def Level.stepped (lv : Level) (absent derated forced muted slow : Bool) (target : Nat) : Level :=
  let fast := lv.derateFast || (derated != lv.derated)
  let release := lv.release || (lv.forced && !forced)
  let rate := if muted || decide (lv.dip = .down) || fast then 8
    else if slow || decide (lv.dip = .up) || release then 2 else 1
  let applied := if absent = true ∨ forced = true then 192
    else if lv.applied ≤ target then min target (lv.applied + rate) else max target (lv.applied - rate)
  { applied := applied,
    dip := if absent then .none else match lv.dip with
      | .none => .none
      | .down => if applied = 192 then .up else .down
      | .up => if applied = target ∨ target = 192 then .none else .up,
    derated := derated, derateFast := fast && decide (applied ≠ target) && !forced, forced := forced,
    release := release && decide (applied ≠ target) }

theorem levelStep_eq (m : State) (sp : Speaker) (lv : Level) {slow : Bool}
    (ramp : switchMute m = false → (m.sc.st = .playRamp ↔ slow = true)) : levelStep m sp lv
    = lv.stepped (decide (sp.presence = .absent)) (speakerDerated m sp) (speakerForced m sp) (switchMute m) slow
        (targetAttenuation m sp lv.dip) := by
  have rate (fast release : Bool) : attenuationRate m lv.dip fast release
      = if switchMute m || decide (lv.dip = .down) || fast then 8
        else if slow || decide (lv.dip = .up) || release then 2 else 1 := by
    unfold attenuationRate
    cases muted : switchMute m with
    | true => rfl
    | false =>
      have same : decide (m.sc.st = .playRamp) = slow := by
        rw [decide_eq_decide.2 (ramp muted)]; cases slow <;> rfl
      rw [same]
  unfold levelStep Level.stepped stepToward dipAfter
  dsimp only
  rw [rate]
  have present : sp.isPresent = !decide (sp.presence = .absent) := decide_not
  rw [present]
  simp only [ne_eq, decide_not]
  generalize decide (sp.presence = .absent) = absent
  generalize targetAttenuation m sp lv.dip = target
  generalize speakerForced m sp = forced
  cases absent <;> cases forced <;> rfl

/-- R103: a speaker's pair in a state. -/
def pairIn (t : State) (sp : Speaker) (st : PairState) : Bool :=
  match sp.pair with
  | some p => decide (sp.presence ≠ .absent) && decide (t.ap[p].st = st)
  | none => false

theorem speakerDerated_eq (m : State) (sp : Speaker) : speakerDerated m sp = pairIn m sp .derate := by
  unfold speakerDerated pairIn speakerPair Speaker.isPresent
  by_cases absent : sp.presence = .absent <;> cases sp.pair <;> simp [absent]

theorem speakerForced_eq (m : State) (sp : Speaker) :
    speakerForced m sp = (pairIn m sp .shutdown || pairIn m sp .recovering) := by
  unfold speakerForced pairIn speakerPair Speaker.isPresent PairState.silences
  by_cases absent : sp.presence = .absent <;> cases sp.pair <;> simp [absent]

/-- R98, R100, R101: a boundary moves no setting. -/
theorem boundaryDone_settings (h : s.boundaryBy cmd) :
    (finish (s.boundaryDone cmd)).ru.master = s.ru.master ∧ (finish (s.boundaryDone cmd)).ru.mute = s.ru.mute
      ∧ (finish (s.boundaryDone cmd)).ru.crossover = s.ru.crossover
      ∧ (finish (s.boundaryDone cmd)).ru.speakers = s.ru.speakers := by
  have settled := console_of_butConnect (settledState_butConnect (s.boundaryOffer cmd) (s.atBoundary cmd))
  obtain ⟨master, mute, crossover, speakers, -⟩ := RenderUnit.settings_of_console settled
  obtain ⟨master', mute', crossover', speakers'⟩ := levelledState_settings (s.boundaryOffer cmd) (s.atBoundary cmd)
  rw [atBoundary_ru h] at master' mute' crossover' speakers'
  rw [finish_ru, State.boundaryDone, boundaryWork_ru]
  exact ⟨master.trans master', mute.trans mute', crossover.trans crossover', speakers.trans speakers'⟩

/-- R101 to R104: every speaker at a boundary. -/
theorem boundaryDone_level (h : s.boundaryBy cmd) (i : Fin 8) : (finish (s.boundaryDone cmd)).ru.levels[i]
    = s.ru.levels[i].stepped (decide (s.ru.speakers[i].presence = .absent))
        (pairIn (finish (s.boundaryDone cmd)) s.ru.speakers[i] .derate)
        (pairIn (finish (s.boundaryDone cmd)) s.ru.speakers[i] .shutdown
          || pairIn (finish (s.boundaryDone cmd)) s.ru.speakers[i] .recovering)
        (s.mutedAt cmd (finish (s.boundaryDone cmd))) (decide (s.sc.st ≠ .playing))
        (targetAt (s.mutedAt cmd (finish (s.boundaryDone cmd))) s (finish (s.boundaryDone cmd)) i) := by
  have sc : (protectedState (s.boundaryOffer cmd) (s.atBoundary cmd)).sc = (switchBefore (s.arrived cmd)).sc :=
    protectedState_sc _ _
  have ap : (protectedState (s.boundaryOffer cmd) (s.atBoundary cmd)).ap = (finish (s.boundaryDone cmd)).ap := by
    rw [finish_ap]; exact (boundaryWork_ap _ _).symm
  obtain ⟨master, mute, -, speakers, levels⟩ :=
    RenderUnit.settings_of_console (protectedState_console (s.boundaryOffer cmd) (s.atBoundary cmd))
  have levelled : (finish (s.boundaryDone cmd)).ru.levels
      = (protectedState (s.boundaryOffer cmd) (s.atBoundary cmd)).levelled.ru.levels := by
    rw [finish_ru, ← levelledState_eq]; exact boundaryWork_levels _ _
  rw [atBoundary_ru h] at master mute speakers levels
  rw [mutedAt_eq h, levelled]
  have heard := begun_heard h
  have silent : switchMute (switchBefore (s.arrived cmd))
      = switchMute (protectedState (s.boundaryOffer cmd) (s.atBoundary cmd)) := by rw [switchMute, switchMute, sc]
  rw [silent] at heard ⊢
  rw [← sc] at heard
  generalize finish (s.boundaryDone cmd) = t at ap ⊢
  generalize protectedState _ _ = m at sc ap master mute speakers levels heard ⊢
  have target := targetAttenuation_eq (t := t) i s.ru.levels[i].dip master mute speakers ap rfl
    fun k => ⟨(heard k).1, (heard k).2.1⟩
  have stepped := levelStep_eq m s.ru.speakers[i] s.ru.levels[i] (slow := decide (s.sc.st ≠ .playing))
    fun k => by rw [decide_eq_true_iff]; exact (heard k).2.2
  have shared (st : PairState) : pairIn m s.ru.speakers[i] st = pairIn t s.ru.speakers[i] st := by
    rw [pairIn, pairIn, ap]
  rw [speakers] at target
  rw [speakerDerated_eq, speakerForced_eq, shared, shared, shared, target] at stepped
  rw [State.levelled, State.mapRu_ru]
  simp only [Fin.getElem_fin, Vector.getElem_ofFn]
  rw [speakers, levels]
  exact stepped

end

/-! ## The decode mode -/

/-- R72, R74, R75: the decoder once the mode of the block is chosen. -/
theorem decodeBlock_mode (live : Bool) (input : HostedBlock) (m : State) :
    (decodeBlock live input m).2.ru.heldCount = (if live then input.channels else m.ru.heldCount)
      ∧ (decodeBlock live input m).2.ru.lastMode
        = chooseMode (preferenceNow m) (surroundPresent m) input.channels := by
  have fresh (u : State) (h : u = if input.disc = true then resetCrossover (resetSteering m) else m) :
      preferenceNow u = preferenceNow m ∧ surroundPresent u = surroundPresent m
        ∧ u.ru.heldCount = m.ru.heldCount := by
    subst h
    split <;> exact ⟨rfl, rfl, rfl⟩
  unfold decodeBlock; dsimp only
  generalize chosen : (if input.disc = true then resetCrossover (resetSteering m) else m) = u
  obtain ⟨preference, surround, held⟩ := fresh u chosen.symm
  rw [preference, surround, ← held]
  generalize chooseMode (preferenceNow m) (surroundPresent m) input.channels = mode
  cases mode <;> dsimp only <;> split <;> exact ⟨rfl, rfl⟩

theorem directInput_channels (offered : Option OfferedBlock) (p : Fin 6) :
    (directInput offered p).channels = portChannels p := by
  unfold directInput
  split
  · split <;> rfl
  · rfl

/-- R72 to R74: the channels of the block rendered. -/
theorem inputBlock_channels (offered : Option OfferedBlock) (hosted : Option HostedBlock) (m : State) :
    (inputBlock offered hosted m).channels = match connectedSource m with
      | some src =>
        if m.sc.feed = true then
          match m.sc.path with
          | .direct => portChannels src.port
          | .hosted => (hosted.map HostedBlock.channels).getD m.ru.heldCount
        else m.ru.heldCount
      | none => m.ru.heldCount := by
  unfold inputBlock liveInput
  cases connectedSource m with
  | none => rfl
  | some src =>
    dsimp only
    split
    · cases m.sc.path with
      | direct => exact directInput_channels _ _
      | hosted => cases hosted <;> rfl
    · rfl

section
variable {s : State} {cmd : Instr}

theorem arrivedSc_source : (s.arrivedSc cmd).connected = s.sc.connected ∧ (s.arrivedSc cmd).table = s.sc.table
    ∧ (s.arrivedSc cmd).path = s.sc.path := by
  cases auto : s.autoMoves cmd with
  | false =>
    rw [arrivedSc_of_not_auto auto]
    split_ifs <;> exact ⟨rfl, rfl, rfl⟩
  | true =>
    obtain ⟨moves, acquire, drain, idle⟩ := arrivedSc_of_auto auto
    cases st : s.sc.st with
    | idle => rw [idle st]; exact ⟨rfl, rfl, rfl⟩
    | acquire => rw [acquire st]; split <;> exact ⟨rfl, rfl, rfl⟩
    | drain => rcases drain st with same | fed <;> rw [‹s.arrivedSc cmd = _›] <;> exact ⟨rfl, rfl, rfl⟩
    | playing => rw [moves (.inl st)]; exact ⟨rfl, rfl, rfl⟩
    | playRamp => rw [moves (.inr (.inl st))]; exact ⟨rfl, rfl, rfl⟩
    | blocked => rw [moves (.inr (.inr (.inl st)))]; exact ⟨rfl, rfl, rfl⟩
    | hold => rw [moves (.inr (.inr (.inr st)))]; exact ⟨rfl, rfl, rfl⟩

/-- R20a, R21: the connect that a boundary finds due is one that `State.connectsAt` names. -/
theorem connectsAt_of_arrived (h : s.boundaryBy cmd) (t : State) (due : (s.arrived cmd).connectDue) :
    s.connectsAt cmd t := by
  have sc := arrived_sc h
  obtain ⟨st, request⟩ := due
  rw [sc] at st request
  cases auto : s.autoMoves cmd with
  | false =>
    rw [arrivedSc_of_not_auto auto] at st request
    split_ifs at st request with lost playing drain
    · simp [SwitchUnit.blocked] at st
    · simp [drain] at st
    · exact st.imp (fun st => ⟨st, request⟩) fun st => .inl ⟨st, .inl request⟩
    · exact st.imp (fun st => ⟨st, request⟩) fun st => .inl ⟨st, .inl request⟩
  | true =>
    obtain ⟨moves, acquire, drain, idle⟩ := arrivedSc_of_auto auto
    cases state : s.sc.st with
    | idle => rw [idle state] at request; exact .inl ⟨state, request⟩
    | acquire => exact .inr (.inl ⟨state, .inr auto⟩)
    | drain => rcases drain state with same | fed <;> rw [‹s.arrivedSc cmd = _›] at st <;> simp [state] at st
    | playing => rw [moves (.inl state)] at st; simp [SwitchUnit.draining] at st
    | playRamp => rw [moves (.inr (.inl state))] at st; simp [SwitchUnit.draining] at st
    | blocked => rw [moves (.inr (.inr (.inl state)))] at st; simp [SwitchUnit.draining] at st
    | hold => rw [moves (.inr (.inr (.inr state)))] at st; simp [SwitchUnit.draining] at st

/-- Without a connect the boundary ends with the feed its first stage left, and with the source it had. -/
theorem boundaryDone_feed (h : s.boundaryBy cmd) (stays : ¬ s.connectsAt cmd (finish (s.boundaryDone cmd))) :
    (finish (s.boundaryDone cmd)).sc.feed = (switchBefore (s.arrived cmd)).sc.feed
      ∧ (switchBefore (s.arrived cmd)).sc.connected = s.sc.connected
      ∧ (switchBefore (s.arrived cmd)).sc.table = s.sc.table
      ∧ (switchBefore (s.arrived cmd)).sc.path = s.sc.path := by
  have begun := begins h
  generalize begunSc : (switchBefore (s.arrived cmd)).sc = x at begun ⊢
  cases begun with
  | drains drains sc =>
    obtain ⟨connected, table, path⟩ := arrivedSc_source (s := s) (cmd := cmd)
    have loud : ∃ i : Fin 8, (finish (s.boundaryDone cmd)).ru.levels[i].applied ≠ 192 := by
      by_contra silent
      exact stays (.inr (.inr ⟨drains, by simpa using silent⟩))
    have st : x.st = .drain := by rw [sc]; exact arrivedSc_drain_iff.2 drains
    rw [boundaryDone_drains begunSc st loud, sc]
    exact ⟨rfl, connected, table, path⟩
  | connects made due feed st waits => exact absurd (connectsAt_of_arrived h _ due) stays
  | plays made st fed sc =>
    refine ⟨?_, by rw [sc], by rw [sc], by rw [sc]⟩
    rcases st with st | st
    · rw [boundaryDone_rests begunSc (by rw [sc, st]; simp) (by rw [sc, st]; simp)]
    · obtain ⟨ends, climbs⟩ := boundaryDone_ramps h begunSc (by rw [sc, st]) (by rw [sc]) (by rw [sc])
      by_cases reached : s.reaches (finish (s.boundaryDone cmd))
      · obtain ⟨done, -⟩ := ends reached
        rw [done]
      · rw [climbs reached]
  | lost made st lost sc =>
    rw [boundaryDone_rests begunSc (by rw [sc]; simp [SwitchUnit.blocked]) (by rw [sc]; simp [SwitchUnit.blocked]),
      sc]
    exact ⟨rfl, rfl, rfl, rfl⟩
  | tests made st sc =>
    obtain ⟨playing, ramp, drain⟩ := st
    rcases sc with sc | sc | sc
    · rw [boundaryDone_rests begunSc (by rw [sc]; exact drain) (by rw [sc]; exact ramp), sc]
      exact ⟨rfl, rfl, rfl, rfl⟩
    · rw [boundaryDone_rests begunSc (by rw [sc]; simp [SwitchUnit.blocked]) (by rw [sc]; simp [SwitchUnit.blocked]),
        sc]
      exact ⟨rfl, rfl, rfl, rfl⟩
    · obtain ⟨ends, climbs⟩ := boundaryDone_ramps h begunSc (by rw [sc]; rfl) (by rw [sc]; rfl) (by rw [sc]; rfl)
      refine ⟨?_, by rw [sc]; rfl, by rw [sc]; rfl, by rw [sc]; rfl⟩
      by_cases reached : s.reaches (finish (s.boundaryDone cmd))
      · obtain ⟨done, -⟩ := ends reached
        rw [done]
      · rw [climbs reached]

/-- R72 to R74: the channels of the block that a boundary without a connect renders, by the feed. -/
def State.renderedChannels (s : State) (feed : Bool) : Nat :=
  match s.sc.connected with
  | some k =>
    if feed = false then s.ru.heldCount
    else if s.sc.path = .direct then portChannels s.sc.table[k].port
    else if s.pu.regions.output.isSome then s.ringChannels else s.ru.heldCount
  | none => s.ru.heldCount

/-- Without a connect the decoder's own stage is the last to move it. -/
theorem boundaryDone_decoder (stays : ¬ s.connectsAt cmd (finish (s.boundaryDone cmd))) (h : s.boundaryBy cmd) :
    (finish (s.boundaryDone cmd)).ru.heldCount
        = (decodedState (s.boundaryOffer cmd) (s.atBoundary cmd)).ru.heldCount
      ∧ (finish (s.boundaryDone cmd)).ru.lastMode
        = (decodedState (s.boundaryOffer cmd) (s.atBoundary cmd)).ru.lastMode := by
  have quietly : ¬ ((levelledState (s.boundaryOffer cmd) (s.atBoundary cmd)).sc.st = .drain
      ∧ muteReached (levelledState (s.boundaryOffer cmd) (s.atBoundary cmd)) = true) := by
    rintro ⟨drain, mute⟩
    rw [levelledState_sc, begunState_arrived] at drain
    have due : ¬ (s.arrived cmd).connectDue := fun due => stays (connectsAt_of_arrived h _ due)
    have found := switchBefore_drain due drain
    rw [arrived_sc h] at found
    refine stays (.inr (.inr ⟨arrivedSc_drain_iff.1 found, fun i => ?_⟩))
    rw [finish_ru, State.boundaryDone, boundaryWork_levels]
    exact muteReached_iff.1 mute i
  have ru : (finish (s.boundaryDone cmd)).ru = (levelledState (s.boundaryOffer cmd) (s.atBoundary cmd)).ru := by
    rw [finish_ru, State.boundaryDone, boundaryWork_ru, settledState]
    exact congrArg Kept.ru (butSc_switchAfter _ quietly)
  have amp (t : State) (marks : Vector Bool 8) : (ampUpdate marks t).ru = t.ru :=
    congrArg Kept.ru (butAp_ampUpdate t marks)
  rw [ru, levelledState_eq, State.levelled, State.mapRu_ru, protectedState]
  dsimp only
  rw [amp]
  exact ⟨rfl, rfl⟩

/-- R66 to R68: the ring as a boundary without a connect finds it. -/
theorem begun_ringChannels (h : s.boundaryBy cmd) (due : ¬ (s.arrived cmd).connectDue) :
    (switchBefore (s.arrived cmd)).ringChannels = s.ringChannels := by
  have begun := butSc_switchBefore due
  have prod : (switchBefore (s.arrived cmd)).cu.outProd = s.cu.outProd :=
    (congrArg Kept.outProd begun).trans (congrArg Kept.outProd (kept_atBoundary s h))
  have re : (switchBefore (s.arrived cmd)).re = (s.atBoundary cmd).re := congrArg Kept.re begun
  have offered := RingEngine.of_butStore (atBoundary_butStore h)
  rw [State.ringChannels, State.ringChannels, prod, re, offered]

theorem begun_inputChannels (h : s.boundaryBy cmd) (stays : ¬ s.connectsAt cmd (finish (s.boundaryDone cmd)))
    (offered : Option OfferedBlock) :
    (inputBlock offered (ringBoundary (switchBefore (s.arrived cmd))).1
        (ringBoundary (switchBefore (s.arrived cmd))).2).channels
      = s.renderedChannels (switchBefore (s.arrived cmd)).sc.feed := by
  obtain ⟨-, connected, table, path⟩ := boundaryDone_feed h stays
  have due : ¬ (s.arrived cmd).connectDue := fun due => stays (connectsAt_of_arrived h _ due)
  have begun := butSc_switchBefore due
  have ru : (switchBefore (s.arrived cmd)).ru = s.ru := (congrArg Kept.ru begun).trans (atBoundary_ru h)
  have regions : (switchBefore (s.arrived cmd)).pu.regions = s.pu.regions :=
    (congrArg Kept.regions begun).trans (atBoundary_regions h)
  have channels := begun_ringChannels h due
  generalize switchBefore (s.arrived cmd) = b at connected table path ru regions channels ⊢
  have ring := butRe_ringBoundary b
  have ringSc : (ringBoundary b).2.sc = b.sc := congrArg Kept.sc ring
  have ringRu : (ringBoundary b).2.ru = b.ru := congrArg Kept.ru ring
  rw [inputBlock_channels, connectedSource, ringSc, ringRu, ringBoundary_block, channels, regions, servedSource,
    connected, table, path, ru, State.renderedChannels]
  cases s.sc.connected with
  | none => rfl
  | some k => cases b.sc.feed <;> cases s.sc.path <;> cases s.pu.regions.output <;> rfl

/-- R72 to R75: what the decoder makes of a boundary without a connect. -/
theorem boundaryDone_decodes (h : s.boundaryBy cmd)
    (stays : ¬ s.connectsAt cmd (finish (s.boundaryDone cmd))) :
    (finish (s.boundaryDone cmd)).ru.heldCount
        = (if (finish (s.boundaryDone cmd)).sc.feed && s.sc.connected.isSome then
            s.renderedChannels (finish (s.boundaryDone cmd)).sc.feed else s.ru.heldCount)
      ∧ (finish (s.boundaryDone cmd)).ru.lastMode
        = chooseMode (preferenceNow s) (surroundPresent s)
            (s.renderedChannels (finish (s.boundaryDone cmd)).sc.feed) := by
  obtain ⟨held, mode⟩ := boundaryDone_decoder stays h
  obtain ⟨feed, connected, table, path⟩ := boundaryDone_feed h stays
  have due : ¬ (s.arrived cmd).connectDue := fun due => stays (connectsAt_of_arrived h _ due)
  have begun := butSc_switchBefore due
  have ring := butRe_ringBoundary (switchBefore (s.arrived cmd))
  have ringSc : (ringBoundary (switchBefore (s.arrived cmd))).2.sc = (switchBefore (s.arrived cmd)).sc :=
    congrArg Kept.sc ring
  have ringRu : (ringBoundary (switchBefore (s.arrived cmd))).2.ru = s.ru :=
    (congrArg Kept.ru ring).trans ((congrArg Kept.ru begun).trans (atBoundary_ru h))
  have chosen := decodeBlock_mode ((switchBefore (s.arrived cmd)).sc.feed && s.sc.connected.isSome)
    (inputBlock (s.boundaryOffer cmd) (ringBoundary (switchBefore (s.arrived cmd))).1
      (ringBoundary (switchBefore (s.arrived cmd))).2) (ringBoundary (switchBefore (s.arrived cmd))).2
  have preference : preferenceNow (ringBoundary (switchBefore (s.arrived cmd))).2 = preferenceNow s := by
    rw [preferenceNow, connectedSource, ringSc, connected, table]; rfl
  have surround : surroundPresent (ringBoundary (switchBefore (s.arrived cmd))).2 = surroundPresent s := by
    simp only [surroundPresent, speakerPresent, ringRu]
  rw [begun_inputChannels h stays, preference, surround, ringRu] at chosen
  rw [held, mode, feed, decodedState, renderDecode, begunState_arrived, ringSc, connected]
  exact chosen

end

/-- Settles O45: the level stage's step of each speaker (`boundaryDone_level`), and the decoder without a connect
(`boundaryDone_decodes`). -/
theorem levelsMoveAtTheBoundary : Obligations.LevelsMoveAtTheBoundary := by
  unfold Obligations.LevelsMoveAtTheBoundary
  intro s cmd h
  obtain ⟨master, mute, crossover, speakers⟩ := boundaryDone_settings h
  refine ⟨finish (s.boundaryDone cmd), exec_boundaryBy s h, master, mute, crossover, speakers, fun i => ?_,
    fun stays => ?_⟩
  · rw [boundaryDone_level h i]
    simp only [Level.stepped, decide_eq_true_eq]
    rfl
  · obtain ⟨held, mode⟩ := boundaryDone_decodes h stays
    have surround : surroundPresent s
        = [(2 : Fin 8), 4, 5].any fun i => decide (s.ru.speakers[i].presence ≠ .absent) := by
      simp [surroundPresent, speakerPresent, Speaker.isPresent, Bool.or_assoc]
    rw [surround] at mode
    refine ⟨held, mode.trans ?_⟩
    unfold preferenceNow connectedSource State.renderedChannels
    cases s.sc.connected <;> rfl

end Sys2Proof.Machine
end

