-- ==== Sys2Proof/Proofs/DelayRestarts.lean ====
section
/-! SUPPORT. The Delay Unit's boundary (R113): what the hand-on makes of each speaker's part, and what a boundary leaves
of histories restarted (R112) and of an output restart (R121). -/

namespace Sys2Proof.Machine

/-! ## The hand-on -/

/-- R115, R116, R119: a speaker's part after its hand-on. -/
def DelayLine.handedOn (l : DelayLine) (present : Bool) : DelayLine :=
  if present then { l with lastOut := handedBlock l, late := (l.prepared.bind lateCause).isSome } else lineAbsent l

/-- R113: the speakers' parts and the blocks handed on, from one step of the hand-on to the next. -/
structure HandOnStep (i : Fin 8) (acc next : Vector (Option Chan) 8 × State) : Prop where
  out : next.1 = acc.1.set i (if speakerPresent acc.2 i then some (handedBlock acc.2.du.speakers[i]) else none)
  speakers : next.2.du.speakers
    = acc.2.du.speakers.set i (acc.2.du.speakers[i].handedOn (speakerPresent acc.2 i))
  settings : next.2.du.lines = acc.2.du.lines ∧ next.2.du.changed = acc.2.du.changed
    ∧ next.2.du.fill = acc.2.du.fill
  ru : next.2.ru = acc.2.ru

section
variable (s : State) (i : Fin 8)

theorem noteLateness_du (c : Option LateCause) : ∃ runs, (noteLateness i c s).du
    = { s.du with speakers := s.du.speakers.set i { s.du.speakers[i] with late := c.isSome }, lateRuns := runs } := by
  unfold noteLateness
  cases c with
  | none => exact ⟨s.du.lateRuns, rfl⟩
  | some c =>
    by_cases late : s.du.speakers[i].late = true
    · refine ⟨s.du.lateRuns, ?_⟩
      have same : ({ s.du.speakers[i] with late := (some c).isSome } : DelayLine) = s.du.speakers[i] := by
        rw [Option.isSome_some, ← late]
      dsimp only
      rw [if_pos late, same]
      simp
    · refine ⟨wrapSucc s.du.lateRuns, ?_⟩
      dsimp only
      rw [if_neg late]
      exact congrArg Kept.du (kept_raiseEvent _ _ _ _ _)

theorem noteLateness_ru (c : Option LateCause) : (noteLateness i c s).ru = s.ru :=
  ru_of_butDu (butDu_noteLateness s i c)

theorem handOnSpeaker_step (acc : Vector (Option Chan) 8 × State) : HandOnStep i acc (handOnSpeaker i acc) := by
  obtain ⟨out, s⟩ := acc
  unfold handOnSpeaker; dsimp only
  by_cases present : speakerPresent s i = true
  · rw [if_pos present]
    obtain ⟨runs, noted⟩ := noteLateness_du
      (mapLine i (fun l => { l with lastOut := handedBlock s.du.speakers[i] }) s) i
      (s.du.speakers[i].prepared.bind lateCause)
    refine ⟨by rw [if_pos present], ?_, ?_, ?_⟩
    · dsimp only
      rw [noted, present]
      simp [mapLine, DelayLine.handedOn]
    · dsimp only
      rw [noted]
      exact ⟨rfl, rfl, rfl⟩
    · exact noteLateness_ru _ _ _
  · rw [if_neg present]
    refine ⟨by rw [if_neg present], ?_, ⟨rfl, rfl, rfl⟩, rfl⟩
    rw [DelayLine.handedOn, if_neg present]
    rfl

end

/-- R113: the hand-on of the speakers of a list. -/
theorem handOnSpeakers_at (l : List (Fin 8)) (nodup : l.Nodup) (acc : Vector (Option Chan) 8 × State) (i : Fin 8) :
    let next := l.foldl (fun acc i => handOnSpeaker i acc) acc
    next.1[i] = (if i ∈ l then if speakerPresent acc.2 i then some (handedBlock acc.2.du.speakers[i]) else none
        else acc.1[i])
      ∧ next.2.du.speakers[i] = (if i ∈ l then acc.2.du.speakers[i].handedOn (speakerPresent acc.2 i)
        else acc.2.du.speakers[i])
      ∧ next.2.du.lines = acc.2.du.lines ∧ next.2.du.changed = acc.2.du.changed
      ∧ next.2.du.fill = acc.2.du.fill := by
  induction l generalizing acc with
  | nil => exact ⟨rfl, rfl, rfl, rfl, rfl⟩
  | cons j l ih =>
    obtain ⟨fresh, nodup⟩ := List.nodup_cons.1 nodup
    obtain ⟨out, speakers, ⟨lines, changed, fill⟩, ru⟩ := handOnSpeaker_step j acc
    obtain ⟨out', speakers', lines', changed', fill'⟩ := ih nodup (handOnSpeaker j acc)
    intro next
    by_cases same : i = j
    · subst same
      rw [if_neg fresh] at out' speakers'
      rw [if_pos List.mem_cons_self, if_pos List.mem_cons_self]
      refine ⟨out'.trans ?_, speakers'.trans ?_, lines'.trans lines, changed'.trans changed, fill'.trans fill⟩
      · rw [out]; simp
      · rw [speakers]; simp
    · have other : (j : Nat) ≠ (i : Nat) := fun k => same (Fin.ext k.symm)
      have present : speakerPresent (handOnSpeaker j acc).2 i = speakerPresent acc.2 i := by
        rw [speakerPresent, speakerPresent, ru]
      have line : (handOnSpeaker j acc).2.du.speakers[i] = acc.2.du.speakers[i] := by
        simp only [speakers, Fin.getElem_fin, Vector.getElem_set_ne _ _ other]
      have outAt : (handOnSpeaker j acc).1[i] = acc.1[i] := by
        simp only [out, Fin.getElem_fin, Vector.getElem_set_ne _ _ other]
      have member : i ∈ j :: l ↔ i ∈ l := by rw [List.mem_cons, or_iff_right same]
      rw [present, line, outAt] at out'
      rw [present, line] at speakers'
      simp only [member]
      exact ⟨out', speakers', lines'.trans lines, changed'.trans changed, fill'.trans fill⟩

/-- R113, R115 to R117: the hand-on of every speaker. -/
theorem delayHandOn_at (s : State) (i : Fin 8) :
    (delayHandOn s).1[i]
        = (if speakerPresent s i then some (handedBlock (abandonUnplaced s).du.speakers[i]) else none)
      ∧ (delayHandOn s).2.du.speakers[i]
        = ((abandonUnplaced s).du.speakers[i]).handedOn (speakerPresent s i)
      ∧ (delayHandOn s).2.du.lines = s.du.lines ∧ (delayHandOn s).2.du.changed = s.du.changed
      ∧ (delayHandOn s).2.du.fill = s.du.fill := by
  have all : i ∈ speakerIds := by revert i; decide
  have made := handOnSpeakers_at speakerIds (by decide) (Vector.replicate 8 none, abandonUnplaced s) i
  dsimp only at made
  rw [if_pos all, if_pos all] at made
  unfold delayHandOn
  generalize speakerIds.foldl _ _ = r at made ⊢
  exact made

theorem abandonUnplaced_at (s : State) (i : Fin 8) : (abandonUnplaced s).du.speakers[i]
    = if writesUnplaced s i then { s.du.speakers[i] with history := 0 } else s.du.speakers[i] := by
  simp [abandonUnplaced, dropUnplacedDelay]

/-! ## Histories restarted -/

/-- R113: the blocks that a boundary writes are those of the speakers present. -/
def HandOn.covers (h : HandOn) (s : State) : Prop := ∀ i : Fin 8, h.blocks[i].isSome = speakerPresent s i

section
variable (s : State)

theorem handedOn_history (i : Fin 8) (bare : s.du.speakers[i].history = 0) :
    (delayHandOn s).2.du.speakers[i].history = 0 := by
  obtain ⟨-, speakers, -⟩ := delayHandOn_at s i
  rw [speakers, abandonUnplaced_at, DelayLine.handedOn]
  split_ifs
  · rfl
  · exact bare
  · rfl
  · rfl

/-- R120: the mode is taken; an entry to LINES restarts fill and histories. -/
theorem takeDelayMode_at (i : Fin 8) :
    (takeDelayMode s).du.lines = delayModeNow s
      ∧ (takeDelayMode s).du.fill = (if delayModeNow s && (!s.du.lines || s.du.changed) then 0 else s.du.fill)
      ∧ (takeDelayMode s).du.speakers[i]
        = (if delayModeNow s && (!s.du.lines || s.du.changed) then { s.du.speakers[i] with history := 0 }
          else s.du.speakers[i]) := by
  unfold takeDelayMode; dsimp only
  split
  · simp [mapLines]
  · exact ⟨rfl, rfl, rfl⟩

theorem takeDistances_at (swaps : Vector Bool 8) (i : Fin 8) :
    (takeDistances swaps s).du.fill = s.du.fill ∧ (takeDistances swaps s).du.lines = s.du.lines
      ∧ (takeDistances swaps s).du.speakers[i].late = s.du.speakers[i].late
      ∧ (s.du.speakers[i].history = 0 → (takeDistances swaps s).du.speakers[i].history = 0) := by
  have line : (takeDistances swaps s).du.speakers[i]
      = { takeDistance s.ru.speakers[i] swaps[i] s.du.speakers[i] with
          effective := delayFrames ((takeDistance s.ru.speakers[i] swaps[i] s.du.speakers[i]).inUse + lipSyncNow s)
            s.clock.cls } := by
    simp [takeDistances]
  refine ⟨rfl, rfl, ?_, fun bare => ?_⟩
  · rw [line, takeDistance]; split <;> rfl
  · rw [line, takeDistance]
    split
    · rfl
    · exact bare

/-- What the reads placed for a block leave of the Delay Unit: histories, late flags, mode and fill count. -/
def DelayUnit.marks (du : DelayUnit) : Vector (Nat × Bool) 8 × Bool × Nat :=
  (du.speakers.map fun l => (l.history, l.late), du.lines, du.fill)

theorem marks_mapLine (i : Fin 8) (f : DelayLine → DelayLine) (history : ∀ l, (f l).history = l.history)
    (late : ∀ l, (f l).late = l.late) : (mapLine i f s).du.marks = s.du.marks := by
  have lines : (s.du.speakers.set i (f s.du.speakers[i])).map (fun l => (l.history, l.late))
      = s.du.speakers.map fun l => (l.history, l.late) := by
    ext1 k hk
    by_cases same : (i : Nat) = k
    · subst same
      simp [history, late]
    · simp [Vector.getElem_set_ne _ _ same]
  simp only [DelayUnit.marks, mapLine, State.mapDu_du, lines]

theorem marks_placeReads (base w : Nat) (i : Fin 8) : (placeReads base w i s).du.marks = s.du.marks := by
  have prepared := marks_mapLine s i (fun l =>
    { l with prepared := some { generation := s.du.generation, frames := zeroChan, lines := pendingLines w l } })
    (fun _ => rfl) fun _ => rfl
  have placed : (placeReads base w i s).kept = _ := kept_placeAll (mapLine i _ s) .render _
  have marks := congrArg (fun k : Kept => k.du.marks) placed
  exact Eq.trans marks prepared

theorem marks_placeAllReads (base w : Nat) (blocks : Vector (Option Chan) 8) (l : List (Fin 8)) :
    (l.foldl (fun s i => if blocks[i].isSome then placeReads base w i s else s) s).du.marks = s.du.marks := by
  induction l generalizing s with
  | nil => rfl
  | cons i l ih =>
    refine (ih _).trans ?_
    dsimp only
    split
    · exact marks_placeReads s base w i
    · rfl

theorem marks_at {a b : DelayUnit} (h : a.marks = b.marks) (i : Fin 8) :
    a.speakers[i].history = b.speakers[i].history ∧ a.speakers[i].late = b.speakers[i].late ∧ a.fill = b.fill := by
  simp only [DelayUnit.marks, Prod.mk.injEq] at h
  obtain ⟨lines, -, fill⟩ := h
  have line := congrArg (fun v => v[i]) lines
  simp only [Fin.getElem_fin, Vector.getElem_map, Prod.mk.injEq] at line
  exact ⟨line.1, line.2, fill⟩

/-- R113: the state whose reads and writes a boundary places. -/
def delayTaken (h : HandOn) (s : State) : State := takeDistances h.swaps (takeDelayMode (delayHandOn s).2)

/-- R113, R119: the work of a boundary with the lines of memory, or past them. -/
def delayWork (h : HandOn) (s : State) : State :=
  match s.du.lines, s.pu.regions.delay with
  | true, some r => delayLinesWork r.base h.blocks s
  | _, _ => bypassWork h.blocks s

theorem delayBoundary_state (h : HandOn) : (delayBoundary h s).2
    = (delayWork h (delayTaken h s)).mapDu fun du => { du with generation := du.generation + 1 } := by
  unfold delayBoundary delayTaken
  generalize delayHandOn s = r
  rfl

theorem delayBoundary_out (h : HandOn) : (delayBoundary h s).1 = (delayHandOn s).1 := by
  unfold delayBoundary
  generalize delayHandOn s = r
  rfl

theorem du_foldl {α : Type} {f : State → α → State} (h : ∀ s a, (f s a).kept = s.kept) (l : List α) :
    (l.foldl f s).du = s.du := by
  induction l generalizing s with
  | nil => rfl
  | cons a l ih => exact (ih (f s a)).trans (congrArg Kept.du (h s a))

theorem countWritten_du {a b : State} (blocks : Vector (Option Chan) 8) (h : a.du = b.du) :
    (countWritten blocks a).du = (countWritten blocks b).du := by
  simp only [countWritten, State.mapDu_du, h]

theorem marks_delayLinesWork (base : Nat) (blocks : Vector (Option Chan) 8) :
    (delayLinesWork base blocks s).du.marks = (countWritten blocks s).du.marks := by
  unfold delayLinesWork; dsimp only
  rw [marks_placeAllReads]
  exact congrArg DelayUnit.marks
    (countWritten_du blocks (du_foldl s (fun s i => kept_placeWrites s base _ i _) speakerIds))

theorem delayWork_marks (h : HandOn) : (delayWork h s).du.marks
    = if s.du.lines && s.pu.regions.delay.isSome then (countWritten h.blocks s).du.marks else s.du.marks := by
  have bypass : (bypassWork h.blocks s).du.marks = s.du.marks := by
    have lines : (bypassWork h.blocks s).du.speakers.map (fun l => (l.history, l.late))
        = s.du.speakers.map fun l => (l.history, l.late) := by
      ext1 k hk
      simp only [bypassWork, State.mapDu_du, Vector.getElem_map, Vector.getElem_ofFn]
      split <;> rfl
    simp only [DelayUnit.marks, lines]
    rfl
  unfold delayWork
  cases s.du.lines with
  | false => exact bypass
  | true =>
    cases s.pu.regions.delay with
    | none => exact bypass
    | some r => exact marks_delayLinesWork s _ _

section
variable {a b : State} (h : a.kept.butDu = b.kept.butDu)
include h

theorem regions_of_butDu : a.pu.regions = b.pu.regions := congrArg Kept.regions h

theorem delayModeNow_of_butDu : delayModeNow a = delayModeNow b := by
  have quiesce : a.cu.quiesce = b.cu.quiesce := congrArg Kept.quiesce h
  rw [delayModeNow, delayModeNow, regions_of_butDu h, quiesce]

end

theorem countWritten_at (blocks : Vector (Option Chan) 8) (i : Fin 8) :
    (countWritten blocks s).du.fill = min (s.du.fill + 32) 4096
      ∧ (countWritten blocks s).du.speakers[i].late = s.du.speakers[i].late
      ∧ (countWritten blocks s).du.speakers[i].history
        = (if blocks[i].isSome then min (s.du.speakers[i].history + 32) (min (s.du.fill + 32) 4096)
          else s.du.speakers[i].history) := by
  simp only [countWritten, State.mapDu_du, Fin.getElem_fin, Vector.getElem_ofFn, true_and]
  split <;> exact ⟨rfl, rfl⟩

/-- R118, R120: mode, fill count and histories as the boundary's own work finds them. -/
theorem delayTaken_at (h : HandOn) (i : Fin 8) (bare : s.du.speakers[i].history = 0) :
    ((delayTaken h s).du.lines && (delayTaken h s).pu.regions.delay.isSome) = delayModeNow s
      ∧ (s.du.fill = 0 → (delayTaken h s).du.fill = 0) ∧ (delayTaken h s).du.speakers[i].history = 0
      ∧ (delayTaken h s).du.speakers[i].late = (delayHandOn s).2.du.speakers[i].late := by
  have handed := handedOn_history s i bare
  obtain ⟨-, -, -, -, fill⟩ := delayHandOn_at s i
  have mode := delayModeNow_of_butDu (butDu_delayHandOn s)
  have regions : (delayTaken h s).pu.regions = s.pu.regions := by
    rw [delayTaken, regions_of_butDu (butDu_takeDistances _ _), regions_of_butDu (butDu_takeDelayMode _),
      regions_of_butDu (butDu_delayHandOn s)]
  obtain ⟨lines, fill', line⟩ := takeDelayMode_at (delayHandOn s).2 i
  obtain ⟨fill'', lines', late, history⟩ := takeDistances_at (takeDelayMode (delayHandOn s).2) h.swaps i
  rw [mode] at lines fill' line
  rw [regions]
  rw [line] at late history
  rw [delayTaken, fill'', lines', late, lines, fill', fill]
  generalize (delayHandOn s).2.du.speakers[i] = l at handed history ⊢
  refine ⟨?_, fun empty => ?_, history ?_, ?_⟩
  · cases entry : s.pu.regions.delay <;> simp [delayModeNow, entry]
  · rw [empty]; split <;> rfl
  · split
    · rfl
    · exact handed
  · split <;> rfl

/-- R112, R113, R118, R120: a boundary after histories restarted: a speaker that writes has one block, and the fill
count has one more. -/
theorem delayBoundary_bare (h : HandOn) (covers : h.covers s) (i : Fin 8) (bare : s.du.speakers[i].history = 0) :
    (delayBoundary h s).2.du.speakers[i].history
        = (if delayModeNow s && speakerPresent s i then min 32 (delayBoundary h s).2.du.fill else 0)
      ∧ (s.du.fill = 0 → (delayBoundary h s).2.du.fill = if delayModeNow s then 32 else 0)
      ∧ (delayBoundary h s).2.du.speakers[i].late = (delayHandOn s).2.du.speakers[i].late := by
  obtain ⟨mode, fill, history, late⟩ := delayTaken_at s h i bare
  have marks := delayWork_marks (delayTaken h s) h
  rw [mode] at marks
  have ended : (delayBoundary h s).2.du.marks = (delayWork h (delayTaken h s)).du.marks := by
    rw [delayBoundary_state]
    generalize delayWork h (delayTaken h s) = w
    rfl
  rw [marks] at ended
  generalize (delayBoundary h s).2.du = du at ended ⊢
  generalize delayTaken h s = u at fill history late ended ⊢
  rw [← covers i, ← late]
  generalize delayModeNow s = lines at ended ⊢
  cases lines with
  | false =>
    obtain ⟨history', late', fill'⟩ := marks_at (b := u.du) ended i
    rw [history', late', fill']
    exact ⟨history, fill, rfl⟩
  | true =>
    obtain ⟨history', late', fill'⟩ := marks_at (b := (countWritten h.blocks u).du) ended i
    obtain ⟨filled, late'', history''⟩ := countWritten_at u h.blocks i
    rw [history', late', fill', filled, late'', history'', history, Bool.true_and]
    exact ⟨by congr 1, fun empty => by rw [fill empty]; rfl, rfl⟩

/-! ## An output restart -/

/-- R121: a speaker's part after an output restart, as far as the hand-on reads it. -/
def DelayLine.silenced (l : DelayLine) : Prop := l.late = false ∧ ∃ g, l.prepared = some (readyBlock g zeroChan)

theorem DelayLine.silenced_handedOn {l : DelayLine} (silent : l.silenced) (present : Bool) :
    (l.handedOn present).late = false ∧ handedBlock l = zeroChan := by
  obtain ⟨late, g, ready⟩ := silent
  have onTime : lateCause (readyBlock g zeroChan) = none := rfl
  refine ⟨?_, ?_⟩
  · rw [DelayLine.handedOn]
    split
    · rw [ready, Option.bind_some, onTime]; rfl
    · rfl
  · rw [handedBlock, ready]; rfl

/-- R121: the boundary after an output restart hands on silence, on time. -/
theorem delayBoundary_silenced (h : HandOn) (covers : h.covers s) (i : Fin 8) (bare : s.du.speakers[i].history = 0)
    (silent : s.du.speakers[i].silenced) :
    (delayBoundary h s).2.du.speakers[i].late = false
      ∧ (delayBoundary h s).1[i] = if speakerPresent s i then some zeroChan else none := by
  obtain ⟨-, -, late⟩ := delayBoundary_bare s h covers i bare
  obtain ⟨out, line, -⟩ := delayHandOn_at s i
  have silent' : (abandonUnplaced s).du.speakers[i].silenced := by
    rw [abandonUnplaced_at]; split <;> exact silent
  obtain ⟨onTime, zero⟩ := DelayLine.silenced_handedOn silent' (speakerPresent s i)
  rw [late, line, delayBoundary_out, out, zero]
  exact ⟨onTime, rfl⟩

end

end Sys2Proof.Machine
end

