-- ==== Sys2Proof/Proofs/BoundaryDelays.lean ====
section
/-! SUPPORT. The Delay Unit and the Output Unit at a boundary whose switch restarted the histories (R112) or the outputs
(R121). -/

namespace Sys2Proof.Machine

section
variable (offered : Option OfferedBlock) (s : State)

theorem levelStage_covers (b : RenderBlock) (m : State) : (levelStage b m).1.covers m.levelled := by
  intro i
  have block : (levelStage b m).1.blocks[i] = preDelay m.ru.speakers[i]
      (levelStep m m.ru.speakers[i] m.ru.levels[i]) (b.chans[i]) := by
    simp [levelStage]
  have present : speakerPresent m.levelled i = m.ru.speakers[i].isPresent := rfl
  rw [block, present, preDelay]
  cases m.ru.speakers[i].isPresent <;> rfl

theorem HandOn.covers_of_speakers {h : HandOn} {a b : State} (same : a.ru.speakers = b.ru.speakers)
    (k : h.covers b) : h.covers a := by
  intro i
  rw [k i, speakerPresent, speakerPresent, same]

theorem speakers_of_butConnect {a b : State} (h : a.kept.butConnect = b.kept.butConnect) :
    a.ru.speakers = b.ru.speakers := congrArg (fun k => k.ru.speakers) h

/-- The Delay Unit's stage is given the blocks of the speakers present. -/
theorem boundaryWork_delay : ∃ h main, boundaryWork offered s
    = outputBoundary (delayBoundary h (settledState offered s)).1 main (delayBoundary h (settledState offered s)).2
      ∧ h.covers (settledState offered s) := by
  have covers (b : RenderBlock) (m : State) : (renderLevel b m).1.covers (renderLevel b m).2 := by
    unfold renderLevel; dsimp only
    exact levelStage_covers _ _
  have speakers (h : HandOn) (k : h.covers (levelledState offered s)) : h.covers (settledState offered s) := by
    exact HandOn.covers_of_speakers (speakers_of_butConnect (settledState_butConnect offered s)) k
  let decoded := renderDecode offered (ringBoundary (begunState s)).1 (ringBoundary (begunState s)).2
  have levelled : levelledState offered s = (renderLevel decoded.1 decoded.2).2 := by
    simp only [levelledState, begunState, decoded]
  refine ⟨(renderLevel decoded.1 decoded.2).1, mainFold decoded.1, ?_, speakers _ (levelled ▸ covers _ _)⟩
  simp only [boundaryWork, settledState, decodedState, levelledState, begunState, decoded]

/-- The settings that the Delay Unit's stage reads are the boundary's own. -/
theorem settledState_settings : delayModeNow (settledState offered s) = delayModeNow s
    ∧ (settledState offered s).ru.speakers = s.ru.speakers := by
  have frame : (settledState offered s).kept.butBoundary = (takeLatches s).kept.butBoundary :=
    calc _ = (levelledState offered s).kept.butBoundary :=
          Kept.butBoundary_eq_of_butConnect (settledState_butConnect offered s)
      _ = (begunState s).kept.butBoundary := Kept.butBoundary_eq_of_butAudio (butAudio_levelledState offered s)
      _ = (takeLatches s).kept.butBoundary := Kept.butBoundary_eq_of_butConnect (begunState_butConnect s)
  obtain ⟨-, -, -, speakers⟩ := levelledState_settings offered s
  refine ⟨?_, (speakers_of_butConnect (settledState_butConnect offered s)).trans speakers⟩
  generalize settledState offered s = t at frame ⊢
  have regions : t.pu.regions = s.pu.regions := congrArg Kept.regions frame
  have quiesce : t.cu.quiesce = s.cu.quiesce := congrArg Kept.quiesce frame
  rw [delayModeNow, delayModeNow, regions, quiesce]

theorem outputBoundary_du (delayed : Vector (Option Chan) 8) (rendered : List (Int × Int)) :
    (outputBoundary delayed rendered s).du = s.du := rfl

theorem outputBoundary_delayed (delayed : Vector (Option Chan) 8) (rendered : List (Int × Int)) :
    (outputBoundary delayed rendered s).ou.delayed = delayed := rfl

/-- R112, R113, R120: the histories that a boundary leaves after they were restarted. -/
theorem boundaryWork_bare (i : Fin 8) (bare : (settledState offered s).du.speakers[i].history = 0) :
    (boundaryWork offered s).du.speakers[i].history
        = (if delayModeNow s && speakerPresent s i then min 32 (boundaryWork offered s).du.fill else 0)
      ∧ ((settledState offered s).du.fill = 0 →
          (boundaryWork offered s).du.fill = if delayModeNow s then 32 else 0) := by
  obtain ⟨h, main, work, covers⟩ := boundaryWork_delay offered s
  obtain ⟨mode, speakers⟩ := settledState_settings offered s
  obtain ⟨history, fill, -⟩ := delayBoundary_bare (settledState offered s) h covers i bare
  rw [mode, speakerPresent, speakers] at history
  rw [mode] at fill
  rw [work, outputBoundary_du]
  exact ⟨history, fill⟩

/-- R121: what a boundary hands on after an output restart. -/
theorem boundaryWork_silenced (i : Fin 8) (bare : (settledState offered s).du.speakers[i].history = 0)
    (silent : (settledState offered s).du.speakers[i].silenced) :
    (boundaryWork offered s).du.speakers[i].late = false
      ∧ (boundaryWork offered s).ou.delayed[i] = if speakerPresent s i then some zeroChan else none := by
  obtain ⟨h, main, work, covers⟩ := boundaryWork_delay offered s
  obtain ⟨-, speakers⟩ := settledState_settings offered s
  obtain ⟨late, out⟩ := delayBoundary_silenced (settledState offered s) h covers i bare silent
  rw [speakerPresent, speakers] at out
  rw [work, outputBoundary_du, outputBoundary_delayed]
  exact ⟨late, out⟩

end

end Sys2Proof.Machine
end

