-- ==== Sys2Proof/Proofs/ConnectBoundaries.lean ====
section
/-! SUPPORT. A boundary that makes a connect (R20a, R21, R29, R69): requested, or at mute reached. -/

namespace Sys2Proof.Machine

/-! ## What the later stages leave of a connect -/

section
variable (offered : Option OfferedBlock) (s : State)

theorem levelledState_re : (levelledState offered s).re = (ringBoundary (begunState s)).2.re := by
  have amp (t : State) (marks : Vector Bool 8) : (ampUpdate marks t).re = t.re :=
    congrArg Kept.re (butAp_ampUpdate t marks)
  have bass (t : State) (b : RenderBlock) : (bassBlock b t).2.re = t.re := rfl
  have decoded (t : State) (o : Option OfferedBlock) (b : Option HostedBlock) : (renderDecode o b t).2.re = t.re :=
    congrArg Kept.re (butRu_renderDecode t o b)
  rw [levelledState_eq, State.levelled, State.mapRu_re, protectedState, amp, bass, decoded]

theorem levelledState_heldCount :
    (levelledState offered s).ru.heldCount = (decodedState offered s).ru.heldCount := by
  have amp (t : State) (marks : Vector Bool 8) : (ampUpdate marks t).ru = t.ru :=
    congrArg Kept.ru (butAp_ampUpdate t marks)
  rw [levelledState_eq, State.levelled, State.mapRu_ru, protectedState]
  dsimp only
  rw [amp]
  rfl

/-- R74: with no feed live the decoder keeps the channel count held. -/
theorem decodedState_heldCount (silent : (begunState s).sc.feed = false) :
    (decodedState offered s).ru.heldCount = (begunState s).ru.heldCount := by
  have ring := butRe_ringBoundary (begunState s)
  have sc : (ringBoundary (begunState s)).2.sc = (begunState s).sc := congrArg Kept.sc ring
  have ru : (ringBoundary (begunState s)).2.ru = (begunState s).ru := congrArg Kept.ru ring
  obtain ⟨held, -⟩ := decodeBlock_mode ((begunState s).sc.feed && (begunState s).sc.connected.isSome)
    (inputBlock offered (ringBoundary (begunState s)).1 (ringBoundary (begunState s)).2)
    (ringBoundary (begunState s)).2
  rw [silent, Bool.false_and, if_neg Bool.false_ne_true, ru] at held
  rw [decodedState, renderDecode, sc, silent]
  exact held

/-- A switch that waits is left as the first stage made it. -/
theorem settledState_waits (drain : (begunState s).sc.st ≠ .drain) (ramp : (begunState s).sc.st ≠ .playRamp) :
    settledState offered s = levelledState offered s := by
  have sc := levelledState_sc offered s
  rw [settledState]
  generalize levelledState offered s = m at sc ⊢
  rw [← sc] at drain ramp
  unfold switchAfter
  split
  · exact absurd ‹_› drain
  · exact absurd ‹_› ramp
  · rfl

end

/-! ## The ring of a source just connected -/

section
variable {s : State}

theorem ringBoundary_unserved (none : servedSource s = none) : (ringBoundary s).2 = s := by
  unfold ringBoundary
  rw [none]

theorem dropFetched_cases (f : FetchBuffer) : dropFetched f = .free ∨ ∃ j, dropFetched f = .fetching j := by
  cases f <;> simp [dropFetched]

/-- R67: a miss while the ladder waits is silence. -/
theorem ladderMiss_waiting (ladder : s.re.ladder = .waiting) (last : s.re.last = HostedBlock.silence 2) :
    (ladderMiss s).2.re = { s.re with missRun := satSucc16 s.re.missRun } ∧ (ladderMiss s).2.cu = s.cu := by
  have silent : silenceNow s = HostedBlock.silence 2 := by rw [silenceNow, last]; rfl
  have handed : ladderMiss s
      = handOn (silenceNow s) (s.mapRe fun re => { re with missRun := satSucc16 re.missRun }) := by
    unfold ladderMiss; dsimp only
    rw [State.mapRe_re, ladder]
    rfl
  rw [handed, silent]
  refine ⟨?_, rfl⟩
  have same : ({ HostedBlock.silence 2 with disc := false, last := false } : HostedBlock) = s.re.last := last.symm
  simp only [handOn, State.mapRe_re, same]

/-- R69: a boundary finds the flushed ring empty, and its ladder goes on waiting. -/
theorem ringBoundary_flushed (empty : s.cu.outProd = s.re.outCons) (last : s.re.last = HostedBlock.silence 2)
    (ladder : s.re.ladder = .waiting) {f : FetchBuffer} (fetch : s.re.fetch = dropFetched f) :
    ∃ m, (ringBoundary s).2.re = { s.re with missRun := m } := by
  have freed : (freeWithdrawn s).re = s.re ∧ (freeWithdrawn s).cu = s.cu := by
    unfold freeWithdrawn
    rcases dropFetched_cases f with free | ⟨j, fetching⟩
    · rw [fetch, free]
      refine ⟨?_, rfl⟩
      rw [free] at fetch
      dsimp only
      rw [State.mapRe_re, ← fetch]
    · rw [fetch, fetching]; exact ⟨rfl, rfl⟩
  obtain ⟨re, cu⟩ := freed
  obtain ⟨missed, missedCu⟩ := ladderMiss_waiting (s := freeWithdrawn s) (by rw [re, ladder]) (by rw [re, last])
  rw [re] at missed
  rw [cu] at missedCu
  unfold ringBoundary
  split
  · have consumed : consumeSlot s = ladderMiss (freeWithdrawn s) := by rw [consumeSlot, if_pos empty]
    dsimp only
    rw [consumed, testSlotFetch_empty _ (by rw [missed, missedCu]; exact empty), missed]
    exact ⟨_, rfl⟩
  · exact ⟨s.re.missRun, rfl⟩

/-! ## The event of a connect -/

theorem quiet_connectPrepared (same : Bool) (src : Source) : Quiet s (connectPrepared same src s) :=
  ((((quiet_mapSc _ .refl).trans (quiet_connectFollowing _ same)).trans ((quiet_renderConnect _).trans
    (quiet_delayConnect _))).trans (quiet_connectClass _ src)).trans (quiet_ringConnect _)

/-- R21: the event of a source connected. -/
theorem connect_carries_source {n : Nat} {first : Bool} {j : Fin 8} {src : Source}
    (target : s.sc.target = .source j) (entry : s.sc.table[j] = src) (room : s.takesEvents (n + 2))
    (none : first = true → s.eventsOut = []) :
    (connect s).carries n
      (eventNow s (.source .connected) (BitVec.ofNat 16 j.val) (natWord (pathAtConnect s src).code)
        (natWord (s.ports[src.port].lock.classOr s.clock.cls).code)) first := by
  subst entry
  have quiet : Quiet s (connectReady j s) :=
    (quiet_mapSc SwitchUnit.taken .refl).trans (quiet_connectPrepared (s := s.mapSc SwitchUnit.taken) _ _)
  have kept := kept_connectPrepared (s.mapSc SwitchUnit.taken)
    (decide ((connectedSource s).map Source.port = some s.sc.table[j].port)) s.sc.table[j]
  have sc : (connectReady j s).sc = { s.sc.taken with path := pathAtConnect s s.sc.table[j] } :=
    congrArg Kept.sc kept
  have clock : (connectReady j s).clock = s.clock.connecting (s.ports[s.sc.table[j].port].lock.classOr s.clock.cls)
      (decide ((connectedSource s).map Source.port = some s.sc.table[j].port)) := congrArg Kept.clock kept
  have subject : connectedSubject (connectReady j s) = BitVec.ofNat 16 j.val := by
    have connected : (connectReady j s).sc.connected = some j := by rw [sc]; exact taken_source target
    rw [connectedSubject, connected]; rfl
  have raised := raiseEvent_carries (s := connectReady j s) (n := n + 1) (first := first) (.source .connected)
    (connectedSubject (connectReady j s)) (natWord (connectReady j s).sc.path.code)
    (natWord (connectReady j s).clock.cls.code) (quiet.takesEvents room) fun k => quiet.eventsOut.trans (none k)
  rw [connect_source s target, connectSource_eq]
  change (connectEnter (raiseEvent (.source .connected) (connectedSubject (connectReady j s))
    (natWord (connectReady j s).sc.path.code) (natWord (connectReady j s).clock.cls.code)
    (connectReady j s))).carries n _ first
  have path : (connectReady j s).sc.path = pathAtConnect s s.sc.table[j] := by rw [sc]
  rw [eventNow, subject, path, clock] at raised
  rw [subject, path, clock]
  exact Raises.carries (raises_connectEnter _) (raised.mono (by omega))

/-- R21: the event of NONE connected. -/
theorem connect_carries_none {n : Nat} {first : Bool} (target : ∀ j, s.sc.target ≠ .source j)
    (room : s.takesEvents (n + 1)) (none : first = true → s.eventsOut = []) :
    (connect s).carries n (eventNow s (.source .idle) (connectedSubject s) 0 0) first := by
  have quiet : Quiet s (ringConnect (unpluggedFresh s)) :=
    (((quiet_mapSc _ .refl).trans (quiet_mapClock _ .refl)).trans ((quiet_renderConnect _).trans
      (quiet_delayConnect _))).trans (quiet_ringConnect _)
  have stamp : (ringConnect (unpluggedFresh s)).clock.stamp = s.clock.stamp :=
    (congrArg (fun k => k.clock.stamp) (butRe_ringConnect (unpluggedFresh s)) :)
  have made : connect s = raiseEvent (.source .idle) (connectedSubject s) 0 0 (ringConnect (unpluggedFresh s)) :=
    connect_none s target
  have raised := raiseEvent_carries (s := ringConnect (unpluggedFresh s)) (n := n) (first := first) (.source .idle)
    (connectedSubject s) 0 0 (quiet.takesEvents room) fun k => quiet.eventsOut.trans (none k)
  rw [eventNow, stamp] at raised
  rw [made]
  exact raised

/-! ## The Delay Unit of a source just connected -/

theorem delayConnect_bare (i : Fin 8) : (delayConnect s).du.speakers[i].history = 0 := by
  simp [delayConnect, mapLines]

/-- R121: the Delay Unit after an output restart. -/
theorem delayOutputRestart_silenced : (delayOutputRestart s).du.fill = 0 ∧ ∀ i : Fin 8,
    (delayOutputRestart s).du.speakers[i].history = 0 ∧ (delayOutputRestart s).du.speakers[i].silenced := by
  refine ⟨rfl, fun i => ?_⟩
  have line : (delayOutputRestart s).du.speakers[i] = { s.du.speakers[i] with
      history := 0, lastOut := zeroChan, late := false,
      prepared := some (readyBlock s.du.generation zeroChan) } := by
    simp [delayOutputRestart, mapLines, dropUnplacedDelay]
  rw [line]
  exact ⟨rfl, rfl, _, rfl⟩

/-- R112, R121: histories restart at a connect, and the outputs where the class changes. -/
theorem connect_delays {j : Fin 8} {src : Source} (target : s.sc.target = .source j)
    (entry : s.sc.table[j] = src) :
    (∀ i : Fin 8, (connect s).du.speakers[i].history = 0)
      ∧ (s.ports[src.port].lock.classOr s.clock.cls ≠ s.clock.cls →
          (connect s).du.fill = 0 ∧ ∀ i : Fin 8, (connect s).du.speakers[i].silenced) := by
  subst entry
  rw [connect_du s target, connectReady, connectPrepared]
  have ring (t : State) : (ringConnect t).du = t.du := congrArg Kept.du (butRe_ringConnect t)
  have fresh := kept_connectFresh (s.mapSc SwitchUnit.taken)
    (decide ((connectedSource s).map Source.port = some s.sc.table[j].port)) s.sc.table[j]
  rw [ring, connectClass_eq]
  generalize connectFresh _ _ _ = u at fresh ⊢
  have lock : u.ports[s.sc.table[j].port].lock = s.ports[s.sc.table[j].port].lock :=
    congrArg (fun k => k.ports[s.sc.table[j].port].lock) fresh
  have cls : u.clock.cls = s.clock.cls := congrArg (fun k => k.clock.cls) fresh
  have du : u.du = (delayConnect (s.mapSc SwitchUnit.taken)).du := congrArg Kept.du fresh
  rw [lock, cls]
  by_cases inForce : s.ports[s.sc.table[j].port].lock.classOr s.clock.cls = s.clock.cls
  · rw [if_pos inForce, du]
    exact ⟨delayConnect_bare, fun other => absurd inForce other⟩
  · have restarted : (outputRestart (s.ports[s.sc.table[j].port].lock.classOr s.clock.cls) u).du
        = (delayOutputRestart u).du := congrArg Kept.du (kept_outputRestart u _)
    obtain ⟨fill, lines⟩ := delayOutputRestart_silenced (s := u)
    rw [if_neg inForce, restarted]
    exact ⟨fun i => (lines i).1, fun _ => ⟨fill, fun i => (lines i).2⟩⟩

end

end Sys2Proof.Machine
end

