-- ==== Sys2Proof/Proofs/ConnectTakes.lean ====
section
/-! The connect at a boundary, requested or at mute reached (R20a, R21, R29, R69). -/

namespace Sys2Proof.Machine

theorem finish_re (s : State) : (finish s).re = s.re := congrArg Kept.re (kept_finish s)

theorem finish_du (s : State) : (finish s).du = s.du := congrArg Kept.du (kept_finish s)

theorem du_of_butAudio {a b : State} (h : a.kept.butAudio = b.kept.butAudio) : a.du = b.du := congrArg Kept.du h

theorem fetch_of_butStore {a b : RingEngine} (h : a.butStore = b.butStore) : a.fetch = b.fetch := by
  have same : a.butStore.fetch = b.butStore.fetch := by rw [h]
  exact same

theorem inProd_of_butStore {a b : RingEngine} (h : a.butStore = b.butStore) : a.inProd = b.inProd := by
  have same : a.butStore.inProd = b.butStore.inProd := by rw [h]
  exact same

/-- R21: the switch once NONE is connected. -/
def SwitchUnit.unplugged (sc : SwitchUnit) : SwitchUnit :=
  { sc with st := .idle, connected := none, target := .absent, connectRequest := false, timer := stoppedTimer,
            feed := false, cause := none }

/-- R21, R22, R26: the switch once source `j` is connected; without the regions of its path it is `bare`. -/
def SwitchUnit.startingOn (sc : SwitchUnit) (j : Fin 8) (path : EffPath) (bare settled : Bool) : SwitchUnit :=
  { sc with
    connected := some j, target := .absent, connectRequest := false, path := path, feed := false,
    st := if bare then .blocked else .acquire,
    cause := if bare then some .region else none,
    timer := if bare then stoppedTimer else startedTimer settled sc.table[j] }

section
variable {a b : SwitchUnit}

theorem unplugged_of_taken (h : ∀ j, a.target ≠ .source j) :
    ({ a.taken with st := .idle } : SwitchUnit) = a.unplugged := by
  simp only [SwitchUnit.taken, SwitchUnit.unplugged]

theorem unplugged_congr (table : a.table = b.table) (path : a.path = b.path) : a.unplugged = b.unplugged := by
  rw [SwitchUnit.unplugged, SwitchUnit.unplugged, table, path]

theorem startingOn_of_plugged {j : Fin 8} (h : a.target = .source j) (path : EffPath) (bare settled : Bool) :
    a.plugged a.table[j] path bare settled = a.startingOn j path bare settled := by
  have some := taken_source h
  simp only [SwitchUnit.taken] at some
  cases bare <;>
    simp only [SwitchUnit.plugged, SwitchUnit.startingOn, SwitchUnit.taken, some, Bool.false_eq_true, if_true, if_false]

theorem startingOn_congr (table : a.table = b.table) (j : Fin 8) (path : EffPath) (bare settled : Bool) :
    a.startingOn j path bare settled = b.startingOn j path bare settled := by
  rw [SwitchUnit.startingOn, SwitchUnit.startingOn, table]

end

/-! ## A source connected, by its entry -/

section
variable {s : State} {j : Fin 8} {src : Source} (target : s.sc.target = .source j) (entry : s.sc.table[j] = src)
include target entry

theorem connect_sc : (connect s).sc = s.sc.startingOn j (pathAtConnect s src)
    (decide (pathAtConnect s src = .hosted) && !hostedRegionsSet s) (tunerSettled s) := by
  subst entry
  rw [connect_sc_source s target, startingOn_of_plugged target]

theorem connect_clock : (connect s).clock = s.clock.connecting (s.ports[src.port].lock.classOr s.clock.cls)
    (decide ((connectedSource s).map Source.port = some src.port)) := by
  subst entry
  exact congrArg Kept.clock (kept_connect_source s target)

theorem connect_re : (connect s).re
    = if pathAtConnect s src = .hosted then s.re.flushed s.cu.outProd else s.re.cut := by
  subst entry
  exact congrArg Kept.re (kept_connect_source s target)

end

/-! ## The connect at mute reached -/

section
variable {s : State} {j : Fin 8} {src : Source}

theorem connectAtMute_none (target : ∀ j, s.sc.target ≠ .source j) : (connectAtMute s).sc = s.sc.unplugged := by
  have sc := (connect_sc_none s target).trans (unplugged_of_taken target)
  unfold connectAtMute; dsimp only
  rw [if_neg (by rw [sc, SwitchUnit.unplugged]; simp), sc]

/-- The readiness test that follows leaves ring and clock as the connect made them. -/
theorem connectAtMute_units :
    (connectAtMute s).re = (connect s).re ∧ (connectAtMute s).clock = (connect s).clock := by
  unfold connectAtMute; dsimp only
  split
  · exact ⟨congrArg Kept.re (butSc_testReadiness _), clock_of_butSc (butSc_testReadiness _)⟩
  · exact ⟨rfl, rfl⟩

/-- R21, R22: without the regions of its path the source is BLOCKED. -/
theorem connectAtMute_bare (target : s.sc.target = .source j) (entry : s.sc.table[j] = src)
    (bare : pathAtConnect s src = .hosted ∧ ¬ hostedRegionsSet s = true) :
    (connectAtMute s).sc = s.sc.startingOn j (pathAtConnect s src) true (tunerSettled s) := by
  have sc := connect_sc target entry
  rw [show (decide (pathAtConnect s src = .hosted) && !hostedRegionsSet s) = true by simpa using bare] at sc
  unfold connectAtMute; dsimp only
  rw [if_neg (by rw [sc, SwitchUnit.startingOn]; simp), sc]

/-- R22: with them its readiness is tested at once. -/
theorem connectAtMute_tested (target : s.sc.target = .source j) (entry : s.sc.table[j] = src)
    (regions : pathAtConnect s src = .hosted → hostedRegionsSet s = true) :
    (connect s).sc = s.sc.startingOn j (pathAtConnect s src) false (tunerSettled s)
      ∧ connectAtMute s = testReadiness (connect s) ∧ connectedSource (connect s) = some src
      ∧ ((connect s).settles src
        ↔ (∃ c, s.ports[src.port].lock = .locked c) ∧ (src.port = 4 → s.tc.st = .tuned))
      ∧ (signalSuits (connect s) src = true
        ↔ pathAtConnect s src = .hosted ∨ s.ports[src.port].format = .pcm) := by
  have sc := connect_sc target entry
  rw [show (decide (pathAtConnect s src = .hosted) && !hostedRegionsSet s) = false by simpa using regions] at sc
  have kept := butConnect_connect s
  have ports : (connect s).ports = s.ports := congrArg Kept.ports kept
  have entries : (connect s).pu.regions = s.pu.regions := congrArg Kept.regions kept
  have tuner : (connect s).tc = s.tc := congrArg Kept.tc kept
  have cls : (connect s).clock.cls = s.ports[src.port].lock.classOr s.clock.cls := by
    rw [connect_clock target entry]; rfl
  have path : (connect s).sc.path = pathAtConnect s src := by rw [sc]; rfl
  refine ⟨sc, ?_, ?_, ?_, ?_⟩
  · unfold connectAtMute; dsimp only
    rw [if_pos (by rw [sc]; rfl)]
  · rw [connectedSource, sc, ← entry]; rfl
  · rw [State.settles, ports, cls, path, entries, tuner]
    have locked : s.ports[src.port].lock = .locked (s.ports[src.port].lock.classOr s.clock.cls)
        ↔ ∃ c, s.ports[src.port].lock = .locked c := by
      cases s.ports[src.port].lock <;> simp [LockState.classOr]
    rw [locked]
    have both (hosted : pathAtConnect s src = .hosted) :
        s.pu.regions.input.isSome = true ∧ s.pu.regions.output.isSome = true := by
      simpa [hostedRegionsSet] using regions hosted
    exact ⟨fun ⟨lock, _, tuned⟩ => ⟨lock, tuned⟩, fun ⟨lock, tuned⟩ => ⟨lock, both, tuned⟩⟩
  · rw [signalSuits, path, ports, Bool.or_eq_true, decide_eq_true_eq, decide_eq_true_eq]

end

section
variable {s : State} {cmd : Instr}

/-- R20, R20a: a connect that the boundary finds requested. -/
def State.requestedAt (s : State) (cmd : Instr) : Prop :=
  ((s.sc.st = .idle ∨ s.sc.st = .acquire) ∧ s.sc.connectRequest = true)
    ∨ (s.sc.st = .acquire ∧ s.autoMoves cmd = true)

/-- The target of that connect. -/
def State.wanted (s : State) : Target := if s.sc.connectRequest = true then s.sc.target else s.sc.self

theorem arrived_requested (h : s.boundaryBy cmd) (req : s.requestedAt cmd) :
    (s.arrived cmd).connectDue ∧ (s.arrived cmd).sc.target = s.wanted := by
  have sc := arrived_sc h
  rw [State.connectDue, sc, State.wanted]
  cases auto : s.autoMoves cmd with
  | false =>
    obtain ⟨st, request⟩ := req.resolve_right (by simp [auto])
    have same : s.arrivedSc cmd = s.sc := arrivedSc_same auto fun _ => by rcases st with st | st <;> simp [st]
    rw [same, if_pos request]
    exact ⟨⟨st, request⟩, rfl⟩
  | true =>
    obtain ⟨-, acquire, -, idle⟩ := arrivedSc_of_auto auto
    have st : s.sc.st = .idle ∧ s.sc.connectRequest = true ∨ s.sc.st = .acquire := by
      rcases req with ⟨st | st, request⟩ | ⟨st, -⟩
      · exact .inl ⟨st, request⟩
      · exact .inr st
      · exact .inr st
    rcases st with ⟨st, request⟩ | st
    · rw [idle st, if_pos request]
      exact ⟨⟨.inl st, request⟩, rfl⟩
    · rw [acquire st]
      split
      · rename_i request; exact ⟨⟨.inr st, request⟩, rfl⟩
      · exact ⟨⟨.inr st, rfl⟩, rfl⟩

/-! ## What a requested connect leaves -/

section
variable (h : s.boundaryBy cmd) (req : s.requestedAt cmd)
include h req

theorem requested_begun : switchBefore (s.arrived cmd) = connect (s.arrived cmd) := by
  obtain ⟨⟨st, request⟩, -⟩ := arrived_requested h req
  rcases st with st | st <;> simp only [switchBefore, st, request, if_true]

theorem requested_settled : settledState (s.boundaryOffer cmd) (s.atBoundary cmd)
    = levelledState (s.boundaryOffer cmd) (s.atBoundary cmd) := by
  obtain ⟨-, waits⟩ := connect_waits (s.arrived cmd)
  refine settledState_waits _ _ ?_ ?_
  all_goals
    rw [begunState_arrived, requested_begun h req]
    rcases waits with w | w | w <;> simp [w]

theorem requested_sc : (finish (s.boundaryDone cmd)).sc = (connect (s.arrived cmd)).sc := by
  obtain ⟨-, waits⟩ := connect_waits (s.arrived cmd)
  refine boundaryDone_rests (by rw [requested_begun h req]) ?_ ?_
  all_goals rcases waits with w | w | w <;> simp [w]

theorem requested_clock : (finish (s.boundaryDone cmd)).clock = (connect (s.arrived cmd)).clock := by
  rw [finish_clock, State.boundaryDone, boundaryWork_settledClock, requested_settled h req,
    clock_of_butAudio (butAudio_levelledState _ _), ← requested_begun h req]
  rfl

theorem requested_re : (finish (s.boundaryDone cmd)).re = (ringBoundary (connect (s.arrived cmd))).2.re := by
  rw [finish_re, State.boundaryDone, boundaryWork_re, requested_settled h req, levelledState_re, begunState_arrived,
    requested_begun h req]

theorem requested_heldCount :
    (finish (s.boundaryDone cmd)).ru.heldCount = (connect (s.arrived cmd)).ru.heldCount := by
  obtain ⟨feed, -⟩ := connect_waits (s.arrived cmd)
  rw [finish_ru, State.boundaryDone, boundaryWork_ru, requested_settled h req, levelledState_heldCount,
    decodedState_heldCount _ _ (by rw [begunState_arrived, requested_begun h req, feed]), begunState_arrived,
    requested_begun h req]

theorem requested_du : (settledState (s.boundaryOffer cmd) (s.atBoundary cmd)).du = (connect (s.arrived cmd)).du := by
  have audio := du_of_butAudio (butAudio_levelledState (s.boundaryOffer cmd) (s.atBoundary cmd))
  rw [requested_settled h req, audio, ← requested_begun h req]
  rfl

/-- R21: NONE connected on request. -/
theorem requested_none (unplugged : ∀ j, s.wanted ≠ .source j) :
    (finish (s.boundaryDone cmd)).sc = s.sc.unplugged
      ∧ (finish (s.boundaryDone cmd)).clock
        = { s.clock with stamp := s.clock.stamp + 1, following := false, own := false }
      ∧ (finish (s.boundaryDone cmd)).re = (s.arrived cmd).re.cut
      ∧ s.raisesAt cmd (finish (s.boundaryDone cmd))
          (eventNow s (.source .idle) (sourceSubject s.sc.connected) 0 0) := by
  obtain ⟨-, wanted⟩ := arrived_requested h req
  have target : ∀ j, (s.arrived cmd).sc.target ≠ .source j := by rw [wanted]; exact unplugged
  obtain ⟨connected, table, path⟩ := arrivedSc_source (s := s) (cmd := cmd)
  have kept := kept_connect_none (s.arrived cmd) target
  have clock : (connect (s.arrived cmd)).clock = { (s.arrived cmd).clock with following := false, own := false } :=
    congrArg Kept.clock kept
  have re : (connect (s.arrived cmd)).re = (s.arrived cmd).re.cut := congrArg Kept.re kept
  have sc := connect_sc_none (s.arrived cmd) target
  have unserved : servedSource (connect (s.arrived cmd)) = none := by
    rw [servedSource, sc]
    change (match (s.arrived cmd).sc.taken.path with
      | .hosted => (s.arrived cmd).sc.taken.connected
      | .direct => none) = none
    rw [taken_none target]
    cases (s.arrived cmd).sc.taken.path <;> rfl
  refine ⟨?_, ?_, ?_, State.carries.raisesAt (n := 0) fun room => boundaryDone_carries ?_⟩
  · rw [requested_sc h req, sc, unplugged_of_taken target, arrived_sc h, unplugged_congr table path]
  · rw [requested_clock h req, clock, arrived_clock h]
  · rw [requested_re h req, ringBoundary_unserved unserved, re]
  · have raised := connect_carries_none (n := 21) target ((arrived_takesEvents h room).mono (by decide))
      (arrived_eventsOut (cmd := cmd) room)
    rw [eventNow, arrived_clock h, connectedSubject, arrived_sc h, connected] at raised
    rw [requested_begun h req]
    exact raised

/-- R21: the path that a boundary's connect decides on. -/
def State.pathFor (s : State) (cmd : Instr) (src : Source) : EffPath :=
  match src.path with
  | .direct => .direct
  | .hosted => .hosted
  | .auto => if s.formatAt cmd src.port = .pcm then .direct else .hosted

omit req in
theorem arrived_pathAtConnect (src : Source) : pathAtConnect (s.arrived cmd) src = s.pathFor cmd src := by
  obtain ⟨-, format⟩ := atBoundary_port h src.port
  have found : (s.arrived cmd).ports[src.port].format = s.formatAt cmd src.port := format
  cases path : src.path <;> simp only [pathAtConnect, State.pathFor, path, found]

/-- R21, R22, R29: a source connected on request: the switch, the clock and the event. -/
theorem requested_source {j : Fin 8} (plugged : s.wanted = .source j) :
    (finish (s.boundaryDone cmd)).sc = s.sc.startingOn j (s.pathFor cmd s.sc.table[j])
          (decide (s.pathFor cmd s.sc.table[j] = .hosted) && !hostedRegionsSet s) (tunerSettled s)
      ∧ (finish (s.boundaryDone cmd)).clock
        = { s.clock with stamp := s.clock.stamp + 1, following := s.followsAt cmd, own := s.ownAt cmd }.connecting
            (s.ports[s.sc.table[j].port].lock.classOr s.clock.cls)
            (decide (s.sc.source.map Source.port = some s.sc.table[j].port))
      ∧ s.raisesAt cmd (finish (s.boundaryDone cmd))
          (eventNow s (.source .connected) (BitVec.ofNat 16 j.val) (natWord (s.pathFor cmd s.sc.table[j]).code)
            (natWord (s.ports[s.sc.table[j].port].lock.classOr s.clock.cls).code)) := by
  obtain ⟨-, wanted⟩ := arrived_requested h req
  have target : (s.arrived cmd).sc.target = .source j := wanted.trans plugged
  obtain ⟨connected, table, -⟩ := arrivedSc_source (s := s) (cmd := cmd)
  have entries : (s.arrived cmd).sc.table = s.sc.table := by rw [arrived_sc h, table]
  have entry : (s.arrived cmd).sc.table[j] = s.sc.table[j] := by rw [entries]
  have lock : (s.arrived cmd).ports[s.sc.table[j].port].lock = s.ports[s.sc.table[j].port].lock := by
    obtain ⟨lock, -⟩ := atBoundary_port h s.sc.table[j].port
    exact lock
  have cls : (s.arrived cmd).clock.cls = s.clock.cls := by rw [arrived_clock h]
  have regions : hostedRegionsSet (s.arrived cmd) = hostedRegionsSet s := by
    have same : (s.arrived cmd).pu.regions = s.pu.regions := atBoundary_regions h
    rw [hostedRegionsSet, hostedRegionsSet, same]
  have tuner : tunerSettled (s.arrived cmd) = tunerSettled s := by
    have same : (s.arrived cmd).tc = s.tc := atBoundary_tc h
    rw [tunerSettled, tunerSettled, same]
  have source : connectedSource (s.arrived cmd) = s.sc.source := by
    rw [connectedSource, arrived_sc h, connected, table]; rfl
  refine ⟨?_, ?_, State.carries.raisesAt (n := 0) fun room => boundaryDone_carries ?_⟩
  · rw [requested_sc h req, connect_sc target entry, startingOn_congr entries, arrived_pathAtConnect h, regions, tuner]
  · rw [requested_clock h req, connect_clock target entry, lock, cls, source, arrived_clock h]
  · have raised := connect_carries_source (n := 21) target entry ((arrived_takesEvents h room).mono (by decide))
      (arrived_eventsOut (cmd := cmd) room)
    rw [lock, cls, arrived_pathAtConnect h, eventNow, arrived_clock h] at raised
    rw [requested_begun h req]
    exact raised

/-- R69: a source connected on request: the Ring Engine and the channel count held. -/
theorem requested_ring {j : Fin 8} (plugged : s.wanted = .source j) :
    (s.pathFor cmd s.sc.table[j] ≠ .hosted → (finish (s.boundaryDone cmd)).re = (s.arrived cmd).re.cut)
      ∧ (s.pathFor cmd s.sc.table[j] = .hosted → ∃ m,
          (finish (s.boundaryDone cmd)).re = { (s.arrived cmd).re.flushed s.cu.outProd with missRun := m })
      ∧ (finish (s.boundaryDone cmd)).ru.heldCount = 2 := by
  obtain ⟨-, wanted⟩ := arrived_requested h req
  have target : (s.arrived cmd).sc.target = .source j := wanted.trans plugged
  have entry : (s.arrived cmd).sc.table[j] = s.sc.table[j] := by
    obtain ⟨-, table, -⟩ := arrivedSc_source (s := s) (cmd := cmd)
    rw [arrived_sc h, table]
  have prod : (s.arrived cmd).cu.outProd = s.cu.outProd := congrArg Kept.outProd (kept_atBoundary s h)
  have sc := connect_sc target entry
  have re := connect_re target entry
  have held : (connect (s.arrived cmd)).ru.heldCount = 2 :=
    congrArg (fun k => k.ru.heldCount) (kept_connect_source (s.arrived cmd) target)
  have connectProd : (connect (s.arrived cmd)).cu.outProd = s.cu.outProd :=
    (congrArg Kept.outProd (butConnect_connect (s.arrived cmd))).trans prod
  rw [arrived_pathAtConnect h, prod] at re
  rw [arrived_pathAtConnect h] at sc
  rw [requested_re h req, requested_heldCount h req, held]
  refine ⟨fun direct => ?_, fun hosted => ?_, rfl⟩
  · rw [if_neg direct] at re
    have unserved : servedSource (connect (s.arrived cmd)) = none := by
      rw [servedSource, sc, SwitchUnit.startingOn]
      dsimp only
      cases path : s.pathFor cmd s.sc.table[j] with
      | hosted => exact absurd path direct
      | direct => rfl
    rw [ringBoundary_unserved unserved, re]
  · rw [if_pos hosted] at re
    obtain ⟨m, flushed⟩ := ringBoundary_flushed (s := connect (s.arrived cmd)) (f := (s.arrived cmd).re.fetch)
      (by rw [connectProd, re]; rfl) (by rw [re]; rfl) (by rw [re]; rfl) (by rw [re]; rfl)
    exact ⟨m, by rw [flushed, re]⟩

/-- R69: on either path the ladder waits, with silence held and the fetch dropped. -/
theorem requested_waits {j : Fin 8} (plugged : s.wanted = .source j) :
    (finish (s.boundaryDone cmd)).re.ladder = .waiting
      ∧ (finish (s.boundaryDone cmd)).re.fetch = dropFetched s.re.fetch
      ∧ (finish (s.boundaryDone cmd)).re.last = HostedBlock.silence 2 := by
  have fetch : (s.arrived cmd).re.fetch = s.re.fetch := fetch_of_butStore (atBoundary_butStore h)
  obtain ⟨direct, hosted, -⟩ := requested_ring h req plugged
  by_cases path : s.pathFor cmd s.sc.table[j] = .hosted
  · obtain ⟨m, re⟩ := hosted path
    rw [re, ← fetch]
    exact ⟨rfl, rfl, rfl⟩
  · rw [direct path, ← fetch]
    exact ⟨rfl, rfl, rfl⟩

/-- R112, R121: a source connected on request: the Delay Unit and the blocks handed on. -/
theorem requested_delays {j : Fin 8} (plugged : s.wanted = .source j) (i : Fin 8) :
    (finish (s.boundaryDone cmd)).du.speakers[i].history
        = (if delayModeNow s && speakerPresent s i then min 32 (finish (s.boundaryDone cmd)).du.fill else 0)
      ∧ (s.ports[s.sc.table[j].port].lock.classOr s.clock.cls ≠ s.clock.cls →
          (finish (s.boundaryDone cmd)).du.fill = (if delayModeNow s then 32 else 0)
          ∧ (finish (s.boundaryDone cmd)).du.speakers[i].late = false
          ∧ (finish (s.boundaryDone cmd)).ou.delayed[i] = if speakerPresent s i then some zeroChan else none) := by
  obtain ⟨-, wanted⟩ := arrived_requested h req
  have target : (s.arrived cmd).sc.target = .source j := wanted.trans plugged
  have entry : (s.arrived cmd).sc.table[j] = s.sc.table[j] := by
    obtain ⟨-, table, -⟩ := arrivedSc_source (s := s) (cmd := cmd)
    rw [arrived_sc h, table]
  have lock : (s.arrived cmd).ports[s.sc.table[j].port].lock = s.ports[s.sc.table[j].port].lock := by
    obtain ⟨lock, -⟩ := atBoundary_port h s.sc.table[j].port
    exact lock
  have cls : (s.arrived cmd).clock.cls = s.clock.cls := by rw [arrived_clock h]
  obtain ⟨bare, restarts⟩ := connect_delays target entry
  rw [lock, cls] at restarts
  have settled := requested_du h req
  have mode : delayModeNow (s.atBoundary cmd) = delayModeNow s := by
    have quiesce : (s.atBoundary cmd).cu.quiesce = s.cu.quiesce := congrArg Kept.quiesce (kept_atBoundary s h)
    rw [delayModeNow, delayModeNow, atBoundary_regions h, quiesce]
  have present : speakerPresent (s.atBoundary cmd) i = speakerPresent s i := by
    rw [speakerPresent, speakerPresent, atBoundary_ru h]
  obtain ⟨history, fill⟩ := boundaryWork_bare (s.boundaryOffer cmd) (s.atBoundary cmd) i
    (by rw [settled]; exact bare i)
  rw [mode, present] at history
  rw [mode] at fill
  rw [finish_du, finish_ou]
  refine ⟨history, fun other => ?_⟩
  obtain ⟨empty, silent⟩ := restarts other
  obtain ⟨late, out⟩ := boundaryWork_silenced (s.boundaryOffer cmd) (s.atBoundary cmd) i
    (by rw [settled]; exact bare i) (by rw [settled]; exact silent i)
  rw [present] at out
  exact ⟨fill (by rw [settled]; exact empty), late, out⟩

end

/-! ## Mute reached -/

/-- R20, R20a: the target that the boundary finds in DRAIN. -/
theorem arrivedSc_target (drains : s.drainsAt cmd = true) : (s.arrivedSc cmd).target = s.drainTarget := by
  have draining (st : s.sc.st ≠ .drain) :
      (s.sc.st ≠ .idle ∧ s.sc.st ≠ .acquire) ∧ s.autoMoves cmd = true := by
    simpa [State.drainsAt, st] using drains
  by_cases st : s.sc.st = .drain
  · rw [State.drainTarget, if_pos st]
    cases auto : s.autoMoves cmd with
    | false => rw [arrivedSc_of_not_auto auto]; split_ifs <;> simp_all
    | true =>
      obtain ⟨-, -, drain, -⟩ := arrivedSc_of_auto auto
      rcases drain st with same | fed <;> rw [‹s.arrivedSc cmd = _›]
  · obtain ⟨⟨idle, acquire⟩, auto⟩ := draining st
    obtain ⟨moves, -⟩ := arrivedSc_of_auto auto
    rw [State.drainTarget, if_neg st, moves (by cases state : s.sc.st <;> simp_all)]
    rw [SwitchUnit.draining, SwitchUnit.self]
    cases s.sc.connected <;> rfl

section
variable (h : s.boundaryBy cmd) (drains : s.drainsAt cmd = true)
include h drains

/-- What the level stage leaves of a DRAIN but for the audio units. -/
theorem drained_butAudio : (levelledState (s.boundaryOffer cmd) (s.atBoundary cmd)).kept.butAudio
    = (s.arrived cmd).kept.butAudio := by
  have still : switchBefore (s.arrived cmd) = s.arrived cmd :=
    switchBefore_still (.inr (.inr (by rw [arrived_sc h]; exact arrivedSc_drain_iff.2 drains)))
  have audio := butAudio_levelledState (s.boundaryOffer cmd) (s.atBoundary cmd)
  exact audio.trans (congrArg (fun t : State => t.kept.butAudio) still)

theorem muted_settled (silent : ∀ i : Fin 8, (finish (s.boundaryDone cmd)).ru.levels[i].applied = 192) :
    settledState (s.boundaryOffer cmd) (s.atBoundary cmd)
      = connectAtMute (levelledState (s.boundaryOffer cmd) (s.atBoundary cmd)) := by
  have sc := (sc_of_butAudio (drained_butAudio h drains)).trans (arrived_sc h)
  have mute : muteReached (levelledState (s.boundaryOffer cmd) (s.atBoundary cmd)) = true := by
    rw [muteReached_iff, ← boundaryWork_levels]
    intro i
    have level := silent i
    rw [finish_ru] at level
    exact level
  have drain := arrivedSc_drain_iff.2 drains
  rw [settledState]
  generalize levelledState _ _ = m at sc mute ⊢
  rw [← sc] at drain
  unfold switchAfter
  rw [drain]
  exact if_pos mute

/-- R21: NONE connected at mute reached. -/
theorem muted_none (silent : ∀ i : Fin 8, (finish (s.boundaryDone cmd)).ru.levels[i].applied = 192)
    (unplugged : ∀ j, s.drainTarget ≠ .source j) : (finish (s.boundaryDone cmd)).sc = s.sc.unplugged := by
  obtain ⟨-, table, path⟩ := arrivedSc_source (s := s) (cmd := cmd)
  have sc := (sc_of_butAudio (drained_butAudio h drains)).trans (arrived_sc h)
  have none := connectAtMute_none (s := levelledState (s.boundaryOffer cmd) (s.atBoundary cmd))
    (by rw [sc, arrivedSc_target drains]; exact unplugged)
  rw [finish_sc, State.boundaryDone, boundaryWork_sc, muted_settled h drains silent, none, sc,
    unplugged_congr table path]

/-- R18: the signal on the port of an entry is ready for a source about to start on it. -/
def State.plugReady (s : State) (src : Source) : Prop :=
  (∃ c, s.ports[src.port].lock = .locked c) ∧ (src.port = 4 → s.tc.st = .tuned)

/-- R21, R22, R29, R69: a source connected at mute reached: the switch, the ring and the class. -/
theorem muted_source {j : Fin 8} (silent : ∀ i : Fin 8, (finish (s.boundaryDone cmd)).ru.levels[i].applied = 192)
    (plugged : s.drainTarget = .source j) {src : Source} (entry : s.sc.table[j] = src) :
    (finish (s.boundaryDone cmd)).clock.cls = s.ports[src.port].lock.classOr s.clock.cls
      ∧ (∃ re : RingEngine, (finish (s.boundaryDone cmd)).re
          = if s.pathFor cmd src = .hosted then re.flushed s.cu.outProd else re.cut)
      ∧ (s.pathFor cmd src = .hosted ∧ ¬ hostedRegionsSet s = true → (finish (s.boundaryDone cmd)).sc
          = s.sc.startingOn j (s.pathFor cmd src) true (tunerSettled s))
      ∧ ((s.pathFor cmd src = .hosted → hostedRegionsSet s = true) →
          (¬ s.plugReady src → (finish (s.boundaryDone cmd)).sc
              = s.sc.startingOn j (s.pathFor cmd src) false (tunerSettled s))
          ∧ (s.plugReady src → (finish (s.boundaryDone cmd)).sc
              = if s.pathFor cmd src = .hosted ∨ s.formatAt cmd src.port = .pcm then
                  (s.sc.startingOn j (s.pathFor cmd src) false (tunerSettled s)).ramping
                else (s.sc.startingOn j (s.pathFor cmd src) false (tunerSettled s)).blocked .format)) := by
  have audio := drained_butAudio h drains
  have settled := muted_settled h drains silent
  have found := arrived_pathAtConnect h src
  obtain ⟨lock, format⟩ := atBoundary_port h src.port
  obtain ⟨-, table, -⟩ := arrivedSc_source (s := s) (cmd := cmd)
  have arrived := kept_atBoundary s h
  rw [finish_sc, finish_re, finish_clock, State.boundaryDone, boundaryWork_sc, boundaryWork_re,
    boundaryWork_settledClock, settled]
  generalize levelledState _ _ = m at audio ⊢
  have sc : m.sc = s.arrivedSc cmd := (sc_of_butAudio audio).trans (arrived_sc h)
  have target : m.sc.target = .source j := by rw [sc, arrivedSc_target drains, plugged]
  have entries : m.sc.table = s.sc.table := by rw [sc, table]
  have atEntry : m.sc.table[j] = src := by rw [entries, entry]
  have ports : m.ports = (s.arrived cmd).ports := congrArg Kept.ports audio
  have regions : hostedRegionsSet m = hostedRegionsSet s := by
    have same : m.pu.regions = (s.arrived cmd).pu.regions := congrArg Kept.regions audio
    have begun : (s.arrived cmd).pu.regions = s.pu.regions := atBoundary_regions h
    rw [hostedRegionsSet, hostedRegionsSet, same, begun]
  have tc : m.tc = s.tc := (congrArg Kept.tc audio).trans (atBoundary_tc h)
  have tuner : tunerSettled m = tunerSettled s := by rw [tunerSettled, tunerSettled, tc]
  have cls : m.clock.cls = s.clock.cls := by rw [clock_of_butAudio audio, arrived_clock h]
  have prod : m.cu.outProd = s.cu.outProd := (congrArg Kept.outProd audio).trans (congrArg Kept.outProd arrived)
  have path : pathAtConnect m src = s.pathFor cmd src := by rw [← found, pathAtConnect, pathAtConnect, ports]
  have lock : m.ports[src.port].lock = s.ports[src.port].lock := by rw [ports]; exact lock
  have format : m.ports[src.port].format = s.formatAt cmd src.port := by rw [ports]; exact format
  obtain ⟨re, clock⟩ := connectAtMute_units (s := m)
  have connectRe := connect_re target atEntry
  rw [path, prod] at connectRe
  refine ⟨?_, ⟨m.re, re.trans connectRe⟩, fun bare => ?_, fun given => ?_⟩
  · rw [clock, connect_clock target atEntry, lock, cls]; rfl
  · have starts := connectAtMute_bare target atEntry (by rw [path, regions]; exact bare)
    rw [starts, path, tuner, startingOn_congr entries]
  · obtain ⟨starts, tested, connected, settles, suits⟩ :=
      connectAtMute_tested target atEntry (by rw [path, regions]; exact given)
    rw [path, tuner, startingOn_congr entries] at starts
    rw [lock, tc] at settles
    rw [path, format] at suits
    rw [tested]
    refine ⟨fun unready => ?_, fun ready => ?_⟩
    · rw [testReadiness_waits connected fun k => unready (settles.1 k), starts]
    · split
      · rename_i suited
        rw [testReadiness_plays connected (settles.2 ready) (suits.2 suited), ← starts]; rfl
      · rename_i unsuited
        rw [testReadiness_blocks connected (settles.2 ready) fun k => unsuited (suits.1 k), ← starts]
        exact congrArg Kept.sc (kept_enterBlocked _ .format)

end

/-! ## The terms of the statement -/

theorem wanted_eq (s : State) : s.wanted = if s.sc.connectRequest then s.sc.target else
    match s.sc.connected with
    | some k => .source k
    | none => .none := by
  rw [State.wanted, SwitchUnit.self]
  cases s.sc.connected <;> rfl

theorem arrived_cut (h : s.boundaryBy cmd) {t : State} (re : t.re = (s.arrived cmd).re.cut) :
    t.re = { s.ringOffered cmd t with
      fetch := dropFetched s.re.fetch, last := HostedBlock.silence 2, ladder := .waiting, missRun := 0 } := by
  have offered := RingEngine.of_butStore (atBoundary_butStore h)
  change (s.arrived cmd).re = _ at offered
  rw [State.ringOffered]
  split
  · rename_i own
    have same : (s.arrived cmd).re = s.re := by
      obtain ⟨high, made⟩ := h
      cases cmd <;> try exact made.elim
      case freeRunBoundary => rfl
      case followTimeout => rfl
      case portFrame => cases own
    rw [re, same, RingEngine.cut]
  · rw [re]
    generalize (s.arrived cmd).re = a at offered
    rw [offered, RingEngine.cut]

theorem connecting_eq (k : ClockUnit) (cls : RateClass) (sc : SwitchUnit) (p : Fin 6) :
    k.connecting cls (decide (sc.source.map Source.port = some p))
      = { k with
          cls := cls,
          following := k.following && match sc.connected with
            | some i => decide (sc.table[i].port = p) && decide (cls = k.cls)
            | none => false,
          own := k.own && match sc.connected with
            | some i => decide (sc.table[i].port = p) && decide (cls = k.cls)
            | none => false } := by
  rw [ClockUnit.connecting, SwitchUnit.source]
  cases sc.connected <;> simp

theorem startedTimer_eq (s : State) (src : Source) : startedTimer (tunerSettled s) src
    = if src.holdTime = 0 then stoppedTimer
      else { running := true, remaining := 2457600 * src.holdTime,
             suspended := decide (src.port = 4) && decide (s.tc.st ≠ .tuned) } := by
  rw [startedTimer, Source.isRadio, tunerSettled, holdUnit, Nat.mul_comm]
  simp only [decide_not]

/-- R21: an effective path lacks its regions. -/
abbrev State.lacksRegions (s : State) (path : EffPath) : Prop :=
  path = .hosted ∧ ¬ (s.pu.regions.input.isSome = true ∧ s.pu.regions.output.isSome = true)

theorem startingOn_eq (s : State) (j : Fin 8) (path : EffPath) :
    s.sc.startingOn j path (decide (path = .hosted) && !hostedRegionsSet s) (tunerSettled s)
      = { s.sc with
          connected := some j, target := .absent, connectRequest := false, path := path, feed := false,
          st := if s.lacksRegions path then .blocked else .acquire,
          cause := if s.lacksRegions path then some .region else none,
          timer := if s.lacksRegions path ∨ s.sc.table[j].holdTime = 0 then stoppedTimer
            else { running := true, remaining := 2457600 * s.sc.table[j].holdTime,
                   suspended := decide (s.sc.table[j].port = 4) && decide (s.tc.st ≠ .tuned) } } := by
  have bare : (decide (path = .hosted) && !hostedRegionsSet s) = decide (s.lacksRegions path) := by
    rw [hostedRegionsSet]
    simp only [Bool.decide_and, decide_not, Bool.decide_eq_true]
  rw [bare, SwitchUnit.startingOn, startedTimer_eq]
  by_cases lacks : s.lacksRegions path
  · rw [decide_eq_true lacks]
    simp only [if_true, if_pos lacks, if_pos (Or.inl lacks)]
  · rw [decide_eq_false lacks]
    simp only [Bool.false_eq_true, if_false, lacks, false_or]

theorem speakerPresent_iff {i : Fin 8} : speakerPresent s i = true ↔ s.ru.speakers[i].presence ≠ .absent := by
  rw [speakerPresent, Speaker.isPresent, decide_eq_true_eq]

theorem hostedRegionsSet_iff : hostedRegionsSet s = true
    ↔ s.pu.regions.input.isSome = true ∧ s.pu.regions.output.isSome = true := by
  rw [hostedRegionsSet, Bool.and_eq_true]

end

/-- Settles O48: a connect on request (`requested_none`, `requested_source`, `requested_ring`, `requested_delays`) and
one at mute reached (`muted_none`, `muted_source`). -/
theorem connectTakesTheTarget : Obligations.ConnectTakesTheTarget := by
  unfold Obligations.ConnectTakesTheTarget
  intro s cmd h
  refine ⟨finish (s.boundaryDone cmd), exec_boundaryBy s h, fun req => ⟨fun unplugged => ?_, fun j plugged => ?_⟩,
    fun drains silent => ⟨fun unplugged => ?_, fun j plugged => ?_⟩⟩
  · obtain ⟨sc, clock, re, raised⟩ := requested_none h req (by rw [wanted_eq]; exact unplugged)
    refine ⟨sc, clock, arrived_cut h re, ?_⟩
    cases connected : s.sc.connected <;> rw [connected] at raised <;> exact raised
  · have plugged : s.wanted = .source j := (wanted_eq s).trans plugged
    obtain ⟨sc, clock, raised⟩ := requested_source h req plugged
    obtain ⟨direct, hosted, held⟩ := requested_ring h req plugged
    have delays := requested_delays h req plugged
    rw [startingOn_eq] at sc
    rw [connecting_eq] at clock
    obtain ⟨ladder, fetch, last⟩ := requested_waits h req plugged
    refine ⟨sc, clock, ladder, fetch, last, fun path => arrived_cut h (direct ?_), fun path => ?_, held, fun i => ?_,
      fun other => ⟨?_, fun i => ⟨?_, fun present => ?_⟩⟩, raised⟩
    · change s.pathFor cmd s.sc.table[j] = .direct at path
      rw [path]; decide
    · obtain ⟨m, re⟩ := hosted path
      rw [re]
      have inProd : (s.arrived cmd).re.inProd = s.re.inProd := inProd_of_butStore (atBoundary_butStore h)
      exact ⟨rfl, rfl, rfl, rfl, inProd⟩
    · obtain ⟨history, -⟩ := delays i
      simp only [Bool.and_eq_true, speakerPresent_iff] at history
      simpa only [delayModeNow, Bool.and_eq_true] using history
    · obtain ⟨-, restarts⟩ := delays 0
      obtain ⟨fill, -⟩ := restarts other
      exact fill
    · obtain ⟨-, restarts⟩ := delays i
      obtain ⟨-, late, -⟩ := restarts other
      exact late
    · obtain ⟨-, restarts⟩ := delays i
      obtain ⟨-, -, out⟩ := restarts other
      rw [out, if_pos (speakerPresent_iff.2 present)]
  · exact muted_none h drains silent unplugged
  · obtain ⟨cls, ⟨re, ring⟩, bare, given⟩ := muted_source h drains silent plugged rfl
    rw [hostedRegionsSet_iff] at bare given
    refine ⟨fun c locked => ?_, fun path => ?_, ?_, fun lacking => ?_, fun regions ready suits => ?_,
      fun regions ready unsuited => ?_, fun regions unready => ?_⟩
    · rw [cls, locked]; rfl
    · change s.pathFor cmd s.sc.table[j] = .hosted at path
      rw [ring, if_pos path]
      exact ⟨rfl, rfl⟩
    · rw [ring]; split <;> rfl
    · rw [bare (Classical.not_imp.1 lacking)]; rfl
    · obtain ⟨-, tested⟩ := given regions
      exact (tested ready).trans (if_pos suits)
    · obtain ⟨-, tested⟩ := given regions
      exact (tested ready).trans (if_neg unsuited)
    · obtain ⟨waits, -⟩ := given regions
      rw [waits unready, SwitchUnit.startingOn, startedTimer_eq]; rfl

end Sys2Proof.Machine
end

