-- ==== Sys2Proof/Proofs/SourceWindows.lean ====
section
/-! SUPPORT. A measurement window as the Switch Controller sees it (R24, R25): only the connected source's port counts,
and its loss or lock moves the switch. -/

namespace Sys2Proof.Machine

section
variable {s : State} {p q : Fin 6}

theorem portWindow_tc (s : State) (q : Fin 6) : (portWindow q s).tc = s.tc :=
  congrArg SignalView.tc (signals_portWindow s q)

theorem plays_iff {sc : SwitchUnit} {i : Fin 8} (connected : sc.connected = some i) :
    sc.plays p = true ↔ sc.table[i].port = p := by
  rw [SwitchUnit.plays, SwitchUnit.source, connected, decide_eq_true_eq]
  exact Option.some_inj

/-- R24: the window of a port that the connected source does not play. -/
theorem portWindow_unplayed (unplayed : s.sc.plays q = false) :
    (portWindow q s).sc = s.sc ∧ (portWindow q s).clock = s.clock := by
  have signals := signals_portWindow s q
  have sc : (portWindow q s).sc = _ := congrArg SignalView.sc signals
  have clock : (portWindow q s).clock = _ := congrArg SignalView.clock signals
  rw [sc, clock, unplayed, Bool.and_false]
  refine ⟨?_, rfl⟩
  cases before : s.ports[q].lock <;> cases after : s.ports[q].nextLock <;>
    simp only [SwitchUnit.relocked, unplayed, Bool.false_eq_true, if_false]

/-- The windows of ports that the connected source does not play. -/
theorem foldl_portWindow_unplayed {l : List (Fin 6)} (unplayed : ∀ q ∈ l, s.sc.plays q = false) :
    (l.foldl (fun s p => portWindow p s) s).sc = s.sc ∧ (l.foldl (fun s p => portWindow p s) s).clock = s.clock
      ∧ (l.foldl (fun s p => portWindow p s) s).tc = s.tc := by
  induction l generalizing s with
  | nil => exact ⟨rfl, rfl, rfl⟩
  | cons q l ih =>
    obtain ⟨sc, clock⟩ := portWindow_unplayed (unplayed q (by simp))
    obtain ⟨scs, clocks, tcs⟩ := ih (s := portWindow q s) fun r mem => by rw [sc]; exact unplayed r (by simp [mem])
    exact ⟨scs.trans sc, clocks.trans clock, tcs.trans (portWindow_tc s q)⟩

/-- R24 to R26: a change of lock keeps the connected source and its entry. -/
theorem SwitchUnit.relocked_source (sc : SwitchUnit) (before after : LockState) (settled : Bool)
    (inForce : RateClass) : (sc.relocked p before after settled inForce).source = sc.source := by
  have timed (x : SwitchUnit) : (x.timed settled).source = x.source := by
    unfold SwitchUnit.timed; split <;> rfl
  have lost : (sc.lost .signal settled).source = sc.source := by
    unfold SwitchUnit.lost
    cases sc.st <;> simp only [reduceCtorEq, if_false, SwitchUnit.holding, timed] <;> rfl
  have regained (c : RateClass) : (sc.regained (c = inForce)).source = sc.source := by
    unfold SwitchUnit.regained
    split
    · split <;> rfl
    · rfl
  unfold SwitchUnit.relocked
  split
  · rfl
  · split
    · exact lost
    · rfl
  · split
    · exact regained _
    · rfl
  · rfl

/-- R24, R25: what the measurement window makes of the switch and the clock. -/
theorem windowEnd_played {i : Fin 8} (connected : s.sc.connected = some i) (port : s.sc.table[i].port = p) :
    (windowEnd s).sc = s.sc.relocked p s.ports[p].lock s.ports[p].nextLock (tunerSettled s) s.clock.cls
      ∧ (windowEnd s).clock
        = if s.ports[p].leavesLock then { s.clock with following := false, own := false, windowPos := 0 }
          else { s.clock with windowPos := 0 } := by
  obtain ⟨before, after, notBefore, notAfter, -, run⟩ := windowEnd_at p
  have plays : s.sc.plays p = true := (plays_iff connected).2 port
  have other {q : Fin 6} (ne : q ≠ p) : s.sc.plays q = false := by
    rw [← Bool.not_eq_true, plays_iff connected, port]
    exact ne.symm
  have ports := foldl_portWindow_ports before notBefore (s.mapClock fun c => { c with windowPos := 0 })
  obtain ⟨sc, clock, tc⟩ := foldl_portWindow_unplayed (s := s.mapClock fun c => { c with windowPos := 0 })
    (l := before) fun q mem => other fun same => notBefore (same ▸ mem)
  rw [run]
  generalize before.foldl (fun s p => portWindow p s) (s.mapClock _) = u at ports sc clock tc
  have atPort : u.ports[p] = s.ports[p] := ports
  have sc : u.sc = s.sc := sc
  have settled : tunerSettled u = tunerSettled s := by rw [tunerSettled, tc]; rfl
  have signals := signals_portWindow u p
  have windowSc : (portWindow p u).sc = _ := congrArg SignalView.sc signals
  have windowClock : (portWindow p u).clock = _ := congrArg SignalView.clock signals
  dsimp only at windowSc windowClock
  rw [atPort, settled, clock, sc] at windowSc
  rw [atPort, clock, sc, plays, Bool.and_true] at windowClock
  obtain ⟨last, lastClock, -⟩ := foldl_portWindow_unplayed (s := portWindow p u) (l := after) fun q mem => by
    rw [windowSc, SwitchUnit.plays, SwitchUnit.relocked_source]
    exact other fun same => notAfter (same ▸ mem)
  rw [last, lastClock, windowSc, windowClock]
  exact ⟨rfl, rfl⟩

/-! ## The event of HOLD -/

theorem quiet_linkLosesPort (p : Fin 6) (s : State) : Quiet s (linkLosesPort p s) := by
  unfold linkLosesPort
  split <;> rfl

theorem quiet_suspendTimer (b : Bool) (s : State) : Quiet s (suspendTimer b s) := by
  unfold suspendTimer
  split <;> rfl

theorem raises_enterHold (c : LossCause) (s : State) : Raises 1 s (enterHold c s) :=
  raises_eventAfter ((quiet_mapSc _ .refl).trans (quiet_startHoldTimer _))

theorem raises_loseSignal (c : LossCause) (s : State) : Raises 1 s (loseSignal c s) := by
  have stopped : Quiet s (stopFollowing s) := quiet_mapClock _ .refl
  unfold loseSignal; dsimp only
  split
  case h_4 => split; exacts [(stopped.trans (quiet_suspendTimer _ _)).still, stopped.still]
  case h_5 => split; exacts [(stopped.trans (quiet_suspendTimer _ _)).still, stopped.still]
  case h_6 => exact (quiet_mapSc _ stopped).still
  case h_7 => exact stopped.still
  all_goals exact stopped.then (raises_enterHold c _)

theorem quiet_regain (c : RateClass) (s : State) : Quiet s (regain c s) := by
  unfold regain
  split
  · split <;> rfl
  · rfl

/-- R11, R16, R136: what a port that leaves LOCKED sets off but for the Switch Controller. -/
def toldLost (p : Fin 6) (had : RateClass) (s : State) : State :=
  let s := s.mapPort p fun q => { q with filling := [], change := false, mark := false }
  linkLosesPort p (breakRun p (raisePort p .lost had.code s.ports[p].lock.code s))

theorem portLost_eq (had : RateClass) (s : State) : portLost p had s
    = if connectedOnPort (toldLost p had s) p then loseSignal .signal (toldLost p had s) else toldLost p had s := rfl

theorem toldLost_signals (had : RateClass) (s : State) :
    (toldLost p had s).sc = s.sc ∧ (toldLost p had s).clock = s.clock := by
  have view : (toldLost p had s).kept.signals = { s.kept.signals with
      ports := s.ports.set p { s.ports[p] with filling := [], change := false, mark := false } } := by
    unfold toldLost; dsimp only
    rw [signals_linkLosesPort, signals_breakRun, kept_raisePort]
    rfl
  exact ⟨congrArg SignalView.sc view, congrArg SignalView.clock view⟩

theorem raises_toldLost (had : RateClass) (s : State) : Raises 1 s (toldLost p had s) :=
  ((raises_eventAfter (quiet_mapPort _ _ .refl)).quiet (quiet_breakRun _ p)).quiet (quiet_linkLosesPort p _)

theorem raises_portLost (had : RateClass) (s : State) : Raises 2 s (portLost p had s) := by
  rw [portLost_eq]
  split
  · exact (raises_toldLost had s).trans (raises_loseSignal _ _)
  · exact (raises_toldLost had s).mono (by decide)

theorem raises_lockChanged (count : Nat) (before after : LockState) (s : State) :
    Raises 2 s (lockChanged p count before after s) := by
  have raised (n : EventName) (sub : BitVec 16) (d1 d2 : Word) (u : State) : Raises 2 u (raiseEvent n sub d1 d2 u) :=
    (raises_event n sub d1 d2 u).mono (by decide)
  unfold lockChanged
  split
  case h_1 => exact Quiet.refl.still
  case h_2 => exact raises_portLost _ _
  case h_3 c =>
    unfold portLocked; dsimp only
    split
    · exact ((raises_eventAfter (quiet_mapPort p _ .refl)).quiet (quiet_regain _ _)).mono (by decide)
    · exact (raises_eventAfter (quiet_mapPort p _ .refl)).mono (by decide)
  case h_4 => exact Quiet.refl.still
  case h_5 => exact raised _ _ _ _ _
  case h_6 => exact Quiet.refl.still

theorem raises_portWindow (s : State) (p : Fin 6) : Raises 2 s (portWindow p s) := by
  unfold portWindow; dsimp only
  generalize (fun q : PortState => _) = f
  exact (quiet_mapPort p f .refl).then (raises_lockChanged _ _ _ _)

theorem enterHold_eq {i : Fin 8} (c : LossCause) (connected : s.sc.connected = some i) : enterHold c s
    = raiseEvent (.source .hold) (BitVec.ofNat 16 i.val) (natWord c.code) (natWord s.sc.table[i].holdTime)
        (s.mapSc fun sc => sc.holding (tunerSettled s)) := by
  have held : startHoldTimer (s.mapSc fun sc =>
        { sc with st := .hold, feed := false, timer := stoppedTimer, cause := none })
      = s.mapSc fun sc => sc.holding (tunerSettled s) := startHoldTimer_eq _
  have same : (s.sc.holding (tunerSettled s)).connected = s.sc.connected
      ∧ (s.sc.holding (tunerSettled s)).table = s.sc.table := by
    unfold SwitchUnit.holding SwitchUnit.timed
    split <;> exact ⟨rfl, rfl⟩
  obtain ⟨plugged, table⟩ := same
  have subject := connectedSubject_of (s := s.mapSc fun sc => sc.holding (tunerSettled s)) (plugged.trans connected)
  have source := connectedSource_of (s := s.mapSc fun sc => sc.holding (tunerSettled s)) (plugged.trans connected)
  have entry : (s.mapSc fun sc => sc.holding (tunerSettled s)).sc.table[i] = s.sc.table[i] := by
    rw [State.mapSc_sc, table]
  rw [entry] at source
  unfold enterHold; dsimp only
  rw [held, subject, source]
  rfl

/-- R24: HOLD entered with its event. -/
theorem loseSignal_carries {n : Nat} {first : Bool} {i : Fin 8} (c : LossCause)
    (st : s.sc.st = .playing ∨ s.sc.st = .playRamp ∨ s.sc.st = .blocked) (connected : s.sc.connected = some i)
    (room : s.takesEvents (n + 1)) (none : first = true → s.eventsOut = []) :
    (loseSignal c s).carries n
      (eventNow s (.source .hold) (BitVec.ofNat 16 i.val) (natWord c.code) (natWord s.sc.table[i].holdTime)) first := by
  have holds : loseSignal c s = enterHold c (stopFollowing s) := by
    have kept : (stopFollowing s).sc.st = s.sc.st := rfl
    rcases st with st | st | st <;> simp only [loseSignal, kept, st]
  rw [holds, enterHold_eq c (s := stopFollowing s) connected]
  exact raiseEvent_carries (.source .hold) _ _ _
    ((quiet_mapSc _ (quiet_mapClock _ .refl) : Quiet s _).takesEvents room) none

theorem lockChanged_leaves {after : LockState} {c : RateClass} {count : Nat} (left : after.isLocked = false) :
    lockChanged p count (.locked c) after s = portLost p c s := by
  cases after with
  | locked d => cases left
  | noSignal => rfl
  | measuring => rfl
  | unsupported => rfl

/-- R24: the window in which the connected source's port leaves LOCKED raises HOLD. -/
theorem portWindow_holds {n : Nat} {i : Fin 8} (st : s.sc.st = .playing ∨ s.sc.st = .playRamp ∨ s.sc.st = .blocked)
    (connected : s.sc.connected = some i) (port : s.sc.table[i].port = p) (leaves : s.ports[p].leavesLock = true)
    (room : s.takesEvents (n + 2)) :
    (portWindow p s).carries n
      (eventNow s (.source .hold) (BitVec.ofNat 16 i.val) 0 (natWord s.sc.table[i].holdTime)) false := by
  obtain ⟨c, locked, -⟩ := PortState.leavesLock_iff.1 leaves
  obtain ⟨f, window⟩ : ∃ f, portWindow p s = portLost p c (s.mapPort p f) := by
    have left : s.ports[p].nextLock.isLocked = false := by
      rw [PortState.leavesLock, Bool.and_eq_true, Bool.not_eq_true'] at leaves
      exact leaves.2
    rw [PortState.nextLock] at left
    unfold portWindow; dsimp only
    rw [locked, lockChanged_leaves left]
    exact ⟨_, rfl⟩
  have quiet : Quiet s (s.mapPort p f) := quiet_mapPort p f .refl
  obtain ⟨sc, clock⟩ := toldLost_signals (p := p) c (s.mapPort p f)
  obtain ⟨later, -⟩ := (quiet.then (raises_toldLost (p := p) c (s.mapPort p f))) (n + 1) (by rwa [Nat.add_comm])
  rw [window, portLost_eq, connectedOnPort_eq, sc, State.mapPort_sc, if_pos ((plays_iff connected).2 port)]
  have held := loseSignal_carries .signal (s := toldLost p c (s.mapPort p f)) (first := false) (by rw [sc]; exact st)
    (by rw [sc]; exact connected) later nofun
  rw [eventNow, clock, sc] at held
  exact held

theorem raises_windows (l : List (Fin 6)) (s : State) :
    Raises (l.length * 2) s (l.foldl (fun s p => portWindow p s) s) :=
  raises_foldl (fun s p => raises_portWindow s p) l s

theorem windowEnd_holds {i : Fin 8} (st : s.sc.st = .playing ∨ s.sc.st = .playRamp ∨ s.sc.st = .blocked)
    (connected : s.sc.connected = some i) (leaves : s.ports[s.sc.table[i].port].leavesLock = true)
    (room : s.eventRoom) : eventNow s (.source .hold) (BitVec.ofNat 16 i.val) 0 (natWord s.sc.table[i].holdTime)
      ∈ (finish (windowEnd s)).eventsOut := by
  obtain ⟨before, after, notBefore, -, length, run⟩ := windowEnd_at s.sc.table[i].port
  have other {q : Fin 6} (ne : q ≠ s.sc.table[i].port) : s.sc.plays q = false := by
    rw [← Bool.not_eq_true, plays_iff connected]
    exact ne.symm
  have ports := foldl_portWindow_ports before notBefore (s.mapClock fun c => { c with windowPos := 0 })
  obtain ⟨sc, clock, -⟩ := foldl_portWindow_unplayed (s := s.mapClock fun c => { c with windowPos := 0 })
    (l := before) fun q mem => other fun same => notBefore (same ▸ mem)
  have first := (quiet_mapClock (fun c => { c with windowPos := 0 }) (Quiet.refl (s := s))).then
    (raises_windows before _)
  rw [(quiet_finish _).eventsOut, run]
  generalize before.foldl (fun s p => portWindow p s) (s.mapClock _) = u at ports sc clock first
  obtain ⟨later, -⟩ := first (after.length * 2 + 0 + 2) (room.takesEvents.mono (by omega))
  have held := portWindow_holds (s := u) (n := after.length * 2 + 0) (by rw [sc]; exact st)
    (by rw [sc]; exact connected) (by rw [sc]; rfl)
    (ports.symm ▸ leaves) later
  rw [eventNow, sc, clock] at held
  obtain ⟨-, mem, -⟩ := (raises_windows after _).carries held
  exact mem

/-! ## The lock states that matter -/

variable {k : PortState} {c : RateClass}

theorem leavesLock_next (leaves : k.leavesLock = true) : k.nextLock.isLocked = false := by
  rw [PortState.leavesLock, Bool.and_eq_true, Bool.not_eq_true'] at leaves
  exact leaves.2

theorem nextLock_enters (measuring : k.lock = .measuring) (candidate : k.candidate = some (.cls c))
    (again : classify k.windowCount = .cls c) : k.nextLock = .locked c ∧ k.leavesLock = false := by
  have next : k.nextLock = .locked c := by
    rw [PortState.nextLock, lockStep_measuring measuring, again]
    exact if_pos candidate
  exact ⟨next, by rw [PortState.leavesLock, measuring]; rfl⟩

theorem nextLock_stays (locked : k.lock = .locked c) (holds : k.miss = false ∨ classify k.windowCount = .cls c) :
    k.nextLock = .locked c ∧ k.leavesLock = false := by
  have next : k.nextLock = .locked c := by
    by_cases hit : classify k.windowCount = .cls c
    · rw [PortState.nextLock, hit, lockStep_hit locked]
    · rw [PortState.nextLock, lockStep_firstMiss locked hit (holds.resolve_right hit)]
  refine ⟨next, ?_⟩
  rw [PortState.nextLock] at next
  rw [PortState.leavesLock, next, locked]
  rfl

/-! ## The switch at those -/

variable {sc : SwitchUnit} {i : Fin 8} {settled : Bool} {d : RateClass}

theorem relocked_loses {before after : LockState} (locked : before = .locked c) (left : after.isLocked = false)
    (plays : sc.plays p = true) : sc.relocked p before after settled d = sc.lost .signal settled := by
  subst locked
  cases after with
  | locked e => cases left
  | noSignal => exact if_pos plays
  | measuring => exact if_pos plays
  | unsupported => exact if_pos plays

theorem relocked_regains (plays : sc.plays p = true) :
    sc.relocked p .measuring (.locked c) settled d = sc.regained (c = d) := if_pos plays

theorem holding_eq (connected : sc.connected = some i) : sc.holding settled = { sc with
    st := .hold, feed := false, timer := startedTimer settled sc.table[i], cause := none } := by
  simp only [SwitchUnit.holding, SwitchUnit.timed, SwitchUnit.source, connected]
  rfl

theorem holding_timed {s : State} (connected : s.sc.connected = some i) : s.sc.holding (tunerSettled s)
    = { s.sc with
        st := .hold, feed := false, cause := none,
        timer := if s.sc.table[i].holdTime = 0 then stoppedTimer
          else { running := true, remaining := 2457600 * s.sc.table[i].holdTime,
                 suspended := decide (s.sc.table[i].port = 4) && decide (s.tc.st ≠ .tuned) } } := by
  rw [holding_eq connected, startedTimer_eq]

/-- R24: what plays, or is BLOCKED, goes to HOLD. -/
theorem lost_holds {l : LossCause} (st : sc.st = .playing ∨ sc.st = .playRamp ∨ sc.st = .blocked) :
    sc.lost l settled = sc.holding settled := by
  rcases st with st | st | st <;> simp only [SwitchUnit.lost, st]

theorem lost_drains {l : LossCause} (st : sc.st = .drain) : sc.lost l settled = { sc with feed := false } := by
  simp only [SwitchUnit.lost, st]

/-- R24: a lost signal leaves the states that wait as they were. -/
theorem lost_waits (st : sc.st = .idle ∨ sc.st = .acquire ∨ sc.st = .hold) :
    sc.lost .signal settled = sc := by
  rcases st with st | st | st <;> simp only [SwitchUnit.lost, st, reduceCtorEq, if_false]

/-- R25: HOLD at the class in force only stops its timer. -/
theorem regained_inForce (st : sc.st = .hold) (same : c = d) :
    sc.regained (c = d) = { sc with timer := stoppedTimer } := by
  simp only [SwitchUnit.regained, st, if_pos same]

/-- R25: HOLD at another class drains towards its own source. -/
theorem regained_other (st : sc.st = .hold) (other : c ≠ d) (connected : sc.connected = some i) :
    sc.regained (c = d) = { sc with st := .drain, target := .source i, timer := stoppedTimer, cause := none } := by
  simp only [SwitchUnit.regained, st, if_neg other, SwitchUnit.draining, SwitchUnit.self, connected]

theorem regained_still (st : sc.st ≠ .hold) : sc.regained (c = d) = sc := by
  cases state : sc.st with
  | hold => exact absurd state st
  | _ => simp only [SwitchUnit.regained, state]

end

end Sys2Proof.Machine
end

