-- ==== Sys2Proof/Proofs/TunerSignals.lean ====
section
/-! SUPPORT. The settled condition as the Switch Controller sees it (R167): its fall is a loss, its rise a regain. -/

namespace Sys2Proof.Machine

/-- What the settled condition may move. -/
structure RadioView where
  ports : Vector PortState 6
  sc : SwitchUnit
  clock : ClockUnit
  ou : OutputUnit
  st : TunerState

def Kept.radio (k : Kept) : RadioView := { ports := k.ports, sc := k.sc, clock := k.clock, ou := k.ou, st := k.tc.st }

section
variable (s : State)

theorem connectedRadio_eq : connectedRadio s = s.sc.plays 4 := by
  rw [connectedRadio, connectedSource_eq, SwitchUnit.plays]
  cases s.sc.source <;> simp [Source.isRadio]

/-! ## What leaves it alone -/

@[simp] theorem radio_finish : (finish s).kept.radio = s.kept.radio := by rw [kept_finish]

@[simp] theorem radio_complete (r : ResultCode) : (complete r s).kept.radio = s.kept.radio := by rw [kept_complete]

@[simp] theorem radio_testText : (testText s).kept.radio = s.kept.radio := by
  unfold testText
  split <;> rfl

@[simp] theorem radio_tuneNotice (channel : Nat) (known : Option RecalledIdentity) :
    (tuneNotice channel known s).kept.radio = s.kept.radio := by
  unfold tuneNotice; dsimp only
  rw [radio_testText]
  split
  · rw [kept_raiseEvent]; rfl
  · rfl

@[simp] theorem radio_beginRequest (r : LinkRequest) : (beginRequest r s).kept.radio = s.kept.radio := by
  unfold beginRequest
  split
  · rfl
  · unfold TunerUnit.begin State.mapTc
    dsimp only
    split <;> rfl

@[simp] theorem radio_seekStep : (seekStep s).kept.radio = s.kept.radio := by
  unfold seekStep
  split
  · rw [radio_beginRequest, radio_tuneNotice]; rfl
  · rfl

/-! ## The events of a new work -/

theorem quiet_mapTc {s t : State} (f : TunerUnit → TunerUnit) (h : Quiet s t) : Quiet s (t.mapTc f) := h
theorem quiet_mapSd {s t : State} (f : StationUnit → StationUnit) (h : Quiet s t) : Quiet s (t.mapSd f) := h

theorem quiet_testText : Quiet s (testText s) := by
  unfold testText
  split <;> rfl

theorem raises_tuneNotice (channel : Nat) (known : Option RecalledIdentity) :
    Raises 1 s (tuneNotice channel known s) := by
  unfold tuneNotice; dsimp only
  split
  · exact (raises_eventAfter (quiet_mapSd _ .refl)).quiet (quiet_testText _)
  · exact ((quiet_mapSd _ .refl).trans (quiet_testText _)).still

theorem quiet_beginRequest (r : LinkRequest) : Quiet s (beginRequest r s) := by
  unfold beginRequest
  split <;> rfl

theorem raises_seekStep : Raises 1 s (seekStep s) := by
  unfold seekStep
  split
  · exact ((quiet_mapTc _ .refl).then (raises_tuneNotice _ _ _)).quiet (quiet_beginRequest _ _)
  · exact Quiet.refl.still

theorem quiet_testFetch : Quiet s (testFetch s) := by
  unfold testFetch
  split <;> rfl

theorem raises_complete (r : ResultCode) : Raises 1 s (complete r s) := by
  have advanced (counts : Bool) (u : State) : 
      Quiet u ((advanceHead counts u).mapCu fun cu => { cu with exec := .idle }) := by
    unfold advanceHead
    split
    · exact (quiet_writeIndexWord .commandHead (u.mapCu fun cu => { cu with head := cu.head + 1 }) : Quiet _ _)
    · rfl
  unfold complete
  split
  · exact ((raises_event _ _ _ _ _).quiet (advanced _ _)).quiet (quiet_testFetch _)
  · exact Quiet.refl.still

/-! ## The fall of the settled condition -/

theorem radio_settledFalls : (settledFalls s).kept.radio = { s.kept.radio with
    ports := s.ports.set 4 { s.ports[(4 : Fin 6)] with mark := false }, ou := s.ou.losesPort 4,
    clock := if s.sc.plays 4 then s.clock.unled else s.clock,
    sc := if s.sc.plays 4 then s.sc.lost .tuner (tunerSettled s) else s.sc } := by
  unfold settledFalls; dsimp only
  generalize before : linkLosesPort 4 (s.mapPort 4 _) = r
  have view : r.kept.radio = { s.kept.radio with
      ports := s.ports.set 4 { s.ports[(4 : Fin 6)] with mark := false }, ou := s.ou.losesPort 4 } := by
    rw [← before, kept_linkLosesPort]
    rfl
  have st : r.tc.st = s.tc.st := congrArg RadioView.st view
  obtain ⟨sc, clock⟩ : r.sc = s.sc ∧ r.clock = s.clock :=
    ⟨congrArg RadioView.sc view, congrArg RadioView.clock view⟩
  rw [connectedRadio_eq, sc]
  split
  · have lost := congrArg Kept.radio (kept_loseSignal r .tuner)
    rw [lost, tunerSettled, st, sc, clock]
    exact congrArg (fun v : RadioView =>
      { v with clock := s.clock.unled, sc := s.sc.lost .tuner (tunerSettled s) }) view
  · exact view

end

section
variable {s : State} {i : Fin 8}

/-- R24, R167: the tuner's loss of a radio source that plays. -/
theorem settledFalls_carries {n : Nat} {first : Bool}
    (st : s.sc.st = .playing ∨ s.sc.st = .playRamp ∨ s.sc.st = .blocked) (connected : s.sc.connected = some i)
    (radio : s.sc.table[i].port = 4) (room : s.takesEvents (n + 1)) (none : first = true → s.eventsOut = []) :
    (settledFalls s).carries n
      (eventNow s (.source .hold) (BitVec.ofNat 16 i.val) 1 (natWord s.sc.table[i].holdTime)) first := by
  unfold settledFalls; dsimp only
  generalize before : linkLosesPort 4 (s.mapPort 4 _) = r
  have quiet : Quiet s r := by
    rw [← before]
    exact (quiet_mapPort 4 _ .refl).trans (quiet_linkLosesPort 4 _)
  have kept := kept_linkLosesPort (s.mapPort 4 fun p => { p with mark := false }) 4
  obtain ⟨sc, clock⟩ : r.sc = s.sc ∧ r.clock = s.clock := by
    rw [← before]
    exact ⟨congrArg Kept.sc kept, congrArg Kept.clock kept⟩
  have plays : connectedRadio r = true := by rw [connectedRadio_eq, sc, plays_iff connected, radio]
  rw [if_pos plays]
  have held := loseSignal_carries .tuner (s := r) (first := first) (by rw [sc]; exact st)
    (by rw [sc]; exact connected) (quiet.takesEvents room) (by rw [quiet.eventsOut]; exact none)
  rw [eventNow, clock, sc] at held
  exact held

theorem setTunerState_falls {st : TunerState} (unsettled : st ≠ .tuned) (tuned : s.tc.st = .tuned) :
    setTunerState st s = settledFalls (s.mapTc fun tc => { tc with st := st }) := by
  simp [setTunerState, tunerSettled, tuned, unsettled]

/-! ## A TUNE or a SEEK that finds the tuner TUNED -/

/-- The state of `s` once the tuner has left TUNED for state `st`. -/
def RadioView.untuned (v : RadioView) (st : TunerState) : RadioView :=
  { v with
    st := st, ports := v.ports.set 4 { v.ports[(4 : Fin 6)] with mark := false }, ou := v.ou.losesPort 4,
    clock := if v.sc.plays 4 then v.clock.unled else v.clock,
    sc := if v.sc.plays 4 then v.sc.lost .tuner false else v.sc }

theorem radio_setTunerState {st : TunerState} (unsettled : st ≠ .tuned) (tuned : s.tc.st = .tuned) :
    (setTunerState st s).kept.radio = s.kept.radio.untuned st := by
  have settled : tunerSettled (s.mapTc fun tc => { tc with st := st }) = false := decide_eq_false unsettled
  rw [setTunerState_falls unsettled tuned, radio_settledFalls, settled]
  rfl

theorem endOldWork_tuned (r : Replacement) (tuned : s.tc.st = .tuned) :
    endOldWork r s = s.mapTc fun tc => { tc with settle := stoppedSettle, seek := none } := by
  rw [endOldWork, reportReplaced, tuned]

theorem beginTune_eq (b : Band) (channel : Nat) (tag : BitVec 16) (known : Option RecalledIdentity)
    (tuned : s.tc.st = .tuned) : ∃ f : TunerUnit → TunerUnit, (f s.tc).st = s.tc.st
      ∧ beginTune b channel tag known s
      = beginRequest .tuneWrite (tuneNotice channel known (setTunerState .tuning (s.mapTc f))) := by
  rw [beginTune, endOldWork_tuned .tune tuned]
  exact ⟨fun tc => { tc with settle := stoppedSettle, seek := none, band := some b, channel := some channel,
                             tag := some tag, recalled := known }, rfl, rfl⟩

theorem beginSeek_eq (up : Bool) (threshold channel : Nat) (tuned : s.tc.st = .tuned) :
    ∃ f : TunerUnit → TunerUnit, (f s.tc).st = s.tc.st
      ∧ beginSeek up threshold channel s = seekStep (setTunerState .seeking (s.mapTc f)) := by
  rw [beginSeek, endOldWork_tuned .seek tuned]
  exact ⟨fun tc => { tc with settle := stoppedSettle, tag := some (busyTag s), recalled := none,
                             seek := some { up := up, threshold := threshold, start := channel, wrapped := false,
                                            stopPending := false, returning := false } }, rfl, rfl⟩

/-- R160, R163, R167: new work takes the tuner out of TUNED, and no event comes before that of the loss. -/
def State.untunes (s t : State) : Prop :=
  ∃ (st : TunerState) (f : TunerUnit → TunerUnit), st ≠ .tuned ∧ (f s.tc).st = s.tc.st
    ∧ t.kept.radio = (setTunerState st (s.mapTc f)).kept.radio ∧ Raises 2 (setTunerState st (s.mapTc f)) t

theorem tuneEffect_untunes {bw cw : Word} {b : Band} (band : bandOf bw.toNat = some b) (tuned : s.tc.st = .tuned) :
    s.untunes (tuneEffect bw cw s) := by
  rw [tuneEffect, band]
  change s.untunes (acceptTune b cw.toNat none s)
  unfold acceptTune; dsimp only
  obtain ⟨f, same, begun⟩ := beginTune_eq b (snapChannel b (s.tc.stepOf b) cw.toNat) (busyTag s) none tuned
  rw [begun]
  exact ⟨.tuning, f, by decide, same, by rw [radio_complete, radio_beginRequest, radio_tuneNotice],
    ((raises_tuneNotice _ _ _).quiet (quiet_beginRequest _ _)).trans (raises_complete _ _)⟩

theorem seekEffect_untunes {dw hw : Word} {c : Nat} (direction : dw.toNat ≤ 1) (channel : s.tc.channel = some c)
    (tuned : s.tc.st = .tuned) : s.untunes (seekEffect dw hw s) := by
  have effect : seekEffect dw hw s = complete (if 127 < hw.toNat then .clamped else .accepted)
      (beginSeek (decide (dw = 0)) (min 127 hw.toNat) c s) := by
    rw [seekEffect, if_neg (by omega), channel]
    exact if_neg (by rw [tuned]; decide)
  obtain ⟨f, same, begun⟩ := beginSeek_eq (decide (dw = 0)) (min 127 hw.toNat) c tuned
  rw [effect, begun]
  exact ⟨.seeking, f, by decide, same, by rw [radio_complete, radio_seekStep],
    (raises_seekStep _).trans (raises_complete _ _)⟩

theorem State.untunes.radio {t : State} (h : s.untunes t) (tuned : s.tc.st = .tuned) :
    ∃ st, st ≠ .tuned ∧ t.kept.radio = s.kept.radio.untuned st := by
  obtain ⟨st, f, unsettled, same, radio, -⟩ := h
  exact ⟨st, unsettled, radio.trans (radio_setTunerState unsettled (same.trans tuned))⟩

/-- R24: HOLD is the first event. -/
theorem State.untunes.holds {t : State} (h : s.untunes t) (tuned : s.tc.st = .tuned)
    (st : s.sc.st = .playing ∨ s.sc.st = .playRamp ∨ s.sc.st = .blocked) (connected : s.sc.connected = some i)
    (radio : s.sc.table[i].port = 4) (room : s.eventRoom) : t.eventsOut.head?
      = some (eventNow s (.source .hold) (BitVec.ofNat 16 i.val) 1 (natWord s.sc.table[i].holdTime)) := by
  obtain ⟨left, f, unsettled, same, -, raises⟩ := h
  have quiet : Quiet s ((s.mapTc f).mapTc fun tc => { tc with st := left }) := quiet_mapTc _ (quiet_mapTc _ .refl)
  have held := settledFalls_carries (n := 2 + 0) (first := true)
    (s := (s.mapTc f).mapTc fun tc => { tc with st := left })
    st connected radio ((quiet.takesEvents room.takesEvents).mono (by decide))
    fun _ => by rw [quiet.eventsOut, room.eventsOut]
  rw [← setTunerState_falls unsettled (same.trans tuned)] at held
  obtain ⟨-, -, head⟩ := raises.carries held
  exact head rfl

/-- R160, R163: a TUNE of a known band, or a SEEK from a channel, that finds the tuner TUNED. -/
theorem newWork_untunes {cmd : Instr} (ready : s.ready) (tuned : s.tc.st = .tuned)
    (work : (∃ tag bw cw b, cmd = .tune tag bw cw ∧ bandOf bw.toNat = some b)
      ∨ ∃ tag dw hw c, cmd = .seek tag dw hw ∧ dw.toNat ≤ 1 ∧ s.tc.channel = some c) :
    ∃ tag kind u, exec cmd s = .next (finish u) ∧ (beginCommand tag kind s).untunes u := by
  rcases work with ⟨tag, bw, cw, b, rfl, band⟩ | ⟨tag, dw, hw, c, rfl, direction, channel⟩
  · exact ⟨_, _, _, record_ready _ _ _ ready, tuneEffect_untunes band tuned⟩
  · exact ⟨_, _, _, record_ready _ _ _ ready, seekEffect_untunes direction channel tuned⟩

/-- R26: the running timer of a radio source is suspended. -/
theorem suspended_eq (sc : SwitchUnit) : sc.suspended true
    = { sc with timer := { sc.timer with suspended := sc.timer.suspended || sc.timer.running } } := by
  unfold SwitchUnit.suspended
  cases running : sc.timer.running
  · rw [if_neg (by decide), Bool.or_false]
  · rw [if_pos rfl, Bool.or_true]

/-- R26: it counts on. -/
theorem resumed_eq (sc : SwitchUnit) : sc.suspended false
    = { sc with timer := { sc.timer with suspended := sc.timer.suspended && !sc.timer.running } } := by
  unfold SwitchUnit.suspended
  cases running : sc.timer.running
  · rw [if_neg (by decide), Bool.not_false, Bool.and_true]
  · rw [if_pos rfl, Bool.not_true, Bool.and_false]

/-- R26: the waiting states' timer is suspended at the tuner's loss. -/
theorem lost_suspends {sc : SwitchUnit} {settled : Bool} (st : sc.st = .acquire ∨ sc.st = .hold) :
    sc.lost .tuner settled
      = { sc with timer := { sc.timer with suspended := sc.timer.suspended || sc.timer.running } } := by
  rw [← suspended_eq]
  rcases st with st | st <;> simp only [SwitchUnit.lost, st, if_true]

theorem lost_idle {sc : SwitchUnit} {settled : Bool} {c : LossCause} (st : sc.st = .idle) :
    sc.lost c settled = sc := by
  simp only [SwitchUnit.lost, st]

theorem startedTimer_radio {src : Source} (radio : src.port = 4) : startedTimer false src
    = if src.holdTime = 0 then stoppedTimer
      else { running := true, remaining := 2457600 * src.holdTime, suspended := true } := by
  rw [startedTimer, Source.isRadio, decide_eq_true radio, holdUnit, Nat.mul_comm]
  rfl

theorem plays_elim {sc : SwitchUnit} {p : Fin 6} (plays : sc.plays p = true) :
    ∃ i, sc.connected = some i ∧ sc.table[i].port = p := by
  cases connected : sc.connected with
  | none => simp [SwitchUnit.plays, SwitchUnit.source, connected] at plays
  | some i => exact ⟨i, rfl, (plays_iff connected).1 plays⟩

/-! ## The rise of the settled condition -/

/-- R25, R26, R167: the switch once the tuner of its radio source is settled, IN4's lock as `l`. -/
def SwitchUnit.returned (sc : SwitchUnit) (l : LockState) (inForce : RateClass) : SwitchUnit :=
  match l with
  | .locked c => (sc.suspended false).regained (c = inForce)
  | _ => sc.suspended false

theorem radio_settledRises (s : State) : (settledRises s).kept.radio = { s.kept.radio with
    sc := if s.sc.plays 4 then s.sc.returned s.ports[(4 : Fin 6)].lock s.clock.cls else s.sc } := by
  unfold settledRises
  rw [connectedRadio_eq, suspendTimer_eq]
  split
  · unfold regainByTuner SwitchUnit.returned
    have lock : (s.mapSc fun sc => sc.suspended false).ports[4].lock = s.ports[(4 : Fin 6)].lock := rfl
    rw [lock]
    cases s.ports[(4 : Fin 6)].lock with
    | locked c => exact congrArg Kept.radio (kept_regain (s.mapSc fun sc => sc.suspended false) c)
    | noSignal => rfl
    | measuring => rfl
    | unsupported => rfl
  · rfl

theorem setTunerState_rises (unsettled : s.tc.st ≠ .tuned) :
    setTunerState .tuned s = settledRises (s.mapTc fun tc => { tc with st := .tuned }) := by
  simp [setTunerState, tunerSettled, unsettled]

/-- The state of `s` once the tuner is TUNED. -/
def RadioView.tuned (v : RadioView) : RadioView :=
  { v with
    st := .tuned,
    sc := if v.sc.plays 4 then v.sc.returned v.ports[(4 : Fin 6)].lock v.clock.cls else v.sc }

theorem radio_setTuned (unsettled : s.tc.st ≠ .tuned) :
    (setTunerState .tuned s).kept.radio = s.kept.radio.tuned := by
  rw [setTunerState_rises unsettled, radio_settledRises]
  rfl

theorem radio_raiseTuner (c : TunerCode) (d1 d2 : Word) (s : State) :
    (raiseTuner c d1 d2 s).kept.radio = s.kept.radio := by
  rw [raiseTuner, kept_raiseEvent]

/-- R162: the quality of a status read. -/
theorem qualityOf_eq (b : Band) (level multipath : Nat) :
    qualityOf b level multipath = if b = .fm then min 127 (level - 4 * multipath) else level := by
  cases b with
  | fm => rw [qualityOf, clampInt, if_pos rfl]; omega
  | am => rfl

theorem radio_endTune {b : Band} {r : ReadOut} (flag : r.tuned = true) (unsettled : s.tc.st ≠ .tuned) :
    (endTune b r s).kept.radio = s.kept.radio.tuned := by
  rw [endTune, flag, ← radio_setTuned unsettled]
  exact radio_raiseTuner _ _ _ _

theorem radio_endSeek (c : TunerCode) (d2 : Nat) (unsettled : s.tc.st ≠ .tuned) :
    (endSeek c true d2 s).kept.radio = s.kept.radio.tuned := by
  rw [← radio_setTuned unsettled]
  exact radio_raiseTuner _ _ _ _

/-- R161, R165: a status read that ends its work on a locked signal. -/
def State.readEnds (s : State) (quality : Nat) : Prop :=
  s.tc.st = .settling ∨ (s.tc.st = .seeking ∧ ∃ ctx, s.tc.seek = some ctx
    ∧ (ctx.returning = true ∨ ctx.stopPending = true ∨ ctx.threshold ≤ quality))

theorem radio_statusReadDone {b : Band} {b0 b1 : Byte} (flag : b0.getLsbD 7 = true)
    (ends : s.readEnds (readOut b b0 b1).quality) : (statusReadDone b b0 b1 s).kept.radio = s.kept.radio.tuned := by
  have flag : (readOut b b0 b1).tuned = true := flag
  unfold statusReadDone; dsimp only
  rcases ends with st | ⟨st, ctx, seek, ends⟩
  · simp only [State.mapTc_tc, st]
    refine (radio_endTune flag ?_).trans rfl
    simp [st]
  · simp only [State.mapTc_tc, st, seek]
    have ended (c : TunerCode) (d2 : Nat) : (endSeek c true d2 (s.mapTc fun tc =>
        { tc with quality := (readOut b b0 b1).quality })).kept.radio = s.kept.radio.tuned :=
      (radio_endSeek c d2 (by simp [st])).trans rfl
    unfold endSeekStep
    rw [flag]
    split_ifs with returning stop found
    · exact ended _ _
    · exact ended _ _
    · exact ended _ _
    · exact absurd ⟨rfl, (ends.resolve_left returning).resolve_left stop⟩ found

/-- R155, R167: the read that brings TUNED back. -/
theorem linkAttemptEnd_tunes {b0 b1 : Byte} {a : Attempt} {b : Band} (high : s.resetLow = false)
    (link : s.tc.link = .attempt a) (request : a.request = .statusRead) (counts : a.discard = false)
    (band : s.tc.band = some b) (flag : b0.getLsbD 7 = true) (ends : s.readEnds (readOut b b0 b1).quality) :
    ∃ t, exec (.linkAttemptEnd true b0 b1) s = .next t ∧ t.kept.radio = s.kept.radio.tuned := by
  refine ⟨_, live_ready (attemptEnd true b0 b1) high, ?_⟩
  have idle : attemptEnd true b0 b1 s
      = statusReadDone b b0 b1 (s.mapTc fun tc => { tc with link := .idle, retry := 0 }) := by
    simp only [attemptEnd, link, counts, request, Bool.false_eq_true, if_false, if_true, attemptSucceeded,
      State.mapTc_tc, band]
  rw [radio_finish, idle, radio_statusReadDone flag]
  · rfl
  · exact ends

section
variable {sc : SwitchUnit} {c d : RateClass} {l : LockState}

theorem suspended_st (b : Bool) : (sc.suspended b).st = sc.st := by
  unfold SwitchUnit.suspended; split <;> rfl

theorem returned_inForce (st : sc.st = .hold) (lock : l = .locked d) :
    sc.returned l d = { sc with timer := stoppedTimer } := by
  rw [lock]
  refine (regained_inForce ((suspended_st false).trans st) rfl).trans ?_
  unfold SwitchUnit.suspended; split <;> rfl

theorem returned_other (st : sc.st = .hold) (lock : l = .locked c) (other : c ≠ d)
    (connected : sc.connected = some i) : sc.returned l d
      = { sc with st := .drain, target := .source i, timer := stoppedTimer, cause := none } := by
  have plugged : (sc.suspended false).connected = some i := by
    rw [← connected]; unfold SwitchUnit.suspended; split <;> rfl
  rw [lock]
  refine (regained_other ((suspended_st false).trans st) other plugged).trans ?_
  unfold SwitchUnit.suspended; split <;> rfl

theorem returned_still (h : sc.st ≠ .hold ∨ ∀ c, l ≠ .locked c) : sc.returned l d
    = { sc with timer := { sc.timer with suspended := sc.timer.suspended && !sc.timer.running } } := by
  rw [← resumed_eq]
  cases l with
  | locked c =>
    have st : sc.st ≠ .hold := h.resolve_right fun none => none c rfl
    exact regained_still (by rw [suspended_st]; exact st)
  | noSignal => rfl
  | measuring => rfl
  | unsupported => rfl

end

end

end Sys2Proof.Machine
end

