-- ==== Sys2Proof/Proofs/FormatChanges.lean ====
section
/-! SUPPORT. The frame that completes a block, whether it makes a boundary or not: what it leaves before a boundary's
work, and the switch after a change of format (R20a, R29). -/

namespace Sys2Proof.Machine

section
variable {s : State} {p : Fin 6} {c : RateClass} {bits : List Bool} {fmt : Bool}

/-- R29: what makes a completion of port `p` at class `c` a boundary. -/
def State.boundaryOn (s : State) (p : Fin 6) (c : RateClass) : Prop :=
  (∃ i, s.sc.connected = some i ∧ s.sc.table[i].port = p) ∧ (c = s.clock.cls ∨ s.sc.st = .acquire)
    ∧ (p = 4 → s.tc.st = .tuned)

theorem completionIsBoundary_iff : completionIsBoundary p c (s.framed p bits) = true ↔ s.boundaryOn p c := by
  have source : connectedSource (s.framed p bits) = connectedSource s := rfl
  rw [completionIsBoundary, source, State.boundaryOn]
  cases connected : s.sc.connected with
  | none => simp [connectedSource, connected]
  | some i =>
    rw [connectedSource_of connected]
    have settled : (!s.sc.table[i].isRadio || tunerSettled (s.framed p bits)) = true
        ↔ (s.sc.table[i].port = 4 → s.tc.st = .tuned) := by
      rw [Source.isRadio, Bool.or_eq_true, Bool.not_eq_true', decide_eq_false_iff_not, ← imp_iff_not_or]
      exact imp_congr_right fun _ => decide_eq_true_iff
    have cls : (s.framed p bits).clock.cls = s.clock.cls := rfl
    have st : (s.framed p bits).sc.st = s.sc.st := rfl
    simp only [Bool.and_eq_true, decide_eq_true_eq, settled, cls, st, Bool.or_eq_true, Option.some.injEq,
      exists_eq_left', and_assoc]
    exact and_congr_right fun port => by rw [port]

/-- The state in which a completed block is offered. -/
def State.blockDue (s : State) (p : Fin 6) (c : RateClass) (bits : List Bool) : State :=
  if completionIsBoundary p c (s.framed p bits) then followCompletion c (s.framed p bits) else s.framed p bits

/-- What a completion leaves before a boundary's work. -/
def State.completedAt (s : State) (p : Fin 6) (c : RateClass) (bits : List Bool) (fmt : Bool) : State :=
  offeredState (s.blockDue p c bits) p c fmt

theorem completeBlock_completedAt : completeBlock p c fmt (s.framed p bits)
    = if completionIsBoundary p c (s.framed p bits) then
        boundaryWork (offeredBlock (s.framed p bits) p) (s.completedAt p c bits fmt)
      else s.completedAt p c bits fmt := by
  rw [completeBlock_eq, State.completedAt, State.blockDue]
  split <;> rfl

theorem blockDue_quiet : Quiet s (s.blockDue p c bits) := by
  unfold State.blockDue
  split
  · exact (quiet_framed p bits).trans (quiet_followCompletion c)
  · exact quiet_framed p bits

theorem blockDue_units : (s.blockDue p c bits).sc = s.sc
    ∧ (s.blockDue p c bits).ports[p] = s.ports[p].framed p (tunerSettled s) bits := by
  unfold State.blockDue
  split
  · have port : (followCompletion c (s.framed p bits)).ports[p] = (s.framed p bits).ports[p] := by
      simp only [followCompletion_ports]
    exact ⟨followCompletion_sc _ c, port.trans (State.framed_at s p bits)⟩
  · exact ⟨rfl, State.framed_at s p bits⟩

theorem completedAt_sc : (s.completedAt p c bits fmt).sc = s.sc.sampled p s.ports[p] fmt := by
  obtain ⟨sc, port⟩ := blockDue_units (s := s) (p := p) (c := c) (bits := bits)
  rw [State.completedAt, offeredState_sampled, sc, port]
  rfl

theorem completedAt_port : (s.completedAt p c bits fmt).ports[p]
    = (s.ports[p].framed p (tunerSettled s) bits).completed fmt := by
  obtain ⟨-, port⟩ := blockDue_units (s := s) (p := p) (c := c) (bits := bits)
  have ports : (s.completedAt p c bits fmt).ports = _ :=
    congrArg Kept.ports (kept_offeredState (s.blockDue p c bits) p c fmt)
  rw [ports, port]
  simp only [Fin.getElem_fin, Vector.getElem_set_self]

theorem completedAt_clock : (s.completedAt p c bits fmt).clock = (s.blockDue p c bits).clock :=
  congrArg Kept.clock (kept_offeredState (s.blockDue p c bits) p c fmt)

theorem completeBlock_port : (completeBlock p c fmt (s.framed p bits)).ports[p]
    = (s.ports[p].framed p (tunerSettled s) bits).completed fmt := by
  rw [← completedAt_port (c := c), completeBlock_completedAt]
  generalize s.completedAt p c bits fmt = u
  split
  · obtain ⟨ports, -⟩ := boundaryWork_outside (offeredBlock (s.framed p bits) p) u
    simp only [ports]
  · rfl

theorem completeBlock_stamp : (completeBlock p c fmt (s.framed p bits)).clock.stamp
    = (s.blockDue p c bits).clock.stamp := by
  rw [← completedAt_clock (c := c) (fmt := fmt), completeBlock_completedAt]
  generalize s.completedAt p c bits fmt = u
  split
  · obtain ⟨-, -, -, stamp, -⟩ := boundaryWork_outside (offeredBlock (s.framed p bits) p) u
    exact stamp
  · rfl

/-! ## The switch -/

/-- A completion whose boundary's first stage leaves the switch as the sample left it. -/
theorem completeBlock_rests {x : SwitchUnit} (sampled : s.sc.sampled p s.ports[p] fmt = x)
    (begun : s.boundaryOn p c → (begunState (s.completedAt p c bits fmt)).sc = x) (drain : x.st ≠ .drain)
    (ramp : x.st ≠ .playRamp) : (completeBlock p c fmt (s.framed p bits)).sc = x := by
  rw [completeBlock_completedAt]
  split
  · rename_i boundary
    exact boundaryWork_rests (begun (completionIsBoundary_iff.1 boundary)) drain ramp
  · rw [completedAt_sc, sampled]

theorem completeBlock_drains {x : SwitchUnit} (sampled : s.sc.sampled p s.ports[p] fmt = x) (drain : x.st = .drain)
    (loud : ∃ i : Fin 8, (completeBlock p c fmt (s.framed p bits)).ru.levels[i].applied ≠ 192) :
    (completeBlock p c fmt (s.framed p bits)).sc = x := by
  have sc : (s.completedAt p c bits fmt).sc = x := completedAt_sc.trans sampled
  have begun : (begunState (s.completedAt p c bits fmt)).sc = x := by
    rw [begunState, switchBefore_still (.inr (.inr (by rw [← drain, ← sc]; rfl)))]
    exact sc
  rw [completeBlock_completedAt] at loud ⊢
  split at loud
  · rw [if_pos ‹_›]
    exact boundaryWork_drains begun drain loud
  · rw [if_neg ‹_›]
    exact sc

variable {i : Fin 8}

/-- R15: the format that a completion's changed line leaves. -/
theorem completedAt_format (change : s.ports[p].change = true) :
    (s.completedAt p c bits fmt).ports[p].format = formatOnLine fmt := by
  rw [completedAt_port, framed_completed]
  exact if_pos change

theorem completedAt_reformed (connected : s.sc.connected = some i) (port : s.sc.table[i].port = p)
    (change : s.ports[p].change = true) (differs : s.ports[p].format ≠ formatOnLine fmt) :
    (s.completedAt p c bits fmt).sc = s.sc.reformed s.sc.table[i] (formatOnLine fmt) := by
  subst port
  rw [completedAt_sc, SwitchUnit.sampled_changed connected change differs]

theorem startingOn_waits (sc : SwitchUnit) (j : Fin 8) (path : EffPath) (bare settled : Bool) :
    (sc.startingOn j path bare settled).st ≠ .drain ∧ (sc.startingOn j path bare settled).st ≠ .playRamp := by
  cases bare <;> simp [SwitchUnit.startingOn]

/-- R20, R20a: an AUTO source in ACQUIRE whose signal changes format is connected anew at that completion. -/
theorem completeBlock_reconnects (connected : s.sc.connected = some i) (port : s.sc.table[i].port = p)
    (boundary : s.boundaryOn p c) (change : s.ports[p].change = true) (differs : s.ports[p].format ≠ formatOnLine fmt)
    (auto : s.sc.table[i].path = .auto) (st : s.sc.st = .acquire) (request : s.sc.connectRequest = false) :
    ∃ bare settled, (completeBlock p c fmt (s.framed p bits)).sc
      = s.sc.startingOn i (if formatOnLine fmt = .pcm then .direct else .hosted) bare settled := by
  have format := completedAt_format (c := c) (bits := bits) (fmt := fmt) change
  have sc := completedAt_reformed (c := c) (bits := bits) connected port change differs
  rw [SwitchUnit.reformed_requests _ auto st, request, if_neg (by decide), SwitchUnit.self, connected] at sc
  rw [completeBlock_completedAt, if_pos (completionIsBoundary_iff.2 boundary)]
  generalize s.completedAt p c bits fmt = u at format sc ⊢
  have arrived : (takeLatches u).sc = _ := sc
  have entry : (takeLatches u).sc.table[i] = s.sc.table[i] := by rw [arrived]
  have path : pathAtConnect (takeLatches u) s.sc.table[i] = if formatOnLine fmt = .pcm then .direct else .hosted := by
    subst port
    have found : (takeLatches u).ports[s.sc.table[i].port].format = formatOnLine fmt := format
    simp only [pathAtConnect, auto, found]
  have begun : begunState u = connect (takeLatches u) := by
    simp only [begunState, switchBefore, arrived, st, if_true]
  have connects := connect_sc (s := takeLatches u) (j := i) (by rw [arrived]) entry
  rw [path, startingOn_congr (b := s.sc) (by rw [arrived])] at connects
  obtain ⟨drain, ramp⟩ := startingOn_waits s.sc i (if formatOnLine fmt = .pcm then .direct else .hosted) _ _
  exact ⟨_, _, boundaryWork_rests (by rw [begun, connects]) drain ramp⟩

/-- R20a: a source on a fixed path that an encoded signal has silenced stays BLOCKED at its boundary. -/
theorem completeBlock_blocks (connected : s.sc.connected = some i) (port : s.sc.table[i].port = p)
    (change : s.ports[p].change = true) (differs : s.ports[p].format ≠ formatOnLine fmt)
    (fixed : s.sc.table[i].path ≠ .auto) (direct : s.sc.path = .direct) (encoded : formatOnLine fmt = .encoded)
    (st : s.sc.st = .playing ∨ s.sc.st = .playRamp) :
    (completeBlock p c fmt (s.framed p bits)).sc = s.sc.blocked .format := by
  have format := completedAt_format (c := c) (bits := bits) (fmt := fmt) change
  have sc := completedAt_reformed (c := c) (bits := bits) connected port change differs
  rw [SwitchUnit.reformed_fixed _ fixed, if_pos ⟨direct, encoded⟩, if_pos st] at sc
  refine completeBlock_rests (completedAt_sc.symm.trans sc) (fun _ => ?_) (by simp [SwitchUnit.blocked])
    (by simp [SwitchUnit.blocked])
  generalize s.completedAt p c bits fmt = u at format sc ⊢
  have arrived : (takeLatches u).sc = _ := sc
  have source : connectedSource (takeLatches u) = some s.sc.table[i] := by
    rw [connectedSource, arrived, SwitchUnit.blocked, connected]; rfl
  rw [begunState, switchBefore_blocked (by rw [arrived]; rfl), testBlocked_waits source, arrived]
  rintro ⟨-, -, suits⟩
  subst port
  have found : (takeLatches u).ports[s.sc.table[i].port].format = formatOnLine fmt := format
  rw [signalSuits, found, arrived, encoded] at suits
  simp [SwitchUnit.blocked, direct] at suits

theorem raises_boundaryWork (offered : Option OfferedBlock) (u : State) : Raises 23 u (boundaryWork offered u) :=
  ((quiet_takeLatches u).then (raises_switchBefore _)).trans (raises_boundaryWork_begun offered u)

/-- R30: the event of that BLOCKED, with the stamp then in force. -/
theorem completeBlock_blockedEvent (connected : s.sc.connected = some i) (port : s.sc.table[i].port = p)
    (change : s.ports[p].change = true) (differs : s.ports[p].format ≠ formatOnLine fmt)
    (fixed : s.sc.table[i].path ≠ .auto) (direct : s.sc.path = .direct) (encoded : formatOnLine fmt = .encoded)
    (st : s.sc.st = .playing ∨ s.sc.st = .playRamp) (room : s.eventRoom) :
    { eventNow s (.source .blocked) (BitVec.ofNat 16 i.val) 0 (natWord Format.encoded.code) with
      stamp := (completeBlock p c fmt (s.framed p bits)).clock.stamp }
      ∈ (completeBlock p c fmt (s.framed p bits)).eventsOut := by
  obtain ⟨sc, framed⟩ := blockDue_units (s := s) (p := p) (c := c) (bits := bits)
  have blocked := offeredState_blocks (n := 23 + 0) (s := s.blockDue p c bits) (i := i) (p := p) (fmt := fmt) c
    (by rw [sc]; exact connected) (by rw [sc]; exact port) (by rw [framed]; exact change)
    (by rw [framed]; exact differs) (by rw [sc]; exact fixed) (by rw [sc]; exact direct) encoded
    (by rw [sc]; exact st) ((blockDue_quiet.takesEvents room.takesEvents).mono (by decide))
  rw [completeBlock_stamp, completeBlock_completedAt]
  split
  · obtain ⟨-, mem, -⟩ := (raises_boundaryWork (offeredBlock (s.framed p bits) p) _).carries blocked
    exact mem
  · obtain ⟨-, mem, -⟩ := blocked
    exact mem

end

end Sys2Proof.Machine
end

