-- ==== Sys2Proof/Proofs/SourceSignals.lean ====
section
/-! The signal of the connected source: its loss, its regain and its change of format (R20a, R24 to R26, R167). -/

namespace Sys2Proof.Machine

/-- R20a: the switch once the signal of the connected source has changed format. -/
theorem sampled_reformed {s : State} {i : Fin 8} {fmt : Bool} (connected : s.sc.connected = some i)
    (change : s.ports[s.sc.table[i].port].change = true)
    (differs : s.ports[s.sc.table[i].port].format ≠ formatOnLine fmt) :
    s.sc.sampled s.sc.table[i].port s.ports[s.sc.table[i].port] fmt
      = s.sc.reformed s.sc.table[i] (formatOnLine fmt) :=
  SwitchUnit.sampled_changed connected change differs

/-- R18, R20a: on the HOSTED path a fixed source plays on. -/
theorem completeBlock_plays {s : State} {i : Fin 8} {c : RateClass} {bits : List Bool} {fmt : Bool}
    (connected : s.sc.connected = some i) (change : s.ports[s.sc.table[i].port].change = true)
    (differs : s.ports[s.sc.table[i].port].format ≠ formatOnLine fmt) (fixed : s.sc.table[i].path ≠ .auto)
    (hosted : s.sc.path = .hosted) (st : s.sc.st = .playing) :
    (completeBlock s.sc.table[i].port c fmt (s.framed s.sc.table[i].port bits)).sc = s.sc := by
  have same : s.sc.sampled s.sc.table[i].port s.ports[s.sc.table[i].port] fmt = s.sc := by
    rw [sampled_reformed connected change differs, SwitchUnit.reformed_fixed _ fixed, if_neg (by simp [hosted])]
  refine completeBlock_rests same (fun _ => ?_) (by simp [st]) (by simp [st])
  have sc := (completedAt_sc (c := c) (bits := bits)).trans same
  generalize s.completedAt s.sc.table[i].port c bits fmt = u at sc ⊢
  have arrived : (takeLatches u).sc = s.sc := sc
  rw [begunState, switchBefore_still (.inl (by rw [arrived, st])), arrived]

/-- Settles O49: the window by `windowEnd_played`, the completion by the switch that its sample leaves, the tuner's
loss and return by `State.untunes` and `linkAttemptEnd_tunes`. -/
theorem signalLossRegainAndFormatChange : Obligations.SignalLossRegainAndFormatChange := by
  unfold Obligations.SignalLossRegainAndFormatChange
  refine ⟨?_, ?_, ?_, ?_⟩
  · intro s i high connected
    obtain ⟨sc, clock⟩ := windowEnd_played connected rfl
    have plays : s.sc.plays s.sc.table[i].port = true := (plays_iff connected).2 rfl
    refine ⟨_, live_ready windowEnd high, fun c locked miss missed => ?_, fun c measuring candidate again => ?_,
      fun c locked holds => ?_⟩
    · have leaves := PortState.leavesLock_iff.2 ⟨c, locked, miss, missed⟩
      rw [if_pos leaves] at clock
      rw [relocked_loses locked (leavesLock_next leaves) plays] at sc
      rw [finish_sc, finish_clock, sc, clock]
      exact ⟨rfl, fun st => ⟨(lost_holds st).trans (holding_timed connected), windowEnd_holds st connected leaves⟩,
        lost_drains, lost_waits⟩
    · obtain ⟨next, stays⟩ := nextLock_enters measuring candidate again
      rw [stays] at clock
      rw [measuring, next, relocked_regains plays] at sc
      rw [finish_sc, finish_clock, sc, clock]
      exact ⟨rfl, regained_inForce, fun st other => regained_other st other connected, regained_still⟩
    · obtain ⟨next, stays⟩ := nextLock_stays locked holds
      rw [stays] at clock
      rw [locked, next] at sc
      rw [finish_sc, finish_clock, sc, clock]
      exact ⟨rfl, rfl⟩
  · refine fun s i c bits fmt high connected => ?_
    by_cases completes : s.ports[s.sc.table[i].port].lock = .locked c
      ∧ s.ports[s.sc.table[i].port].filling.length = 31
    · obtain ⟨lock, length⟩ := completes
      refine ⟨_, exec_portFrame_completes s bits fmt high lock length, fun _ _ change differs => ?_⟩
      rw [finish_ports, finish_sc, finish_ru, finish_clock, (quiet_finish _).eventsOut]
      have port := completeBlock_port (s := s) (p := s.sc.table[i].port) (c := c) (bits := bits) (fmt := fmt)
      rw [framed_completed] at port
      have sampled := sampled_reformed connected change differs
      refine ⟨by rw [port]; exact if_pos change, by rw [port, change]; rfl, fun auto loud st => ?_,
        fun auto st request other => ?_, fun fixed direct encoded st => ⟨?_, fun room => ?_⟩,
        fun fixed hosted st => completeBlock_plays connected change differs fixed hosted st, fun st loud => ?_⟩
      · rw [SwitchUnit.reformed_drains _ auto st, SwitchUnit.self, connected] at sampled
        exact completeBlock_drains sampled rfl loud
      · obtain ⟨bare, settled, sc⟩ := completeBlock_reconnects (c := c) (bits := bits) connected rfl
          ⟨⟨i, connected, rfl⟩, .inr st, fun radio => absurd radio other⟩ change differs auto st request
        rw [sc]
        refine ⟨rfl, rfl, rfl, rfl, ?_⟩
        cases bare
        · exact .inl rfl
        · exact .inr ⟨rfl, rfl⟩
      · exact completeBlock_blocks connected rfl change differs fixed direct encoded st
      · have raised := completeBlock_blockedEvent (c := c) (bits := bits) connected rfl change differs fixed direct
          encoded st room
        rw [← encoded] at raised
        exact raised
      · rw [SwitchUnit.reformed_silences _ st] at sampled
        refine (completeBlock_drains sampled ?_ loud).trans rfl
        split <;> exact st
    · exact ⟨_, live_ready (portFrameWork s.sc.table[i].port bits fmt) high,
        fun lock length => absurd ⟨lock, length⟩ completes⟩
  · intro s cmd ready _ tuned work
    obtain ⟨tag, kind, u, runs, untunes⟩ := newWork_untunes ready tuned work
    obtain ⟨st, unsettled, radio⟩ := untunes.radio tuned
    have kept : (beginCommand tag kind s).kept.radio = s.kept.radio := by rw [kept_beginCommand]
    rw [kept, ← radio_finish] at radio
    have state : (finish u).tc.st = st := congrArg RadioView.st radio
    have sc : (finish u).sc = _ := congrArg RadioView.sc radio
    have clock : (finish u).clock = _ := congrArg RadioView.clock radio
    simp only [RadioView.untuned] at sc clock
    refine ⟨finish u, runs, by rw [state]; exact unsettled, congrArg RadioView.ports radio, congrArg RadioView.ou radio,
      fun other => ?_, fun i connected port => ?_⟩
    · have unplayed : ¬ s.sc.plays 4 = true := fun plays => by
        obtain ⟨i, connected, port⟩ := plays_elim plays
        exact other i connected port
      rw [sc, clock]
      exact ⟨if_neg unplayed, if_neg unplayed⟩
    · have plays : s.sc.plays 4 = true := (plays_iff connected).2 port
      have sc : (finish u).sc = s.sc.lost .tuner false := sc.trans (if_pos plays)
      rw [sc]
      refine ⟨clock.trans (if_pos plays), fun st => ⟨?_, fun room => ?_⟩, lost_suspends, lost_drains, lost_idle⟩
      · rw [lost_holds st, holding_eq connected, startedTimer_radio port]
        rfl
      · have quiet : Quiet s (beginCommand tag kind s) := rfl
        rw [(quiet_finish u).eventsOut]
        exact untunes.holds tuned st connected port (quiet.eventRoom room)
  · intro s b0 b1 a b high link request counts band flag ends
    have quality : (readOut b b0 b1).quality = _ := qualityOf_eq _ _ _
    obtain ⟨t, runs, radio⟩ := linkAttemptEnd_tunes high link request counts band flag (by rw [quality]; exact ends)
    have sc : t.sc = _ := congrArg RadioView.sc radio
    simp only [RadioView.tuned] at sc
    refine ⟨t, runs, congrArg RadioView.st radio, congrArg RadioView.clock radio, congrArg RadioView.ports radio,
      congrArg RadioView.ou radio, fun other => ?_, fun i connected port => ?_⟩
    · refine sc.trans (if_neg fun plays => ?_)
      obtain ⟨i, connected, port⟩ := plays_elim plays
      exact other i connected port
    · rw [sc.trans (if_pos ((plays_iff connected).2 port))]
      exact ⟨returned_inForce, fun c st lock other => returned_other st lock other connected, returned_still⟩

end Sys2Proof.Machine
end

