-- ==== Sys2Proof/Proofs/BoundaryRequests.lean ====
section
/-! SUPPORT. The lock requests at a boundary that makes no connect (R39, R42): only the test for the next fetch adds
one, and no work takes one away. -/

namespace Sys2Proof.Machine

/-- R39: every lock asked for before is asked for still. -/
def Asks (s t : State) : Prop := ∀ l ∈ s.pu.requests, l ∈ t.pu.requests

section
variable {s t u : State}

theorem Asks.refl : Asks s s := fun _ mem => mem

theorem Asks.trans (h : Asks s t) (k : Asks t u) : Asks s u := fun l mem => k l (h l mem)

theorem Asks.of_requests (h : t.pu.requests = s.pu.requests) : Asks s t := fun l mem => by rwa [h]

end

section
variable (s : State)

/-! ## Transfers and events -/

@[simp] theorem requests_placeAll (q : Queue) (ts : List Transfer) :
    (placeAll q ts s).pu.requests = s.pu.requests := by
  induction ts generalizing s with
  | nil => rfl
  | cons t ts ih => exact ih (placeTransfer q t s)

@[simp] theorem requests_writeIndexWord (w : IndexWord) : (writeIndexWord w s).pu.requests = s.pu.requests := by
  unfold writeIndexWord
  split_ifs <;> rfl

@[simp] theorem requests_dropEvent : (dropEvent s).pu.requests = s.pu.requests := requests_writeIndexWord _ _

@[simp] theorem requests_writeOldest (es : List Event) : (writeOldest es s).pu.requests = s.pu.requests := by
  induction es generalizing s with
  | nil => rfl
  | cons e es ih =>
    rw [writeOldest]
    split
    · rw [ih, requests_dropEvent]
    · rfl

@[simp] theorem requests_raiseEvent (n : EventName) (sub : BitVec 16) (d1 d2 : Word) :
    (raiseEvent n sub d1 d2 s).pu.requests = s.pu.requests := by
  unfold raiseEvent queueEvent pumpEvents
  split_ifs
  · rfl
  · exact requests_writeOldest _ _
  · exact requests_dropEvent s

theorem requests_foldl {α : Type} {f : State → α → State} (h : ∀ s a, (f s a).pu.requests = s.pu.requests)
    (l : List α) : (l.foldl f s).pu.requests = s.pu.requests := by
  induction l generalizing s with
  | nil => rfl
  | cons a l ih => exact (ih (f s a)).trans (h s a)

/-! ## The Switch Controller without a connect -/

theorem requests_testReadiness : (testReadiness s).pu.requests = s.pu.requests := by
  unfold testReadiness
  split
  · rfl
  · split_ifs
    · rfl
    · exact requests_raiseEvent _ _ _ _ _
    · rfl

theorem requests_switchBefore (due : ¬ s.connectDue) : (switchBefore s).pu.requests = s.pu.requests := by
  unfold switchBefore
  split
  · rename_i st; rw [if_neg fun k => due ⟨.inl st, k⟩]
  · rename_i st; rw [if_neg fun k => due ⟨.inr st, k⟩, requests_testReadiness]
  · split
    · exact requests_testReadiness s
    · rfl
  · unfold testBlocked
    split
    · rfl
    · split <;> rfl
  · rfl

theorem requests_switchAfter (before : State) (loud : ¬ (s.sc.st = .drain ∧ muteReached s = true)) :
    (switchAfter before s).pu.requests = s.pu.requests := by
  unfold switchAfter
  split
  · rename_i st; rw [if_neg fun k => loud ⟨st, k⟩]
  · split
    · exact requests_raiseEvent _ _ _ _ _
    · rfl
  · rfl

/-! ## The Ring Engine -/

theorem requests_freeWithdrawn : (freeWithdrawn s).pu.requests = s.pu.requests := by
  unfold freeWithdrawn
  split <;> rfl

theorem requests_advanceConsumer : (advanceConsumer s).pu.requests = s.pu.requests := requests_writeIndexWord _ _

theorem requests_ladderTaken : (ladderTaken s).pu.requests = s.pu.requests := by
  unfold ladderTaken; dsimp only
  split
  · exact requests_raiseEvent _ _ _ _ _
  · rfl

theorem requests_ladderMiss : (ladderMiss s).2.pu.requests = s.pu.requests := by
  unfold ladderMiss; dsimp only
  split
  · rfl
  · rfl
  · exact requests_raiseEvent _ _ _ _ _
  · exact requests_raiseEvent _ _ _ _ _
  · rfl

theorem requests_slotTaken : (ladderTaken (advanceConsumer s)).pu.requests = s.pu.requests := by
  rw [requests_ladderTaken, requests_advanceConsumer]

theorem requests_takeComplete (b : HostedBlock) : (takeComplete b s).2.pu.requests = s.pu.requests := by
  unfold takeComplete; dsimp only
  split
  · exact (requests_raiseEvent _ _ _ _ _).trans (requests_slotTaken s)
  · exact requests_slotTaken s

theorem requests_consumeSlot : (consumeSlot s).2.pu.requests = s.pu.requests := by
  unfold consumeSlot
  split
  · rw [requests_ladderMiss, requests_freeWithdrawn]
  · split
    · exact requests_takeComplete s _
    · exact requests_slotTaken s
    · rw [requests_ladderMiss, requests_advanceConsumer]
    · exact requests_ladderMiss s
    · exact requests_ladderMiss s

theorem asks_testSlotFetch : Asks s (testSlotFetch s) := by
  unfold testSlotFetch
  split
  · split
    · exact fun l mem => List.mem_append_left _ mem
    · exact .refl
  · exact .refl

theorem asks_ringBoundary : Asks s (ringBoundary s).2 := by
  unfold ringBoundary
  split
  · exact (Asks.of_requests (requests_consumeSlot s)).trans (asks_testSlotFetch _)
  · exact .refl

/-! ## The Render Unit and the amplifier protection -/

theorem requests_decodeBlock (live : Bool) (input : HostedBlock) :
    (decodeBlock live input s).2.pu.requests = s.pu.requests := by
  unfold decodeBlock resetCrossover resetSteering; dsimp only
  split <;> split_ifs <;> rfl

theorem requests_raiseStateEvent (p : Fin 4) (st : PairState) (n : Nat) (c : ProtectCause) :
    (raiseStateEvent p st n c s).pu.requests = s.pu.requests := by
  unfold raiseStateEvent
  split
  case h_5 => rfl
  all_goals exact requests_raiseEvent _ _ _ _ _

theorem requests_stepActive (p : Fin 4) (b : Bool) : (stepActive p b s).pu.requests = s.pu.requests := by
  unfold stepActive; dsimp only
  split
  · rfl
  · exact requests_raiseStateEvent _ _ _ _ _

theorem requests_failRecovery (p : Fin 4) : (failRecovery p s).pu.requests = s.pu.requests :=
  (requests_raiseEvent _ _ _ _ _).trans (requests_raiseEvent _ _ _ _ _)

theorem requests_stepRecovering (p : Fin 4) : (stepRecovering p s).pu.requests = s.pu.requests := by
  unfold stepRecovering recoveryFault recoveryQuiet succeedRecovery; dsimp only
  split_ifs
  · exact requests_failRecovery _ _
  · rfl
  · rfl
  · exact requests_raiseEvent _ _ _ _ _
  · rfl
  · rfl

theorem requests_stepPair (marks : Vector Bool 8) (p : Fin 4) : (stepPair marks p s).pu.requests = s.pu.requests := by
  unfold stepPair
  split
  case h_1 => rfl
  case h_2 => exact requests_stepRecovering s p
  all_goals exact requests_stepActive s p _

theorem requests_renderLevel (b : RenderBlock) : (renderLevel b s).2.pu.requests = s.pu.requests := by
  have amp (marks : Vector Bool 8) (t : State) : (ampUpdate marks t).pu.requests = t.pu.requests :=
    requests_foldl t (fun s p => requests_stepPair s marks p) pairIds
  have stage (t : State) (b : RenderBlock) : (levelStage b t).2.pu.requests = t.pu.requests := rfl
  have bass (t : State) (b : RenderBlock) : (bassBlock b t).2.pu.requests = t.pu.requests := rfl
  rw [renderLevel, stage, amp, bass]

/-! ## The Delay Unit -/

theorem requests_handOnSpeaker (i : Fin 8) (acc : Vector (Option Chan) 8 × State) :
    (handOnSpeaker i acc).2.pu.requests = acc.2.pu.requests := by
  unfold handOnSpeaker noteLateness; dsimp only
  split
  · split
    · rfl
    · split
      · rfl
      · exact requests_raiseEvent _ _ _ _ _
  · rfl

theorem requests_delayHandOn : (delayHandOn s).2.pu.requests = s.pu.requests := by
  have handed (l : List (Fin 8)) (acc : Vector (Option Chan) 8 × State) :
      (l.foldl (fun acc i => handOnSpeaker i acc) acc).2.pu.requests = acc.2.pu.requests := by
    induction l generalizing acc with
    | nil => rfl
    | cons i l ih => exact (ih _).trans (requests_handOnSpeaker i acc)
  have start : (abandonUnplaced s).pu.requests = s.pu.requests := rfl
  rw [delayHandOn, handed, start]

theorem requests_takeDelayMode : (takeDelayMode s).pu.requests = s.pu.requests := by
  unfold takeDelayMode; dsimp only
  split <;> rfl

theorem requests_delayLinesWork (base : Nat) (blocks : Vector (Option Chan) 8) :
    (delayLinesWork base blocks s).pu.requests = s.pu.requests := by
  have writes (w : Nat) (t : State) (i : Fin 8) : (placeWrites base w i blocks[i] t).pu.requests = t.pu.requests := by
    unfold placeWrites
    split
    · rfl
    · exact requests_placeAll _ _ _
  have reads (w : Nat) (t : State) (i : Fin 8) :
      (if blocks[i].isSome then placeReads base w i t else t).pu.requests = t.pu.requests := by
    split
    · exact requests_placeAll _ _ _
    · rfl
  have counted (t : State) : (countWritten blocks t).pu.requests = t.pu.requests := rfl
  unfold delayLinesWork; dsimp only
  rw [requests_foldl _ (reads _), counted, requests_foldl s (writes _)]

theorem requests_delayTaken (h : HandOn) : (delayTaken h s).pu.requests = s.pu.requests := by
  have handed := requests_delayHandOn s
  have taken (t : State) : (takeDistances h.swaps (takeDelayMode t)).pu.requests = t.pu.requests :=
    requests_takeDelayMode t
  rw [delayTaken, taken, handed]

theorem requests_delayWork (h : HandOn) : (delayWork h s).pu.requests = s.pu.requests := by
  unfold delayWork
  split
  · exact requests_delayLinesWork s _ _
  · rfl

theorem requests_delayBoundary (h : HandOn) : (delayBoundary h s).2.pu.requests = s.pu.requests := by
  rw [delayBoundary_state, State.mapDu_pu, requests_delayWork, requests_delayTaken]

/-! ## The boundary -/

theorem requests_outputBoundary (delayed : Vector (Option Chan) 8) (main : List (Int × Int)) :
    (outputBoundary delayed main s).pu.requests = s.pu.requests := rfl

theorem requests_levelledState (offered : Option OfferedBlock) :
    (levelledState offered s).pu.requests = (ringBoundary (begunState s)).2.pu.requests := by
  have decoded (o : Option OfferedBlock) (b : Option HostedBlock) (t : State) :
      (renderDecode o b t).2.pu.requests = t.pu.requests := requests_decodeBlock t _ _
  unfold levelledState; dsimp only
  rw [requests_renderLevel, decoded]
  rfl

/-- A boundary without a connect takes no request away. -/
theorem asks_boundaryWork (offered : Option OfferedBlock) (due : ¬ s.connectDue)
    (loud : ¬ ((levelledState offered s).sc.st = .drain ∧ muteReached (levelledState offered s) = true)) :
    Asks s (boundaryWork offered s) := by
  obtain ⟨h, main, work⟩ := boundaryWork_settled offered s
  have begun : (begunState s).pu.requests = s.pu.requests := requests_switchBefore (takeLatches s) due
  have levelled := requests_levelledState s offered
  have settled : (settledState offered s).pu.requests = (levelledState offered s).pu.requests :=
    requests_switchAfter _ _ loud
  have delayed : (boundaryWork offered s).pu.requests = (ringBoundary (begunState s)).2.pu.requests := by
    rw [work, ← levelled, ← settled, requests_outputBoundary, requests_delayBoundary]
  exact (Asks.of_requests begun).trans ((asks_ringBoundary _).trans (Asks.of_requests delayed))

theorem asks_finish : Asks s (finish s) := by
  unfold finish updateStatus
  split
  · exact .refl
  · unfold imageChanged
    split
    · exact .refl
    · exact fun l mem => List.mem_append_left _ mem

end

end Sys2Proof.Machine
end

