-- ==== Sys2Proof/Proofs/StoreSides.lean ====
section
/-! SUPPORT. What a boundary that makes no connect leaves alone: the store side of the Ring Engine (R58, R66), the Delay
Unit and the record link (R112, R121, R137). -/

namespace Sys2Proof.Machine

/-! ## The store side of the Ring Engine -/

/-- The Ring Engine but for its fetch side. -/
def RingEngine.storeSide (re : RingEngine) : RingEngine :=
  { re with outCons := 0, fetch := .free, last := HostedBlock.silence 2, ladder := .waiting, missRun := 0,
            repeats := 0, silent := 0 }

theorem RingEngine.of_storeSide {a b : RingEngine} (h : a.storeSide = b.storeSide) :
    a.inProd = b.inProd ∧ a.store = b.store ∧ a.disc = b.disc ∧ a.pendingDrops = b.pendingDrops
      ∧ a.dropRun = b.dropRun ∧ a.dropped = b.dropped := by
  simp only [RingEngine.storeSide, RingEngine.mk.injEq, true_and, and_true] at h
  exact h

section
variable (s : State)

theorem raiseEvent_re (n : EventName) (sub : BitVec 16) (d1 d2 : Word) : (raiseEvent n sub d1 d2 s).re = s.re :=
  congrArg Kept.re (kept_raiseEvent s n sub d1 d2)

theorem storeSide_freeWithdrawn : (freeWithdrawn s).re.storeSide = s.re.storeSide := by
  unfold freeWithdrawn
  split <;> rfl

theorem storeSide_advanceConsumer : (advanceConsumer s).re.storeSide = s.re.storeSide := by
  have written := kept_writeIndexWord (s.mapRe fun re => { re with outCons := re.outCons + 1, fetch := .free })
    .outputConsumer
  exact congrArg (fun k => k.re.storeSide) written

theorem storeSide_ladderTaken : (ladderTaken s).re.storeSide = s.re.storeSide := by
  unfold ladderTaken; dsimp only
  split
  · rw [raiseEvent_re]; rfl
  · rfl

theorem storeSide_ladderMiss : (ladderMiss s).2.re.storeSide = s.re.storeSide := by
  have handed (b : HostedBlock) (t : State) : (handOn b t).2.re.storeSide = t.re.storeSide := rfl
  unfold ladderMiss; dsimp only
  split
  · rfl
  · rfl
  · rw [raiseEvent_re]; rfl
  · rw [handed, raiseEvent_re]; rfl
  · rfl

theorem storeSide_slotTaken : (ladderTaken (advanceConsumer s)).re.storeSide = s.re.storeSide := by
  rw [storeSide_ladderTaken, storeSide_advanceConsumer]

theorem storeSide_takeComplete (b : HostedBlock) : (takeComplete b s).2.re.storeSide = s.re.storeSide := by
  have handed (t : State) : (handOn b t).2.re.storeSide = t.re.storeSide := rfl
  have ended (t : State) : (ladderEnd t).re.storeSide = t.re.storeSide := by rw [ladderEnd, raiseEvent_re]; rfl
  unfold takeComplete; dsimp only
  rw [handed]
  split
  · rw [ended, storeSide_slotTaken]
  · exact storeSide_slotTaken s

theorem storeSide_takeBad : (takeBad s).2.re.storeSide = s.re.storeSide := by
  have handed (b : HostedBlock) (t : State) :
      (handOn b (t.mapRe fun re => { re with silent := wrapSucc re.silent })).2.re.storeSide = t.re.storeSide := rfl
  unfold takeBad; dsimp only
  rw [handed, storeSide_slotTaken]

theorem storeSide_consumeSlot : (consumeSlot s).2.re.storeSide = s.re.storeSide := by
  unfold consumeSlot
  split
  · rw [storeSide_ladderMiss, storeSide_freeWithdrawn]
  · split
    · exact storeSide_takeComplete s _
    · exact storeSide_takeBad s
    · rw [storeSide_ladderMiss, storeSide_advanceConsumer]
    · exact storeSide_ladderMiss s
    · exact storeSide_ladderMiss s

theorem storeSide_testSlotFetch : (testSlotFetch s).re.storeSide = s.re.storeSide := by
  unfold testSlotFetch
  split
  · split <;> rfl
  · rfl

/-- R66: a boundary consumes from the output ring and leaves the input ring's store alone. -/
theorem storeSide_ringBoundary : (ringBoundary s).2.re.storeSide = s.re.storeSide := by
  unfold ringBoundary
  split
  · rw [storeSide_testSlotFetch, storeSide_consumeSlot]
  · rfl

end

/-! ## A boundary without a connect -/

section
variable {a b : State}

theorem re_of_butSc (h : a.kept.butSc = b.kept.butSc) : a.re = b.re := congrArg Kept.re h
theorem du_of_butSc (h : a.kept.butSc = b.kept.butSc) : a.du = b.du := congrArg Kept.du h
theorem ou_of_butSc (h : a.kept.butSc = b.kept.butSc) : a.ou = b.ou := congrArg Kept.ou h
theorem ou_of_butAudio (h : a.kept.butAudio = b.kept.butAudio) : a.ou = b.ou := congrArg Kept.ou h
theorem ou_of_butDu (h : a.kept.butDu = b.kept.butDu) : a.ou = b.ou := congrArg Kept.ou h

end

/-- R20, R21: the boundary's work on `u` makes no connect, neither requested nor at mute reached. -/
def State.unconnects (u : State) (offered : Option OfferedBlock) : Prop :=
  ¬ u.connectDue ∧ ¬ (u.sc.st = .drain ∧ ∀ i : Fin 8, (boundaryWork offered u).ru.levels[i].applied = 192)

section
variable {u : State} {offered : Option OfferedBlock} (h : u.unconnects offered)
include h

theorem unconnects_loud :
    ¬ ((levelledState offered u).sc.st = .drain ∧ muteReached (levelledState offered u) = true) := by
  obtain ⟨requested, atMute⟩ := h
  have due : ¬ (takeLatches u).connectDue := requested
  rw [muteReached_iff, ← boundaryWork_levels, levelledState_sc]
  exact fun ⟨drain, mute⟩ => atMute ⟨switchBefore_drain (s := takeLatches u) due drain, mute⟩

theorem unconnects_begun : (begunState u).kept.butSc = (takeLatches u).kept.butSc := butSc_switchBefore h.1

theorem unconnects_settled : (settledState offered u).kept.butSc = (levelledState offered u).kept.butSc :=
  butSc_switchAfter _ (unconnects_loud h)

theorem boundaryWork_storeSide : (boundaryWork offered u).re.storeSide = u.re.storeSide := by
  have settled := re_of_butSc (unconnects_settled h)
  have begun : (begunState u).re = u.re := (re_of_butSc (unconnects_begun h)).trans rfl
  rw [boundaryWork_re, settled, levelledState_re, storeSide_ringBoundary, begun]

theorem settledState_unconnected :
    (settledState offered u).du = u.du ∧ (settledState offered u).ou = u.ou := by
  have begunDu : (begunState u).du = u.du := (du_of_butSc (unconnects_begun h)).trans rfl
  have begunOu : (begunState u).ou = u.ou := (ou_of_butSc (unconnects_begun h)).trans rfl
  have settledDu := du_of_butSc (unconnects_settled h)
  have settledOu := ou_of_butSc (unconnects_settled h)
  have audio : (levelledState offered u).kept.butAudio = (begunState u).kept.butAudio :=
    butAudio_levelledState offered u
  have levelledDu := du_of_butAudio audio
  have levelledOu := ou_of_butAudio audio
  rw [settledDu, settledOu, levelledDu, levelledOu]
  exact ⟨begunDu, begunOu⟩

/-- R134, R137: without a connect only the blocks of MAIN move. -/
theorem boundaryWork_unconnectedLink : (boundaryWork offered u).ou.link.cls = u.ou.link.cls
    ∧ (boundaryWork offered u).ou.link.count = u.ou.link.count := by
  obtain ⟨-, ou⟩ := settledState_unconnected h
  obtain ⟨delayed, rendered, d, work, du⟩ := boundaryWork_butDu offered u
  have same := ou_of_butDu du
  have link : (outputBoundary delayed rendered d).ou.link.cls = d.ou.link.cls
      ∧ (outputBoundary delayed rendered d).ou.link.count = d.ou.link.count := ⟨rfl, rfl⟩
  rwa [same, ou, ← work] at link

theorem asks_unconnected : Asks u (boundaryWork offered u) := asks_boundaryWork u offered h.1 (unconnects_loud h)

theorem boundaryWork_unconnectedClock : (boundaryWork offered u).clock = u.clock :=
  boundaryWork_clock offered u h.1 h.2

end

end Sys2Proof.Machine
end

