-- ==== Sys2Proof/Proofs/StoreOffers.lean ====
section
/-! SUPPORT. What the Ring Engine does with a completed block of the port it serves (R14, R58, R62, R70). -/

namespace Sys2Proof.Machine

/-! ## The offer -/

/-- R62: the Ring Engine once a block has been dropped. -/
def RingEngine.dropping (re : RingEngine) : RingEngine :=
  { re with dropped := wrapSucc re.dropped, pendingDrops := satSucc16 re.pendingDrops, disc := true, dropRun := true }

/-- R58: a hosted source plays the port. -/
structure State.serves (s : State) (i : Fin 8) (p : Fin 6) (r : Range) : Prop where
  connected : s.sc.connected = some i
  port : s.sc.table[i].port = p
  path : s.sc.path = .hosted
  region : s.pu.regions.input = some r

section
variable {s : State} {i : Fin 8} {p : Fin 6} {r : Range}

theorem State.serves.served (h : s.serves i p r) : servedSource s = some i := by
  rw [servedSource, h.path, h.connected]

theorem State.serves.onPort (h : s.serves i p r) : connectedOnPort s p = true := by
  rw [connectedOnPort, connectedSource_of h.connected]
  exact decide_eq_true h.port

/-- R14: a block that IN4 discards breaks the run. -/
theorem offerBlock_discarded (h : s.serves i p r) (c : RateClass) (fs : List Frame) :
    (offerBlock true p c fs s).re = { s.re with disc := true } := by
  have broken : offerBlock true p c fs s = markDiscontinuity s := by
    have on : servedOnPort s p = true := by rw [servedOnPort, h.served, h.onPort]; rfl
    exact if_pos on
  rw [broken]
  rfl

/-- R14, R58: any other block is offered to the store. -/
theorem offerBlock_offered (h : s.serves i p r) (c : RateClass) (fs : List Frame) :
    offerBlock false p c fs s = offerToLink p c fs (offerToStore i p c s.ports[p].format fs s) := by
  have ring : offerToRing p c fs s = offerToStore i p c s.ports[p].format fs s := by
    rw [offerToRing, h.served]
    exact if_pos h.onPort
  rw [offerBlock, ring]
  rfl

theorem offerToLink_re (c : RateClass) (fs : List Frame) (s : State) : (offerToLink p c fs s).re = s.re := by
  unfold offerToLink
  split <;> rfl

theorem asks_offerToLink (c : RateClass) (fs : List Frame) (s : State) : Asks s (offerToLink p c fs s) := by
  unfold offerToLink
  split <;> exact .refl

theorem dropBlock_re (c : DropCause) (s : State) : (dropBlock c s).re = s.re.dropping := by
  unfold dropBlock; dsimp only
  split
  · rw [raiseEvent_re]; rfl
  · rfl

/-- R62, R70: the first drop of a run is told. -/
theorem dropBlock_carries {n : Nat} (h : s.serves i p r) (c : DropCause) (first : s.re.dropRun = false)
    (room : s.takesEvents (n + 1)) : (dropBlock c s).carries n (eventNow s (.ring .inputDropped)
      (BitVec.ofNat 16 i.val) (natWord c.code) (s.re.inProd.setWidth 32)) false := by
  have subject : ringSubject (s.mapRe RingEngine.dropping) = BitVec.ofNat 16 i.val := by
    have served : servedSource (s.mapRe RingEngine.dropping) = some i := h.served
    rw [ringSubject, served]
    rfl
  have raised := raiseEvent_carries (first := false) (.ring .inputDropped) (ringSubject (s.mapRe RingEngine.dropping))
    (natWord c.code) ((s.mapRe RingEngine.dropping).re.inProd.setWidth 32)
    ((quiet_mapRe RingEngine.dropping (.refl (s := s))).takesEvents room) nofun
  rw [subject] at raised
  have dropped : dropBlock c s = raiseEvent (.ring .inputDropped) (ringSubject (s.mapRe RingEngine.dropping))
      (natWord c.code) ((s.mapRe RingEngine.dropping).re.inProd.setWidth 32) (s.mapRe RingEngine.dropping) := by
    rw [dropBlock, first]
    rfl
  rw [dropped, subject]
  exact raised

section
variable (h : s.serves i p r) (c : RateClass) (f : Format) (fs : List Frame)
include h

/-- R62: a store under way, or a full ring, drops the block. -/
theorem offerToStore_busy (store : s.re.store ≠ none) : offerToStore i p c f fs s = dropBlock .storeBusy s := by
  rw [offerToStore, h.region]
  exact if_pos (Option.isSome_iff_ne_none.2 store)

theorem offerToStore_full (store : s.re.store = none) (full : (s.re.inProd - s.cu.inCons).toNat = slotCount r) :
    offerToStore i p c f fs s = dropBlock .ringFull s := by
  rw [offerToStore, h.region, store]
  exact if_pos full

theorem offerToStore_quiesce (store : s.re.store = none) (space : (s.re.inProd - s.cu.inCons).toNat ≠ slotCount r)
    (quiesce : s.cu.quiesce = true) : offerToStore i p c f fs s = s := by
  rw [offerToStore, h.region, store]
  exact (if_neg space).trans (if_pos quiesce)

theorem offerToStore_begins (store : s.re.store = none) (space : (s.re.inProd - s.cu.inCons).toNat ≠ slotCount r)
    (runs : s.cu.quiesce = false) : offerToStore i p c f fs s = beginStore i p c f fs r s := by
  rw [offerToStore, h.region, store]
  exact (if_neg space).trans (if_neg (by rw [runs]; decide))

end

end

/-! ## The completed block -/

section
variable {s : State} {p : Fin 6} {c : RateClass} {bits : List Bool} {fmt : Bool}

/-- The state in which a completed block is offered: its line has been sampled. -/
def State.offeringAt (s : State) (p : Fin 6) (c : RateClass) (bits : List Bool) (fmt : Bool) : State :=
  sampleFormat p fmt c (swapHalves p (s.blockDue p c bits))

theorem completedAt_eq : s.completedAt p c bits fmt
    = offerBlock (decide (p = 4) && !(s.ports[p].framed p (tunerSettled s) bits).mark) p c
        (s.ports[p].filling ++ [frameOfBits (portChannels p) bits]) (s.offeringAt p c bits fmt) := by
  obtain ⟨-, port⟩ := blockDue_units (s := s) (p := p) (c := c) (bits := bits)
  rw [State.completedAt, offeredState, port]
  rfl

theorem raises_offeringAt : Raises 2 s (s.offeringAt p c bits fmt) :=
  (blockDue_quiet.trans (quiet_swapHalves p)).then (raises_sampleFormat _ p fmt c)

/-- R29: the units that a followed completion reaches. -/
theorem kept_followCompletion (u : State) : (followCompletion c u).kept
    = { u.kept with clock := (followCompletion c u).clock, du := (followCompletion c u).du,
                    ou := (followCompletion c u).ou } := by
  have restarted := kept_outputRestart u c
  unfold followCompletion; dsimp only
  split
  · rfl
  · generalize outputRestart c u = v at restarted ⊢
    exact congrArg (fun k : Kept => { k with
      clock := { v.clock with stamp := wrapSucc v.clock.stamp, following := true, own := false }, du := v.du,
      ou := v.ou }) restarted

/-- What a completion reaches before it offers its block. -/
theorem kept_blockDue : (s.blockDue p c bits).kept
    = { s.kept with clock := (s.blockDue p c bits).clock, ports := (s.blockDue p c bits).ports,
                    du := (s.blockDue p c bits).du, ou := (s.blockDue p c bits).ou } := by
  unfold State.blockDue
  split
  · have followed := kept_followCompletion (c := c) (s.framed p bits)
    generalize followCompletion c (s.framed p bits) = v at followed ⊢
    exact followed.trans (congrArg (fun ports => { s.kept with
      clock := v.clock, ports := ports, du := v.du, ou := v.ou }) (congrArg Kept.ports followed).symm)
  · rfl

theorem offeringAt_kept : (s.offeringAt p c bits fmt).re = s.re
    ∧ (s.offeringAt p c bits fmt).pu.regions = s.pu.regions
    ∧ (s.offeringAt p c bits fmt).cu.inCons = s.cu.inCons ∧ (s.offeringAt p c bits fmt).cu.quiesce = s.cu.quiesce
    ∧ (s.offeringAt p c bits fmt).clock = (s.blockDue p c bits).clock
    ∧ (s.offeringAt p c bits fmt).sc = s.sc.sampled p s.ports[p] fmt
    ∧ (s.offeringAt p c bits fmt).ports[p].format
      = if s.ports[p].change then formatOnLine fmt else s.ports[p].format := by
  have due := kept_blockDue (s := s) (p := p) (c := c) (bits := bits)
  obtain ⟨sc, port⟩ := blockDue_units (s := s) (p := p) (c := c) (bits := bits)
  have halves : (swapHalves p (s.blockDue p c bits)).ports[p]
      = { s.ports[p].framed p (tunerSettled s) bits with
          offered := some (s.ports[p].framed p (tunerSettled s) bits).filling, filling := [], mark := false } := by
    rw [swapHalves, mapPort_at, port]
  have kept := kept_sampleFormat (swapHalves p (s.blockDue p c bits)) p fmt c
  have ports : (s.offeringAt p c bits fmt).ports = _ := congrArg Kept.ports kept
  have sampled := sampleFormat_sampled (swapHalves p (s.blockDue p c bits)) p fmt c
  rw [halves] at ports sampled
  have swapped : (swapHalves p (s.blockDue p c bits)).sc = s.sc := sc
  rw [swapped] at sampled
  refine ⟨Eq.trans (congrArg Kept.re kept) (congrArg Kept.re due :),
    Eq.trans (congrArg Kept.regions kept) (congrArg Kept.regions due :),
    Eq.trans (congrArg Kept.inCons kept) (congrArg Kept.inCons due :),
    Eq.trans (congrArg Kept.quiesce kept) (congrArg Kept.quiesce due :), congrArg Kept.clock kept, sampled, ?_⟩
  simp only [ports, Fin.getElem_fin, Vector.getElem_set_self]
  rfl

end

end Sys2Proof.Machine
end

