-- ==== Sys2Proof/Proofs/CompletedBlocks.lean ====
section
/-! SUPPORT. What a completed block leaves when its sample leaves the switch as it was: the clock and the Ring Engine
(R29, R58, R62). -/

namespace Sys2Proof.Machine

section
variable {s : State} {i : Fin 8} {p : Fin 6} {c : RateClass} {r : Range} {bits : List Bool} {fmt : Bool}

/-! ## The clock -/

theorem followCompletion_clock (u : State) : (followCompletion c u).clock
    = { u.clock with stamp := u.clock.stamp + 1, cls := c, following := true, own := false } := by
  have restarted := congrArg Kept.clock (kept_outputRestart u c)
  have clock : (outputRestart c u).clock = { u.clock with cls := c, following := false, own := false } := restarted
  unfold followCompletion; dsimp only
  split
  · rename_i same; subst same; rfl
  · rw [State.mapClock_clock, clock]; rfl

theorem blockDue_clock (boundary : s.boundaryOn p c) : (s.blockDue p c bits).clock
    = { s.clock with stamp := s.clock.stamp + 1, cls := c, following := true, own := false } := by
  rw [State.blockDue, if_pos (completionIsBoundary_iff.2 boundary), followCompletion_clock]
  rfl

theorem blockDue_still (interior : ¬ s.boundaryOn p c) : s.blockDue p c bits = s.framed p bits :=
  if_neg fun h => interior (completionIsBoundary_iff.1 h)

/-! ## The switch -/

/-- R20a: the sample of a source that stays on its path leaves the switch as it was. -/
theorem sampled_same (connected : s.sc.connected = some i) (port : s.sc.table[i].port = p)
    (kept : s.sc.path = .hosted ∨ s.sc.st = .acquire)
    (calm : s.ports[p].change = false ∨ s.ports[p].format = formatOnLine fmt ∨ s.sc.table[i].path ≠ .auto) :
    s.sc.sampled p s.ports[p] fmt = s.sc := by
  subst port
  by_cases moves : s.ports[s.sc.table[i].port].change = true ∧ s.ports[s.sc.table[i].port].format ≠ formatOnLine fmt
  · obtain ⟨change, differs⟩ := moves
    have fixed : s.sc.table[i].path ≠ .auto := by
      rcases calm with still | same | fixed
      · rw [still] at change; cases change
      · exact absurd same differs
      · exact fixed
    rw [SwitchUnit.sampled_changed connected change differs, SwitchUnit.reformed_fixed _ fixed]
    rcases kept with hosted | st
    · rw [if_neg (by simp [hosted])]
    · simp [st]
  · exact SwitchUnit.sampled_still moves

/-- R20, R21: the boundary of such a block makes no connect. -/
theorem completedAt_unconnects (sampled : s.sc.sampled p s.ports[p] fmt = s.sc) (request : s.sc.connectRequest = false)
    (loud : s.sc.st ≠ .drain ∨ ∃ k : Fin 8, (completeBlock p c fmt (s.framed p bits)).ru.levels[k].applied ≠ 192)
    (boundary : s.boundaryOn p c) :
    (s.completedAt p c bits fmt).unconnects (offeredBlock (s.framed p bits) p) := by
  have sc := (completedAt_sc (c := c) (bits := bits)).trans sampled
  rw [completeBlock_completedAt, if_pos (completionIsBoundary_iff.2 boundary)] at loud
  generalize s.completedAt p c bits fmt = u at sc loud ⊢
  refine ⟨fun ⟨_, due⟩ => ?_, fun ⟨drain, mute⟩ => ?_⟩
  · rw [sc, request] at due; cases due
  · rw [sc] at drain
    rcases loud with still | ⟨k, sounds⟩
    · exact still drain
    · exact sounds (mute k)

/-! ## After the block has been offered -/

theorem completeBlock_raises :
    Raises 23 (s.completedAt p c bits fmt) (completeBlock p c fmt (s.framed p bits)) := by
  rw [completeBlock_completedAt]
  split
  · exact raises_boundaryWork _ _
  · exact Quiet.refl.still

section
variable (unconnects : s.boundaryOn p c → (s.completedAt p c bits fmt).unconnects (offeredBlock (s.framed p bits) p))
include unconnects

theorem completeBlock_storeSide : (completeBlock p c fmt (s.framed p bits)).re.storeSide
    = (s.completedAt p c bits fmt).re.storeSide := by
  rw [completeBlock_completedAt]
  split
  · exact boundaryWork_storeSide (unconnects (completionIsBoundary_iff.1 ‹_›))
  · rfl

theorem completeBlock_asks : Asks (s.completedAt p c bits fmt) (completeBlock p c fmt (s.framed p bits)) := by
  rw [completeBlock_completedAt]
  split
  · exact asks_unconnected (unconnects (completionIsBoundary_iff.1 ‹_›))
  · exact .refl

end

/-! ## The Ring Engine -/

/-- R14: IN4 keeps a block that its mark covers, while the tuner is TUNED. -/
def State.keepsBlock (s : State) (p : Fin 6) : Prop := p ≠ 4 ∨ (s.tc.st = .tuned ∧ s.ports[p].mark = true)

theorem completedAt_kept (length : s.ports[p].filling.length = 31) (keeps : s.keepsBlock p) :
    s.completedAt p c bits fmt = offerBlock false p c (s.ports[p].filling ++ [frameOfBits (portChannels p) bits])
      (s.offeringAt p c bits fmt) := by
  rw [completedAt_eq, (framed_kept_iff bits length).2 keeps]

theorem completedAt_discarded (length : s.ports[p].filling.length = 31) (lost : ¬ s.keepsBlock p) :
    s.completedAt p c bits fmt = offerBlock true p c (s.ports[p].filling ++ [frameOfBits (portChannels p) bits])
      (s.offeringAt p c bits fmt) := by
  rw [completedAt_eq, Bool.eq_true_of_not_eq_false fun good => lost ((framed_kept_iff bits length).1 good)]

theorem offeringAt_serves (serves : s.serves i p r) (sampled : s.sc.sampled p s.ports[p] fmt = s.sc) :
    (s.offeringAt p c bits fmt).serves i p r := by
  obtain ⟨-, regions, -, -, -, sc, -⟩ := offeringAt_kept (s := s) (p := p) (c := c) (bits := bits) (fmt := fmt)
  rw [sampled] at sc
  obtain ⟨connected, port, path, region⟩ := serves
  exact ⟨by rw [sc]; exact connected, by rw [sc]; exact port, by rw [sc]; exact path, by rw [regions]; exact region⟩

section
variable (serves : s.serves i p r) (sampled : s.sc.sampled p s.ports[p] fmt = s.sc)
  (length : s.ports[p].filling.length = 31)
include serves sampled length

theorem completedAt_breaks (lost : ¬ s.keepsBlock p) :
    (s.completedAt p c bits fmt).re = { s.re with disc := true } := by
  obtain ⟨re, -⟩ := offeringAt_kept (s := s) (p := p) (c := c) (bits := bits) (fmt := fmt)
  rw [completedAt_discarded length lost, offerBlock_discarded (offeringAt_serves serves sampled), re]

theorem completedAt_offers (keeps : s.keepsBlock p) : s.completedAt p c bits fmt
    = offerToLink p c (s.ports[p].filling ++ [frameOfBits (portChannels p) bits])
        (offerToStore i p c (if s.ports[p].change then formatOnLine fmt else s.ports[p].format)
          (s.ports[p].filling ++ [frameOfBits (portChannels p) bits]) (s.offeringAt p c bits fmt)) := by
  obtain ⟨-, -, -, -, -, -, format⟩ := offeringAt_kept (s := s) (p := p) (c := c) (bits := bits) (fmt := fmt)
  rw [completedAt_kept length keeps, offerBlock_offered (offeringAt_serves serves sampled), format]

variable (keeps : s.keepsBlock p)
include keeps

/-- R62: which blocks are dropped, and with which cause. -/
theorem completedAt_drops (cause : DropCause)
    (drop : (cause = .storeBusy ∧ s.re.store ≠ none)
      ∨ (cause = .ringFull ∧ s.re.store = none ∧ (s.re.inProd - s.cu.inCons).toNat = slotCount r)) :
    s.completedAt p c bits fmt = offerToLink p c (s.ports[p].filling ++ [frameOfBits (portChannels p) bits])
      (dropBlock cause (s.offeringAt p c bits fmt)) := by
  obtain ⟨re, -, inCons, -⟩ := offeringAt_kept (s := s) (p := p) (c := c) (bits := bits) (fmt := fmt)
  have serving := offeringAt_serves (c := c) (bits := bits) serves sampled
  rw [completedAt_offers serves sampled length keeps]
  rcases drop with ⟨rfl, busy⟩ | ⟨rfl, free, full⟩
  · rw [offerToStore_busy serving _ _ _ (by rw [re]; exact busy)]
  · rw [offerToStore_full serving _ _ _ (by rw [re]; exact free) (by rw [re, inCons]; exact full)]

theorem completedAt_waits (store : s.re.store = none) (space : (s.re.inProd - s.cu.inCons).toNat ≠ slotCount r)
    (quiesce : s.cu.quiesce = true) : (s.completedAt p c bits fmt).re = s.re := by
  obtain ⟨re, -, inCons, quiet, -⟩ := offeringAt_kept (s := s) (p := p) (c := c) (bits := bits) (fmt := fmt)
  rw [completedAt_offers serves sampled length keeps, offerToLink_re,
    offerToStore_quiesce (offeringAt_serves serves sampled) _ _ _ (by rw [re]; exact store)
      (by rw [re, inCons]; exact space) (by rw [quiet]; exact quiesce), re]

/-- R58: the store that a kept block begins. -/
theorem completedAt_stores (store : s.re.store = none) (space : (s.re.inProd - s.cu.inCons).toNat ≠ slotCount r)
    (runs : s.cu.quiesce = false) :
    (s.completedAt p c bits fmt).re = { s.re with
      store := some { frames := s.ports[p].filling ++ [frameOfBits (portChannels p) bits], source := i, port := p,
                      cls := c, format := if s.ports[p].change then formatOnLine fmt else s.ports[p].format,
                      channels := portChannels p, stamp := (s.blockDue p c bits).clock.stamp, disc := s.re.disc,
                      drops := s.re.pendingDrops, slotAddr := slotAddress r s.re.inProd },
      disc := false, pendingDrops := 0, dropRun := false }
    ∧ slotLock .inputStore (slotAddress r s.re.inProd) ∈ (s.completedAt p c bits fmt).pu.requests := by
  obtain ⟨re, -, inCons, quiet, clock, -⟩ := offeringAt_kept (s := s) (p := p) (c := c) (bits := bits) (fmt := fmt)
  rw [completedAt_offers serves sampled length keeps, offerToLink_re,
    offerToStore_begins (offeringAt_serves serves sampled) _ _ _ (by rw [re]; exact store)
      (by rw [re, inCons]; exact space) (by rw [quiet]; exact runs)]
  generalize s.offeringAt p c bits fmt = o at re clock ⊢
  rw [← re, ← clock]
  exact ⟨rfl, asks_offerToLink _ _ _ _ (List.mem_append_right _ (List.mem_singleton_self _))⟩

/-- R62, R70: the event of the first drop of a run, with the stamp then in force. -/
theorem completedAt_tells (cause : DropCause)
    (drop : (cause = .storeBusy ∧ s.re.store ≠ none)
      ∨ (cause = .ringFull ∧ s.re.store = none ∧ (s.re.inProd - s.cu.inCons).toNat = slotCount r))
    (first : s.re.dropRun = false) (room : s.eventRoom) :
    (s.completedAt p c bits fmt).carries 23
      { eventNow s (.ring .inputDropped) (BitVec.ofNat 16 i.val) (natWord cause.code) (s.re.inProd.setWidth 32) with
        stamp := (s.blockDue p c bits).clock.stamp } false := by
  obtain ⟨re, -, -, -, clock, -⟩ := offeringAt_kept (s := s) (p := p) (c := c) (bits := bits) (fmt := fmt)
  obtain ⟨later, -⟩ := raises_offeringAt (s := s) (p := p) (c := c) (bits := bits) (fmt := fmt) 30 room.takesEvents
  have serving := offeringAt_serves (c := c) (bits := bits) serves sampled
  rw [completedAt_drops serves sampled length keeps cause drop]
  generalize s.offeringAt p c bits fmt = o at re clock later serving ⊢
  have dropped := dropBlock_carries serving cause (by rw [re]; exact first) (later.mono (m := 24) (by decide))
  rw [eventNow, re, clock] at dropped
  exact Raises.carries (quiet_offerToLink _ p c _).raises (n := 23) dropped

end

end

end Sys2Proof.Machine
end

