-- ==== Sys2Proof/Proofs/NewClasses.lean ====
section
/-! SUPPORT. The boundary that a completed block makes without a connect, and the outputs it restarts at another class
than the one in force (R29, R121, R128, R133, R137). -/

namespace Sys2Proof.Machine

section
variable {s : State} {p : Fin 6} {c : RateClass} {bits : List Bool} {fmt : Bool}

/-! ## The outputs at a new class -/

/-- R121, R133, R137: what the output restart of another class gives the Delay Unit and a link on MAIN. -/
theorem followCompletion_restarts {u : State} (other : c ≠ u.clock.cls) :
    (followCompletion c u).du = (delayOutputRestart u).du
      ∧ (u.ou.link.source = .main → (followCompletion c u).ou.link = { u.ou.link with cls := c, count := 0 }) := by
  have followed : followCompletion c u = (outputRestart c u).mapClock fun k =>
      { k with stamp := wrapSucc k.stamp, following := true, own := false } := by
    rw [followCompletion, if_neg other]
  have du : (outputRestart c u).du = (delayOutputRestart u).du := congrArg Kept.du (kept_outputRestart u c)
  rw [followed]
  refine ⟨du, fun main => ?_⟩
  have restarted : (outputRestart c u).ou.link = { u.ou.link with cls := c, count := 0 } := by
    unfold outputRestart linkOutputRestart
    exact (congrArg (fun t : State => t.ou.link) (if_pos main)).trans rfl
  exact restarted

/-- The units that the sample and the offer of a completed block leave alone. -/
theorem completedAt_units : (s.completedAt p c bits fmt).du = (s.blockDue p c bits).du
    ∧ (s.completedAt p c bits fmt).ru = s.ru ∧ (s.completedAt p c bits fmt).pu.regions = s.pu.regions
    ∧ (s.completedAt p c bits fmt).cu.quiesce = s.cu.quiesce := by
  have offered := kept_offeredState (s.blockDue p c bits) p c fmt
  have due := kept_blockDue (s := s) (p := p) (c := c) (bits := bits)
  exact ⟨congrArg Kept.du offered, Eq.trans (congrArg Kept.ru offered) (congrArg Kept.ru due :),
    Eq.trans (congrArg Kept.regions offered) (congrArg Kept.regions due :),
    Eq.trans (congrArg Kept.quiesce offered) (congrArg Kept.quiesce due :)⟩

section
variable (boundary : s.boundaryOn p c) (other : c ≠ s.clock.cls)
  (unconnects : (s.completedAt p c bits fmt).unconnects (offeredBlock (s.framed p bits) p))
include boundary

theorem completeBlock_boundary : completeBlock p c fmt (s.framed p bits)
    = boundaryWork (offeredBlock (s.framed p bits) p) (s.completedAt p c bits fmt) := by
  rw [completeBlock_completedAt, if_pos (completionIsBoundary_iff.2 boundary)]

theorem completeBlock_lane (l : Fin 2) : (completeBlock p c fmt (s.framed p bits)).ou.lanes[l].count = 0 := by
  rw [completeBlock_boundary boundary]
  generalize s.completedAt p c bits fmt = u
  obtain ⟨-, -, count, -⟩ := boundaryWork_lane (offeredBlock (s.framed p bits) p) u l
  exact count

include unconnects

theorem completeBlock_clock : (completeBlock p c fmt (s.framed p bits)).clock
    = { s.clock with stamp := s.clock.stamp + 1, cls := c, following := true, own := false } := by
  rw [completeBlock_boundary boundary, boundaryWork_unconnectedClock unconnects, completedAt_clock,
    blockDue_clock boundary]

include other

/-- R121: the Delay Unit at a new class. -/
theorem completeBlock_silences (k : Fin 8) :
    (completeBlock p c fmt (s.framed p bits)).du.fill = (if delayModeNow s then 32 else 0)
      ∧ (completeBlock p c fmt (s.framed p bits)).du.speakers[k].late = false
      ∧ (completeBlock p c fmt (s.framed p bits)).du.speakers[k].history
          = (if delayModeNow s && speakerPresent s k then 32 else 0)
      ∧ (completeBlock p c fmt (s.framed p bits)).ou.delayed[k]
          = if speakerPresent s k then some zeroChan else none := by
  obtain ⟨du, ru, regions, quiesce⟩ := completedAt_units (s := s) (p := p) (c := c) (bits := bits) (fmt := fmt)
  obtain ⟨settled, -⟩ := settledState_unconnected unconnects
  obtain ⟨restarted, -⟩ := followCompletion_restarts (c := c) (u := s.framed p bits) other
  have due : (s.blockDue p c bits).du = (delayOutputRestart (s.framed p bits)).du := by
    rw [State.blockDue, if_pos (completionIsBoundary_iff.2 boundary), restarted]
  obtain ⟨fill, silenced⟩ := delayOutputRestart_silenced (s := s.framed p bits)
  obtain ⟨bare, silent⟩ := silenced k
  rw [← due, ← du, ← settled] at fill bare silent
  have mode : delayModeNow (s.completedAt p c bits fmt) = delayModeNow s := by
    rw [delayModeNow, delayModeNow, regions, quiesce]
  have present : speakerPresent (s.completedAt p c bits fmt) k = speakerPresent s k := by
    rw [speakerPresent, speakerPresent, ru]
  obtain ⟨history, filled⟩ := boundaryWork_bare _ _ k bare
  obtain ⟨late, delayed⟩ := boundaryWork_silenced _ _ k bare silent
  rw [mode, present] at history
  rw [mode] at filled
  rw [present] at delayed
  rw [filled fill] at history
  rw [completeBlock_boundary boundary]
  refine ⟨filled fill, late, history.trans ?_, delayed⟩
  cases delayModeNow s <;> rfl

/-- R133, R137: a link on MAIN at a new class. -/
theorem completeBlock_mainLink (main : s.ou.link.source = .main) :
    (completeBlock p c fmt (s.framed p bits)).ou.link.cls = c
      ∧ (completeBlock p c fmt (s.framed p bits)).ou.link.count = 0 := by
  obtain ⟨-, restarted⟩ := followCompletion_restarts (c := c) (u := s.framed p bits) other
  have due : (s.blockDue p c bits).ou.link = { s.ou.link with cls := c, count := 0 } := by
    rw [State.blockDue, if_pos (completionIsBoundary_iff.2 boundary), restarted main]
    rfl
  have offered := offeredState_link (s.blockDue p c bits) p c fmt
  rw [due, RecordLink.offered, if_neg (by simp [main])] at offered
  have link : (s.completedAt p c bits fmt).ou.link = { s.ou.link with cls := c, count := 0 } := offered
  obtain ⟨cls, count⟩ := boundaryWork_unconnectedLink unconnects
  rw [completeBlock_boundary boundary, cls, count, link]
  exact ⟨rfl, rfl⟩

end

theorem RecordLink.offered_cls (k : RecordLink) (discarded : Bool) (f : Format) (fs : List Frame) :
    (k.offered discarded p c f fs).count = k.count
      ∧ (k.offered discarded p c f fs).cls = if discarded = false ∧ k.source = .port p then c else k.cls := by
  unfold RecordLink.offered
  split_ifs <;> exact ⟨rfl, rfl⟩

/-- R135: off MAIN a completed block gives the link its class if the link takes it. -/
theorem completeBlock_takenLink (length : s.ports[p].filling.length = 31) (off : s.ou.link.source ≠ .main)
    (tuned : p = 4 → s.tc.st = .tuned) :
    (completeBlock p c fmt (s.framed p bits)).ou.link.count = s.ou.link.count
      ∧ (completeBlock p c fmt (s.framed p bits)).ou.link.cls
        = if s.ou.link.source = .port p ∧ (p = 4 → s.ports[p].mark = true) then c else s.ou.link.cls := by
  have link := completeBlock_link (s := s.framed p bits) p c fmt off
  rw [State.framed_at] at link
  have ou : (s.framed p bits).ou = s.ou := rfl
  have keeps : (p ≠ 4 ∨ s.tc.st = .tuned ∧ s.ports[p].mark = true) ↔ (p = 4 → s.ports[p].mark = true) := by
    rw [← imp_iff_not_or]
    exact forall_congr' fun radio => and_iff_right (tuned radio)
  obtain ⟨count, cls⟩ := RecordLink.offered_cls (p := p) (c := c) s.ou.link
    (decide (p = 4) && !(s.ports[p].framed p (tunerSettled s) bits).mark)
    ((s.ports[p].framed p (tunerSettled s) bits).sampled fmt).format (s.ports[p].framed p (tunerSettled s) bits).filling
  generalize completeBlock p c fmt (s.framed p bits) = t at link ⊢
  rw [link, ou]
  have taken := ((framed_kept_iff (s := s) bits length).trans keeps).and (Iff.refl (s.ou.link.source = .port p))
  exact ⟨count, cls.trans (if_congr (taken.trans and_comm) rfl rfl)⟩

end

end Sys2Proof.Machine
end

