-- ==== Sys2Proof/Proofs/PortFrames.lean ====
section
/-! A frame at a port and the block it completes (R9, R12 to R15, R29, R58, R62, R70). -/

namespace Sys2Proof.Machine

section
variable {s : State} {i : Fin 8} {p : Fin 6} {c : RateClass} {r : Range} {bits : List Bool} {fmt : Bool}

/-! ## A frame that completes no block of the connected source -/

theorem portFrameWork_unlocked (lock : ∀ c, s.ports[p].lock ≠ .locked c) : portFrameWork p bits fmt s
    = s.mapPort p fun q => { q with windowCount := q.windowCount + 1 } := by
  have free : s.ports[p].lock.isLocked = false := by
    cases k : s.ports[p].lock with
    | locked c => exact absurd k (lock c)
    | _ => rfl
  have taken : takeFrame p bits s = s.mapPort p fun q => { q with windowCount := q.windowCount + 1 } := by
    simp only [takeFrame, State.mapPort, free, Bool.false_eq_true, if_false]
  have after : (takeFrame p bits s).ports[p].lock = s.ports[p].lock := by rw [taken, mapPort_at]
  rw [portFrameWork]
  split
  · rename_i c locked; exact absurd (after.symm.trans locked) (lock c)
  · exact taken

theorem portFrameWork_joins (lock : s.ports[p].lock = .locked c) (length : s.ports[p].filling.length ≠ 31) :
    portFrameWork p bits fmt s = s.framed p bits := by
  have part : (s.framed p bits).ports[p].filling.length ≠ 32 := by
    rw [State.framed_at]
    simpa [PortState.framed] using length
  rw [portFrameWork, takeFrame_locked s bits lock]
  split
  · exact if_neg part
  · rfl

theorem portFrameWork_completes (high : s.resetLow = false) (lock : s.ports[p].lock = .locked c)
    (length : s.ports[p].filling.length = 31) :
    finish (portFrameWork p bits fmt s) = finish (completeBlock p c fmt (s.framed p bits)) :=
  Host.Outcome.next.inj ((live_ready (portFrameWork p bits fmt) high).symm.trans
    (exec_portFrame_completes s bits fmt high lock length))

/-- R14: a block of a port that the connected source does not play leaves the Ring Engine alone. -/
theorem offerBlock_unplayed {o : State} (unplayed : connectedOnPort o p = false) (discarded : Bool) (fs : List Frame) :
    (offerBlock discarded p c fs o).re = o.re := by
  cases discarded with
  | true =>
    have on : servedOnPort o p = false := by rw [servedOnPort, unplayed, Bool.and_false]
    have unbroken : breakRun p o = o := if_neg (by rw [on]; decide)
    have whole : offerBlock true p c fs o = breakRun p o := rfl
    rw [whole, unbroken]
  | false =>
    have ring : offerToRing p c fs o = o := by
      rw [offerToRing, unplayed]
      split <;> rfl
    rw [offerBlock, ring]
    exact offerToLink_re c fs o

theorem completeBlock_unplayed (other : ∀ i, s.sc.connected = some i → s.sc.table[i].port ≠ p)
    (off : s.ou.link.source ≠ .port p) : (completeBlock p c fmt (s.framed p bits)).kept
    = { s.kept with ports := s.ports.set p ((s.ports[p].framed p (tunerSettled s) bits).completed fmt) } := by
  have interior : ¬ s.boundaryOn p c := fun ⟨⟨i, connected, port⟩, _⟩ => other i connected port
  have due := blockDue_still (bits := bits) interior
  have sc := completedAt_sc (s := s) (p := p) (c := c) (bits := bits) (fmt := fmt)
  rw [SwitchUnit.sampled_unplayed other] at sc
  obtain ⟨kept, -, -, -, -, sampled, -⟩ := offeringAt_kept (s := s) (p := p) (c := c) (bits := bits) (fmt := fmt)
  rw [SwitchUnit.sampled_unplayed other] at sampled
  have unplayed : connectedOnPort (s.offeringAt p c bits fmt) p = false := by
    rw [connectedOnPort_eq, sampled, ← Bool.not_eq_true]
    intro plays
    cases connected : s.sc.connected with
    | none => simp [SwitchUnit.plays, SwitchUnit.source, connected] at plays
    | some i => exact other i connected ((plays_iff connected).1 plays)
  have re : (s.completedAt p c bits fmt).re = s.re := by rw [completedAt_eq, offerBlock_unplayed unplayed, kept]
  have offered := kept_offeredState (s.blockDue p c bits) p c fmt
  rw [← offeredState_sc, ← State.completedAt, re, sc, due, State.framed_at, RecordLink.offered,
    if_neg fun taken => off taken.2] at offered
  rw [completeBlock_completedAt, if_neg fun h => interior (completionIsBoundary_iff.1 h), offered]
  have ports : (s.framed p bits).ports.set p ((s.ports[p].framed p (tunerSettled s) bits).completed fmt)
      = s.ports.set p ((s.ports[p].framed p (tunerSettled s) bits).completed fmt) := by
    simp [State.framed]
  rw [ports]
  rfl

theorem framed_completed_same {q : PortState} (settled : Bool) (same : q.format = formatOnLine fmt) :
    (q.framed p settled bits).completed fmt
      = { q with
          windowCount := q.windowCount + 1, filling := [],
          offered := some (q.filling ++ [frameOfBits (portChannels p) bits]), mark := false, change := false } := by
  rw [framed_completed]
  simp [← same]

/-! ## A frame that makes a boundary -/

theorem completeBlock_playing (boundary : s.boundaryOn p c) (st : s.sc.st = .playing)
    (same : s.ports[p].format = formatOnLine fmt) :
    (completeBlock p c fmt (s.framed p bits)).sc = s.sc
      ∧ (completeBlock p c fmt (s.framed p bits)).clock
        = { s.clock with stamp := s.clock.stamp + 1, cls := c, following := true, own := false } := by
  have sc := completedAt_sc (s := s) (p := p) (c := c) (bits := bits) (fmt := fmt)
  rw [SwitchUnit.sampled_still fun moves => moves.2 same] at sc
  have clock := (completedAt_clock (s := s) (p := p) (c := c) (bits := bits) (fmt := fmt)).trans
    (blockDue_clock boundary)
  rw [completeBlock_boundary boundary]
  generalize s.completedAt p c bits fmt = u at sc clock ⊢
  obtain ⟨stays, goesOn⟩ := boundaryWork_playing (offeredBlock (s.framed p bits) p) u (by rw [sc]; exact st)
  exact ⟨stays.trans sc, goesOn.trans clock⟩

/-- R29: the stamp in force when a block of the connected source's port is offered. -/
theorem blockDue_stamp (connected : s.sc.connected = some i) (port : s.sc.table[i].port = p) :
    (s.blockDue p c bits).clock.stamp
      = if (c = s.clock.cls ∨ s.sc.st = .acquire) ∧ (p ≠ 4 ∨ s.tc.st = .tuned) then s.clock.stamp + 1
        else s.clock.stamp := by
  split_ifs with made
  · obtain ⟨cls, settled⟩ := made
    rw [blockDue_clock ⟨⟨i, connected, port⟩, cls, fun radio => settled.resolve_left (not_not.2 radio)⟩]
  · rw [blockDue_still fun ⟨_, cls, tuned⟩ => made ⟨cls, imp_iff_not_or.1 tuned⟩]
    rfl

/-! ## The block that a hosted source offers -/

theorem format_sampled (q : PortState) (fmt : Bool) : (if q.change then formatOnLine fmt else q.format)
    = if q.change ∧ fmt then .encoded else if q.change then .pcm else q.format := by
  cases q.change <;> cases fmt <;> rfl

/-- The producer moves when a store ends, not when a block is offered. -/
theorem offerBlock_inProd (discarded : Bool) (fs : List Frame) (o : State) :
    (offerBlock discarded p c fs o).re.inProd = o.re.inProd := by
  have dropped (cause : DropCause) : (dropBlock cause o).re.inProd = o.re.inProd := by rw [dropBlock_re]; rfl
  have stored (j : Fin 8) (f : Format) : (offerToStore j p c f fs o).re.inProd = o.re.inProd := by
    unfold offerToStore
    split
    · rfl
    · split_ifs
      · exact dropped _
      · exact dropped _
      · rfl
      · rfl
  cases discarded with
  | true =>
    have whole : offerBlock true p c fs o = breakRun p o := rfl
    rw [whole, breakRun]
    split <;> rfl
  | false =>
    have whole : offerBlock false p c fs o = offerToLink p c fs (offerToRing p c fs o) := rfl
    rw [whole, offerToLink_re]
    unfold offerToRing
    split
    · split
      · exact stored _ _
      · rfl
    · rfl

section
variable (unconnects : s.boundaryOn p c → (s.completedAt p c bits fmt).unconnects (offeredBlock (s.framed p bits) p))
include unconnects

/-- The store side that the step leaves is that of the block's offer. -/
theorem portFrame_storeSide : (finish (completeBlock p c fmt (s.framed p bits))).re.storeSide
    = (s.completedAt p c bits fmt).re.storeSide := by
  rw [finish_re, completeBlock_storeSide unconnects]

theorem portFrame_inProd : (finish (completeBlock p c fmt (s.framed p bits))).re.inProd = s.re.inProd := by
  obtain ⟨inProd, -⟩ := RingEngine.of_storeSide (portFrame_storeSide unconnects)
  obtain ⟨re, -⟩ := offeringAt_kept (s := s) (p := p) (c := c) (bits := bits) (fmt := fmt)
  rw [inProd, completedAt_eq, offerBlock_inProd, re]

variable (serves : s.serves i p r) (sampled : s.sc.sampled p s.ports[p] fmt = s.sc)
  (length : s.ports[p].filling.length = 31)
include serves sampled length

/-- R14: a block that IN4 discards. -/
theorem portFrame_breaks (lost : ¬ s.keepsBlock p) :
    (finish (completeBlock p c fmt (s.framed p bits))).re.storeSide = { s.re with disc := true }.storeSide := by
  rw [portFrame_storeSide unconnects, completedAt_breaks serves sampled length lost]

variable (keeps : s.keepsBlock p)
include keeps

/-- R62, R70: a dropped block. -/
theorem portFrame_drops (cause : DropCause)
    (drop : (cause = .storeBusy ∧ s.re.store ≠ none)
      ∨ (cause = .ringFull ∧ s.re.store = none ∧ (s.re.inProd - s.cu.inCons).toNat = slotCount r)) :
    (finish (completeBlock p c fmt (s.framed p bits))).re.storeSide = s.re.dropping.storeSide
      ∧ (s.re.dropRun = false → s.eventRoom →
          { eventNow s (.ring .inputDropped) (BitVec.ofNat 16 i.val) (natWord cause.code)
              (s.re.inProd.setWidth 32) with stamp := (s.blockDue p c bits).clock.stamp }
            ∈ (finish (completeBlock p c fmt (s.framed p bits))).eventsOut) := by
  obtain ⟨re, -⟩ := offeringAt_kept (s := s) (p := p) (c := c) (bits := bits) (fmt := fmt)
  refine ⟨?_, fun first room => ?_⟩
  · rw [portFrame_storeSide unconnects, completedAt_drops serves sampled length keeps cause drop, offerToLink_re,
      dropBlock_re, re]
  · have told := completedAt_tells (c := c) (bits := bits) serves sampled length keeps cause drop first room
    obtain ⟨-, mem, -⟩ := completeBlock_raises.carries (n := 0) told
    rwa [(quiet_finish _).eventsOut]

/-- R200: a quiesce stores nothing and drops nothing. -/
theorem portFrame_waits (store : s.re.store = none) (space : (s.re.inProd - s.cu.inCons).toNat ≠ slotCount r)
    (quiesce : s.cu.quiesce = true) :
    (finish (completeBlock p c fmt (s.framed p bits))).re.storeSide = s.re.storeSide := by
  rw [portFrame_storeSide unconnects, completedAt_waits serves sampled length keeps store space quiesce]

/-- R58: the store of a kept block. -/
theorem portFrame_stores (store : s.re.store = none) (space : (s.re.inProd - s.cu.inCons).toNat ≠ slotCount r)
    (runs : s.cu.quiesce = false) :
    (finish (completeBlock p c fmt (s.framed p bits))).re.store = some
        { frames := s.ports[p].filling ++ [frameOfBits (portChannels p) bits], source := i, port := p, cls := c,
          format := if s.ports[p].change then formatOnLine fmt else s.ports[p].format, channels := portChannels p,
          stamp := (s.blockDue p c bits).clock.stamp, disc := s.re.disc, drops := s.re.pendingDrops,
          slotAddr := slotAddress r s.re.inProd }
      ∧ (finish (completeBlock p c fmt (s.framed p bits))).re.disc = false
      ∧ (finish (completeBlock p c fmt (s.framed p bits))).re.pendingDrops = 0
      ∧ (finish (completeBlock p c fmt (s.framed p bits))).re.dropRun = false
      ∧ (finish (completeBlock p c fmt (s.framed p bits))).re.dropped = s.re.dropped
      ∧ slotLock .inputStore (slotAddress r s.re.inProd)
          ∈ (finish (completeBlock p c fmt (s.framed p bits))).pu.requests := by
  obtain ⟨re, asked⟩ := completedAt_stores (bits := bits) serves sampled length keeps store space runs
  obtain ⟨-, job, disc, drops, run, dropped⟩ := RingEngine.of_storeSide (portFrame_storeSide unconnects)
  rw [re] at job disc drops run dropped
  exact ⟨job, disc, drops, run, dropped, asks_finish _ _ (completeBlock_asks unconnects _ asked)⟩

end

end

/-- Settles O41: the frame by the three forms of `portFrameWork`, the offer by what becomes of the block, the new
class by the output restart that `followCompletion` makes. -/
theorem portFrameFillsBlock : Obligations.PortFrameFillsBlock := by
  unfold Obligations.PortFrameFillsBlock
  refine ⟨?_, ?_, ?_⟩
  · intro s p bits fmt high
    refine ⟨_, live_ready (portFrameWork p bits fmt) high, fun lock => ?_, fun c lock length => ?_,
      fun c lock length same off other => ?_, fun i lock length connected port tuned => ?_⟩
    · rw [kept_finish, portFrameWork_unlocked lock]
      rfl
    · rw [kept_finish, portFrameWork_joins lock length]
      rfl
    · rw [portFrameWork_completes high lock length, kept_finish, completeBlock_unplayed other off,
        framed_completed_same _ same]
      rfl
    · have boundary : s.boundaryOn p s.clock.cls := ⟨⟨i, connected, port⟩, .inl rfl, tuned⟩
      rw [portFrameWork_completes high lock length, finish_clock, finish_sc]
      refine ⟨?_, fun st same => completeBlock_playing boundary st same⟩
      rw [completeBlock_stamp, blockDue_clock boundary]
  · intro s p bits fmt i c r high lock length connected port path region request calm
    refine ⟨_, exec_portFrame_completes s bits fmt high lock length, ?_⟩
    intro q settled good boundary stamp slots slot full unchanged drop loud
    have sampled := sampled_same connected port (.inl path) calm
    have serves : s.serves i p r := ⟨connected, port, path, region⟩
    rw [finish_ru] at loud
    have unconnects := completedAt_unconnects (c := c) (bits := bits) sampled request loud
    have due : (s.blockDue p c bits).clock.stamp = stamp := blockDue_stamp connected port
    have dropped (keeps : s.keepsBlock p) (cause : DropCause)
        (how : (cause = .storeBusy ∧ s.re.store ≠ none) ∨ (cause = .ringFull ∧ s.re.store = none ∧ full)) :
        drop cause.code := by
      obtain ⟨sides, told⟩ := portFrame_drops (bits := bits) unconnects serves sampled length keeps cause how
      obtain ⟨-, store, disc, drops, run, count⟩ := RingEngine.of_storeSide sides
      rw [due] at told
      exact ⟨store, disc, drops, run, count, told⟩
    refine ⟨by rw [finish_clock, completeBlock_stamp, due], portFrame_inProd unconnects, fun lost => ?_,
      fun keeps busy => dropped keeps .storeBusy (.inl ⟨rfl, busy⟩),
      fun keeps free full => dropped keeps .ringFull (.inr ⟨rfl, free, full⟩),
      fun keeps free space quiesce => ?_, fun keeps free space runs => ?_⟩
    · obtain ⟨-, store, disc, drops, run, count⟩ :=
        RingEngine.of_storeSide (portFrame_breaks (bits := bits) unconnects serves sampled length lost)
      exact ⟨⟨store, drops, run, count⟩, disc⟩
    · obtain ⟨-, store, disc, drops, run, count⟩ := RingEngine.of_storeSide
        (portFrame_waits (bits := bits) unconnects serves sampled length keeps free space quiesce)
      exact ⟨⟨store, drops, run, count⟩, disc⟩
    · have stored := portFrame_stores (bits := bits) unconnects serves sampled length keeps free space runs
      rw [due, format_sampled] at stored
      exact stored
  · intro s p bits fmt i c high lock other length connected port st request tuned calm
    refine ⟨_, exec_portFrame_completes s bits fmt high lock length, ?_⟩
    have sampled := sampled_same connected port (.inr st) calm
    have boundary : s.boundaryOn p c := ⟨⟨i, connected, port⟩, .inr st, tuned⟩
    have unconnects := completedAt_unconnects (c := c) (bits := bits) sampled request (.inl (by simp [st])) boundary
    have silences := completeBlock_silences boundary other unconnects
    obtain ⟨fill, -⟩ := silences 0
    rw [finish_clock, finish_du, finish_ou]
    refine ⟨completeBlock_clock boundary unconnects, fill, fun k => ?_, fun l => completeBlock_lane boundary l,
      completeBlock_mainLink boundary other unconnects, fun off => completeBlock_takenLink length off tuned⟩
    obtain ⟨-, late, history, delayed⟩ := silences k
    exact ⟨late, history, delayed⟩

end Sys2Proof.Machine
end

