-- ==== Sys2Proof/Proofs/PathInvariants.lean ====
section
/-! SUPPORT. What every step keeps (R38, R43, R45, R49, R145, R197, R198): each step of the table is an edge of RESET_N,
the work of a unit held in reset, or work of the Path Unit that goes on while RESET_N is low. -/

namespace Sys2Proof.Machine

/-! ## The shapes of the steps -/

/-- R54: the steps that go on while RESET_N is low: the processor's traffic, the arbiter and memory's answers. -/
inductive GoesOn : Instr → Prop
  | processorTransaction (tx : ProcTx) : GoesOn (.processorTransaction tx)
  | arbiterGrant : GoesOn .arbiterGrant
  | processorMemoryAnswer (ok : Bool) (data : List Word) : GoesOn (.processorMemoryAnswer ok data)
  | partTransferAnswer (ok : Bool) (data : List Word) : GoesOn (.partTransferAnswer ok data)

/-- Whether a step is an edge of RESET_N. -/
def isResetEdge : Instr → Bool
  | .hardResetAssert => true
  | .hardResetRelease _ => true
  | _ => false

/-- What a step of the table is: an edge of RESET_N, or work that keeps the waiting commands, the level of RESET_N and
the bounds of the memory path. -/
inductive StepShape : Instr → Prop
  | falls : StepShape .hardResetAssert
  | rises (cb : BitVec 8) : StepShape (.hardResetRelease cb)
  | unit {i : Instr} (f : State → State) (runs : ∀ s, exec i s = live f s) (keeps : ∀ s, Keeps s (f s))
      (inner : isResetEdge i = false) : StepShape i
  | path {i : Instr} (f : State → State) (runs : ∀ s, exec i s = always f s) (keeps : ∀ s, Keeps s (f s))
      (inner : isResetEdge i = false) (on : GoesOn i) : StepShape i

theorem keeps_endFetchRead (s : State) : Keeps s (endFetchRead s) := by
  refine keeps_queues rfl rfl rfl (fun fits q => ?_) (keeps_refl s)
  have bound := fits q
  cases q
  · exact bound
  · exact bound
  · exact filter_fits _ _ _ bound

theorem keeps_takeRecord (tag kind : BitVec 16) {work : State → State} (keeps : ∀ s, Keeps s (work s)) (s : State) :
    Keeps s (takeRecord tag kind work s) := by
  unfold takeRecord
  split
  · exact keeps_refl s
  · exact (keeps_beginCommand tag kind (keeps_refl s)).trans (keeps _)
  · split
    · exact keeps_discardFetch (keeps_endFetchRead s)
    · exact (keeps_beginCommand tag kind (keeps_endFetchRead s)).trans (keeps _)

/-- R196: a command record is the work of its owner. -/
theorem StepShape.record {i : Instr} (tag kind : BitVec 16)
    (runs : ∀ s, exec i s = live (takeRecord tag kind (commandEffect i)) s) (inner : isResetEdge i = false) :
    StepShape i :=
  .unit _ runs (keeps_takeRecord tag kind fun s => keeps_commandEffect i (keeps_refl s)) inner

/-- R37: the write of one anchor word. -/
theorem StepShape.word {i : Instr} (n : Fin 10) (w : Word) (be : BitVec 4)
    (runs : ∀ s, exec i s = live (tapWord n w be) s) (inner : isResetEdge i = false) : StepShape i :=
  .unit _ runs (fun s => keeps_tapWord n w be (keeps_refl s)) inner

theorem stepShape (i : Instr) : StepShape i := by
  cases i with
  | hardResetAssert => exact .falls
  | hardResetRelease cb => exact .rises cb
  | processorTransaction tx =>
    exact .path _ (fun _ => rfl) (fun s => keeps_issueTransaction tx (keeps_refl s)) rfl (.processorTransaction tx)
  | arbiterGrant => exact .path _ (fun _ => rfl) (fun s => keeps_arbiterWork (keeps_refl s)) rfl .arbiterGrant
  | processorMemoryAnswer ok data =>
    exact .path _ (fun _ => rfl) (fun s => keeps_processorAnswered ok data (keeps_refl s)) rfl
      (.processorMemoryAnswer ok data)
  | partTransferAnswer ok data =>
    exact .path _ (fun _ => rfl) (fun s => keeps_partAnswered ok data (keeps_refl s)) rfl (.partTransferAnswer ok data)
  | lockGrant => exact .unit _ (fun _ => rfl) (fun s => keeps_lockGrantWork (keeps_refl s)) rfl
  | queueRoomFreed q => exact .unit _ (fun _ => rfl) (fun s => keeps_queueRoom q (keeps_refl s)) rfl
  | ringEnable upper => exact .word 4 _ _ (fun _ => rfl) rfl
  | ringDisable upper => exact .word 4 _ _ (fun _ => rfl) rfl
  | commandTailWrite w be => exact .word 5 _ _ (fun _ => rfl) rfl
  | eventConsumerWrite w be => exact .word 6 _ _ (fun _ => rfl) rfl
  | inputRingConsumerWrite w be => exact .word 7 _ _ (fun _ => rfl) rfl
  | outputRingProducerWrite w be => exact .word 8 _ _ (fun _ => rfl) rfl
  | interruptEnableWrite w be => exact .word 9 _ _ (fun _ => rfl) rfl
  | anchorWordWrite off w be => exact .unit _ (fun _ => rfl) (fun s => keeps_anchorWord off w be (keeps_refl s)) rfl
  | setRegion tag => exact .record tag 0x01 (fun _ => rfl) rfl
  | setRegionDrained => exact .unit _ (fun _ => rfl) (fun s => keeps_setRegionDrainedWork (keeps_refl s)) rfl
  | setArbiter tag => exact .record tag 0x02 (fun _ => rfl) rfl
  | clearFault tag => exact .record tag 0x03 (fun _ => rfl) rfl
  | restart tag => exact .record tag 0x04 (fun _ => rfl) rfl
  | restartQuiesced => exact .unit _ (fun _ => rfl) (fun s => keeps_restartQuiescedWork (keeps_refl s)) rfl
  | configSource tag => exact .record tag 0x05 (fun _ => rfl) rfl
  | selectSource tag => exact .record tag 0x06 (fun _ => rfl) rfl
  | setVolume tag => exact .record tag 0x07 (fun _ => rfl) rfl
  | configSpeaker tag => exact .record tag 0x08 (fun _ => rfl) rfl
  | setCrossover tag => exact .record tag 0x09 (fun _ => rfl) rfl
  | setLanes tag => exact .record tag 0x0A (fun _ => rfl) rfl
  | configRecordOut tag => exact .record tag 0x0B (fun _ => rfl) rfl
  | ampRecover tag => exact .record tag 0x0C (fun _ => rfl) rfl
  | configTuner tag => exact .record tag 0x0D (fun _ => rfl) rfl
  | tune tag => exact .record tag 0x0E (fun _ => rfl) rfl
  | seek tag => exact .record tag 0x0F (fun _ => rfl) rfl
  | stopSeek tag => exact .record tag 0x10 (fun _ => rfl) rfl
  | recallPreset tag => exact .record tag 0x11 (fun _ => rfl) rfl
  | storePreset tag => exact .record tag 0x12 (fun _ => rfl) rfl
  | configCapture tag => exact .record tag 0x13 (fun _ => rfl) rfl
  | releaseCapture tag => exact .record tag 0x14 (fun _ => rfl) rfl
  | unknownCommand tag kind => exact .record tag kind (fun _ => rfl) rfl
  | rateWindowEnd => exact .unit _ (fun _ => rfl) (fun s => keeps_windowEnd (keeps_refl s)) rfl
  | portFrame p bits fmt => exact .unit _ (fun _ => rfl) (fun s => keeps_portFrameWork p bits fmt (keeps_refl s)) rfl
  | freeRunBoundary => exact .unit _ (fun _ => rfl) (fun s => keeps_freeRun (keeps_refl s)) rfl
  | followTimeout => exact .unit _ (fun _ => rfl) (fun s => keeps_followTimeout (keeps_refl s)) rfl
  | holdTimerExpiry => exact .unit _ (fun _ => rfl) (fun s => keeps_holdExpiry (keeps_refl s)) rfl
  | laneFrame l => exact .unit _ (fun _ => rfl) (fun s => keeps_laneFrameWork l (keeps_refl s)) rfl
  | recordFrame => exact .unit _ (fun _ => rfl) (fun s => keeps_recordFrameWork (keeps_refl s)) rfl
  | linkAttemptEnd ack b0 b1 => exact .unit _ (fun _ => rfl) (fun s => keeps_attemptEnd ack b0 b1 (keeps_refl s)) rfl
  | linkTimeout => exact .unit _ (fun _ => rfl) (fun s => keeps_attemptTimeout (keeps_refl s)) rfl
  | linkRetry => exact .unit _ (fun _ => rfl) (fun s => keeps_retryBegins (keeps_refl s)) rfl
  | settleTimerExpiry => exact .unit _ (fun _ => rfl) (fun s => keeps_settleExpiry (keeps_refl s)) rfl
  | searchWindow =>
    exact .unit _ (fun _ => rfl)
      (fun s => keeps_whileTakingBits (fun s => keeps_searchTest (keeps_refl s)) (keeps_refl s)) rfl
  | probeWindow =>
    exact .unit _ (fun _ => rfl)
      (fun s => keeps_whileTakingBits (fun s => keeps_probeTest (keeps_refl s)) (keeps_refl s)) rfl
  | syncBlock =>
    exact .unit _ (fun _ => rfl)
      (fun s => keeps_whileTakingBits (fun s => keeps_syncTest (keeps_refl s)) (keeps_refl s)) rfl
  | ampFaultSample p => exact .unit _ (fun _ => rfl) (fun s => keeps_sampleFault p (keeps_refl s)) rfl
  | stationDataBit b => exact .unit _ (fun _ => rfl) (fun s => keeps_takeBit b (keeps_refl s)) rfl

section
variable {s t : State} {i : Instr}

/-! ## The step of a unit and of the path -/

theorem live_eq {f : State → State} : live f s = .next (if s.resetLow then s else finish (f s)) := rfl

theorem always_eq {f : State → State} :
    always f s = .next (if s.resetLow then drivePins (f s) else finish (f s)) := rfl

theorem keeps_live {f : State → State} (keeps : Keeps s (f s)) :
    Keeps s (if s.resetLow then s else finish (f s)) := by
  split
  · exact keeps_refl s
  · exact keeps_finish keeps

theorem keeps_always {f : State → State} (keeps : Keeps s (f s)) :
    Keeps s (if s.resetLow then drivePins (f s) else finish (f s)) := by
  split
  · exact keeps_drivePins keeps
  · exact keeps_finish keeps

/-- Every step but an edge of RESET_N keeps the waiting commands, the level of RESET_N and the memory path's bounds. -/
theorem exec_keeps (inner : isResetEdge i = false) (s : State) : ∃ t, exec i s = .next t ∧ Keeps s t := by
  cases stepShape i with
  | falls => cases inner
  | rises cb => cases inner
  | unit f runs keeps => exact ⟨_, runs s, keeps_live (keeps s)⟩
  | path f runs keeps => exact ⟨_, runs s, keeps_always (keeps s)⟩

/-! ## The edges of RESET_N -/

theorem exec_hardResetRelease_high (cb : BitVec 8) (high : s.resetLow = false) :
    exec (.hardResetRelease cb) s = .next s := by
  change Host.Outcome.next (releaseReset cb s) = .next s
  rw [releaseReset, if_neg (by simp [high])]

theorem pathSound_of_empty (locks : s.pu.locks = []) (queues : s.pu.queues = Queues.empty)
    (range : s.arbiterInRange) (events : s.eventsFit) : s.pathSound := by
  refine ⟨?_, fun q => ?_, range, events⟩
  · rw [State.locksApart, locks]
    exact ⟨by decide, .nil⟩
  · rw [queues]
    cases q <;> exact Nat.zero_le _

theorem pathSound_afterReset (cb : BitVec 8) (port : MemPort) (proc : ProcPort) (pending : List Instr) (n : Nat) :
    (State.afterReset cb port proc pending n).pathSound :=
  pathSound_of_empty rfl rfl ⟨Nat.le_add_left 1 7, Nat.le_add_right 8 56, Nat.zero_le 64⟩ (Nat.zero_le 32)

theorem pathSound_assertReset (sound : s.pathSound) : (assertReset s).pathSound := by
  obtain ⟨-, -, range, events⟩ := sound
  exact pathSound_of_empty rfl rfl range events

theorem pathSound_releaseReset (cb : BitVec 8) (sound : s.pathSound) : (releaseReset cb s).pathSound := by
  unfold releaseReset
  split
  · exact pathSound_afterReset ..
  · exact sound

/-! ## The pins -/

theorem pinsFollow_drivePins (s : State) : (drivePins s).pinsFollow := rfl

theorem pinsFollow_afterReset (cb : BitVec 8) (port : MemPort) (proc : ProcPort) (pending : List Instr) (n : Nat) :
    (State.afterReset cb port proc pending n).pinsFollow := by
  simp [State.pinsFollow, pinLevels, State.afterReset, irqLevel, alertLevel, CommandUnit.reset, PathUnit.reset]
  decide

theorem pinsFollow_clockTick (follow : s.pinsFollow) : (clockTick s).pinsFollow := by
  unfold clockTick
  split <;> exact follow

/-- R49, R145, R198: what a command leaves on the pins goes with the state it leaves. -/
theorem pinsFollow_exec (follow : s.pinsFollow) (runs : exec i s = .next t) : t.pinsFollow := by
  cases stepShape i with
  | falls =>
    cases runs
    exact pinsFollow_drivePins _
  | rises cb =>
    cases runs
    unfold releaseReset
    split
    · exact pinsFollow_afterReset ..
    · exact follow
  | unit f eq =>
    rw [eq, live_eq] at runs
    cases runs
    split
    · exact follow
    · exact pinsFollow_drivePins _
  | path f eq =>
    rw [eq, always_eq] at runs
    cases runs
    split <;> exact pinsFollow_drivePins _

end

/-! ## The obligations -/

/-- Settles O5: every command ends by driving the pins, or leaves what they follow alone. -/
theorem stepKeepsPinsFollowing : Obligations.StepKeepsPinsFollowing := by
  intro s t follow runs
  unfold step at runs
  split at runs
  · cases runs
    exact pinsFollow_clockTick follow
  · rename_i c rest _
    exact pinsFollow_exec (s := { s with pending := rest }) follow runs

/-- Settles O7: the bounds of the memory path through a step's work, and at the edges of RESET_N. -/
theorem stepKeepsPathSound : Obligations.StepKeepsPathSound := by
  intro s t sound runs
  unfold step at runs
  split at runs
  · cases runs
    unfold clockTick
    split <;> exact sound
  · rename_i c rest _
    have sound : State.pathSound { s with pending := rest } := sound
    cases edge : isResetEdge c with
    | false =>
      obtain ⟨u, runs', -, -, keeps⟩ := exec_keeps edge { s with pending := rest }
      cases runs'.symm.trans runs
      exact keeps sound
    | true =>
      cases c with
      | hardResetAssert => cases runs; exact pathSound_assertReset sound
      | hardResetRelease cb => cases runs; exact pathSound_releaseReset cb sound
      | _ => cases edge

/-- Settles O3: the queue and RESET_N through a step's work, and at the edges of RESET_N. -/
theorem everyCommandAnswersAndKeepsQueue : Obligations.EveryCommandAnswersAndKeepsQueue := by
  intro i s
  cases edge : isResetEdge i with
  | false =>
    obtain ⟨t, runs, pending, low, -⟩ := exec_keeps edge s
    refine ⟨t, runs, pending, ?_⟩
    split
    · cases edge
    · cases edge
    · exact low
  | true =>
    cases i with
    | hardResetAssert => exact ⟨_, rfl, rfl, rfl⟩
    | hardResetRelease cb =>
      cases low : s.resetLow with
      | true => exact ⟨_, exec_hardResetRelease cb low, rfl, rfl⟩
      | false => exact ⟨_, exec_hardResetRelease_high cb low, rfl, low⟩
    | _ => cases edge

/-- Settles O4: a unit's work is held in reset, and the rest is named. -/
theorem resetLowHoldsTheUnits : Obligations.ResetLowHoldsTheUnits := by
  intro i s low
  cases stepShape i with
  | falls => exact .inr (.inl rfl)
  | rises cb => exact .inr (.inr (.inl ⟨cb, rfl⟩))
  | unit f runs =>
    rw [runs, live_eq, if_pos low]
    exact .inl rfl
  | path f runs keeps inner on =>
    refine .inr (.inr (.inr ?_))
    cases on with
    | processorTransaction tx => exact .inl ⟨tx, rfl⟩
    | arbiterGrant => exact .inr (.inl rfl)
    | processorMemoryAnswer ok data => exact .inr (.inr (.inl ⟨ok, data, rfl⟩))
    | partTransferAnswer ok data => exact .inr (.inr (.inr ⟨ok, data, rfl⟩))

/-- Settles O9: the values of the reset state. -/
theorem resetMeetsTheInvariants : Obligations.ResetMeetsTheInvariants := by
  refine ⟨pinsFollow_afterReset .., fun _ => afterReset_image .., pathSound_afterReset .., fun p => ?_, ?_⟩
  · rw [State.reset, afterReset_ap]
    exact ⟨Nat.zero_le _, .inr rfl⟩
  · have ru : State.reset.ru = RenderUnit.reset := rfl
    simp only [State.levelsInRange, ru, RenderUnit.reset_levels, RenderUnit.reset_speakers]
    decide

end Sys2Proof.Machine
end

