-- ==== Sys2Proof/Proofs/PathReports.lean ====
section
/-! SUPPORT. The reports of the memory path (R48, R195, R197, R199): an event raised, a fault raised and an index word
written leave all alone but the Command Unit's writers, its events and the CONTROL queue; what the end of a step and a
completion leave. -/

namespace Sys2Proof.Machine

/-! ## The status image -/

/-- The status image that goes with what a state keeps. -/
def Kept.image (k : Kept) : List Word :=
  statusImage { State.reset with
    ports := k.ports, sc := k.sc, re := k.re, ru := k.ru, du := k.du, ap := k.ap, tc := k.tc, sd := k.sd }

theorem statusImage_eq (s : State) : statusImage s = s.kept.image := rfl

section
variable {s t u : State}

/-- R199: a step that leaves the image and what it shows alone ends by driving the pins. -/
theorem finish_shown (high : s.resetLow = false) (current : s.imageCurrent) (image : t.cu.image = s.cu.image)
    (shown : t.kept.image = s.kept.image) : finish t = drivePins t := by
  have same : statusImage t = t.cu.image := by rw [image, current high, statusImage_eq, statusImage_eq, shown]
  rw [finish, updateStatus, if_pos same]

/-- R199: the end of a step brings the image up to date. -/
theorem finish_image (s : State) : (finish s).cu.image = statusImage (finish s) := by
  rw [statusImage_eq, kept_finish]
  unfold finish updateStatus
  split
  · rename_i same; exact same.symm
  · unfold imageChanged
    split <;> rfl

/-! ## Reports -/

/-- From `s` to `t` the Command Unit only reports: its writers and its events move, and transfers of no locked sequence
join the CONTROL queue. -/
def Reports (s t : State) : Prop :=
  (∃ ws p w d fw, t.cu = { s.cu with
      words := ws, pendingEvents := p, evWrite := w, evDropped := d, faultWriter := fw })
    ∧ t.pu.requests = s.pu.requests ∧ t.pu.queues.render = s.pu.queues.render
    ∧ t.pu.queues.input = s.pu.queues.input
    ∧ ∃ ts : List Transfer, t.pu.queues.control.all = s.pu.queues.control.all ++ ts ∧ ∀ x ∈ ts, x.sequence = none

theorem Reports.of_cu {ws : Vector WordWriter 6} {p : List Event} {w : Option EventWrite} {d : Word} {fw : WordWriter}
    (cu : t.cu = { s.cu with words := ws, pendingEvents := p, evWrite := w, evDropped := d, faultWriter := fw })
    (requests : t.pu.requests = s.pu.requests) (queues : t.pu.queues = s.pu.queues) : Reports s t :=
  ⟨⟨_, _, _, _, _, cu⟩, requests, by rw [queues], by rw [queues], [], by rw [queues, List.append_nil], nofun⟩

theorem Reports.refl : Reports s s := .of_cu rfl rfl rfl

theorem Reports.trans (h : Reports s t) (k : Reports t u) : Reports s u := by
  obtain ⟨⟨_, _, _, _, _, cu⟩, requests, render, input, ts, control, free⟩ := h
  obtain ⟨⟨_, _, _, _, _, cu'⟩, requests', render', input', ts', control', free'⟩ := k
  refine ⟨⟨_, _, _, _, _, by rw [cu', cu]⟩, requests'.trans requests, render'.trans render, input'.trans input,
    ts ++ ts', by rw [control', control, List.append_assoc], fun x mem => ?_⟩
  exact (List.mem_append.1 mem).elim (free x) (free' x)

end

section
variable (s : State)

theorem control_placeTransfer (x : Transfer) :
    (placeTransfer .control x s).pu.queues.control.all = s.pu.queues.control.all ++ [x] := place_all _ _ _

theorem reports_placeTransfer {x : Transfer} (free : x.sequence = none) : Reports s (placeTransfer .control x s) :=
  ⟨⟨_, _, _, _, _, rfl⟩, rfl, rfl, rfl, [x], control_placeTransfer s x, by simpa using free⟩

theorem reports_placeIndexWord (w : IndexWord) : Reports s (placeIndexWord w s) :=
  .trans (t := setWriter w { inFlight := true, again := false } s) (.of_cu rfl rfl rfl) (reports_placeTransfer _ rfl)

theorem reports_writeIndexWord (w : IndexWord) : Reports s (writeIndexWord w s) := by
  unfold writeIndexWord
  split_ifs
  · exact .of_cu rfl rfl rfl
  · exact .of_cu rfl rfl rfl
  · exact reports_placeIndexWord s w

theorem reports_dropEvent : Reports s (dropEvent s) :=
  .trans (t := s.mapCu fun cu => { cu with evDropped := wrapSucc cu.evDropped }) (.of_cu rfl rfl rfl)
    (reports_writeIndexWord _ _)

theorem reports_placeEventWrite (e : Event) : Reports s (placeEventWrite e s) :=
  .trans (t := s.mapCu fun cu => { cu with evWrite := some { event := e, stale := false } }) (.of_cu rfl rfl rfl)
    (reports_placeTransfer _ rfl)

theorem reports_writeOldest (es : List Event) : Reports s (writeOldest es s) := by
  induction es generalizing s with
  | nil => exact .of_cu rfl rfl rfl
  | cons e es ih =>
    unfold writeOldest
    split
    · exact (reports_dropEvent s).trans (ih _)
    · exact .trans (t := s.mapCu fun cu => { cu with pendingEvents := es }) (.of_cu rfl rfl rfl)
        (reports_placeEventWrite _ e)

theorem reports_pumpEvents : Reports s (pumpEvents s) := by
  unfold pumpEvents
  split
  · exact .refl
  · exact reports_writeOldest s _

theorem reports_queueEvent (e : Event) : Reports s (queueEvent e s) := by
  unfold queueEvent
  split
  · exact .trans (t := s.mapCu fun cu => { cu with pendingEvents := cu.pendingEvents ++ [e] }) (.of_cu rfl rfl rfl)
      (reports_pumpEvents _)
  · exact reports_dropEvent s

theorem reports_raiseEvent (n : EventName) (sub : BitVec 16) (d1 d2 : Word) :
    Reports s (raiseEvent n sub d1 d2 s) := reports_queueEvent s _

theorem reports_placeFaultRecord : Reports s (placeFaultRecord s) :=
  .trans (t := s.mapCu fun cu => { cu with faultWriter := { inFlight := true, again := false } }) (.of_cu rfl rfl rfl)
    (reports_placeTransfer _ rfl)

theorem reports_writeFaultRecord : Reports s (writeFaultRecord s) := by
  unfold writeFaultRecord
  split
  · exact .of_cu rfl rfl rfl
  · exact reports_placeFaultRecord s

/-! ## The fault record -/

@[simp] theorem faultRec_writeIndexWord (w : IndexWord) : (writeIndexWord w s).pu.faultRec = s.pu.faultRec := by
  unfold writeIndexWord
  split_ifs <;> rfl

@[simp] theorem faultRec_queueEvent (e : Event) : (queueEvent e s).pu.faultRec = s.pu.faultRec := by
  unfold queueEvent
  split
  · exact pumpEvents_faultRec _
  · exact faultRec_writeIndexWord _ _

@[simp] theorem faultRec_raiseEvent (n : EventName) (sub : BitVec 16) (d1 d2 : Word) :
    (raiseEvent n sub d1 d2 s).pu.faultRec = s.pu.faultRec := faultRec_queueEvent s _

@[simp] theorem faultRec_writeFaultRecord : (writeFaultRecord s).pu.faultRec = s.pu.faultRec := by
  unfold writeFaultRecord
  split <;> rfl

@[simp] theorem faultRec_complete (r : ResultCode) : (complete r s).pu.faultRec = s.pu.faultRec :=
  (places_complete r s).1

@[simp] theorem faultRec_finish : (finish s).pu.faultRec = s.pu.faultRec := (finish_queues s).2

theorem quiet_writeFaultRecord : Quiet s (writeFaultRecord s) := by
  unfold writeFaultRecord
  split <;> rfl

end

section
variable {s : State}

/-! ## Events raised -/

/-- R197: with nothing being written, and room in the ring, the oldest event is written. -/
theorem pumpEvents_next {e : Event} {rest : List Event} (running : s.cu.quiesce = false) (free : s.cu.evWrite = none)
    (pending : s.cu.pendingEvents = e :: rest) (space : eventRingFull s = false) :
    pumpEvents s = placeEventWrite e (s.mapCu fun cu => { cu with pendingEvents := rest }) := by
  have idle : ¬ (s.cu.quiesce = true ∨ s.cu.evWrite.isSome = true) := by simp [running, free]
  have open' : ¬ eventRingFull s = true := by rw [space]; decide
  rw [pumpEvents, if_neg idle, pending, writeOldest, if_neg open']

/-- R197: with room an event joins the events on their way. -/
theorem queueEvent_joins {n : Nat} (e : Event) (h : s.takesEvents (n + 1)) :
    (queueEvent e s).takesEvents n ∧ (queueEvent e s).eventsOut = s.eventsOut ++ [e] := by
  obtain ⟨enabled, running, next, room⟩ := h
  rw [queueEvent, if_pos ⟨enabled, by omega⟩]
  cases write : s.cu.evWrite with
  | none =>
    obtain ⟨empty, space⟩ := next write
    rw [pumpEvents_next (s := s.mapCu fun cu => { cu with pendingEvents := cu.pendingEvents ++ [e] }) (e := e)
      (rest := []) running write (by simp [empty]) space]
    refine ⟨⟨enabled, running, nofun, ?_⟩, ?_⟩
    · rw [empty] at room
      simpa [placeEventWrite, placeTransfer] using Nat.le_of_succ_le room
    · rw [State.eventsOut, State.eventsOut, write, empty]
      rfl
  | some w =>
    rw [pumpEvents, if_pos (.inr (by simp [write]))]
    refine ⟨⟨enabled, running, fun none => ?_, ?_⟩, ?_⟩
    · cases write.symm.trans none
    · simp only [State.mapCu_cu, List.length_append, List.length_singleton]; omega
    · simp [State.eventsOut]

/-! ## Faults raised -/

/-- R48: the FAULT event of a fault raised in `s`. -/
def faultEvent (marked : Bool) (k : FaultKind) (a : Nat) (s : State) : Event :=
  { eventNow s (.fault k) 0 (natWord a) (flagWord k.isError) with ofEventWrite := marked }

/-- R48: the fault record once a fault has been raised in `s`. -/
def faultTaken (k : FaultKind) (a : Nat) (s : State) : Option FaultRecord :=
  if faultReplaces s.pu.faultRec k then some { kind := k, addr := a, stamp := s.clock.stamp } else s.pu.faultRec

section
variable (marked : Bool) (k : FaultKind) (a : Nat)

theorem raiseFaultMarked_eq : raiseFaultMarked marked k a s =
    if faultReplaces s.pu.faultRec k then
      writeFaultRecord ((queueEvent (faultEvent marked k a s) s).mapPu fun pu =>
        { pu with faultRec := some { kind := k, addr := a, stamp := s.clock.stamp } })
    else queueEvent (faultEvent marked k a s) s := by
  have stamp : (queueEvent (faultEvent marked k a s) s).clock.stamp = s.clock.stamp :=
    congrArg (fun k => k.clock.stamp) (kept_queueEvent s _)
  rw [← stamp]
  rfl

theorem reports_raiseFaultMarked (s : State) : Reports s (raiseFaultMarked marked k a s) := by
  rw [raiseFaultMarked_eq]
  split
  · refine (reports_queueEvent s (faultEvent marked k a s)).trans ?_
    exact .trans (.of_cu rfl rfl rfl) (reports_writeFaultRecord _)
  · exact reports_queueEvent s _

theorem raiseFaultMarked_faultRec (s : State) : (raiseFaultMarked marked k a s).pu.faultRec = faultTaken k a s := by
  rw [raiseFaultMarked_eq, faultTaken]
  split
  · rw [faultRec_writeFaultRecord]; rfl
  · rw [faultRec_queueEvent]

theorem raiseFaultMarked_quiet (s : State) :
    Quiet (queueEvent (faultEvent marked k a s) s) (raiseFaultMarked marked k a s) := by
  rw [raiseFaultMarked_eq]
  split
  · exact Quiet.trans (t := (queueEvent (faultEvent marked k a s) s).mapPu fun pu =>
      { pu with faultRec := some { kind := k, addr := a, stamp := s.clock.stamp } }) rfl (quiet_writeFaultRecord _)
  · rfl

theorem raiseFaultMarked_joins {n : Nat} (h : s.takesEvents (n + 1)) :
    (raiseFaultMarked marked k a s).takesEvents n
      ∧ (raiseFaultMarked marked k a s).eventsOut = s.eventsOut ++ [faultEvent marked k a s] := by
  obtain ⟨later, out⟩ := queueEvent_joins (faultEvent marked k a s) h
  have quiet := raiseFaultMarked_quiet marked k a s
  exact ⟨quiet.takesEvents later, by rw [quiet.eventsOut, out]⟩

end

theorem faultEvent_of_warning {k : FaultKind} (a : Nat) (s : State) (warning : k.isError = false) :
    faultEvent false k a s = eventNow s (.fault k) 0 (natWord a) 0 := by
  rw [faultEvent, warning]
  rfl

theorem faultTaken_of_empty (k : FaultKind) (a : Nat) (empty : s.pu.faultRec = none) :
    faultTaken k a s = some { kind := k, addr := a, stamp := s.clock.stamp } := by
  rw [faultTaken, empty]
  rfl

/-! ## Completions -/

/-- R196: what the completion of a command leaves at the end of the step. -/
theorem finish_complete {b : Busy} (r : ResultCode) (busy : s.cu.exec = .busy b) :
    (finish (complete r s)).cu.head = (if b.counts then s.cu.head + 1 else s.cu.head)
      ∧ ((finish (complete r s)).cu.exec = .idle ∨ (finish (complete r s)).cu.exec = .fetching) := by
  obtain ⟨exec, head, -⟩ := finish_exec (complete r s)
  obtain ⟨ws, e, f, cu, idle⟩ := complete_cu r busy
  rw [exec, head, cu]
  exact ⟨rfl, idle⟩

/-- R197: with room the COMPLETION joins the events on their way. -/
theorem complete_eventsOut {n : Nat} {b : Busy} (r : ResultCode) (busy : s.cu.exec = .busy b)
    (room : s.takesEvents (n + 1)) : (complete r s).eventsOut = s.eventsOut ++ [busyCompletion s b r] := by
  obtain ⟨-, out⟩ := raiseEvent_joins .completion b.tag (natWord r.code) (word2 b.kind.toNat b.index.toNat) room
  obtain ⟨ws, e, f, cu, -⟩ := complete_cu r busy
  rw [State.eventsOut, cu]
  exact out

end

end Sys2Proof.Machine
end

