-- ==== Sys2Proof/Proofs/PathSettings.lean ====
section
/-! SUPPORT. SET_ARBITER, SET_VOLUME and SET_CROSSOVER (R45, R98, R100), and CLEAR_FAULT (R48, R51). -/

namespace Sys2Proof.Machine

section
variable {s u : State}

/-! ## The three settings -/

theorem crossover_coefficients : [RateClass.k32, .k44, .k48, .k88, .k96].map
    (fun c => [60, 80, 100, 120].map (crossoverAlpha c))
      = [[384, 511, 637, 763], [279, 371, 464, 555], [256, 341, 426, 511], [140, 186, 233, 279],
         [128, 171, 214, 256]] := by decide

/-- R45: a slice brought into 1 to 64. -/
theorem slice_clamped (n : Nat) : max 1 (min 64 n) = if n = 0 then 1 else if 64 < n then 64 else n := by
  split_ifs <;> omega

theorem master_clamped (n : Nat) : min 191 n = if 191 < n then 191 else n := by
  split_ifs <;> omega

theorem setArbiter_completes (tag : BitVec 16) (h : Word) (ready : s.ready) :
    ∃ t, exec (.setArbiter tag h) s = .next t
      ∧ t.kept = { s.kept with sliceH := if h.toNat = 0 then 1 else if 64 < h.toNat then 64 else h.toNat }
      ∧ s.completedAtOnce t tag 0x02 (if h.toNat = 0 ∨ 64 < h.toNat then .clamped else .done) := by
  refine ⟨_, record_ready tag 0x02 (setArbiterEffect h) ready, ?_, complete_atOnce _ rfl rfl rfl rfl rfl⟩
  rw [kept_finish, setArbiterEffect, kept_complete, slice_clamped]
  rfl

theorem setVolume_completes (tag : BitVec 16) (master mute : Word) (ready : s.ready) :
    ∃ t, exec (.setVolume tag master mute) s = .next t
      ∧ t.kept = { s.kept with ru := { s.ru with
          master := if 191 < master.toNat then 191 else master.toNat, mute := mute.getLsbD 0 } }
      ∧ t.cu.image = statusImage t
      ∧ s.completedAtOnce t tag 0x07 (if 191 < master.toNat then .clamped else .done) := by
  refine ⟨_, record_ready tag 0x07 (setVolumeEffect master mute) ready, ?_, finish_image _,
    complete_atOnce _ rfl rfl rfl rfl rfl⟩
  rw [kept_finish, setVolumeEffect, kept_complete, master_clamped]
  rfl

theorem setCrossover_completes (tag : BitVec 16) (f : Word) (ready : s.ready) :
    ∃ t, exec (.setCrossover tag f) s = .next t
      ∧ (if f.toNat = 60 ∨ f.toNat = 80 ∨ f.toNat = 100 ∨ f.toNat = 120 then
          t.kept = { s.kept with ru := { s.ru with crossover := f.toNat } } ∧ s.completedAtOnce t tag 0x09 .done
        else t.kept = s.kept ∧ s.completedAtOnce t tag 0x09 .refusedRange) := by
  split
  · rename_i offered
    exact record_completes (u := (beginCommand tag 0x09 s).mapRu fun ru => { ru with crossover := f.toNat })
      ready rfl (if_pos offered) rfl rfl rfl rfl
  · rename_i other
    exact record_refused ready rfl (if_neg other)

/-! ## The fault record emptied -/

/-- R51: the state with no fault latched. -/
def emptied (s : State) : State := s.mapPu fun pu => { pu with faultRec := none }

theorem emptyFaultRecord_empty (empty : s.pu.faultRec = none) : emptyFaultRecord s = s := by
  rw [emptyFaultRecord, empty]
  rfl

theorem emptyFaultRecord_latched (latched : s.pu.faultRec.isSome = true) :
    emptyFaultRecord s = writeFaultRecord (emptied s) := if_pos latched

theorem kept_emptyFaultRecord : (emptyFaultRecord s).kept = s.kept := by
  unfold emptyFaultRecord
  split
  · rw [kept_writeFaultRecord]; rfl
  · rfl

theorem emptyFaultRecord_faultRec : (emptyFaultRecord s).pu.faultRec = none := by
  unfold emptyFaultRecord
  split
  · rw [faultRec_writeFaultRecord]; rfl
  · rename_i empty; simpa using empty

theorem reports_emptyFaultRecord : Reports s (emptyFaultRecord s) := by
  unfold emptyFaultRecord
  split
  · exact .trans (t := emptied s) (.of_cu rfl rfl rfl) (reports_writeFaultRecord _)
  · exact .refl

theorem quiet_emptyFaultRecord : Quiet s (emptyFaultRecord s) := by
  unfold emptyFaultRecord
  split
  · exact Quiet.trans (t := emptied s) rfl (quiet_writeFaultRecord _)
  · rfl

/-- R48: with a write of the record in flight, or in a quiesce, one more write is owed. -/
theorem writeFaultRecord_owed (h : s.cu.faultWriter.inFlight = true ∨ s.cu.quiesce = true) :
    writeFaultRecord s = s.mapCu fun cu => { cu with faultWriter := { cu.faultWriter with again := true } } := if_pos h

theorem writeFaultRecord_placed (idle : s.cu.faultWriter.inFlight = false) (running : s.cu.quiesce = false) :
    writeFaultRecord s = placeFaultRecord s := by
  rw [writeFaultRecord, if_neg (by simp [idle, running])]

/-- R197: with room the COMPLETION is the next event written. -/
theorem complete_evWrite {b : Busy} (r : ResultCode) (busy : u.cu.exec = .busy b) (room : u.eventRoom) :
    (complete r u).cu.evWrite = some { event := busyCompletion u b r, stale := false } := by
  obtain ⟨ws, e, f, cu, -⟩ := complete_cu r busy
  obtain ⟨ws', raised⟩ := raiseEvent_room .completion b.tag (natWord r.code) (word2 b.kind.toNat b.index.toNat) room
  rw [cu, raised]
  rfl

theorem finish_faultWriter (s : State) : (finish s).cu.faultWriter = s.cu.faultWriter := by
  obtain ⟨-, same, -⟩ := places_finish s
  exact same

theorem complete_faultWriter (r : ResultCode) (s : State) : (complete r s).cu.faultWriter = s.cu.faultWriter := by
  obtain ⟨-, same, -⟩ := places_complete r s
  exact same

/-- What a transfer placed before a completion becomes by the end of the step: it stays in its queue. -/
theorem mem_control_finish_complete {x : Transfer} (r : ResultCode) (mem : x ∈ u.pu.queues.control.all) :
    x ∈ (finish (complete r u)).pu.queues.control.all := by
  obtain ⟨-, -, -, -, ts, control, -⟩ := (places_complete r u).trans (places_finish _)
  rw [control]
  exact List.mem_append_left ts mem

theorem alertN_finish (high : s.resetLow = false) (empty : s.pu.faultRec = none) : (finish s).pins.alertN = true := by
  have low : (updateStatus s).resetLow = false := (congrArg Kept.resetLow (kept_updateStatus s)).trans high
  have record : (updateStatus s).pu.faultRec = none := (faultRec_finish s).trans empty
  rw [finish, drivePins, pinLevels, low, alertLevel, record]
  rfl

end

/-- Settles O12: each record completes with its value taken, and the other values are those of the reset state. -/
theorem settingCommandsWriteTheirValues : Obligations.SettingCommandsWriteTheirValues := by
  unfold Obligations.SettingCommandsWriteTheirValues
  exact ⟨fun _ => setArbiter_completes, fun _ => setVolume_completes, fun _ => setCrossover_completes,
    crossover_coefficients, fun _ _ _ _ _ => ⟨rfl, rfl, rfl, rfl, rfl⟩, fun _ => ⟨rfl, rfl, rfl, rfl, rfl⟩⟩

/-- R196: the command that a record just taken holds. -/
def takenCommand (s : State) (tag kind : BitVec 16) : Busy :=
  { tag := tag, kind := kind, index := s.cu.head, counts := true, work := .atOnce }

section
variable {s : State} (tag : BitVec 16)

theorem clearing_cu : (emptyFaultRecord (beginCommand tag 0x03 s)).cu.exec = .busy (takenCommand s tag 0x03)
    ∧ (emptyFaultRecord (beginCommand tag 0x03 s)).cu.head = s.cu.head := by
  obtain ⟨⟨_, _, _, _, _, cu⟩, -⟩ := reports_emptyFaultRecord (s := beginCommand tag 0x03 s)
  rw [cu]
  exact ⟨rfl, rfl⟩

theorem clearing_completion (r : ResultCode) :
    busyCompletion (emptyFaultRecord (beginCommand tag 0x03 s)) (takenCommand s tag 0x03) r
      = completionEvent s tag 0x03 r := by
  have clock : (emptyFaultRecord (beginCommand tag 0x03 s)).clock = s.clock := congrArg Kept.clock kept_emptyFaultRecord
  rw [busyCompletion, completionEvent, eventNow, eventNow, clock]
  rfl

theorem clearFault_latched (latched : s.pu.faultRec.isSome = true) :
    clearFaultEffect (beginCommand tag 0x03 s)
      = complete .done (writeFaultRecord (emptied (beginCommand tag 0x03 s))) :=
  congrArg (complete .done) (emptyFaultRecord_latched (s := beginCommand tag 0x03 s) latched)

theorem clearFault_faultWriter (latched : s.pu.faultRec.isSome = true)
    (owes : s.cu.faultWriter.inFlight = true ∨ s.cu.quiesce = true) :
    (finish (clearFaultEffect (beginCommand tag 0x03 s))).cu.faultWriter
      = { inFlight := s.cu.faultWriter.inFlight, again := true } := by
  rw [clearFault_latched tag latched, finish_faultWriter, complete_faultWriter,
    writeFaultRecord_owed (s := emptied (beginCommand tag 0x03 s)) owes]
  rfl

theorem clearFault_writes (latched : s.pu.faultRec.isSome = true) (idle : s.cu.faultWriter.inFlight = false)
    (running : s.cu.quiesce = false) :
    (finish (clearFaultEffect (beginCommand tag 0x03 s))).cu.faultWriter = { inFlight := true, again := false }
      ∧ writeOf .faultRecord (s.pu.regions.control + 0x80) [0, 0, 0, 0] none
        ∈ (finish (clearFaultEffect (beginCommand tag 0x03 s))).pu.queues.control.all := by
  rw [clearFault_latched tag latched, writeFaultRecord_placed (s := emptied (beginCommand tag 0x03 s)) idle running]
  refine ⟨by rw [finish_faultWriter, complete_faultWriter]; rfl, mem_control_finish_complete _ ?_⟩
  rw [placeFaultRecord, control_placeTransfer]
  exact List.mem_append_right _ (List.mem_singleton.2 rfl)

end

/-- Settles O13: the record is emptied before the completion, and its write is placed or owed. -/
theorem clearFaultEmptiesRecord : Obligations.ClearFaultEmptiesRecord := by
  unfold Obligations.ClearFaultEmptiesRecord
  intro s tag ready
  have high := ready.1
  obtain ⟨busy, head⟩ := clearing_cu (s := s) tag
  have record : (clearFaultEffect (beginCommand tag 0x03 s)).pu.faultRec = none := by
    rw [clearFaultEffect, faultRec_complete, emptyFaultRecord_faultRec]
  refine ⟨_, record_ready tag 0x03 clearFaultEffect ready, ?_, by rw [faultRec_finish, record],
    alertN_finish ?_ record, ?_, fun empty => ?_, fun latched room => ?_, fun latched flying => ?_,
    fun latched idle quiesces => ?_, clearFault_writes tag⟩
  · rw [kept_finish, clearFaultEffect, kept_complete, kept_emptyFaultRecord, kept_beginCommand]
  · exact (congrArg Kept.resetLow ((kept_complete _ .done).trans kept_emptyFaultRecord)).trans high
  · exact (finish_complete .done busy).1.trans (by rw [head]; rfl)
  · rw [clearFaultEffect, emptyFaultRecord_empty (s := beginCommand tag 0x03 s) empty]
    exact complete_atOnce _ rfl rfl rfl rfl rfl
  · obtain ⟨_, _, cu⟩ := finish_cu (clearFaultEffect (beginCommand tag 0x03 s))
    have quiet : Quiet s (emptyFaultRecord (beginCommand tag 0x03 s)) :=
      Quiet.trans (t := beginCommand tag 0x03 s) rfl quiet_emptyFaultRecord
    rw [cu, clearFaultEffect]
    exact (complete_evWrite .done busy (quiet.eventRoom room)).trans (by rw [clearing_completion])
  · rw [clearFault_faultWriter tag latched (.inl flying), flying]
  · rw [clearFault_faultWriter tag latched (.inr quiesces), idle]

end Sys2Proof.Machine
end

