-- ==== Sys2Proof/Proofs/Regions.lean ====
section
/-! SUPPORT. SET_REGION (R32, R52, R53, R57, R120): its checks, the change of the entry, and the drain. -/

namespace Sys2Proof.Machine

/-! ## The checks (R52) -/

section
variable {s : State} {n : Fin 7} {role clear base slots : Word}

theorem settableRole_of_out (h : role.toNat < 3 ∨ 6 < role.toNat) : settableRole role = none := by
  rcases Nat.lt_or_ge role.toNat 7 with inside | outside
  · rw [settableRole, finOf_of_eq (i := ⟨role.toNat, inside⟩) rfl]
    exact if_neg (show ¬ 3 ≤ role.toNat by omega)
  · rw [settableRole, finOf_of_le outside]

theorem settableRole_of_eq (settable : 3 ≤ n.val) (h : role.toNat = n.val) : settableRole role = some n := by
  rw [settableRole, finOf_of_eq h]
  exact if_pos settable

theorem servedSource_none : servedSource s = none ↔ s.sc.path = .direct ∨ s.sc.connected = none := by
  rw [servedSource]
  cases s.sc.path <;> simp

/-- R52: a ring's role is free while its source is not served, and DELAY while none is connected. -/
theorem roleFree_iff : roleFree s n = true ↔
    ((n = 3 ∨ n = 4 → s.sc.path = .direct ∨ s.sc.connected = none) ∧ (n = 5 → s.sc.connected = none)) := by
  fin_cases n <;> simp [roleFree, servedSource_none]

theorem goodSlotCount_iff (k : Nat) : goodSlotCount k = true ↔ k ∈ [4, 8, 16, 32, 64, 128, 256] := by
  rw [goodSlotCount, List.contains_iff_mem]

/-- R32, R52: the size of a role's region. -/
theorem regionSize_of (settable : 3 ≤ n.val) {k size : Nat}
    (ring : n = 3 ∨ n = 4 → k ∈ [4, 8, 16, 32, 64, 128, 256] ∧ size = 2048 * k) (delay : n = 5 → size = 131072)
    (preset : n = 6 → size = 1024) : regionSize n k = some size := by
  match n, settable with
  | 3, _ =>
    obtain ⟨good, rfl⟩ := ring (.inl rfl)
    exact if_pos ((goodSlotCount_iff k).2 good)
  | 4, _ =>
    obtain ⟨good, rfl⟩ := ring (.inr rfl)
    exact if_pos ((goodSlotCount_iff k).2 good)
  | 5, _ => rw [delay rfl]; rfl
  | 6, _ => rw [preset rfl]; rfl

theorem newRange_of_size {b k size : Nat} (h : regionSize n k = some size) :
    newRange n b k = if b % 4096 = 0 ∧ b + size ≤ 2 ^ 28 then some { base := b, size := size } else none := by
  rw [newRange, h]
  rfl

theorem newRange_ring_none {b k : Nat} (ring : n = 3 ∨ n = 4)
    (h : k ∉ [4, 8, 16, 32, 64, 128, 256] ∨ b % 4096 ≠ 0 ∨ 2 ^ 28 < b + 2048 * k) : newRange n b k = none := by
  by_cases good : k ∈ [4, 8, 16, 32, 64, 128, 256]
  · have size : regionSize n k = some (2048 * k) := by
      rcases ring with rfl | rfl <;> exact if_pos ((goodSlotCount_iff k).2 good)
    rw [newRange_of_size size, if_neg (fun fits => ?_)]
    rcases h with bad | h
    · exact bad good
    · omega
  · have size : regionSize n k = none := by
      rcases ring with rfl | rfl <;> exact if_neg (mt (goodSlotCount_iff k).1 good)
    simp [newRange, size]

theorem newRange_none {b k size : Nat} (h : regionSize n k = some size) (bad : b % 4096 ≠ 0 ∨ 2 ^ 28 < b + size) :
    newRange n b k = none := by
  rw [newRange_of_size h, if_neg (by omega)]

theorem Range.overlaps_iff {a b : Range} :
    a.overlaps b = true ↔ a.base < b.base + b.size ∧ b.base < a.base + a.size := by
  simp [Range.overlaps]

theorem overlapsOther_iff {r : Regions} {v : Range} : overlapsOther r n v = true ↔
    ∃ (m : Fin 7) (w : Range), m ≠ n ∧ r.role m = some w ∧ v.base < w.base + w.size ∧ w.base < v.base + v.size := by
  have mem : ∀ m : Fin 7, m ∈ roleIds := by decide
  rw [overlapsOther, List.any_eq_true]
  refine exists_congr fun m => ?_
  cases entry : r.role m with
  | none => simp
  | some w => simp [mem, Range.overlaps_iff]

/-! ## Refusals -/

theorem setRegionEffect_badRole (h : settableRole role = none) :
    setRegionEffect role clear base slots s = complete .refusedRange s := by
  rw [setRegionEffect, h]

theorem setRegionEffect_inUse (settable : settableRole role = some n) (busy : roleFree s n = false) :
    setRegionEffect role clear base slots s = complete .refusedState s := by
  rw [setRegionEffect, settable]
  exact if_pos busy

theorem setRegionEffect_set (settable : settableRole role = some n) (free : roleFree s n = true)
    (sets : clear.getLsbD 0 = false) : setRegionEffect role clear base slots s =
      match newRange n base.toNat slots.toNat with
      | none => complete .refusedRange s
      | some v => if overlapsOther s.pu.regions n v then complete .refusedOverlap s else changeRegion n (some v) s := by
  rw [setRegionEffect, settable]
  simp only [free, flagOf, sets]
  rfl

theorem setRegionEffect_badRange (settable : settableRole role = some n) (free : roleFree s n = true)
    (sets : clear.getLsbD 0 = false) (bad : newRange n base.toNat slots.toNat = none) :
    setRegionEffect role clear base slots s = complete .refusedRange s := by
  rw [setRegionEffect_set settable free sets, bad]

theorem setRegionEffect_cleared (settable : settableRole role = some n) (free : roleFree s n = true)
    (clears : clear.getLsbD 0 = true) : setRegionEffect role clear base slots s = changeRegion n none s := by
  rw [setRegionEffect, settable]
  simp only [free, flagOf, clears]
  rfl

theorem setRegion_refused {tag : BitVec 16} {r : ResultCode} (ready : s.ready)
    (effect : setRegionEffect role clear base slots (beginCommand tag 0x01 s)
      = complete r (beginCommand tag 0x01 s)) :
    ∃ t, exec (.setRegion tag role clear base slots) s = .next t ∧ t.kept = s.kept ∧ s.completedAtOnce t tag 0x01 r :=
  record_refused ready rfl effect

end

/-- Settles O22: each failed check, with the earlier ones passed, makes the record's effect its completion alone. -/
theorem setRegionRefusals : Obligations.SetRegionRefusals := by
  unfold Obligations.SetRegionRefusals
  intro s tag role clear base slots ready
  have inUse {n : Fin 7} (not : ¬ ((n = 3 ∨ n = 4 → s.sc.path = .direct ∨ s.sc.connected = none)
      ∧ (n = 5 → s.sc.connected = none))) : roleFree (beginCommand tag 0x01 s) n = false := by
    rw [← Bool.not_eq_true, roleFree_iff]
    exact not
  have free {n : Fin 7} (ring : n = 3 ∨ n = 4 → s.sc.path = .direct ∨ s.sc.connected = none)
      (delay : n = 5 → s.sc.connected = none) : roleFree (beginCommand tag 0x01 s) n = true :=
    roleFree_iff.2 ⟨ring, delay⟩
  have ring (h : role.toNat = 3 ∨ role.toNat = 4) : ∃ n : Fin 7, (n = 3 ∨ n = 4) ∧ settableRole role = some n := by
    rcases h with h | h
    · exact ⟨3, .inl rfl, settableRole_of_eq (by decide) h⟩
    · exact ⟨4, .inr rfl, settableRole_of_eq (by decide) h⟩
  refine ⟨fun out => ?_, fun role hosted connected => ?_, fun role connected => ?_, fun role idle sets bad => ?_,
    fun role idle sets bad => ?_, fun role sets bad => ?_, ?_⟩
  · exact setRegion_refused ready (setRegionEffect_badRole (settableRole_of_out out))
  · obtain ⟨n, isRing, settable⟩ := ring role
    refine setRegion_refused ready (setRegionEffect_inUse settable (inUse fun k => ?_))
    rcases k.1 isRing with direct | none
    · cases hosted.symm.trans direct
    · simp [none] at connected
  · refine setRegion_refused ready
      (setRegionEffect_inUse (settableRole_of_eq (n := 5) (by decide) role) (inUse fun k => ?_))
    simp [k.2 rfl] at connected
  · obtain ⟨n, isRing, settable⟩ := ring role
    refine setRegion_refused ready
      (setRegionEffect_badRange settable (free (fun _ => idle) ?_) sets (newRange_ring_none isRing bad))
    rintro rfl
    exact absurd isRing (by decide)
  · exact setRegion_refused ready (setRegionEffect_badRange (settableRole_of_eq (n := 5) (by decide) role)
      (free (fun k => absurd k (by decide)) fun _ => idle) sets (newRange_none rfl bad))
  · exact setRegion_refused ready (setRegionEffect_badRange (settableRole_of_eq (n := 6) (by decide) role)
      (free (fun k => absurd k (by decide)) fun k => absurd k (by decide)) sets (newRange_none rfl bad))
  · intro n settable role ring delay size sets aligned fits overlap
    have sized : regionSize n slots.toNat = some size := regionSize_of settable
      (fun k => ⟨(ring k).2, by rcases k with rfl | rfl <;> rfl⟩) (by rintro rfl; rfl) (by rintro rfl; rfl)
    have overlaps : overlapsOther (beginCommand tag 0x01 s).pu.regions n { base := base.toNat, size := size } = true :=
      overlapsOther_iff.2 overlap
    refine setRegion_refused ready ?_
    rw [setRegionEffect_set (settableRole_of_eq settable role) (free (fun k => (ring k).1) delay) sets,
      newRange_of_size sized, if_pos ⟨aligned, fits⟩]
    exact if_pos overlaps

end Sys2Proof.Machine
end

