-- ==== Sys2Proof/Proofs/RegionChanges.lean ====
section
/-! SUPPORT. SET_REGION's change of the entry, the transfers it marks and drops (R53, R120), and its end (R57). -/

namespace Sys2Proof.Machine

/-! ## The transfers of the old range (R53) -/

/-- R53: a transfer, marked if it addresses the old range. -/
def drainMark (old : Option Range) (x : Transfer) : Transfer :=
  { x with draining := x.draining || (match old with
      | none => false
      | some r => decide (r.base ≤ x.addr) && decide (x.addr < r.base + r.size)) }

/-- R53: the memory port, its part transfer marked. -/
def MemPort.drainMarked (old : Option Range) : MemPort → MemPort
  | .part x => .part (drainMark old x)
  | p => p

/-- R53: the three queues, every transfer marked. -/
def Queues.drainMarked (old : Option Range) (qs : Queues) : Queues :=
  { render := qs.render.map (drainMark old), input := qs.input.map (drainMark old),
    control := qs.control.map (drainMark old) }

theorem drainMark_none : drainMark none = id := by
  funext x
  simp [drainMark]

theorem TransferQueue.map_id (tq : TransferQueue) : tq.map id = tq := by simp [TransferQueue.map]

/-- R53: what the marking of the old range's transfers leaves. -/
theorem markOld_eq (old : Option Range) (s : State) : markOld old s
    = s.mapPu fun pu => { pu with queues := pu.queues.drainMarked old, port := pu.port.drainMarked old } := by
  cases old with
  | none =>
    have port : s.pu.port.drainMarked none = s.pu.port := by
      cases held : s.pu.port <;> simp [MemPort.drainMarked, drainMark_none]
    simp only [markOld, State.mapPu, Queues.drainMarked, drainMark_none, TransferQueue.map_id, port]
  | some r => rfl

/-! ## The role of the entry changed -/

theorem role_withRole (r : Regions) {n : Fin 7} (settable : 3 ≤ n.val) (v : Option Range) (m : Fin 7) :
    (r.withRole n v).role m = if m = n then v else r.role m := by
  match n, settable with
  | 3, _ => fin_cases m <;> rfl
  | 4, _ => fin_cases m <;> rfl
  | 5, _ => fin_cases m <;> rfl
  | 6, _ => fin_cases m <;> rfl

section
variable {s : State}

/-! ## The change of the entry -/

/-- R120: the Delay Unit and its unplaced transfers, at a change of the entry of role `n`. -/
def delayLeft (n : Fin 7) (set : Bool) (s : State) : State := if n = 5 then delayRegionChanged set s else s

/-- R53, R120: the Path Unit once the entry of role `n` is `v`. -/
theorem changeRegion_pu (n : Fin 7) (v : Option Range) (s : State) :
    (changeRegion n v s).pu = { s.pu with
      regions := s.pu.regions.withRole n v, port := s.pu.port.drainMarked (s.pu.regions.role n),
      queues := (delayLeft n v.isSome s).pu.queues.drainMarked (s.pu.regions.role n) } := by
  have held (w : BusyWork) (t : State) : (holdFor w t).pu = t.pu := by
    unfold holdFor
    split <;> rfl
  have left : (delayLeft n v.isSome s).pu = { s.pu with queues := (delayLeft n v.isSome s).pu.queues } := by
    unfold delayLeft
    split <;> rfl
  have marked : markOld (s.pu.regions.role n) (delayLeft n v.isSome s) = _ := markOld_eq _ _
  rw [delayLeft] at marked left ⊢
  rw [changeRegion]
  simp only [marked, held]
  rw [State.mapPu_pu, State.mapPu_pu, left]

theorem holdFor_busy (w : BusyWork) {t : State} {b : Busy} (busy : t.cu.exec = .busy b) :
    holdFor w t = t.mapCu fun cu => { cu with exec := .busy { b with work := w } } := by
  rw [holdFor, busy]

/-- What a change of an entry leaves of the other units. -/
theorem changeRegion_rest (n : Fin 7) (v : Option Range) {b : Busy} (busy : s.cu.exec = .busy b) :
    changeRegion n v s = { s with
      pu := (changeRegion n v s).pu, du := (delayLeft n v.isSome s).du,
      cu := { s.cu with exec := .busy { b with work := .drain n } } } := by
  have still : (delayLeft n v.isSome s).cu = s.cu := by
    unfold delayLeft
    split <;> rfl
  rw [changeRegion, markOld_eq, ← delayLeft]
  dsimp only
  rw [holdFor_busy (b := b) _ (by rw [← busy, ← still]; rfl)]
  unfold delayLeft
  split <;> rfl

/-- R120: at a change of DELAY the Delay Unit's unplaced transfers are dropped. -/
theorem delayLeft_queues (n : Fin 7) (set : Bool) (s : State) : (delayLeft n set s).pu.queues = { s.pu.queues with
    render := { s.pu.queues.render with
      waiting := s.pu.queues.render.waiting.filter fun x => match x.requester with
        | .delayWrite _ => decide (n ≠ 5)
        | .delayRead _ _ _ => decide (n ≠ 5)
        | _ => true } } := by
  unfold delayLeft
  split
  · rename_i delay
    have kept : (fun x : Transfer => !isDelayTransfer x) = fun x => match x.requester with
        | .delayWrite _ => decide (n ≠ 5)
        | .delayRead _ _ _ => decide (n ≠ 5)
        | _ => true := by
      funext x
      cases by' : x.requester <;> simp [isDelayTransfer, by', delay]
    rw [← kept]
    rfl
  · rename_i other
    have all : (fun x : Transfer => match x.requester with
        | .delayWrite _ => decide (n ≠ 5)
        | .delayRead _ _ _ => decide (n ≠ 5)
        | _ => true) = fun _ => true := by
      funext x
      cases by' : x.requester <;> simp [other]
    rw [all, List.filter_true]

theorem delayLeft_du {n : Fin 7} (other : n ≠ 5) (set : Bool) : (delayLeft n set s).du = s.du := by
  rw [delayLeft, if_neg other]

/-- R120: the prepared blocks, the lines of those with unplaced reads abandoned. -/
theorem delayLeft_speakers (set : Bool) (i : Fin 8) : (delayLeft 5 set s).du.speakers[i] = { s.du.speakers[i] with
    prepared := s.du.speakers[i].prepared.map fun p =>
      { p with lines := p.lines.map fun l =>
          if s.pu.queues.render.waiting.any fun x => decide (x.requester = .delayRead i p.generation l.start)
          then { l with status := .abandoned } else l } } := by
  have speakers : (delayLeft 5 set s).du.speakers = Vector.ofFn fun i => { s.du.speakers[i] with
      prepared := s.du.speakers[i].prepared.map (abandonReads s i) } := rfl
  rw [speakers]
  simp only [Fin.getElem_fin, Vector.getElem_ofFn]
  rfl

theorem changeRegion_kept (n : Fin 7) (v : Option Range) {b : Busy} (busy : s.cu.exec = .busy b) :
    (changeRegion n v s).kept = { s.kept with
      regions := s.pu.regions.withRole n v, port := s.pu.port.drainMarked (s.pu.regions.role n),
      du := (delayLeft n v.isSome s).du } := by
  rw [changeRegion_rest n v busy, changeRegion_pu]
  rfl

theorem changeRegion_cu (n : Fin 7) (v : Option Range) {b : Busy} (busy : s.cu.exec = .busy b) :
    (changeRegion n v s).cu = { s.cu with exec := .busy { b with work := .drain n } } := by
  rw [changeRegion_rest n v busy]

/-! ## The record (R52, R53) -/

/-- R52: the new entry of a role that passes the checks. -/
theorem setRegionEffect_passes {n : Fin 7} {v : Option Range} {role clear base slots : Word} (settable : 3 ≤ n.val)
    (role_eq : role.toNat = n.val) (ring : n = 3 ∨ n = 4 → s.sc.path = .direct ∨ s.sc.connected = none)
    (delay : n = 5 → s.sc.connected = none)
    (entry : match v with
      | none => clear.getLsbD 0 = true
      | some r => clear.getLsbD 0 = false ∧ r.base = base.toNat ∧ r.base % 4096 = 0 ∧ r.base + r.size ≤ 2 ^ 28
          ∧ (n = 3 ∨ n = 4 → slots.toNat ∈ [4, 8, 16, 32, 64, 128, 256] ∧ r.size = 2048 * slots.toNat)
          ∧ (n = 5 → r.size = 131072) ∧ (n = 6 → r.size = 1024)
          ∧ ∀ (m : Fin 7) (w : Range), m ≠ n → s.pu.regions.role m = some w →
              r.base + r.size ≤ w.base ∨ w.base + w.size ≤ r.base) :
    setRegionEffect role clear base slots s = changeRegion n v s := by
  have settable' := settableRole_of_eq settable role_eq
  have free : roleFree s n = true := roleFree_iff.2 ⟨ring, delay⟩
  cases v with
  | none => exact setRegionEffect_cleared settable' free entry
  | some r =>
    obtain ⟨sets, rfl_base, aligned, fits, ringSize, delaySize, presetSize, apart⟩ := entry
    obtain ⟨b, size⟩ := r
    dsimp only at rfl_base aligned fits ringSize delaySize presetSize apart
    subst rfl_base
    have clear' : overlapsOther s.pu.regions n { base := base.toNat, size := size } = false := by
      rw [← Bool.not_eq_true, overlapsOther_iff]
      rintro ⟨m, w, other, set, below, above⟩
      have := apart m w other set
      dsimp only at below above
      omega
    rw [setRegionEffect_set settable' free sets,
      newRange_of_size (regionSize_of settable ringSize delaySize presetSize),
      if_pos ⟨aligned, fits⟩]
    exact if_neg (by rw [clear']; decide)

/-! ## The drain (R53, R57) -/

theorem setRegionDrainedWork_busy {b : Busy} {n : Fin 7} (busy : s.cu.exec = .busy b) (work : b.work = .drain n) :
    setRegionDrainedWork s = if regionDrained s n then complete .done (resetRingIndex n s) else s := by
  cases b
  simp only at work
  simp only [setRegionDrainedWork, busy, work]

theorem reports_resetRingIndex (n : Fin 7) (s : State) : Reports s (resetRingIndex n s) := by
  unfold resetRingIndex
  split
  · exact .trans (.of_cu rfl rfl rfl) (reports_writeIndexWord _ _)
  · exact .trans (.of_cu rfl rfl rfl) (reports_writeIndexWord _ _)
  · exact .refl

theorem quiet_resetRingIndex (n : Fin 7) (s : State) : Quiet s (resetRingIndex n s) := by
  unfold resetRingIndex
  split
  · exact (quiet_mapRe _ .refl).trans (quiet_writeIndexWord _ _)
  · exact (quiet_mapRe _ .refl).trans (quiet_writeIndexWord _ _)
  · exact .refl

theorem kept_resetRingIndex (n : Fin 7) (s : State) : (resetRingIndex n s).kept = { s.kept with re :=
    if n = 3 then { s.re with inProd := s.cu.inCons }
    else if n = 4 then { s.re with outCons := s.cu.outProd } else s.re } := by
  unfold resetRingIndex
  split
  · exact kept_writeIndexWord _ _
  · exact kept_writeIndexWord _ _
  · rename_i not3 not4
    rw [if_neg not3, if_neg not4]
    rfl

end

/-- Settles O21: the entry changed and the transfers marked, and the completion once they have ended. -/
theorem setRegionChangesEntryThenDrains : Obligations.SetRegionChangesEntryThenDrains := by
  unfold Obligations.SetRegionChangesEntryThenDrains
  refine ⟨fun s tag role clear base slots n v ready settable role_eq ring delay entry => ?_,
    fun s b n high busy work => ⟨_, live_ready setRegionDrainedWork high, ?_⟩⟩
  · refine ⟨_, record_ready tag 0x01 (setRegionEffect role clear base slots) ready, ?_⟩
    rw [setRegionEffect_passes (s := beginCommand tag 0x01 s) settable role_eq ring delay entry]
    obtain ⟨exec, head, -⟩ := finish_exec (changeRegion n v (beginCommand tag 0x01 s))
    obtain ⟨queues, faultRec⟩ := finish_queues (changeRegion n v (beginCommand tag 0x01 s))
    have cu := changeRegion_cu (s := beginCommand tag 0x01 s) n v rfl
    have pu := changeRegion_pu n v (beginCommand tag 0x01 s)
    have kept := (kept_finish _).trans (changeRegion_kept (s := beginCommand tag 0x01 s) n v rfl)
    have regions := congrArg Kept.regions kept
    have port := congrArg Kept.port kept
    have du := congrArg Kept.du kept
    simp only [State.kept] at regions port du
    rw [(quiet_finish _).eventsOut, exec, head, queues, faultRec, regions, port, du, State.eventsOut, cu, pu,
      delayLeft_queues]
    refine ⟨kept, role_withRole _ settable v, rfl, rfl, rfl, rfl, ⟨rfl, rfl⟩, fun other => delayLeft_du other _, ?_⟩
    rintro rfl
    exact ⟨rfl, delayLeft_speakers _⟩
  · rw [setRegionDrainedWork_busy busy work]
    refine ⟨fun loud => ?_, fun drained => ?_⟩
    · obtain ⟨exec, head, -⟩ := finish_exec s
      rw [loud]
      exact ⟨kept_finish s, exec, head, (quiet_finish s).eventsOut⟩
    · obtain ⟨⟨_, _, _, _, _, cu⟩, -⟩ := reports_resetRingIndex n s
      have busy' : (resetRingIndex n s).cu.exec = .busy b := by rw [cu]; exact busy
      obtain ⟨head, exec⟩ := finish_complete .done busy'
      rw [drained, if_pos rfl, kept_finish, kept_complete, kept_resetRingIndex]
      refine ⟨rfl, by rw [head, cu], exec, fun room => ?_⟩
      have quiet := quiet_resetRingIndex n s
      have clock : (resetRingIndex n s).clock = s.clock := congrArg Kept.clock (kept_resetRingIndex n s)
      rw [(quiet_finish _).eventsOut, complete_eventsOut .done busy' (quiet.takesEvents room.takesEvents),
        quiet.eventsOut, room.eventsOut, busyCompletion, eventNow, clock]
      rfl

end Sys2Proof.Machine
end

