-- ==== Sys2Proof/Proofs/Presets.lean ====
section
/-! SUPPORT. RECALL_PRESET and STORE_PRESET (R39, R168 to R170), and the entry that a recall reads (R169, R211). -/

namespace Sys2Proof.Machine

/-! ## What a new tune leaves of the Command Unit -/

/-- From `s` to `t` at most `n` events are raised and the Command Unit does nothing else; the memory port and the
boundary's stamp stay. -/
def TunerWork (n : Nat) (s t : State) : Prop :=
  (∃ ws p w d, t.cu = { s.cu with words := ws, pendingEvents := p, evWrite := w, evDropped := d })
    ∧ t.pu.port = s.pu.port ∧ t.clock.stamp = s.clock.stamp ∧ Raises n s t

section
variable {s t u : State} {m n : Nat}

theorem TunerWork.trans (h : TunerWork m s t) (k : TunerWork n t u) : TunerWork (m + n) s u := by
  obtain ⟨⟨_, _, _, _, cu⟩, port, stamp, raises⟩ := h
  obtain ⟨⟨_, _, _, _, cu'⟩, port', stamp', raises'⟩ := k
  exact ⟨⟨_, _, _, _, by rw [cu', cu]⟩, port'.trans port, stamp'.trans stamp, raises.trans raises'⟩

theorem TunerWork.mono (h : TunerWork m s t) (le : m ≤ n) : TunerWork n s t := by
  obtain ⟨cu, port, stamp, raises⟩ := h
  exact ⟨cu, port, stamp, raises.mono le⟩

theorem TunerWork.still (cu : t.cu = s.cu) (port : t.pu.port = s.pu.port) (stamp : t.clock.stamp = s.clock.stamp)
    (quiet : Quiet s t) : TunerWork n s t :=
  ⟨⟨_, _, _, _, cu⟩, port, stamp, quiet.still⟩

theorem tunerWork_raiseEvent (name : EventName) (sub : BitVec 16) (d1 d2 : Word) (s : State) :
    TunerWork 1 s (raiseEvent name sub d1 d2 s) :=
  have kept := kept_raiseEvent s name sub d1 d2
  ⟨raiseEvent_cu name sub d1 d2 s, congrArg Kept.port kept, congrArg (fun k => k.clock.stamp) kept,
    raises_event name sub d1 d2 s⟩

theorem raiseEvent_sd (name : EventName) (sub : BitVec 16) (d1 d2 : Word) (s : State) :
    (raiseEvent name sub d1 d2 s).sd = s.sd := congrArg Kept.sd (kept_raiseEvent s name sub d1 d2)

theorem raiseEvent_tc (name : EventName) (sub : BitVec 16) (d1 d2 : Word) (s : State) :
    (raiseEvent name sub d1 d2 s).tc = s.tc := congrArg Kept.tc (kept_raiseEvent s name sub d1 d2)

theorem tunerWork_mapTc (f : TunerUnit → TunerUnit) (s : State) : TunerWork 0 s (s.mapTc f) := .still rfl rfl rfl rfl

theorem tunerWork_reportReplaced (r : Replacement) (s : State) : TunerWork 1 s (reportReplaced r s) := by
  unfold reportReplaced
  split
  · exact tunerWork_raiseEvent _ _ _ _ s
  · exact tunerWork_raiseEvent _ _ _ _ s
  · exact tunerWork_raiseEvent _ _ _ _ s
  · exact .still rfl rfl rfl rfl

theorem tunerWork_endOldWork (r : Replacement) (s : State) : TunerWork 1 s (endOldWork r s) :=
  (tunerWork_reportReplaced r s).trans (tunerWork_mapTc _ _)

theorem cu_enterHold (c : LossCause) (s : State) : ∃ ws p w d, (enterHold c s).cu
    = { s.cu with words := ws, pendingEvents := p, evWrite := w, evDropped := d } := by
  unfold enterHold; dsimp only
  rw [startHoldTimer_eq]
  exact raiseEvent_cu _ _ _ _ _

theorem cu_loseSignal (c : LossCause) (s : State) : ∃ ws p w d, (loseSignal c s).cu
    = { s.cu with words := ws, pendingEvents := p, evWrite := w, evDropped := d } := by
  have suspended (t : State) : (if c = .tuner then suspendTimer true t else t).cu = t.cu := by
    split
    · rw [suspendTimer_eq]; rfl
    · rfl
  unfold loseSignal; dsimp only
  split
  case h_4 => rw [suspended]; exact ⟨_, _, _, _, rfl⟩
  case h_5 => rw [suspended]; exact ⟨_, _, _, _, rfl⟩
  case h_6 => exact ⟨_, _, _, _, rfl⟩
  case h_7 => exact ⟨_, _, _, _, rfl⟩
  all_goals exact cu_enterHold c (stopFollowing s)

theorem tunerWork_loseSignal (c : LossCause) (s : State) : TunerWork 1 s (loseSignal c s) := by
  have kept := kept_loseSignal s c
  exact ⟨cu_loseSignal c s, congrArg Kept.port kept, congrArg (fun k => k.clock.stamp) kept, raises_loseSignal c s⟩

theorem tunerWork_settledFalls (s : State) : TunerWork 1 s (settledFalls s) := by
  have linked : TunerWork 0 s (linkLosesPort 4 (s.mapPort 4 fun p => { p with mark := false })) := by
    unfold linkLosesPort
    split <;> exact .still rfl rfl rfl rfl
  unfold settledFalls; dsimp only
  split
  · exact linked.trans (tunerWork_loseSignal .tuner _)
  · exact linked.mono (Nat.zero_le 1)

theorem tc_settledFalls (s : State) : (settledFalls s).tc = s.tc := by
  have linked : (linkLosesPort 4 (s.mapPort 4 fun p => { p with mark := false })).tc = s.tc :=
    congrArg Kept.tc (kept_linkLosesPort (s.mapPort 4 fun p => { p with mark := false }) 4)
  unfold settledFalls; dsimp only
  split
  · exact (congrArg Kept.tc (kept_loseSignal _ .tuner)).trans linked
  · exact linked

/-- R167: new work leaves TUNED, or finds the tuner elsewhere. -/
theorem setTunerState_tuning (s : State) :
    setTunerState .tuning s = (s.mapTc fun tc => { tc with st := .tuning })
      ∨ setTunerState .tuning s = settledFalls (s.mapTc fun tc => { tc with st := .tuning }) := by
  by_cases tuned : s.tc.st = .tuned
  · exact .inr (setTunerState_falls (by decide) tuned)
  · exact .inl (by simp [setTunerState, tunerSettled, tuned])

theorem tunerWork_setTunerState (s : State) : TunerWork 1 s (setTunerState .tuning s) := by
  rcases setTunerState_tuning s with eq | eq <;> rw [eq]
  · exact (tunerWork_mapTc _ s).mono (Nat.zero_le 1)
  · exact (tunerWork_mapTc _ s).trans (tunerWork_settledFalls _)

theorem tc_setTunerState (s : State) : (setTunerState .tuning s).tc = { s.tc with st := .tuning } := by
  rcases setTunerState_tuning s with eq | eq <;> rw [eq]
  · rfl
  · rw [tc_settledFalls]; rfl

theorem tunerWork_testText (s : State) : TunerWork 0 s (testText s) := by
  unfold testText
  split <;> exact .still rfl rfl rfl rfl

theorem tunerWork_tuneNotice (channel : Nat) (known : Option RecalledIdentity) (s : State) :
    TunerWork 1 s (tuneNotice channel known s) := by
  have noticed : TunerWork 0 s (s.mapSd fun sd => sd.afterNotice channel known) := .still rfl rfl rfl rfl
  unfold tuneNotice; dsimp only
  split
  · exact (noticed.trans (tunerWork_raiseEvent _ _ _ _ _)).trans (tunerWork_testText _)
  · exact (noticed.trans (tunerWork_testText _)).mono (Nat.zero_le 1)

theorem sd_testText (s : State) : ∃ w, (testText s).sd = { s.sd with writer := w } := by
  unfold testText
  split <;> exact ⟨_, rfl⟩

/-- R189: what a tune notice gives the Station Data Decoder. -/
theorem sd_tuneNotice (channel : Nat) (known : Option RecalledIdentity) (s : State) :
    ∃ w, (tuneNotice channel known s).sd = { s.sd.afterNotice channel known with writer := w } := by
  unfold tuneNotice; dsimp only
  obtain ⟨w, sd⟩ := sd_testText (if decide (s.sd.sync = .sync)
    then raiseEvent (.station .syncLost) 0 1 0 (s.mapSd fun sd => sd.afterNotice channel known)
    else s.mapSd fun sd => sd.afterNotice channel known)
  refine ⟨w, sd.trans ?_⟩
  split
  · rw [raiseEvent_sd]
    rfl
  · rfl

theorem tc_tuneNotice (channel : Nat) (known : Option RecalledIdentity) (s : State) :
    (tuneNotice channel known s).tc = s.tc := by
  have tested (t : State) : (testText t).tc = t.tc := by
    unfold testText
    split <;> rfl
  unfold tuneNotice; dsimp only
  rw [tested]
  split
  · exact raiseEvent_tc _ _ _ _ _
  · rfl

theorem tunerWork_beginRequest (r : LinkRequest) (s : State) : TunerWork 0 s (beginRequest r s) := by
  unfold beginRequest
  split
  · exact .still rfl rfl rfl rfl
  · exact tunerWork_mapTc _ s

theorem tc_beginRequest (r : LinkRequest) (s : State) : ∃ link owed retry, (beginRequest r s).tc
    = { s.tc with link := link, owed := owed, retry := retry } := by
  unfold beginRequest
  split
  · exact ⟨_, _, _, rfl⟩
  · unfold TunerUnit.begin State.mapTc
    dsimp only
    split <;> exact ⟨_, _, _, rfl⟩

theorem sd_beginRequest (r : LinkRequest) (s : State) : (beginRequest r s).sd = s.sd := by
  unfold beginRequest
  split <;> rfl

/-! ## A tune begun (R160) -/

theorem tunerWork_beginTune (b : Band) (channel : Nat) (tag : BitVec 16) (known : Option RecalledIdentity)
    (s : State) : TunerWork 3 s (beginTune b channel tag known s) :=
  ((((tunerWork_endOldWork .tune s).trans (tunerWork_mapTc _ _)).trans (tunerWork_setTunerState _)).trans
    (tunerWork_tuneNotice channel known _)).trans (tunerWork_beginRequest _ _)

theorem beginTune_values (b : Band) (channel : Nat) (tag : BitVec 16) (known : Option RecalledIdentity) (s : State) :
    (∃ link owed retry settle seek, (beginTune b channel tag known s).tc = { s.tc with
        st := .tuning, band := some b, channel := some channel, tag := some tag, recalled := known,
        link := link, owed := owed, retry := retry, settle := settle, seek := seek })
      ∧ (beginTune b channel tag known s).sd.recalled = known
      ∧ (beginTune b channel tag known s).sd.tunedChannel = some channel := by
  have old : (endOldWork .tune s).tc = { s.tc with settle := stoppedSettle, seek := none } := by
    have reported : (reportReplaced .tune s).tc = s.tc := by
      unfold reportReplaced
      split
      · exact raiseEvent_tc _ _ _ _ s
      · exact raiseEvent_tc _ _ _ _ s
      · exact raiseEvent_tc _ _ _ _ s
      · rfl
    rw [endOldWork, State.mapTc_tc, reported]
  unfold beginTune; dsimp only
  generalize tuned : setTunerState .tuning _ = r
  have tc : r.tc = { s.tc with st := .tuning, band := some b, channel := some channel, tag := some tag,
                               recalled := known, settle := stoppedSettle, seek := none } := by
    rw [← tuned, tc_setTunerState, State.mapTc_tc, old]
  obtain ⟨link, owed, retry, begun⟩ := tc_beginRequest .tuneWrite (tuneNotice channel known r)
  obtain ⟨w, noticed⟩ := sd_tuneNotice channel known r
  rw [begun, tc_tuneNotice, tc, sd_beginRequest, noticed]
  exact ⟨⟨_, _, _, _, _, rfl⟩, rfl, rfl⟩

/-! ## The entry recalled (R169, R211) -/

section
variable {s : State} {b : Busy}

theorem recallEntry_invalid {w0 w1 : Word} (invalid : w0.getLsbD 0 = false) :
    recallEntry w0 w1 s = complete .refusedEmpty s := if_pos invalid

theorem recallEntry_noBand {w0 w1 : Word} (valid : w0.getLsbD 0 = true) (none : bandOf (byteOf w0 1).toNat = none) :
    recallEntry w0 w1 s = complete .refusedRange s := by
  rw [recallEntry, if_neg (by rw [valid]; decide), none]

theorem recallEntry_tunes {w0 w1 : Word} {bd : Band} (valid : w0.getLsbD 0 = true)
    (band : bandOf (byteOf w0 1).toNat = some bd) : recallEntry w0 w1 s
      = acceptTune bd (w0.extractLsb' 16 16).toNat
          (some { identity := w1.extractLsb' 0 16, known := w1.getLsbD 16 }) s := by
  rw [recallEntry, if_neg (by rw [valid]; decide), band]

theorem busyTag_eq (busy : s.cu.exec = .busy b) : busyTag s = b.tag := by rw [busyTag, busy]

/-- R196: a recall that is refused completes, and does nothing else. -/
theorem recall_refused {r : ResultCode} (busy : s.cu.exec = .busy b) (room : s.eventRoom) :
    (finish (complete r s)).eventsOut = [busyCompletion s b r] := by
  rw [(quiet_finish _).eventsOut, complete_eventsOut r busy room.takesEvents, room.eventsOut]
  rfl

/-- R196: a tune accepted completes with what it raised before. -/
theorem tuned_completion {u : State} {n : Nat} {r : ResultCode} (work : TunerWork n s u) (few : n ≤ 31)
    (busy : s.cu.exec = .busy b) (room : s.eventRoom) :
    (finish (complete r u)).eventsOut.getLast? = some (busyCompletion s b r) := by
  obtain ⟨⟨_, _, _, _, cu⟩, -, stamp, raises⟩ := work
  have busy' : u.cu.exec = .busy b := by rw [cu]; exact busy
  obtain ⟨later, -⟩ := raises 1 (room.takesEvents.mono (by omega))
  rw [(quiet_finish _).eventsOut, complete_eventsOut r busy' later, List.getLast?_append]
  simp [busyCompletion, eventNow, stamp]

end

end

/-- R196: the answer to the read of an entry, in a state that holds a recall. -/
theorem exec_partAnswer_ok {s : State} {tr : Transfer} (data : List Word) (high : s.resetLow = false)
    (port : s.pu.port = .part tr) : exec (.partTransferAnswer true data) s
      = .next (finish (transferDone tr (beatsOf tr.beats data) (freePort s))) := by
  change always (partAnswered true data) s = _
  rw [always_eq, if_neg (by rw [high]; decide), partAnswered, port]
  rfl

theorem recallPreset_reads {s : State} (tag : BitVec 16) {w : Word} {e : Fin 64} {r : Range} (entry : w.toNat = e.val)
    (region : s.pu.regions.preset = some r) : recallPresetEffect w (beginCommand tag 0x11 s) = placeTransfer .control
      (readOf .presetRead (r.base + 16 * e.val) 4 none) (holdFor (.recall e) (beginCommand tag 0x11 s)) := by
  have region' : (beginCommand tag 0x11 s).pu.regions.preset = some r := region
  rw [recallPresetEffect, finOf_of_eq entry, region']
  rfl

theorem storePreset_asks {s : State} (tag : BitVec 16) {w : Word} {e : Fin 64} {r : Range} (entry : w.toNat = e.val)
    (region : s.pu.regions.preset = some r) (tuned : s.tc.st = .tuned) : storePresetEffect w (beginCommand tag 0x12 s)
      = requestLock (presetLock r.base e) (holdFor (.store e) (beginCommand tag 0x12 s)) := by
  have region' : (beginCommand tag 0x12 s).pu.regions.preset = some r := region
  rw [storePresetEffect, finOf_of_eq entry, region']
  exact if_pos tuned

section
variable {s u : State} {b : Busy} {n : Nat}

/-- R196: the head and the port once a recall has completed. -/
theorem recall_completes (r : ResultCode) (tunes : TunerWork n (freePort s) u) (busy : s.cu.exec = .busy b)
    (counts : b.counts = true) :
    (finish (complete r u)).cu.head = s.cu.head + 1 ∧ (finish (complete r u)).pu.port = .free := by
  obtain ⟨⟨_, _, _, _, cu⟩, port, -⟩ := tunes
  obtain ⟨head, -⟩ := finish_complete r (s := u) (b := b) (by rw [cu]; exact busy)
  refine ⟨by rw [head, counts, cu]; rfl, ?_⟩
  exact (congrArg Kept.port ((kept_finish _).trans (kept_complete u r))).trans port

/-- R160, R169: what the recall of a good entry leaves: the tune begun, and its completion. -/
theorem recall_tunes (r : ResultCode) (bd : Band) (ch : Nat) (known : Option RecalledIdentity)
    (busy : s.cu.exec = .busy b) :
    (let t := finish (complete r (beginTune bd ch b.tag known s))
     t.tc.st = .tuning ∧ t.tc.band = some bd ∧ t.tc.channel = some ch ∧ t.tc.tag = some b.tag
      ∧ t.tc.recalled = known ∧ t.sd.recalled = known ∧ t.sd.tunedChannel = some ch
      ∧ (s.eventRoom → t.eventsOut.getLast? = some (busyCompletion s b r))) := by
  obtain ⟨⟨_, _, _, _, _, tc⟩, recalled, channel⟩ := beginTune_values bd ch b.tag known s
  have kept := (kept_finish _).trans (kept_complete (beginTune bd ch b.tag known s) r)
  have tc' : (finish (complete r (beginTune bd ch b.tag known s))).tc = _ := (congrArg Kept.tc kept).trans tc
  have sd : (finish (complete r (beginTune bd ch b.tag known s))).sd = (beginTune bd ch b.tag known s).sd :=
    congrArg Kept.sd kept
  dsimp only
  rw [tc', sd]
  exact ⟨rfl, rfl, rfl, rfl, rfl, recalled, channel,
    tuned_completion (tunerWork_beginTune bd ch b.tag known s) (by decide) busy⟩

end

/-- Settles O26: the read placed, the lock asked for, and the entry refused or tuned to. -/
theorem presetCommandsReachMemoryAndRecall : Obligations.PresetCommandsReachMemoryAndRecall := by
  unfold Obligations.PresetCommandsReachMemoryAndRecall
  refine ⟨fun s tag w e r ready entry region => ?_, fun s tag w e r ready current entry region tuned => ?_,
    fun s b e tr w0 w1 w2 w3 high busy work counts running port reads four => ?_⟩
  · refine ⟨_, record_ready tag 0x11 (recallPresetEffect w) ready, ?_⟩
    rw [recallPreset_reads tag entry region]
    obtain ⟨exec, head, -⟩ := finish_exec (placeTransfer .control (readOf .presetRead (r.base + 16 * e.val) 4 none)
      (holdFor (.recall e) (beginCommand tag 0x11 s)))
    rw [exec, head, (finish_queues _).1, faultRec_finish, (quiet_finish _).eventsOut, control_placeTransfer]
    exact ⟨kept_finish _, rfl, rfl, rfl, rfl, rfl, rfl, rfl⟩
  · have asked : finish (requestLock (presetLock r.base e) (holdFor (.store e) (beginCommand tag 0x12 s)))
        = drivePins _ := finish_shown ready.1 current rfl rfl
    refine ⟨_, record_ready tag 0x12 (storePresetEffect w) ready, ?_⟩
    rw [storePreset_asks tag entry region tuned, asked]
    exact ⟨rfl, rfl, rfl, rfl, rfl, rfl, rfl⟩
  · have runs := exec_partAnswer_ok [w0, w1, w2, w3] high port
    have reaches : transferDone tr (beatsOf tr.beats [w0, w1, w2, w3]) (freePort s)
        = recallEntry w0 w1 (freePort s) := by
      rw [transferDone, reads, four]
      rfl
    rw [reaches] at runs
    have free : Quiet s (freePort s) := rfl
    have busy' : (freePort s).cu.exec = .busy b := busy
    have idle : TunerWork 0 (freePort s) (freePort s) := .still rfl rfl rfl rfl
    have refused (r : ResultCode) : (finish (complete r (freePort s))).kept = { s.kept with port := .free } := by
      rw [kept_finish, kept_complete]
      rfl
    refine ⟨_, runs, ?_⟩
    cases valid : w0.getLsbD 0 with
    | false =>
      obtain ⟨head, port'⟩ := recall_completes .refusedEmpty idle busy counts
      rw [recallEntry_invalid valid]
      exact ⟨head, port', fun _ => ⟨refused _, fun room => recall_refused busy' (free.eventRoom room)⟩, nofun, nofun⟩
    | true =>
      cases band : bandOf (byteOf w0 1).toNat with
      | none =>
        obtain ⟨head, port'⟩ := recall_completes .refusedRange idle busy counts
        rw [recallEntry_noBand valid band]
        exact ⟨head, port', nofun,
          fun _ _ => ⟨refused _, fun room => recall_refused busy' (free.eventRoom room)⟩, nofun⟩
      | some bd =>
        rw [recallEntry_tunes valid band, acceptTune, busyTag_eq busy']
        obtain ⟨head, port'⟩ := recall_completes _ (tunerWork_beginTune bd _ b.tag _ (freePort s)) busy counts
        refine ⟨head, port', nofun, fun _ outside => ?_, fun bd' _ same => ?_⟩
        · rw [bandOf_of_le outside] at band
          cases band
        · cases same
          obtain ⟨st, band, channel, tag, recalled, told, tuned, out⟩ := recall_tunes
            (if snapChannel bd (s.tc.stepOf bd) (w0.extractLsb' 16 16).toNat = (w0.extractLsb' 16 16).toNat
              then .accepted else .clamped) bd (snapChannel bd (s.tc.stepOf bd) (w0.extractLsb' 16 16).toNat)
            (some { identity := w1.extractLsb' 0 16, known := w1.getLsbD 16 }) busy'
          exact ⟨st, band, channel, tag, recalled, told, tuned, fun room => out (free.eventRoom room)⟩

end Sys2Proof.Machine
end

