-- ==== Sys2Proof/Proofs/ProcessorPort.lean ====
section
/-! SUPPORT. The processor port (R34 to R36, R40): the classification of beats, the judgement of a transaction at the
head, and memory's answers to the processor. -/

namespace Sys2Proof.Machine

/-! ## Classification (R35) -/

theorem Range.holds_iff {v : Range} {a : Nat} : v.holds a = true ↔ v.base ≤ a ∧ a < v.base + v.size := by
  simp [Range.holds]

section
variable {enabled : Bool} {r : Regions} {a : Nat}

theorem writeAction_inside (above : r.control ≤ a) (below : a - r.control < 0x1000) :
    writeAction enabled r a = controlAction enabled (a - r.control) := by
  have inside : (controlRange r).holds a = true := by
    rw [Range.holds_iff]
    change r.control ≤ a ∧ a < r.control + 4096
    omega
  rw [writeAction, if_pos inside]

theorem writeAction_outside (out : a < r.control ∨ r.control + 0x1000 ≤ a) :
    writeAction enabled r a = if inRegion r.event a || inRegion r.delay a then .guard else .forward := by
  have outside : ¬ (controlRange r).holds a = true := by
    rw [Range.holds_iff]
    change ¬ (r.control ≤ a ∧ a < r.control + 4096)
    omega
  rw [writeAction, if_neg outside]

theorem inRegion_iff (v : Option Range) : inRegion v a = true ↔ ∃ w, v = some w ∧ w.base ≤ a ∧ a < w.base + w.size := by
  cases v <;> simp [inRegion, Range.holds_iff]

end

/-- R35: a beat of a write with a byte enabled. -/
theorem beatAction_write {s : State} {tx : ProcTx} {b : Beat} (write : tx.write = true) (enabled : b.be ≠ 0) :
    beatAction s tx b = writeAction s.cu.enabled s.pu.regions (32 * tx.line.toNat + 4 * b.off.toNat) :=
  if_neg (not_or.2 ⟨by simp [write], enabled⟩)

theorem beatAction_forward {s : State} {tx : ProcTx} {b : Beat} (h : tx.write = false ∨ b.be = 0) :
    beatAction s tx b = .forward := if_pos h

/-- Settles O29: the bounds of the offsets in CONTROL, and the two regions outside it. -/
theorem beatsAreClassified : Obligations.BeatsAreClassified := by
  unfold Obligations.BeatsAreClassified
  refine fun s tx b => ⟨beatAction_forward, fun write enabled => ?_⟩
  dsimp only
  rw [beatAction_write write enabled]
  generalize 32 * tx.line.toNat + 4 * b.off.toNat = a
  refine ⟨fun above lt => ?_, fun above ge lt => ?_, fun above ge lt => ?_, fun above ge lt => ?_,
    fun above ge lt => ?_, fun above ge lt => ?_, fun above ge lt => ?_, fun out within => ?_,
    fun out notEvent notDelay => ?_⟩
  · rw [writeAction_inside above (by omega), controlAction, if_pos lt]
  · rw [writeAction_inside above (by omega), controlAction, if_neg (by omega), if_pos lt]
  · rw [writeAction_inside above (by omega), controlAction, if_neg (by omega), if_neg (by omega), if_pos lt]
  · rw [writeAction_inside above (by omega), controlAction, if_neg (by omega), if_neg (by omega), if_neg (by omega),
      if_pos lt]
  · rw [writeAction_inside above (by omega), controlAction, if_neg (by omega), if_neg (by omega), if_neg (by omega),
      if_neg (by omega), if_pos lt]
  · rw [writeAction_inside above (by omega), controlAction, if_neg (by omega), if_neg (by omega), if_neg (by omega),
      if_neg (by omega), if_neg (by omega), if_pos lt]
  · rw [writeAction_inside above lt, controlAction, if_neg (by omega), if_neg (by omega), if_neg (by omega),
      if_neg (by omega), if_neg (by omega), if_neg (by omega)]
  · rw [writeAction_outside out, if_pos]
    rwa [Bool.or_eq_true, inRegion_iff, inRegion_iff]
  · rw [writeAction_outside out, if_neg]
    rw [Bool.or_eq_true, inRegion_iff, inRegion_iff]
    exact not_or.2 ⟨notEvent, notDelay⟩

/-! ## The end of a step of the path -/

/-- R54: the end of a step of the Path Unit that began in `s`. -/
def pathEnd (s u : State) : State := if s.resetLow then drivePins u else finish u

section
variable (s u : State)

theorem always_pathEnd (f : State → State) : always f s = .next (pathEnd s (f s)) := rfl

@[simp] theorem kept_pathEnd : (pathEnd s u).kept = u.kept := by
  unfold pathEnd
  split
  · rfl
  · exact kept_finish u

@[simp] theorem faultRec_pathEnd : (pathEnd s u).pu.faultRec = u.pu.faultRec := by
  unfold pathEnd
  split
  · rfl
  · exact faultRec_finish u

@[simp] theorem eventsOut_pathEnd : (pathEnd s u).eventsOut = u.eventsOut := by
  unfold pathEnd
  split
  · rfl
  · exact (quiet_finish u).eventsOut

end

/-! ## The judgement (R34, R36, R40) -/

section
variable {s : State} {tx : ProcTx} {rest : List ProcTx}

theorem Lock.stops_iff {l : Lock} : l.stops tx = true ↔ l.startLine ≤ tx.line.toNat
    ∧ tx.line.toNat < l.startLine + l.lines ∧ (tx.write = true ∨ l.owner ≠ .outputFetch) := by
  simp [Lock.stops, Lock.covers, and_assoc]

theorem judge_low (low : s.resetLow = true) : judge s tx = .waiting := if_pos low

theorem judge_held (high : s.resetLow = false) (stopped : ∃ l ∈ s.pu.locks, l.stops tx = true) :
    ∃ l ∈ s.pu.locks, l.stops tx = true ∧ judge s tx = .held l.owner := by
  obtain ⟨l, found⟩ := Option.isSome_iff_exists.1 (List.find?_isSome.2 stopped)
  refine ⟨l, List.mem_of_find?_eq_some found, List.find?_some (p := fun l => Lock.stops l tx) found, ?_⟩
  simp [judge, high, stoppedBy, found]

theorem judge_open (high : s.resetLow = false) (clear : ∀ l ∈ s.pu.locks, ¬ l.stops tx = true) :
    judge s tx = if allGuarded s tx then .answered else .waiting := by
  have none : s.pu.locks.find? (fun l => l.stops tx) = none := List.find?_eq_none.2 clear
  simp [judge, high, stoppedBy, none]

/-- R36: a transaction found all guarded has a guarded beat. -/
theorem guarded_find (guarded : allGuarded s tx = true) :
    ∃ b, tx.beats.find? (fun b => decide (beatAction s tx b = .guard)) = some b := by
  rw [allGuarded, Bool.and_eq_true, List.any_eq_true] at guarded
  exact Option.isSome_iff_exists.1 (List.find?_isSome.2 guarded.1)

theorem guardFault_of_find {b : Beat} (h : tx.beats.find? (fun b => decide (beatAction s tx b = .guard)) = some b) :
    guardFault tx s = raiseFault .guardWrite (beatAddr tx.line b) s := by
  rw [guardFault, h]

theorem guardFault_of_none (h : ∀ b ∈ tx.beats, beatAction s tx b ≠ .guard) : guardFault tx s = s := by
  have none : tx.beats.find? (fun b => decide (beatAction s tx b = .guard)) = none :=
    List.find?_eq_none.2 fun b mem => by simpa using h b mem
  rw [guardFault, none]

@[simp] theorem kept_guardFault : (guardFault tx s).kept = s.kept := by
  unfold guardFault
  split
  · rfl
  · exact kept_raiseFault s _ _

theorem reports_guardFault : Reports s (guardFault tx s) := by
  unfold guardFault
  split
  · exact .refl
  · exact reports_raiseFaultMarked _ _ _ s

/-- R36, R48: the fault and the event of a guarded write. -/
theorem guardFault_faults {b : Beat} (h : tx.beats.find? (fun b => decide (beatAction s tx b = .guard)) = some b) :
    (s.pu.faultRec = none → (guardFault tx s).pu.faultRec = some
        { kind := .guardWrite, addr := 32 * tx.line.toNat + 4 * b.off.toNat, stamp := s.clock.stamp })
      ∧ (s.eventRoom → (guardFault tx s).eventsOut =
          [eventNow s (.fault .guardWrite) 0 (natWord (32 * tx.line.toNat + 4 * b.off.toNat)) 0]) := by
  rw [guardFault_of_find h]
  refine ⟨fun empty => ?_, fun room => ?_⟩
  · exact (raiseFaultMarked_faultRec _ _ _ s).trans (faultTaken_of_empty _ _ empty)
  · obtain ⟨-, out⟩ := raiseFaultMarked_joins false .guardWrite (beatAddr tx.line b) room.takesEvents
    rw [room.eventsOut, faultEvent_of_warning _ _ rfl] at out
    exact out

/-! ## The head of the port -/

theorem kept_mapProc (f : ProcPort → ProcPort) : (mapProc f s).kept = { s.kept with proc := f s.pu.proc } := rfl

theorem reports_mapProc (f : ProcPort → ProcPort) : Reports s (mapProc f s) := .of_cu rfl rfl rfl

theorem kept_answerGuarded : (answerGuarded tx s).kept
    = { s.kept with proc := { s.pu.proc with answers := s.pu.proc.answers ++ [{ ok := true, data := [] }] } } := by
  have kept := kept_guardFault (s := s) (tx := tx)
  have proc : (guardFault tx s).pu.proc = s.pu.proc := congrArg Kept.proc kept
  rw [answerGuarded, giveAnswer, kept_mapProc, kept, proc]

theorem answerGuarded_proc : (answerGuarded tx s).pu.proc
    = { s.pu.proc with answers := s.pu.proc.answers ++ [{ ok := true, data := [] }] } :=
  congrArg Kept.proc kept_answerGuarded

theorem reports_answerGuarded : Reports s (answerGuarded tx s) := reports_guardFault.trans (reports_mapProc _)

theorem reachHead_waiting (h : judge s tx = .waiting) : reachHead (tx :: rest) s
    = mapProc (fun p => { p with head := some (tx, .waiting), behind := rest }) s := by
  rw [reachHead, h]

theorem reachHead_held {o : Sequence} (h : judge s tx = .held o) : reachHead (tx :: rest) s
    = mapProc (fun p => { p with head := some (tx, .held o), behind := rest }) s := by
  rw [reachHead, h]

theorem reachHead_answered (h : judge s tx = .answered) :
    reachHead (tx :: rest) s = reachHead rest (answerGuarded tx s) := by
  rw [reachHead, h]

/-- R34: what a transaction that reaches the head leaves but for the port. -/
theorem reachHead_leaves (l : List ProcTx) (s : State) :
    (∃ p, (reachHead l s).kept = { s.kept with proc := p }) ∧ Reports s (reachHead l s) := by
  induction l generalizing s with
  | nil => exact ⟨⟨_, rfl⟩, reports_mapProc _⟩
  | cons tx rest ih =>
    cases judged : judge s tx with
    | answered =>
      obtain ⟨⟨p, kept⟩, reports⟩ := ih (answerGuarded tx s)
      rw [reachHead_answered judged, kept, kept_answerGuarded]
      exact ⟨⟨p, rfl⟩, reports_answerGuarded.trans reports⟩
    | held o => rw [reachHead_held judged]; exact ⟨⟨_, rfl⟩, reports_mapProc _⟩
    | waiting => rw [reachHead_waiting judged]; exact ⟨⟨_, rfl⟩, reports_mapProc _⟩

/-! ## What becomes of the transaction that reaches the head, one case of R34 each -/

theorem reached_low (low : s.resetLow = true) : (reachHead (tx :: rest) s).kept
    = { s.kept with proc := { s.pu.proc with head := some (tx, .waiting), behind := rest } } := by
  rw [reachHead_waiting (judge_low low)]
  rfl

theorem reached_waiting (high : s.resetLow = false) (clear : ∀ l ∈ s.pu.locks, ¬ l.stops tx = true)
    (notAll : allGuarded s tx = false) : (reachHead (tx :: rest) s).kept
      = { s.kept with proc := { s.pu.proc with head := some (tx, .waiting), behind := rest } } := by
  rw [reachHead_waiting (by rw [judge_open high clear, notAll]; rfl)]
  rfl

theorem reached_held (high : s.resetLow = false) (stopped : ∃ l ∈ s.pu.locks, l.stops tx = true) :
    ∃ l ∈ s.pu.locks, l.stops tx = true ∧ (reachHead (tx :: rest) s).kept
      = { s.kept with proc := { s.pu.proc with head := some (tx, .held l.owner), behind := rest } } := by
  obtain ⟨l, mem, stops, judged⟩ := judge_held high stopped
  refine ⟨l, mem, stops, ?_⟩
  rw [reachHead_held judged]
  rfl

theorem reached_guarded (high : s.resetLow = false) (clear : ∀ l ∈ s.pu.locks, ¬ l.stops tx = true)
    (all : allGuarded s tx = true) :
    (reachHead [tx] s).kept = { s.kept with proc :=
        { head := none, behind := [], answers := s.pu.proc.answers ++ [{ ok := true, data := [] }] } }
      ∧ ∃ b, tx.beats.find? (fun b => decide (beatAction s tx b = .guard)) = some b
        ∧ (s.pu.faultRec = none → (reachHead [tx] s).pu.faultRec = some
            { kind := .guardWrite, addr := 32 * tx.line.toNat + 4 * b.off.toNat, stamp := s.clock.stamp })
        ∧ (s.eventRoom → (reachHead [tx] s).eventsOut =
            [eventNow s (.fault .guardWrite) 0 (natWord (32 * tx.line.toNat + 4 * b.off.toNat)) 0]) := by
  rw [reachHead_answered (by rw [judge_open high clear, all]; rfl)]
  obtain ⟨b, found⟩ := guarded_find all
  obtain ⟨record, event⟩ := guardFault_faults found
  refine ⟨?_, b, found, record, event⟩
  rw [reachHead, kept_mapProc, answerGuarded_proc, kept_answerGuarded]

end

/-- Settles O28: behind another, or at the head, by the judgement of R34. -/
theorem processorTransactionIsJudged : Obligations.ProcessorTransactionIsJudged := by
  unfold Obligations.ProcessorTransactionIsJudged
  intro s tx
  dsimp only
  refine ⟨_, always_pathEnd s (issueTransaction tx), ?_⟩
  rw [kept_pathEnd, faultRec_pathEnd, eventsOut_pathEnd]
  cases head : s.pu.proc.head with
  | some h =>
    have behind : issueTransaction tx s = mapProc (fun p => { p with behind := p.behind ++ [tx] }) s := by
      rw [issueTransaction, head]
    rw [behind]
    exact ⟨fun _ => by rw [kept_mapProc, head], nofun, nofun, nofun, nofun⟩
  | none =>
    have reaches : issueTransaction tx s = reachHead [tx] s := by rw [issueTransaction, head]
    rw [reaches]
    simp only [← Lock.stops_iff]
    exact ⟨nofun, fun _ => reached_low, fun _ => reached_held, fun _ => reached_waiting, fun _ => reached_guarded⟩

/-- Settles O32: the answer given, and the next transaction at the head, by the judgement of R34. -/
theorem processorAnswerIsPassedOn : Obligations.ProcessorAnswerIsPassedOn := by
  unfold Obligations.ProcessorAnswerIsPassedOn
  intro s ok data
  refine ⟨_, always_pathEnd s (processorAnswered ok data), fun other => ?_, fun tx port => ?_⟩
  · have nothing : processorAnswered ok data s = s := by
      unfold processorAnswered
      split
      · rename_i tx port; exact absurd port (other tx)
      · rfl
    rw [nothing, kept_pathEnd]
  · have answered : processorAnswered ok data s
        = reachHead s.pu.proc.behind (giveAnswer (answerOf tx ok data) (freePort s)) := by
      rw [processorAnswered, port]
      rfl
    dsimp only
    rw [kept_pathEnd, faultRec_pathEnd, answered]
    simp only [← Lock.stops_iff]
    refine ⟨fun none => by rw [none]; rfl, fun nx rest next => ?_⟩
    rw [next]
    refine ⟨?_, fun high stopped => reached_held (s := giveAnswer (answerOf tx ok data) (freePort s)) high stopped, ?_⟩
    · rintro (low | ⟨clear, notAll⟩)
      · exact reached_low (s := giveAnswer (answerOf tx ok data) (freePort s)) low
      · cases high : s.resetLow with
        | true => exact reached_low (s := giveAnswer (answerOf tx ok data) (freePort s)) high
        | false => exact reached_waiting (s := giveAnswer (answerOf tx ok data) (freePort s)) high clear notAll
    · rintro high clear all rfl
      obtain ⟨kept, b, found, record, -⟩ :=
        reached_guarded (s := giveAnswer (answerOf tx ok data) (freePort s)) high clear all
      exact ⟨kept, b, found, record⟩

end Sys2Proof.Machine
end

