-- ==== Sys2Proof/Proofs/AnchorWords.lean ====
section
/-! SUPPORT. The words of the anchor (R35, R36, R37, R57, R63, R194, R198, R203): the merge, the words handed over, and
the index words checked. -/

namespace Sys2Proof.Machine

/-! ## The merge (R37) -/

theorem byteOf_append (b3 b2 b1 b0 : Byte) (k : Fin 4) :
    byteOf (b3 ++ b2 ++ b1 ++ b0 : Word) k.val = [b0, b1, b2, b3].getD k.val 0 := by
  refine BitVec.eq_of_getLsbD_eq fun i lt => ?_
  rw [byteOf, BitVec.getLsbD_extractLsb', BitVec.getLsbD_append, BitVec.getLsbD_append, BitVec.getLsbD_append]
  fin_cases k <;> grind

theorem byteOf_mergeWord (old new : Word) (be : BitVec 4) (b : Fin 4) :
    byteOf (mergeWord old new be) b.val = if be.getLsbD b.val then byteOf new b.val else byteOf old b.val := by
  rw [mergeWord, byteOf_append]
  fin_cases b <;> rfl

section
variable (n : Fin 10) (w : Word) (be : BitVec 4) (s : State)

theorem shadow_mergeShadow : (mergeShadow n w be s).pu.shadow[n] = mergeWord s.pu.shadow[n] w be :=
  Vector.getElem_set_self _

end

section
variable {n : Fin 10} {w : Word} {be : BitVec 4} {s : State}

theorem tapWord_none (none : be = 0) : tapWord n w be s = s := if_pos none

theorem tapWord_some (some : be ≠ 0) : tapWord n w be s = handOver n (mergeShadow n w be s) := if_neg some

/-! ## Each word handed beyond (R37) -/

theorem tapWord_tail (some : be ≠ 0) :
    tapWord 5 w be s = takeTail (mergeWord s.pu.shadow[5] w be) (mergeShadow 5 w be s) :=
  (tapWord_some some).trans (congrArg (takeTail · _) (shadow_mergeShadow 5 w be s))

theorem tapWord_consumer (some : be ≠ 0) :
    tapWord 6 w be s = takeConsumer (mergeWord s.pu.shadow[6] w be) (mergeShadow 6 w be s) :=
  (tapWord_some some).trans (congrArg (takeConsumer · _) (shadow_mergeShadow 6 w be s))

theorem tapWord_inputConsumer (some : be ≠ 0) :
    tapWord 7 w be s = takeInputConsumer (mergeWord s.pu.shadow[7] w be) (mergeShadow 7 w be s) :=
  (tapWord_some some).trans (congrArg (takeInputConsumer · _) (shadow_mergeShadow 7 w be s))

theorem tapWord_outputProducer (some : be ≠ 0) :
    tapWord 8 w be s = takeOutputProducer (mergeWord s.pu.shadow[8] w be) (mergeShadow 8 w be s) :=
  (tapWord_some some).trans (congrArg (takeOutputProducer · _) (shadow_mergeShadow 8 w be s))

theorem tapWord_irqEnable (some : be ≠ 0) :
    tapWord 9 w be s = takeIrqEnable (mergeWord s.pu.shadow[9] w be) (mergeShadow 9 w be s) :=
  (tapWord_some some).trans (congrArg (takeIrqEnable · _) (shadow_mergeShadow 9 w be s))

/-- R37: the geometry words are only merged. -/
theorem tapWord_geometry (some : be ≠ 0) (geometry : n.val < 4) : tapWord n w be s = mergeShadow n w be s := by
  rw [tapWord_some some]
  obtain ⟨n, lt⟩ := n
  obtain rfl | rfl | rfl | rfl : n = 0 ∨ n = 1 ∨ n = 2 ∨ n = 3 := by dsimp only at geometry; omega
  all_goals rfl

/-! ## The beat of an anchor word (R35, R36) -/

section
variable {off : Fin 16}

theorem anchorWord_none (none : be = 0) : anchorWord off w be s = s := if_pos none

theorem anchorWord_spare (spare : 10 ≤ off.val) : anchorWord off w be s = s := by
  unfold anchorWord
  split_ifs
  · rfl
  · omega
  · omega
  · rfl

theorem anchorWord_guarded (some : be ≠ 0) (geometry : off.val < 4) (enabled : s.cu.enabled = true) :
    anchorWord off w be s = raiseFault .guardWrite (s.pu.regions.control + 4 * off.val) s := by
  rw [anchorWord, if_neg some, if_pos ⟨geometry, enabled⟩]
  rfl

theorem anchorWord_tapped (same : n.val = off.val) (some : be ≠ 0) (free : off.val < 4 → s.cu.enabled = false) :
    anchorWord off w be s = tapWord n w be s := by
  have notGuarded : ¬ (off.val < 4 ∧ s.cu.enabled = true) := fun h => by simp [free h.1] at h
  have lt : off.val < 10 := same ▸ n.isLt
  have word : (⟨off.val, lt⟩ : Fin 10) = n := Fin.ext same.symm
  rw [anchorWord, if_neg some, if_neg notGuarded, dif_pos lt, word]

end

/-! ## Warnings raised (R48) -/

/-- R48: the record and the event of a fault of severity WARNING. -/
theorem raiseFault_warning {k : FaultKind} (a : Nat) (warning : k.isError = false) :
    (s.pu.faultRec = none →
        (raiseFault k a s).pu.faultRec = some { kind := k, addr := a, stamp := s.clock.stamp })
      ∧ (s.eventRoom → (raiseFault k a s).eventsOut = [eventNow s (.fault k) 0 (natWord a) 0]) := by
  refine ⟨fun empty => ?_, fun room => ?_⟩
  · exact (raiseFaultMarked_faultRec _ _ _ s).trans (faultTaken_of_empty _ _ empty)
  · obtain ⟨-, out⟩ := raiseFaultMarked_joins false k a room.takesEvents
    rw [room.eventsOut, faultEvent_of_warning _ _ warning] at out
    exact out

/-- R198: IRQ_N at the end of a step. -/
theorem irqN_finish (high : s.resetLow = false) : (finish s).pins.irqN = irqLevel s := by
  have low : (updateStatus s).resetLow = false := (congrArg Kept.resetLow (kept_updateStatus s)).trans high
  obtain ⟨_, _, cu⟩ := finish_cu s
  have level : irqLevel (updateStatus s) = irqLevel s := by
    change irqLevel (finish s) = irqLevel s
    rw [irqLevel, irqLevel, cu]
  rw [finish, drivePins, pinLevels, low, ← level]
  rfl

/-! ## The index words checked (R57, R194) -/

theorem takeTail_accepted (fits : s.cu.enabled = false ∨ (indexOf w - s.cu.head).toNat ≤ commandSlots s) :
    takeTail w s = testFetch (s.mapCu fun cu => { cu with tail := indexOf w }) := by
  refine if_neg fun rejected => fits.elim (fun off => ?_) fun fits => ?_
  · simp [off] at rejected
  · omega

theorem takeTail_rejected (enabled : s.cu.enabled = true) (beyond : commandSlots s < (indexOf w - s.cu.head).toNat) :
    takeTail w s = rejectIndex 5 s := if_pos ⟨enabled, beyond⟩

theorem takeConsumer_accepted (fits : s.cu.enabled = false ∨ (s.cu.evProd - indexOf w).toNat ≤ eventSlots s) :
    takeConsumer w s = pumpEvents (s.mapCu fun cu => { cu with evCons := indexOf w }) := by
  refine if_neg fun rejected => fits.elim (fun off => ?_) fun fits => ?_
  · simp [off] at rejected
  · omega

theorem takeConsumer_rejected (enabled : s.cu.enabled = true)
    (beyond : eventSlots s < (s.cu.evProd - indexOf w).toNat) : takeConsumer w s = rejectIndex 6 s :=
  if_pos ⟨enabled, beyond⟩

theorem ringAccepts_iff {v : Option Range} {p c : Index} :
    ringAccepts v p c = true ↔ ∀ r, v = some r → (p - c).toNat ≤ slotCount r := by
  cases v <;> simp [ringAccepts]

theorem takeInputConsumer_accepted (fits : ringAccepts s.pu.regions.input s.re.inProd (indexOf w) = true) :
    takeInputConsumer w s = s.mapCu fun cu => { cu with inCons := indexOf w } := if_pos fits

theorem takeInputConsumer_rejected {r : Range} (set : s.pu.regions.input = some r)
    (beyond : slotCount r < (s.re.inProd - indexOf w).toNat) : takeInputConsumer w s = rejectIndex 7 s :=
  if_neg fun fits => absurd (ringAccepts_iff.1 fits r set) (by omega)

theorem takeOutputProducer_accepted (fits : ringAccepts s.pu.regions.output (indexOf w) s.re.outCons = true) :
    takeOutputProducer w s = testSlotFetch (s.mapCu fun cu => { cu with outProd := indexOf w }) := if_pos fits

theorem takeOutputProducer_rejected {r : Range} (set : s.pu.regions.output = some r)
    (beyond : slotCount r < (indexOf w - s.re.outCons).toNat) : takeOutputProducer w s = rejectIndex 8 s :=
  if_neg fun fits => absurd (ringAccepts_iff.1 fits r set) (by omega)

/-! ## The fetches that follow (R63, R196) -/

theorem testFetch_due (enabled : s.cu.enabled = true) (idle : s.cu.exec = .idle) (running : s.cu.quiesce = false)
    (more : s.cu.tail ≠ s.cu.head) :
    testFetch s = placeTransfer .control
      (readOf .commandFetch (commandBase s + 32 * (s.cu.head.toNat % commandSlots s)) 8 none)
      (s.mapCu fun cu => { cu with exec := .fetching, fetchDiscard := false }) :=
  if_pos (by simp [fetchDue, enabled, idle, running, more])

theorem testSlotFetch_unserved (unserved : s.sc.path = .direct ∨ s.sc.connected = none) : testSlotFetch s = s := by
  unfold testSlotFetch
  split
  · rename_i served _ _
    rw [servedSource_none.2 unserved] at served
    cases served
  · rfl

theorem servedSource_hosted (hosted : s.sc.path = .hosted) : servedSource s = s.sc.connected := by
  rw [servedSource, hosted]

/-- R63: the fetch begun for the slot at the consumer. -/
theorem testSlotFetch_due {i : Fin 8} {r : Range} (served : servedSource s = some i)
    (set : s.pu.regions.output = some r) (free : s.re.fetch = .free) (more : s.cu.outProd ≠ s.re.outCons)
    (running : s.cu.quiesce = false) : testSlotFetch s = requestLock
      (slotLock .outputFetch (slotAddress r s.re.outCons))
      (s.mapRe fun re =>
        { re with fetch := .fetching { slotAddr := slotAddress r re.outCons, channels := 0, disc := false,
                                       last := false, words := [], left := 0, discard := false } }) := by
  have due : s.cu.outProd ≠ s.re.outCons ∧ ¬ s.cu.quiesce = true := ⟨more, by simp [running]⟩
  rw [testSlotFetch, served, set, free]
  exact if_pos due

theorem re_testSlotFetch (s : State) : (testSlotFetch s).re = { s.re with fetch := (testSlotFetch s).re.fetch } := by
  unfold testSlotFetch
  split
  · split <;> rfl
  · rfl

/-- R63: the test for a fetch moves the Ring Engine's fetch only. -/
theorem kept_testSlotFetch (s : State) : (testSlotFetch s).kept = { s.kept with re := (testSlotFetch s).re } :=
  kept_of_butRe (butRe_testSlotFetch s)

end

/-! ## The steps (R37) -/

section
variable {s : State} {n : Fin 10} {w : Word} {be : BitVec 4}

/-- What the end of a step shows of a rejected word. -/
theorem rejected_shows (k : Nat) {a : Nat} (address : s.pu.regions.control + 4 * k = a) :
    (finish (rejectIndex k (mergeShadow n w be s))).kept = (mergeShadow n w be s).kept
      ∧ (s.pu.faultRec = none → (finish (rejectIndex k (mergeShadow n w be s))).pu.faultRec
          = some { kind := .ringIndex, addr := a, stamp := s.clock.stamp })
      ∧ (s.eventRoom → (finish (rejectIndex k (mergeShadow n w be s))).eventsOut
          = [eventNow s (.fault .ringIndex) 0 (natWord a) 0]) := by
  obtain rfl := address
  obtain ⟨record, event⟩ := raiseFault_warning (s := mergeShadow n w be s) (k := .ringIndex)
    (s.pu.regions.control + 4 * k) rfl
  refine ⟨?_, fun empty => ?_, fun room => ?_⟩
  · rw [kept_finish]; exact kept_raiseFault _ _ _
  · rw [faultRec_finish]; exact record empty
  · rw [(quiet_finish _).eventsOut]; exact event room

theorem commandTail_checked (w : Word) (be : BitVec 4) (high : s.resetLow = false) :
    ∃ t, exec (.commandTailWrite w be) s = .next t
      ∧ (be = 0 → t.kept = s.kept)
      ∧ (be ≠ 0 → (s.cu.enabled = false
            ∨ (indexOf (mergeWord s.pu.shadow[5] w be) - s.cu.head).toNat ≤ commandSlots s) →
          t.kept = { s.kept with shadow := s.pu.shadow.set 5 (mergeWord s.pu.shadow[5] w be),
                                 tail := indexOf (mergeWord s.pu.shadow[5] w be) }
          ∧ (s.cu.enabled = true → s.cu.exec = .idle → s.cu.quiesce = false →
              indexOf (mergeWord s.pu.shadow[5] w be) ≠ s.cu.head →
              t.cu.exec = .fetching ∧ t.pu.queues.control.all = s.pu.queues.control.all
                ++ [readOf .commandFetch (commandBase s + 32 * (s.cu.head.toNat % commandSlots s)) 8 none]))
      ∧ (be ≠ 0 → s.cu.enabled = true →
          commandSlots s < (indexOf (mergeWord s.pu.shadow[5] w be) - s.cu.head).toNat →
          t.kept = { s.kept with shadow := s.pu.shadow.set 5 (mergeWord s.pu.shadow[5] w be) }
          ∧ (s.pu.faultRec = none → t.pu.faultRec
              = some { kind := .ringIndex, addr := s.pu.regions.control + 0x14, stamp := s.clock.stamp })
          ∧ (s.eventRoom → t.eventsOut
              = [eventNow s (.fault .ringIndex) 0 (natWord (s.pu.regions.control + 0x14)) 0])) := by
  refine ⟨_, live_ready (tapWord 5 w be) high, fun none => ?_, fun some fits => ?_, fun some enabled beyond => ?_⟩
  · rw [kept_finish, tapWord_none none]
  · rw [tapWord_tail some, takeTail_accepted (s := mergeShadow 5 w be s) fits]
    refine ⟨by rw [kept_finish, kept_testFetch]; rfl, fun enabled idle running more => ?_⟩
    obtain ⟨exec, -, -⟩ := finish_exec (testFetch ((mergeShadow 5 w be s).mapCu fun cu =>
      { cu with tail := indexOf (mergeWord s.pu.shadow[5] w be) }))
    rw [exec, (finish_queues _).1, testFetch_due (s := (mergeShadow 5 w be s).mapCu fun cu =>
      { cu with tail := indexOf (mergeWord s.pu.shadow[5] w be) }) enabled idle running more]
    exact ⟨rfl, control_placeTransfer _ _⟩
  · rw [tapWord_tail some, takeTail_rejected (s := mergeShadow 5 w be s) enabled beyond]
    exact rejected_shows 5 rfl

theorem eventConsumer_checked (w : Word) (be : BitVec 4) (high : s.resetLow = false) :
    ∃ t, exec (.eventConsumerWrite w be) s = .next t
      ∧ (be = 0 → t.kept = s.kept)
      ∧ (be ≠ 0 → (s.cu.enabled = false
            ∨ (s.cu.evProd - indexOf (mergeWord s.pu.shadow[6] w be)).toNat ≤ eventSlots s) →
          t.kept = { s.kept with shadow := s.pu.shadow.set 6 (mergeWord s.pu.shadow[6] w be),
                                 evCons := indexOf (mergeWord s.pu.shadow[6] w be) }
          ∧ t.pins.irqN = !(s.cu.enabled && s.cu.irqEnable
              && decide (s.cu.evProd ≠ indexOf (mergeWord s.pu.shadow[6] w be))))
      ∧ (be ≠ 0 → s.cu.enabled = true →
          eventSlots s < (s.cu.evProd - indexOf (mergeWord s.pu.shadow[6] w be)).toNat →
          t.kept = { s.kept with shadow := s.pu.shadow.set 6 (mergeWord s.pu.shadow[6] w be) }
          ∧ (s.pu.faultRec = none → t.pu.faultRec
              = some { kind := .ringIndex, addr := s.pu.regions.control + 0x18, stamp := s.clock.stamp })
          ∧ (s.eventRoom → t.eventsOut
              = [eventNow s (.fault .ringIndex) 0 (natWord (s.pu.regions.control + 0x18)) 0])) := by
  refine ⟨_, live_ready (tapWord 6 w be) high, fun none => ?_, fun some fits => ?_, fun some enabled beyond => ?_⟩
  · rw [kept_finish, tapWord_none none]
  · rw [tapWord_consumer some, takeConsumer_accepted (s := mergeShadow 6 w be s) fits]
    refine ⟨by rw [kept_finish, kept_pumpEvents]; rfl, ?_⟩
    have low : (pumpEvents ((mergeShadow 6 w be s).mapCu fun cu =>
        { cu with evCons := indexOf (mergeWord s.pu.shadow[6] w be) })).resetLow = false :=
      (congrArg Kept.resetLow (kept_pumpEvents _)).trans high
    obtain ⟨_, _, _, _, cu⟩ := pumpEvents_cu ((mergeShadow 6 w be s).mapCu fun cu =>
      { cu with evCons := indexOf (mergeWord s.pu.shadow[6] w be) })
    rw [irqN_finish low, irqLevel, cu]
    rfl
  · rw [tapWord_consumer some, takeConsumer_rejected (s := mergeShadow 6 w be s) enabled beyond]
    exact rejected_shows 6 rfl

theorem inputConsumer_checked (w : Word) {be : BitVec 4} (high : s.resetLow = false) (some' : be ≠ 0) :
    ∃ t, exec (.inputRingConsumerWrite w be) s = .next t
      ∧ ((∀ r, s.pu.regions.input = some r →
            (s.re.inProd - indexOf (mergeWord s.pu.shadow[7] w be)).toNat ≤ slotCount r) →
          t.kept = { s.kept with shadow := s.pu.shadow.set 7 (mergeWord s.pu.shadow[7] w be),
                                 inCons := indexOf (mergeWord s.pu.shadow[7] w be) })
      ∧ (∀ r, s.pu.regions.input = some r →
          slotCount r < (s.re.inProd - indexOf (mergeWord s.pu.shadow[7] w be)).toNat →
          t.kept = { s.kept with shadow := s.pu.shadow.set 7 (mergeWord s.pu.shadow[7] w be) }
          ∧ (s.pu.faultRec = none → t.pu.faultRec
              = some { kind := .ringIndex, addr := s.pu.regions.control + 0x1C, stamp := s.clock.stamp })
          ∧ (s.eventRoom → t.eventsOut
              = [eventNow s (.fault .ringIndex) 0 (natWord (s.pu.regions.control + 0x1C)) 0])) := by
  refine ⟨_, live_ready (tapWord 7 w be) high, fun fits => ?_, fun r set beyond => ?_⟩
  · rw [tapWord_inputConsumer some',
      takeInputConsumer_accepted (s := mergeShadow 7 w be s) (ringAccepts_iff.2 fits), kept_finish]
    rfl
  · rw [tapWord_inputConsumer some', takeInputConsumer_rejected (s := mergeShadow 7 w be s) set beyond]
    exact rejected_shows 7 rfl

theorem outputProducer_checked (w : Word) {be : BitVec 4} (high : s.resetLow = false) (some' : be ≠ 0) :
    ∃ t, exec (.outputRingProducerWrite w be) s = .next t
      ∧ ((∀ r, s.pu.regions.output = some r →
            (indexOf (mergeWord s.pu.shadow[8] w be) - s.re.outCons).toNat ≤ slotCount r) →
          t.kept = { s.kept with shadow := s.pu.shadow.set 8 (mergeWord s.pu.shadow[8] w be),
                                 outProd := indexOf (mergeWord s.pu.shadow[8] w be), re := t.re }
          ∧ t.re = { s.re with fetch := t.re.fetch }
          ∧ ((s.sc.path = .direct ∨ s.sc.connected = none) → t.re = s.re)
          ∧ (∀ r, s.sc.path = .hosted → s.sc.connected.isSome = true → s.pu.regions.output = some r →
              s.re.fetch = .free → indexOf (mergeWord s.pu.shadow[8] w be) ≠ s.re.outCons → s.cu.quiesce = false →
              t.re.fetch = .fetching
                { slotAddr := slotAddress r s.re.outCons, channels := 0, disc := false, last := false, words := [],
                  left := 0, discard := false }))
      ∧ (∀ r, s.pu.regions.output = some r →
          slotCount r < (indexOf (mergeWord s.pu.shadow[8] w be) - s.re.outCons).toNat →
          t.kept = { s.kept with shadow := s.pu.shadow.set 8 (mergeWord s.pu.shadow[8] w be) }
          ∧ (s.pu.faultRec = none → t.pu.faultRec
              = some { kind := .ringIndex, addr := s.pu.regions.control + 0x20, stamp := s.clock.stamp })
          ∧ (s.eventRoom → t.eventsOut
              = [eventNow s (.fault .ringIndex) 0 (natWord (s.pu.regions.control + 0x20)) 0])) := by
  refine ⟨_, live_ready (tapWord 8 w be) high, fun fits => ?_, fun r set beyond => ?_⟩
  · rw [tapWord_outputProducer some',
      takeOutputProducer_accepted (s := mergeShadow 8 w be s) (ringAccepts_iff.2 fits), kept_finish, finish_re]
    refine ⟨kept_testSlotFetch _, re_testSlotFetch _, fun unserved => ?_,
      fun r hosted connected set free more running => ?_⟩
    · exact (congrArg State.re (testSlotFetch_unserved (s := (mergeShadow 8 w be s).mapCu fun cu =>
        { cu with outProd := indexOf (mergeWord s.pu.shadow[8] w be) }) unserved)).trans rfl
    · obtain ⟨i, connected⟩ := Option.isSome_iff_exists.1 connected
      exact congrArg (fun u : State => u.re.fetch)
        (testSlotFetch_due (s := (mergeShadow 8 w be s).mapCu fun cu =>
        { cu with outProd := indexOf (mergeWord s.pu.shadow[8] w be) })
          ((servedSource_hosted hosted).trans connected) set free more running)
  · rw [tapWord_outputProducer some', takeOutputProducer_rejected (s := mergeShadow 8 w be s) set beyond]
    exact rejected_shows 8 rfl

end

/-- Settles O38: each word merged, then taken or rejected by its bound. -/
theorem indexWordsAreChecked : Obligations.IndexWordsAreChecked := by
  unfold Obligations.IndexWordsAreChecked
  exact ⟨fun s w be high => ⟨commandTail_checked w be high, eventConsumer_checked w be high⟩,
    fun s w be high some => ⟨inputConsumer_checked w high some, outputProducer_checked w high some⟩⟩

section
variable {s : State}

/-- R37: an anchor word from word 4 on acts as the row that taps it. -/
theorem anchorWord_row {off : Fin 16} {n : Fin 10} {w : Word} {be : BitVec 4} (same : n.val = off.val) (some : be ≠ 0)
    (tapped : 4 ≤ off.val) : exec (.anchorWordWrite off w be) s = live (tapWord n w be) s := by
  have tap : anchorWord off w be s = tapWord n w be s := anchorWord_tapped same some (by omega)
  change live (anchorWord off w be) s = _
  rw [live_eq, live_eq, tap]

theorem irqEnable_taken (w : Word) (be : BitVec 4) (high : s.resetLow = false) :
    ∃ t, exec (.interruptEnableWrite w be) s = .next t
      ∧ (be = 0 → t.kept = s.kept)
      ∧ (be ≠ 0 →
          t.kept = { s.kept with shadow := s.pu.shadow.set 9 (mergeWord s.pu.shadow[9] w be),
                                 irqEnable := (mergeWord s.pu.shadow[9] w be).getLsbD 0 }
          ∧ t.pins.irqN = !(s.cu.enabled && (mergeWord s.pu.shadow[9] w be).getLsbD 0
                              && decide (s.cu.evProd ≠ s.cu.evCons))) := by
  refine ⟨_, live_ready (tapWord 9 w be) high, fun none => ?_, fun some => ?_⟩
  · rw [kept_finish, tapWord_none none]
  · rw [tapWord_irqEnable some, kept_finish,
      irqN_finish (s := takeIrqEnable (mergeWord s.pu.shadow[9] w be) (mergeShadow 9 w be s)) high]
    exact ⟨rfl, rfl⟩

theorem anchorWord_acts (off : Fin 16) (w : Word) (be : BitVec 4) (high : s.resetLow = false) :
    ∃ t, exec (.anchorWordWrite off w be) s = .next t
      ∧ ((be = 0 ∨ 10 ≤ off.val) → t.kept = s.kept ∧ t.pu.faultRec = s.pu.faultRec ∧ t.eventsOut = s.eventsOut)
      ∧ (∀ n : Fin 10, n.val = off.val → be ≠ 0 → off.val < 4 → s.cu.enabled = false →
          t.kept = { s.kept with shadow := s.pu.shadow.set n (mergeWord s.pu.shadow[n] w be) })
      ∧ (be ≠ 0 → off.val < 4 → s.cu.enabled = true → t.kept = s.kept
          ∧ (s.pu.faultRec = none → t.pu.faultRec = some
              { kind := .guardWrite, addr := s.pu.regions.control + 4 * off.val, stamp := s.clock.stamp })
          ∧ (s.eventRoom → t.eventsOut =
              [eventNow s (.fault .guardWrite) 0 (natWord (s.pu.regions.control + 4 * off.val)) 0])) := by
  refine ⟨_, live_ready (anchorWord off w be) high, fun nothing => ?_, fun n same some geometry off' => ?_,
    fun some geometry enabled => ?_⟩
  · have stays : anchorWord off w be s = s := nothing.elim anchorWord_none anchorWord_spare
    rw [stays]
    exact ⟨kept_finish s, faultRec_finish s, (quiet_finish s).eventsOut⟩
  · rw [kept_finish, anchorWord_tapped same some fun _ => off', tapWord_geometry some (by omega)]
    rfl
  · rw [anchorWord_guarded some geometry enabled, kept_finish, kept_raiseFault, faultRec_finish,
      (quiet_finish _).eventsOut]
    exact ⟨rfl, raiseFault_warning _ rfl⟩

end

/-- Settles O39: the merge, the rows of the tapped words, and the beat by its offset. -/
theorem anchorWordWriteActsByOffset : Obligations.AnchorWordWriteActsByOffset := by
  unfold Obligations.AnchorWordWriteActsByOffset
  refine ⟨byteOf_mergeWord, fun s w be high => ⟨irqEnable_taken w be high, fun some => ?_, fun upper => ?_,
    fun off => anchorWord_acts off w be high⟩⟩
  · exact ⟨anchorWord_row rfl some (by decide), anchorWord_row rfl some (by decide),
      anchorWord_row rfl some (by decide), anchorWord_row rfl some (by decide), anchorWord_row rfl some (by decide)⟩
  · exact ⟨anchorWord_row rfl (by decide) (by decide), anchorWord_row rfl (by decide) (by decide)⟩

end Sys2Proof.Machine
end

