-- ==== Sys2Proof/Proofs/ArbiterGrants.lean ====
section
/-! SUPPORT. The arbiter (R41, R44, R45): its choice by cases, the grant of a part transfer, and the grant of a
processor transaction with its guarded and its tapped beats. -/

namespace Sys2Proof.Machine

/-! ## What waits for a grant -/

section
variable {s : State}

/-- R43: the transfers of the part that wait for a grant. -/
def State.partTransfers (s : State) : List Transfer :=
  s.pu.queues.render.items ++ s.pu.queues.input.items ++ s.pu.queues.control.items

theorem queueWaiting_iff (q : Queue) : queueWaiting s q = true ↔ (s.pu.queues.get q).items ≠ [] := by
  simp [queueWaiting]

theorem partWaiting_iff : partWaiting s = true ↔ s.partTransfers ≠ [] := by
  simp only [partWaiting, Bool.or_eq_true, queueWaiting_iff, State.partTransfers, ne_eq, List.append_eq_nil_iff,
    not_and_or]
  rfl

/-- R45: the run count at a grant to the processor. -/
theorem countRun_eq (s : State) : countRun s = s.mapPu fun pu =>
    { pu with runCount := if s.partTransfers = [] then s.pu.runCount else s.pu.runCount + 1 } := by
  by_cases none : s.partTransfers = []
  · rw [countRun, if_neg fun waits => partWaiting_iff.1 waits none, if_pos none]
    rfl
  · rw [countRun, if_pos (partWaiting_iff.2 none), if_neg none]
    rfl

theorem countRun_alone (alone : s.partTransfers = []) : countRun s = s :=
  if_neg fun waits => partWaiting_iff.1 waits alone

/-! ## The arbiter's choice (R41, R44) -/

/-- R44 case 2: the processor is next within its slice, or with no part transfer waiting. -/
def State.processorTurn (s : State) : Prop := s.partTransfers = [] ∨ s.pu.runCount < s.pu.sliceH

/-- R41: a promoted lock's queue is next. -/
def State.promotedTurn (s : State) : Prop :=
  ∃ tx o, s.pu.proc.head = some (tx, .held o) ∧ (s.pu.queues.get (sequenceQueue o)).items ≠ []

/-- R44 case 3: the grant to the first of the queues that has a transfer waiting. -/
def partGrant (s : State) : Grant :=
  match ordinaryQueue s with
  | some q => .part q
  | none => .nothing

theorem arbiterChoice_promoted {tx : ProcTx} {o : Sequence} (head : s.pu.proc.head = some (tx, .held o))
    (waits : (s.pu.queues.get (sequenceQueue o)).items ≠ []) : arbiterChoice s = .part (sequenceQueue o) := by
  have promoted : promotedQueue s = some (sequenceQueue o) := by rw [promotedQueue, head]
  rw [arbiterChoice, promoted]
  exact if_pos ((queueWaiting_iff _).2 waits)

theorem arbiterChoice_turn {tx : ProcTx} (head : s.pu.proc.head = some (tx, .waiting)) (turn : s.processorTurn) :
    arbiterChoice s = .processor tx := by
  have promoted : promotedQueue s = none := by rw [promotedQueue, head]
  have within : ¬ (partWaiting s && decide (s.pu.sliceH ≤ s.pu.runCount)) = true := by
    rw [Bool.and_eq_true, partWaiting_iff, decide_eq_true_eq]
    exact fun h => turn.elim h.1 fun below => by omega
  rw [arbiterChoice, promoted]
  change ordinaryGrant s = _
  rw [ordinaryGrant, head]
  exact if_neg within

theorem ordinaryGrant_part (notProcessor : ¬ ((∃ tx, s.pu.proc.head = some (tx, .waiting)) ∧ s.processorTurn)) :
    ordinaryGrant s = partGrant s := by
  unfold ordinaryGrant
  dsimp only
  split
  · rename_i tx head
    refine if_pos ?_
    rw [Bool.and_eq_true, partWaiting_iff, decide_eq_true_eq]
    refine ⟨fun alone => notProcessor ⟨⟨tx, head⟩, .inl alone⟩, ?_⟩
    by_contra below
    exact notProcessor ⟨⟨tx, head⟩, .inr (by omega)⟩
  · rfl

theorem arbiterChoice_ordinary (notPromoted : ¬ s.promotedTurn)
    (notProcessor : ¬ ((∃ tx, s.pu.proc.head = some (tx, .waiting)) ∧ s.processorTurn)) :
    arbiterChoice s = partGrant s := by
  rw [← ordinaryGrant_part notProcessor]
  unfold arbiterChoice
  split
  · rename_i q promoted
    refine if_neg fun waits => ?_
    unfold promotedQueue at promoted
    split at promoted
    · rename_i tx o head
      cases promoted
      exact notPromoted ⟨tx, o, head, (queueWaiting_iff _).1 waits⟩
    · cases promoted
  · rfl

theorem partGrant_render (waits : s.pu.queues.render.items ≠ []) : partGrant s = .part .render := by
  rw [partGrant, ordinaryQueue, if_pos ((queueWaiting_iff .render).2 waits)]

theorem not_queueWaiting (q : Queue) (empty : (s.pu.queues.get q).items = []) : ¬ queueWaiting s q = true :=
  fun waits => (queueWaiting_iff _).1 waits empty

theorem partGrant_input (render : s.pu.queues.render.items = []) (waits : s.pu.queues.input.items ≠ []) :
    partGrant s = .part .input := by
  rw [partGrant, ordinaryQueue, if_neg (not_queueWaiting .render render), if_pos ((queueWaiting_iff .input).2 waits)]

theorem partGrant_control (render : s.pu.queues.render.items = []) (input : s.pu.queues.input.items = [])
    (waits : s.pu.queues.control.items ≠ []) : partGrant s = .part .control := by
  rw [partGrant, ordinaryQueue, if_neg (not_queueWaiting .render render), if_neg (not_queueWaiting .input input),
    if_pos ((queueWaiting_iff .control).2 waits)]

theorem partGrant_nothing (alone : s.partTransfers = []) : partGrant s = .nothing := by
  obtain ⟨⟨render, input⟩, control⟩ : (s.pu.queues.render.items = [] ∧ s.pu.queues.input.items = [])
      ∧ s.pu.queues.control.items = [] := by simpa [State.partTransfers, and_assoc] using alone
  rw [partGrant, ordinaryQueue, if_neg (not_queueWaiting .render render), if_neg (not_queueWaiting .input input),
    if_neg (not_queueWaiting .control control)]

/-! ## The grant of a part transfer (R44, R45) -/

theorem grantPart_eq {q : Queue} {x : Transfer} {rest : List Transfer} (items : (s.pu.queues.get q).items = x :: rest) :
    (grantPart q s).kept = { s.kept with port := .part x, runCount := 0 }
      ∧ (grantPart q s).pu.queues = s.pu.queues.put q { s.pu.queues.get q with items := rest } := by
  rw [grantPart, items]
  exact ⟨rfl, rfl⟩

end

/-! ## What handing words over leaves of the ports -/

/-- What the tapped words do not move: the memory port, the processor port and the run. -/
def Kept.portSide (k : Kept) : MemPort × ProcPort × Nat := (k.port, k.proc, k.runCount)

section
variable (s : State)

@[simp] theorem portSide_rejectIndex (n : Nat) : (rejectIndex n s).kept.portSide = s.kept.portSide :=
  congrArg Kept.portSide (kept_raiseFault s _ _)

@[simp] theorem portSide_takeTail (w : Word) : (takeTail w s).kept.portSide = s.kept.portSide := by
  unfold takeTail
  dsimp only
  split
  · exact portSide_rejectIndex s 5
  · rw [kept_testFetch]; rfl

@[simp] theorem portSide_takeConsumer (w : Word) : (takeConsumer w s).kept.portSide = s.kept.portSide := by
  unfold takeConsumer
  dsimp only
  split
  · exact portSide_rejectIndex s 6
  · rw [kept_pumpEvents]; rfl

@[simp] theorem portSide_takeInputConsumer (w : Word) : (takeInputConsumer w s).kept.portSide = s.kept.portSide := by
  unfold takeInputConsumer
  dsimp only
  split
  · rfl
  · exact portSide_rejectIndex s 7

@[simp] theorem portSide_takeOutputProducer (w : Word) :
    (takeOutputProducer w s).kept.portSide = s.kept.portSide := by
  unfold takeOutputProducer
  dsimp only
  split
  · rw [kept_testSlotFetch]; rfl
  · exact portSide_rejectIndex s 8

@[simp] theorem portSide_writeEnableWords : (writeEnableWords s).kept.portSide = s.kept.portSide := by
  simp [writeEnableWords]

@[simp] theorem portSide_enableRings (g : Geometry) : (enableRings g s).kept.portSide = s.kept.portSide := rfl

@[simp] theorem portSide_enableValid (g : Geometry) : (enableValid g s).kept.portSide = s.kept.portSide := by
  simp [enableValid]

@[simp] theorem portSide_enableInvalid (st : RingStatus) : (enableInvalid st s).kept.portSide = s.kept.portSide := by
  rw [enableInvalid, kept_raiseFault, kept_writeIndexWord]
  rfl

@[simp] theorem portSide_enableRequest : (enableRequest s).kept.portSide = s.kept.portSide := by
  unfold enableRequest
  dsimp only
  split <;> simp

@[simp] theorem portSide_dropUnplacedEvent : (dropUnplacedEvent s).kept.portSide = s.kept.portSide := by
  unfold dropUnplacedEvent
  split
  · rw [kept_dropEvent]; rfl
  · rfl

@[simp] theorem portSide_dropPending : (dropPending s).kept.portSide = s.kept.portSide := by
  unfold dropPending
  generalize s.cu.pendingEvents = es
  change _ = (s.mapCu fun cu => { cu with pendingEvents := [] }).kept.portSide
  generalize s.mapCu (fun cu => { cu with pendingEvents := [] }) = t
  induction es generalizing t with
  | nil => rfl
  | cons _ es ih => exact (ih (dropEvent t)).trans (congrArg Kept.portSide (kept_dropEvent t))

@[simp] theorem portSide_disableRings : (disableRings s).kept.portSide = s.kept.portSide := by
  unfold disableRings
  dsimp only
  rw [portSide_dropPending, portSide_dropUnplacedEvent]
  rfl

@[simp] theorem portSide_takeRingControl (w : Word) : (takeRingControl w s).kept.portSide = s.kept.portSide := by
  unfold takeRingControl
  split_ifs
  · exact portSide_enableRequest s
  · exact portSide_disableRings s
  · rfl

theorem portSide_handOver (n : Fin 10) : (handOver n s).kept.portSide = s.kept.portSide := by
  unfold handOver
  split
  · exact portSide_takeRingControl s _
  · exact portSide_takeTail s _
  · exact portSide_takeConsumer s _
  · exact portSide_takeInputConsumer s _
  · exact portSide_takeOutputProducer s _
  · rfl
  · rfl

/-- A list of steps each of which leaves the ports leaves the ports. -/
theorem portSide_foldl {α : Type} {f : State → α → State} (leaves : ∀ s a, (f s a).kept.portSide = s.kept.portSide)
    (l : List α) : (l.foldl f s).kept.portSide = s.kept.portSide := by
  induction l generalizing s with
  | nil => rfl
  | cons a l ih => exact (ih (f s a)).trans (leaves s a)

theorem portSide_takeTaps (tx : ProcTx) : (takeTaps s tx).kept.portSide = s.kept.portSide := by
  exact (portSide_foldl _ (fun s (nb : Fin 10 × Beat) => portSide_handOver s nb.1) _).trans 
    (portSide_foldl (f := fun s (nb : Fin 10 × Beat) => mergeShadow nb.1 nb.2.data nb.2.be s) s (fun _ _ => rfl) _)

end

/-! ## The grant of a processor transaction (R36, R37, R45) -/

section
variable {s : State} {tx : ProcTx}

theorem takeTaps_none (none : ∀ b ∈ tx.beats, beatAction s tx b ≠ .tap) : takeTaps s tx = s := by
  have taps : tappedBeats s tx = [] := by
    refine List.filterMap_eq_nil_iff.2 fun b mem => ?_
    rw [tappedWord, if_neg (none b mem)]
    rfl
  unfold takeTaps
  rw [taps]
  rfl

theorem not_allGuarded (none : ∀ b ∈ tx.beats, beatAction s tx b ≠ .guard) : allGuarded s tx = false := by
  have open' : tx.beats.any (fun b => decide (beatAction s tx b = .guard)) = false :=
    List.any_eq_false.2 fun b mem => by simpa using none b mem
  rw [allGuarded, open']
  rfl

theorem forwarded_same (none : ∀ b ∈ tx.beats, beatAction s tx b ≠ .guard) : forwarded s tx = tx := by
  have same : (tx.beats.map fun b => if beatAction s tx b = .guard then { b with be := 0 } else b) = tx.beats :=
    (List.map_congr_left fun b mem => if_neg (none b mem)).trans (List.map_id _)
  rw [forwarded, same]

/-- R45: a transaction on its way to memory, counted in the run. -/
theorem sendProcessor_countRun (sent : ProcTx) (s : State) : sendProcessor sent (countRun s) = s.mapPu fun pu =>
    { pu with port := .processor sent, proc := { pu.proc with head := some (sent, .granted) },
              runCount := if s.partTransfers = [] then s.pu.runCount else s.pu.runCount + 1 } := by
  rw [countRun_eq]
  rfl

/-- The classification of a beat goes by the rings' enable and the regions alone. -/
theorem beatAction_congr {t : State} (enabled : t.cu.enabled = s.cu.enabled) (regions : t.pu.regions = s.pu.regions) :
    beatAction t tx = beatAction s tx := by
  funext b
  rw [beatAction, beatAction, enabled, regions]

theorem beatAction_of_kept {t : State} (kept : t.kept = s.kept) : beatAction t tx = beatAction s tx :=
  beatAction_congr (congrArg Kept.enabled kept) (congrArg Kept.regions kept)

/-- R36, R45: the grant of a transaction with a beat that goes to memory. -/
theorem grantProcessor_sends (high : s.resetLow = false) (notAll : allGuarded s tx = false) :
    grantProcessor tx s = takeTaps (guardFault tx (sendProcessor (forwarded s tx) (countRun s))) tx := by
  rw [grantProcessor, if_neg (by simp [high]), if_neg (by simp [notAll])]

/-- R36, R45: the grant of a transaction found all guarded. -/
theorem grantProcessor_answers (high : s.resetLow = false) (all : allGuarded s tx = true) :
    grantProcessor tx s = nextHead (answerGuarded tx (countRun s)) := by
  rw [grantProcessor, if_neg (by simp [high]), if_pos all]

/-- R44: a transaction with no guarded and no tapped beat goes to memory as it is. -/
theorem grantProcessor_forwards (high : s.resetLow = false) (all : ∀ b ∈ tx.beats, beatAction s tx b = .forward) :
    grantProcessor tx s = sendProcessor tx (countRun s) := by
  have noGuard : ∀ b ∈ tx.beats, beatAction s tx b ≠ .guard := fun b mem => by rw [all b mem]; nofun
  have noTap : ∀ b ∈ tx.beats, beatAction s tx b ≠ .tap := fun b mem => by rw [all b mem]; nofun
  have same : beatAction (sendProcessor tx (countRun s)) tx = beatAction s tx := by
    rw [sendProcessor_countRun]
    rfl
  rw [grantProcessor_sends high (not_allGuarded noGuard), forwarded_same noGuard,
    guardFault_of_none (by rwa [same]), takeTaps_none (by rwa [same])]

/-- R36, R44: what is granted of a transaction with guarded beats among others. -/
theorem grantProcessor_mixed {b : Beat} (high : s.resetLow = false) (notAll : allGuarded s tx = false)
    (found : tx.beats.find? (fun b => decide (beatAction s tx b = .guard)) = some b) :
    (grantProcessor tx s).kept.portSide = (sendProcessor (forwarded s tx) (countRun s)).kept.portSide
      ∧ ((∀ x ∈ tx.beats, beatAction s tx x ≠ .tap) →
          (grantProcessor tx s).kept = (sendProcessor (forwarded s tx) (countRun s)).kept
          ∧ (s.pu.faultRec = none → (grantProcessor tx s).pu.faultRec = some
              { kind := .guardWrite, addr := 32 * tx.line.toNat + 4 * b.off.toNat, stamp := s.clock.stamp })
          ∧ (s.eventRoom → (grantProcessor tx s).eventsOut
              = [eventNow s (.fault .guardWrite) 0 (natWord (32 * tx.line.toNat + 4 * b.off.toNat)) 0])) := by
  have same : beatAction (sendProcessor (forwarded s tx) (countRun s)) tx = beatAction s tx := by
    rw [sendProcessor_countRun]
    rfl
  obtain ⟨record, event⟩ := guardFault_faults (s := sendProcessor (forwarded s tx) (countRun s)) (b := b)
    (by rwa [same])
  rw [grantProcessor_sends high notAll, portSide_takeTaps, kept_guardFault]
  refine ⟨rfl, fun noTap => ?_⟩
  have untapped : takeTaps (guardFault tx (sendProcessor (forwarded s tx) (countRun s))) tx
      = guardFault tx (sendProcessor (forwarded s tx) (countRun s)) :=
    takeTaps_none (by rwa [beatAction_of_kept kept_guardFault, same])
  rw [untapped, kept_guardFault]
  rw [sendProcessor_countRun] at record event ⊢
  exact ⟨rfl, record, event⟩

end

section
variable {s : State}

theorem arbiterGrant_ready (high : s.resetLow = false) : exec .arbiterGrant s = .next (finish (arbiterWork s)) := by
  change always arbiterWork s = _
  rw [always_eq, if_neg (by simp [high])]

theorem arbiterWork_part {q : Queue} (free : s.pu.port = .free) (choice : arbiterChoice s = .part q) :
    arbiterWork s = grantPart q s := by
  rw [arbiterWork, if_pos free, choice]

theorem arbiterWork_processor {tx : ProcTx} (free : s.pu.port = .free) (choice : arbiterChoice s = .processor tx) :
    arbiterWork s = grantProcessor tx s := by
  rw [arbiterWork, if_pos free, choice]

theorem arbiterWork_nothing (free : s.pu.port = .free) (choice : arbiterChoice s = .nothing) :
    arbiterWork s = s := by
  rw [arbiterWork, if_pos free, choice]

/-- R45: what the end of a step shows of the grant of a part transfer. -/
theorem finish_grantsPart {q : Queue} {x : Transfer} {rest : List Transfer} (free : s.pu.port = .free)
    (choice : arbiterChoice s = .part q) (items : (s.pu.queues.get q).items = x :: rest) :
    (finish (arbiterWork s)).kept = { s.kept with port := .part x, runCount := 0 }
      ∧ (finish (arbiterWork s)).pu.queues = s.pu.queues.put q { s.pu.queues.get q with items := rest } := by
  rw [kept_finish, (finish_queues _).1, arbiterWork_part free choice]
  exact grantPart_eq items

end

/-- Settles O30: the choice by R41 and R44, and the grant of what is chosen. -/
theorem arbiterGrantsInOrder : Obligations.ArbiterGrantsInOrder := by
  unfold Obligations.ArbiterGrantsInOrder
  intro s high
  refine ⟨_, arbiterGrant_ready high, fun taken => ?_, fun free => ?_⟩
  · have nothing : arbiterWork s = s := if_neg taken
    rw [nothing, kept_finish, (finish_queues s).1]
    exact ⟨rfl, rfl⟩
  dsimp only
  refine ⟨fun tx o x rest head items => ?_, fun tx head turn all => ?_, fun tx head turn all alone => ?_,
    fun tx b head turn notAll found => ?_, fun notPromoted notProcessor => ⟨fun x rest items => ?_,
      fun x rest render items => ?_, fun x rest render input items => ?_, fun alone => ?_⟩⟩
  · exact finish_grantsPart free (arbiterChoice_promoted head (by rw [items]; nofun)) items
  · rw [kept_finish, (finish_queues _).1, arbiterWork_processor free (arbiterChoice_turn head turn),
      grantProcessor_forwards high all, sendProcessor_countRun]
    exact ⟨rfl, rfl⟩
  · have behind : (answerGuarded tx (countRun s)).pu.proc.behind = [] := by
      rw [answerGuarded_proc, countRun_eq]
      exact alone
    rw [kept_finish, arbiterWork_processor free (arbiterChoice_turn head turn), grantProcessor_answers high all,
      nextHead, behind, reachHead, kept_mapProc, answerGuarded_proc, kept_answerGuarded, countRun_eq]
    rfl
  · obtain ⟨ports, untapped⟩ := grantProcessor_mixed high notAll found
    rw [sendProcessor_countRun] at ports untapped
    have kept : (finish (arbiterWork s)).kept = (grantProcessor tx s).kept := by
      rw [kept_finish, arbiterWork_processor free (arbiterChoice_turn head turn)]
    have shown := (congrArg Kept.portSide kept).trans ports
    refine ⟨congrArg (·.1) shown, congrArg (·.2.1) shown, congrArg (·.2.2) shown, fun noTap => ?_⟩
    obtain ⟨same, record, event⟩ := untapped noTap
    rw [kept, faultRec_finish, (quiet_finish _).eventsOut,
      arbiterWork_processor free (arbiterChoice_turn head turn)]
    exact ⟨same, record, event⟩
  · exact finish_grantsPart free
      ((arbiterChoice_ordinary notPromoted notProcessor).trans (partGrant_render (by rw [items]; nofun))) items
  · exact finish_grantsPart free
      ((arbiterChoice_ordinary notPromoted notProcessor).trans (partGrant_input render (by rw [items]; nofun))) items
  · exact finish_grantsPart free
      ((arbiterChoice_ordinary notPromoted notProcessor).trans
        (partGrant_control render input (by rw [items]; nofun))) items
  · rw [kept_finish, (finish_queues _).1, arbiterWork_nothing free
      ((arbiterChoice_ordinary notPromoted notProcessor).trans (partGrant_nothing alone))]
    exact ⟨rfl, rfl⟩

/-! ## The grant of one anchor word (R37) -/

section
variable {s : State} {line : BitVec 23} {b : Beat} {off : Fin 16}

/-- R35: a beat of an anchor word with the geometry open is tapped up to word 9 and forwarded from word 10 on. -/
theorem beatAction_anchor (enabled : b.be ≠ 0)
    (word : 32 * line.toNat + 4 * b.off.toNat = s.pu.regions.control + 4 * off.val)
    (geometry : off.val < 4 → s.cu.enabled = false) :
    beatAction s { write := true, line := line, beats := [b] } b = if off.val < 10 then .tap else .forward := by
  have action := beatAction_write (s := s) (tx := { write := true, line := line, beats := [b] }) rfl enabled
  rw [action]
  dsimp only
  rw [word, writeAction_inside (by omega) (by omega), Nat.add_sub_cancel_left, controlAction]
  by_cases geometryWord : off.val < 4
  · have tapped : off.val < 10 := by omega
    rw [if_pos (by omega), geometry geometryWord, if_pos tapped]
    rfl
  · rw [if_neg (by omega)]
    by_cases tapped : off.val < 10
    · rw [if_pos (by omega), if_pos tapped]
    · rw [if_neg (by omega), if_pos (by omega), if_neg tapped]

/-- R37: the word tapped by the beat of an anchor word. -/
theorem takeTaps_anchor (enabled : b.be ≠ 0)
    (word : 32 * line.toNat + 4 * b.off.toNat = s.pu.regions.control + 4 * off.val)
    (geometry : off.val < 4 → s.cu.enabled = false) :
    takeTaps s { write := true, line := line, beats := [b] } = anchorWord off b.data b.be s := by
  have action := beatAction_anchor enabled word geometry
  by_cases tapped : off.val < 10
  · have place : (beatAddr line b - s.pu.regions.control) / 4 = off.val := by
      rw [beatAddr, word]
      omega
    have taps : tappedBeats s { write := true, line := line, beats := [b] } = [(⟨off.val, tapped⟩, b)] := by
      have one : tappedWord s { write := true, line := line, beats := [b] } b = some ⟨off.val, tapped⟩ := by
        rw [tappedWord, action, if_pos (if_pos tapped)]
        dsimp only
        simp only [place, dif_pos tapped]
      simp [tappedBeats, one]
    rw [anchorWord_tapped (n := ⟨off.val, tapped⟩) rfl enabled geometry, tapWord_some enabled]
    unfold takeTaps
    rw [taps]
    rfl
  · rw [anchorWord_spare (by omega), takeTaps_none fun x mem => ?_]
    rw [List.mem_singleton.1 mem, action, if_neg tapped]
    nofun

end

/-- Settles O31: the beat is not guarded, so it is granted as it stands and its word, if tapped, handed over. -/
theorem grantedAnchorWriteActsAsItsRow : Obligations.GrantedAnchorWriteActsAsItsRow := by
  unfold Obligations.GrantedAnchorWriteActsAsItsRow
  intro s line b off high free head empty enabled word geometry
  have alone : s.partTransfers = [] := by
    rw [State.partTransfers]
    exact List.append_eq_nil_iff.2 ⟨List.append_eq_nil_iff.2 ⟨empty .render, empty .input⟩, empty .control⟩
  have noGuard : ∀ x ∈ [b], beatAction s { write := true, line := line, beats := [b] } x ≠ .guard := fun x mem => by
    rw [List.mem_singleton.1 mem, beatAction_anchor enabled word geometry]
    split <;> nofun
  have granted : arbiterWork s = anchorWord off b.data b.be
      (sendProcessor { write := true, line := line, beats := [b] } s) := by
    rw [arbiterWork_processor free (arbiterChoice_turn head (.inl alone)),
      grantProcessor_sends high (not_allGuarded noGuard), forwarded_same noGuard, countRun_alone alone,
      guardFault_of_none noGuard]
    exact takeTaps_anchor enabled word geometry
  have row : exec (.anchorWordWrite off b.data b.be) (sendProcessor { write := true, line := line, beats := [b] } s)
      = .next (finish (anchorWord off b.data b.be
          (sendProcessor { write := true, line := line, beats := [b] } s))) :=
    live_ready (anchorWord off b.data b.be) high
  rw [arbiterGrant_ready high, granted]
  exact row.symm

end Sys2Proof.Machine
end

