-- ==== Sys2Proof/Proofs/ControlAnswers.lean ====
section
/-! SUPPORT. Memory's answers OK to the transfers of the Command Unit, of the tuner's presets and of the station data
(R46, R48, R169, R170, R184, R195, R197, R199). -/

namespace Sys2Proof.Machine

/-! ## The end of a step and the Command Unit's writers -/

section
variable (s : State)

theorem finish_words : (finish s).cu.words = s.cu.words := by
  obtain ⟨_, _, cu⟩ := finish_cu s
  rw [cu]

theorem finish_producerFollows : (finish s).cu.producerFollows = s.cu.producerFollows := by
  obtain ⟨_, _, cu⟩ := finish_cu s
  rw [cu]

theorem finish_events : (finish s).cu.evWrite = s.cu.evWrite ∧ (finish s).cu.pendingEvents = s.cu.pendingEvents
    ∧ (finish s).cu.evDropped = s.cu.evDropped := by
  obtain ⟨_, _, cu⟩ := finish_cu s
  rw [cu]
  exact ⟨rfl, rfl, rfl⟩

end

/-! ## The index words (R195) -/

section
variable {s : State} {w : IndexWord}

/-- R195: with no write of it in flight, outside a quiesce, the write of an index word is placed. -/
theorem writeIndexWord_placed (idle : s.cu.words[w.place].inFlight = false) (running : s.cu.quiesce = false) :
    writeIndexWord w s = placeIndexWord w s := by
  rw [writeIndexWord, if_neg (Bool.eq_false_iff.1 idle), if_neg (Bool.eq_false_iff.1 running)]

theorem writeIndexWord_owed (idle : s.cu.words[w.place].inFlight = false) (quiesces : s.cu.quiesce = true) :
    writeIndexWord w s = setWriter w { inFlight := false, again := true } s := by
  rw [writeIndexWord, if_neg (Bool.eq_false_iff.1 idle), if_pos quiesces]

theorem idleWriter_idle : (idleWriter w s).cu.words[w.place].inFlight = false := by
  have idle : (idleWriter w s).cu.words[w.place] = { inFlight := false, again := false } :=
    Vector.getElem_set_self _
  rw [idle]

theorem words_placeIndexWord : (placeIndexWord w s).cu.words
    = s.cu.words.set w.place { inFlight := true, again := false } := rfl

/-- R195: the write of an index word joins the CONTROL queue with what the word carries now. -/
theorem control_placeIndexWord : (placeIndexWord w s).pu.queues.control.all = s.pu.queues.control.all
    ++ [writeOf (.indexWord w) (s.pu.regions.control + w.offset) [indexValue s w] none] :=
  control_placeTransfer (setWriter w { inFlight := true, again := false } s) _

theorem indexWordEnded_last (last : s.cu.words[w.place].again = false) : indexWordEnded w s = idleWriter w s :=
  if_neg (Bool.eq_false_iff.1 last)

/-- R195, R197: the write owed behind an index word is placed, in a quiesce only for the producer behind an event. -/
theorem indexWordEnded_placed (owed : s.cu.words[w.place].again = true)
    (goes : s.cu.quiesce = false ∨ (w = .eventProducer ∧ s.cu.producerFollows = true)) :
    indexWordEnded w s = placeIndexWord w (idleWriter w s) := by
  rw [indexWordEnded, if_pos owed]
  split
  · rfl
  · rename_i free
    refine writeIndexWord_placed idleWriter_idle ?_
    rcases goes with running | ⟨rfl, follows⟩
    · exact running
    · exact absurd (by simp [wordFollows, follows]) free

theorem indexWordEnded_owed (owed : s.cu.words[w.place].again = true) (quiesces : s.cu.quiesce = true)
    (free : ¬ (w = .eventProducer ∧ s.cu.producerFollows = true)) :
    indexWordEnded w s = setWriter w { inFlight := false, again := true } (idleWriter w s) := by
  have apart : ¬ wordFollows s w = true := by
    rw [wordFollows, Bool.and_eq_true, decide_eq_true_eq]
    exact fun h => free h.symm
  rw [indexWordEnded, if_pos owed, if_neg apart, writeIndexWord_owed idleWriter_idle quiesces]

theorem indexWordEnded_producerFollows :
    (indexWordEnded w s).cu.producerFollows = (s.cu.producerFollows && decide (w ≠ .eventProducer)) := by
  have written (u : State) : (writeIndexWord w u).cu.producerFollows = u.cu.producerFollows := by
    unfold writeIndexWord
    split_ifs <;> rfl
  unfold indexWordEnded
  split_ifs
  · rfl
  · exact written _
  · rfl

end

/-! ## Events (R197) -/

section
variable {s : State}

theorem pumpEvents_nothing (empty : s.cu.pendingEvents = []) : pumpEvents s = s := by
  have still : (s.mapCu fun cu => { cu with pendingEvents := [] }) = s := by rw [← empty]; rfl
  unfold pumpEvents
  split
  · rfl
  · rw [empty]; exact still

/-- R193: the write of an event of rings enabled anew since moves nothing. -/
theorem eventWritten_stale {e : EventWrite} (write : s.cu.evWrite = some e) (empty : s.cu.pendingEvents = [])
    (stale : e.stale = true) : eventWritten s = s.mapCu fun cu => { cu with evWrite := none } := by
  rw [eventWritten, write]
  dsimp only
  rw [if_pos stale]
  exact pumpEvents_nothing empty

/-- R197: the producer rises when an event is in memory. -/
def producerRaised (s : State) : State :=
  (s.mapCu fun cu => { cu with evWrite := none }).mapCu fun cu => { cu with evProd := cu.evProd + 1 }

theorem followEventWrite_pending (s : State) : (followEventWrite s).cu.pendingEvents = s.cu.pendingEvents := by
  unfold followEventWrite
  split <;> rfl

theorem eventWritten_current {e : EventWrite} (write : s.cu.evWrite = some e) (empty : s.cu.pendingEvents = [])
    (current : e.stale = false) : eventWritten s = followEventWrite (producerRaised s) := by
  rw [eventWritten, write]
  dsimp only
  rw [if_neg (Bool.eq_false_iff.1 current)]
  exact pumpEvents_nothing ((followEventWrite_pending (producerRaised s)).trans empty)

theorem followEventWrite_behind (flying : s.cu.words[(2 : Fin 6)].inFlight = true) : followEventWrite s
    = setWriter .eventProducer { inFlight := true, again := true }
        (s.mapCu fun cu => { cu with producerFollows := true }) := if_pos flying

theorem followEventWrite_placed (idle : s.cu.words[(2 : Fin 6)].inFlight = false) :
    followEventWrite s = placeIndexWord .eventProducer s := by
  refine if_neg fun flying => ?_
  cases idle.symm.trans flying

/-! ## Locks released (R42) -/

/-- R42: the lock table without the lock of a sequence. -/
def unlocked (o : Sequence) (s : State) : State :=
  s.mapPu fun pu => { pu with locks := pu.locks.filter fun l => decide (l.owner ≠ o) }

/-- R42: a lock that holds no transaction is released. -/
theorem releaseLock_free {o : Sequence} (free : ∀ tx, s.pu.proc.head ≠ some (tx, .held o)) :
    releaseLock o s = unlocked o s := by
  unfold releaseLock rejudgeHead
  split
  · rename_i tx h head
    refine if_neg fun same => ?_
    exact free tx (same ▸ head)
  · rfl

/-! ## Discarded fetches (R193) -/

/-- R193: the fetch begun before a disable has ended. -/
def fetchDropped (s : State) : State := s.mapCu fun cu => { cu with exec := .idle, fetchDiscard := false }

theorem discardFetch_eq (s : State) : discardFetch s = testFetch (fetchDropped s) := rfl

theorem testFetch_idle (none : s.cu.enabled = false ∨ s.cu.tail = s.cu.head) : testFetch s = s := by
  refine if_neg fun due => ?_
  rcases none with off | caught
  · simp [fetchDue, off] at due
  · simp [fetchDue, caught] at due

theorem quiet_discardFetch : Quiet s (discardFetch s) :=
  Quiet.trans (t := fetchDropped s) rfl (quiet_testFetch (s := fetchDropped s))

theorem head_testFetch (s : State) : (testFetch s).cu.head = s.cu.head := by
  unfold testFetch
  split <;> rfl

/-! ## The stored entry (R170, R211) -/

theorem storeTarget_eq {b : Busy} {e : Fin 64} {r : Range} (busy : s.cu.exec = .busy b) (work : b.work = .store e)
    (region : s.pu.regions.preset = some r) : storeTarget s = some (r.base, e) := by
  obtain ⟨tag, kind, index, counts, _⟩ := b
  cases work
  rw [storeTarget, busy, region]

/-- R211: the first word of an entry. -/
theorem storedWord_channel {code c : Nat} (small : code < 256) (fits : c < 65536) :
    word4 1 code c (c / 256) = natWord (1 + 256 * code + 65536 * c) := by
  rw [word4, natWord]
  congr 1
  omega

/-- R211: the second word of an entry. -/
def identityWord (identity : Option (BitVec 16)) : Word :=
  (identity.getD 0xFFFF).setWidth 32 ||| (if identity.isSome then 0x10000 else 0)

theorem storedWord_identity (i : BitVec 16) : identityWord (some i) = ((1 : BitVec 16) ++ i : Word) := by
  change i.setWidth 32 ||| 0x10000 = _
  rw [BitVec.append_def, BitVec.or_comm, BitVec.setWidth'_eq]
  rfl

end

/-! ## What each answer leaves, one lemma per requester -/

section
variable {s : State}

/-- R195: the write of an index word has ended. -/
theorem indexWordAnswered (w : IndexWord) (s : State) :
    let t := finish (indexWordEnded w (freePort s))
    t.kept = { s.kept with port := .free }
      ∧ t.cu.producerFollows = (s.cu.producerFollows && decide (w ≠ .eventProducer))
      ∧ (s.cu.words[w.place] = { inFlight := true, again := false } →
          t.pu.queues = s.pu.queues
          ∧ t.cu.words = s.cu.words.set w.place { inFlight := false, again := false })
      ∧ (s.cu.words[w.place] = { inFlight := true, again := true } →
          (s.cu.quiesce = false ∨ (w = .eventProducer ∧ s.cu.producerFollows = true) →
            t.cu.words = s.cu.words.set w.place { inFlight := true, again := false }
            ∧ t.pu.queues.control.all = s.pu.queues.control.all
                ++ [writeOf (.indexWord w) (s.pu.regions.control + w.offset) [indexValue s w] none])
          ∧ (s.cu.quiesce = true → ¬ (w = .eventProducer ∧ s.cu.producerFollows = true) →
              t.pu.queues = s.pu.queues
              ∧ t.cu.words = s.cu.words.set w.place { inFlight := false, again := true })) := by
  dsimp only
  rw [kept_finish, kept_indexWordEnded, finish_producerFollows, indexWordEnded_producerFollows, finish_words,
    (finish_queues _).1]
  refine ⟨rfl, rfl, fun last => ?_, fun owed => ⟨fun goes => ?_, fun quiesces free => ?_⟩⟩
  · rw [indexWordEnded_last (s := freePort s) (congrArg WordWriter.again last)]
    exact ⟨rfl, rfl⟩
  · rw [indexWordEnded_placed (s := freePort s) (congrArg WordWriter.again owed) goes, control_placeIndexWord,
      words_placeIndexWord]
    refine ⟨Vector.set_set _ _, ?_⟩
    have value : indexValue (idleWriter w (freePort s)) w = indexValue s w := by cases w <;> rfl
    rw [value]
    rfl
  · rw [indexWordEnded_owed (s := freePort s) (congrArg WordWriter.again owed) quiesces free]
    exact ⟨rfl, Vector.set_set _ _⟩

/-- R197: an event record is in memory, and no other waits. -/
theorem eventWriteAnswered {e : EventWrite} (write : s.cu.evWrite = some e) (empty : s.cu.pendingEvents = []) :
    let t := finish (eventWritten (freePort s))
    t.kept = { s.kept with port := .free } ∧ t.cu.evWrite = none ∧ t.cu.pendingEvents = []
      ∧ t.cu.evDropped = s.cu.evDropped
      ∧ (e.stale = true → t.cu.evProd = s.cu.evProd ∧ t.pu.queues = s.pu.queues)
      ∧ (e.stale = false → t.cu.evProd = s.cu.evProd + 1
          ∧ (s.cu.words[(2 : Fin 6)].inFlight = true → t.pu.queues = s.pu.queues
              ∧ t.cu.words = s.cu.words.set 2 { inFlight := true, again := true }
              ∧ t.cu.producerFollows = true)
          ∧ (s.cu.words[(2 : Fin 6)].inFlight = false →
              t.cu.words = s.cu.words.set 2 { inFlight := true, again := false }
              ∧ t.pu.queues.control.all = s.pu.queues.control.all
                  ++ [writeOf (.indexWord .eventProducer) (s.pu.regions.control + 0x48)
                        [(s.cu.evProd + 1).setWidth 32] none])) := by
  dsimp only
  obtain ⟨evWrite, pending, dropped⟩ := finish_events (eventWritten (freePort s))
  obtain ⟨-, -, prod⟩ := finish_exec (eventWritten (freePort s))
  rw [kept_finish, evWrite, pending, dropped, prod, (finish_queues _).1, finish_words, finish_producerFollows]
  cases stale : e.stale with
  | true =>
    rw [eventWritten_stale (s := freePort s) write empty stale]
    exact ⟨rfl, rfl, empty, rfl, fun _ => ⟨rfl, rfl⟩, nofun⟩
  | false =>
    rw [eventWritten_current (s := freePort s) write empty stale]
    cases flying : s.cu.words[(2 : Fin 6)].inFlight with
    | true =>
      rw [followEventWrite_behind (s := producerRaised (freePort s)) flying]
      exact ⟨rfl, rfl, empty, rfl, nofun, fun _ => ⟨rfl, fun _ => ⟨rfl, rfl, rfl⟩, nofun⟩⟩
    | false =>
      rw [followEventWrite_placed (s := producerRaised (freePort s)) flying]
      exact ⟨rfl, rfl, empty, rfl, nofun, fun _ => ⟨rfl, nofun, fun _ => ⟨rfl, control_placeIndexWord⟩⟩⟩

/-- R204: the words of a latched record by its kind. -/
theorem faultRecordWords_latched (r : FaultRecord) : faultRecordWords (some r)
    = [word4 1 (if r.kind = .partMemoryError ∨ r.kind = .ringGeometry then 1 else 0) r.kind.code 0,
        natWord r.addr, r.stamp, 0] := by
  obtain ⟨kind, addr, stamp⟩ := r
  cases kind <;> rfl

/-- R48: no write of the fault record is in flight, and none is owed. -/
def recordIdle (s : State) : State := s.mapCu fun cu => { cu with faultWriter := { inFlight := false, again := false } }

/-- R48: the write of the fault record has ended. -/
theorem faultRecordAnswered (s : State) :
    let t := finish (faultRecordEnded (freePort s))
    t.kept = { s.kept with port := .free } ∧ t.pu.faultRec = s.pu.faultRec
      ∧ (s.cu.faultWriter.again = false → t.pu.queues = s.pu.queues
          ∧ t.cu.faultWriter = { inFlight := false, again := false })
      ∧ (s.cu.faultWriter.again = true → s.cu.quiesce = true → t.pu.queues = s.pu.queues
          ∧ t.cu.faultWriter = { inFlight := false, again := true })
      ∧ (s.cu.faultWriter.again = true → s.cu.quiesce = false →
          t.cu.faultWriter = { inFlight := true, again := false }
          ∧ t.pu.queues.control.all = s.pu.queues.control.all
              ++ [writeOf .faultRecord (s.pu.regions.control + 0x80) (faultRecordWords s.pu.faultRec) none]) := by
  dsimp only
  rw [kept_finish, kept_faultRecordEnded, faultRec_finish, (finish_queues _).1, finish_faultWriter]
  cases owed : s.cu.faultWriter.again with
  | false =>
    have ended : faultRecordEnded (freePort s) = recordIdle (freePort s) := if_neg (Bool.eq_false_iff.1 owed)
    rw [ended]
    exact ⟨rfl, rfl, fun _ => ⟨rfl, rfl⟩, nofun, nofun⟩
  | true =>
    have ended : faultRecordEnded (freePort s) = writeFaultRecord (recordIdle (freePort s)) := if_pos owed
    rw [ended, faultRec_writeFaultRecord]
    cases quiesces : s.cu.quiesce with
    | true =>
      rw [writeFaultRecord_owed (s := recordIdle (freePort s)) (.inr quiesces)]
      exact ⟨rfl, rfl, nofun, fun _ _ => ⟨rfl, rfl⟩, nofun⟩
    | false =>
      rw [writeFaultRecord_placed (s := recordIdle (freePort s)) rfl quiesces]
      exact ⟨rfl, rfl, nofun, nofun, fun _ _ => ⟨rfl, control_placeTransfer _ _⟩⟩

theorem image_statusWriteEnded (s : State) : (statusWriteEnded s).cu.image = s.cu.image := by
  unfold statusWriteEnded
  split <;> rfl

/-- R199: the status block is in memory. -/
theorem statusAnswered (high : s.resetLow = false) (free : ∀ tx, s.pu.proc.head ≠ some (tx, .held .statusWrite)) :
    let t := finish (statusLineWritten true (freePort s))
    t.kept = { s.kept with
        port := .free, locks := s.pu.locks.filter fun l => decide (l.owner ≠ .statusWrite) }
      ∧ (s.imageCurrent → (s.cu.status.again = false ∨ s.cu.quiesce = true) → t.cu.status.writing = false)
      ∧ (s.imageCurrent → s.cu.status.again = true → s.cu.quiesce = false →
          t.cu.status = { writing := true, again := false, copy := s.cu.image }
          ∧ t.pu.requests = s.pu.requests
              ++ [{ owner := .statusWrite, startLine := (s.pu.regions.control + 0xC0) / 32, lines := 2 }]) := by
  have released := releaseLock_free (s := freePort s) free
  have ends : statusLineWritten true (freePort s) = statusWriteEnded (releaseLock .statusWrite (freePort s)) := rfl
  have kept : (statusWriteEnded (unlocked .statusWrite (freePort s))).kept
      = (unlocked .statusWrite (freePort s)).kept := kept_statusWriteEnded _
  have shown (current : s.imageCurrent) : finish (statusWriteEnded (unlocked .statusWrite (freePort s)))
      = drivePins (statusWriteEnded (unlocked .statusWrite (freePort s))) :=
    finish_shown high current (image_statusWriteEnded _) (by rw [kept]; rfl)
  rw [ends, released]
  refine ⟨by rw [kept_finish, kept]; rfl, fun current done => ?_, fun current owed running => ?_⟩
  · have last : statusWriteEnded (unlocked .statusWrite (freePort s)) = (unlocked .statusWrite (freePort s)).mapCu
        fun cu => { cu with status := { cu.status with writing := false } } := by
      refine if_neg fun more => ?_
      rcases done with none | quiesces
      · exact Bool.eq_false_iff.1 none more.1
      · exact more.2 quiesces
    rw [shown current, last]
    rfl
  · have again : statusWriteEnded (unlocked .statusWrite (freePort s))
        = beginStatusWrite (unlocked .statusWrite (freePort s)) := if_pos ⟨owed, Bool.eq_false_iff.1 running⟩
    rw [shown current, again]
    exact ⟨rfl, rfl⟩

/-- R184: the end of a text write, and its event. -/
def textReported (y : StationText) (s : State) : State :=
  raiseEvent (.station .text) 0 (natWord y.chars.length) (flagWord y.version)
    (s.mapSd fun sd => { sd with writer := none, lastWritten := some y })

/-- R184: the test for a text write behind the one of `y` that has ended. -/
theorem testText_behind {r : State} {y : StationText} (idle : r.sd.writer = none)
    (last : r.sd.lastWritten = some y) :
    let again := decide (r.sd.wanted ≠ y) && !r.cu.quiesce
    (testText r).kept = { r.kept with sd := { r.sd with
        writer := if again then some r.sd.wanted else none } }
      ∧ (testText r).pu.requests = r.pu.requests ++ (if again then [textLock r.pu.regions.control] else [])
      ∧ (testText r).cu = r.cu := by
  dsimp only
  by_cases due : r.sd.wanted ≠ y ∧ r.cu.quiesce = false
  · obtain ⟨other, running⟩ := due
    have begins : testText r = requestLock (textLock r.pu.regions.control)
        (r.mapSd fun sd => { sd with writer := some sd.wanted }) :=
      if_pos ⟨by rw [idle]; rfl, by rw [last]; exact fun same => other (Option.some.inj same).symm,
        Bool.eq_false_iff.1 running⟩
    have again : (decide (r.sd.wanted ≠ y) && !r.cu.quiesce) = true := by simp [other, running]
    rw [begins, again]
    exact ⟨rfl, rfl, rfl⟩
  · have stays : testText r = r := by
      refine if_neg fun h => due ⟨fun same => h.2.1 (by rw [last, same]), Bool.eq_false_iff.2 h.2.2⟩
    have again : (decide (r.sd.wanted ≠ y) && !r.cu.quiesce) = false := by
      rw [Bool.eq_false_iff, Ne, Bool.and_eq_true, decide_eq_true_eq, Bool.not_eq_true']
      exact due
    have same : { r.sd with writer := none } = r.sd := by rw [← idle]
    rw [stays, again]
    exact ⟨by rw [if_neg (by decide), same]; rfl, (List.append_nil _).symm, rfl⟩

/-- R184: the text is in memory. -/
theorem textAnswered {y : StationText} (high : s.resetLow = false) (writer : s.sd.writer = some y)
    (free : ∀ tx, s.pu.proc.head ≠ some (tx, .held .textWrite)) (current : s.imageCurrent) :
    let t := finish (textLineWritten true (freePort s))
    let again := decide (s.sd.wanted ≠ y) && !s.cu.quiesce
    t.kept = { s.kept with
        port := .free, locks := s.pu.locks.filter fun l => decide (l.owner ≠ .textWrite),
        sd := { s.sd with writer := if again then some s.sd.wanted else none, lastWritten := some y } }
      ∧ t.pu.requests = s.pu.requests ++ (if again then
          [{ owner := .textWrite, startLine := (s.pu.regions.control + 0x200) / 32, lines := 3 }] else [])
      ∧ (s.eventRoom →
          t.eventsOut = [eventNow s (.station .text) 0 (natWord y.chars.length) (flagWord y.version)]) := by
  dsimp only
  have ends : textLineWritten true (freePort s) = testText (textReported y (unlocked .textWrite (freePort s))) := by
    have released := releaseLock_free (s := freePort s) free
    have writer' : (unlocked .textWrite (freePort s)).sd.writer = some y := writer
    change textEnded (releaseLock .textWrite (freePort s)) = _
    rw [released, textEnded, writer']
    rfl
  have kept : (textReported y (unlocked .textWrite (freePort s))).kept = { s.kept with
      port := .free, locks := s.pu.locks.filter fun l => decide (l.owner ≠ .textWrite),
      sd := { s.sd with writer := none, lastWritten := some y } } := kept_raiseEvent _ _ _ _ _
  have requests : (textReported y (unlocked .textWrite (freePort s))).pu.requests = s.pu.requests :=
    requests_raiseEvent _ _ _ _ _
  have image : (textReported y (unlocked .textWrite (freePort s))).cu.image = s.cu.image := by
    obtain ⟨_, _, _, _, cu⟩ := raiseEvent_cu (.station .text) 0 (natWord y.chars.length) (flagWord y.version)
      ((unlocked .textWrite (freePort s)).mapSd fun sd => { sd with writer := none, lastWritten := some y })
    rw [textReported, cu]
    rfl
  have out : s.eventRoom → (finish (textReported y (unlocked .textWrite (freePort s)))).eventsOut
      = [eventNow s (.station .text) 0 (natWord y.chars.length) (flagWord y.version)] :=
    finish_raiseEvent_eventsOut (s := s) _ _ _ _ rfl rfl
  rw [ends]
  revert kept requests image out
  generalize textReported y (unlocked .textWrite (freePort s)) = r
  intro kept requests image out
  have sd : r.sd = { s.sd with writer := none, lastWritten := some y } := congrArg Kept.sd kept
  have quiesce : r.cu.quiesce = s.cu.quiesce := congrArg Kept.quiesce kept
  have regions : r.pu.regions = s.pu.regions := congrArg Kept.regions kept
  obtain ⟨tested, asked, cu⟩ := testText_behind (r := r) (y := y) (by rw [sd]) (by rw [sd])
  have shown : finish (testText r) = drivePins (testText r) :=
    finish_shown high current (by rw [cu, image]) (by rw [tested, kept, sd]; rfl)
  rw [kept_finish, tested, (quiet_finish _).eventsOut, (quiet_testText (s := r)).eventsOut, shown]
  refine ⟨by rw [kept, sd, quiesce], ?_, fun room => ?_⟩
  · change (testText r).pu.requests = _
    rw [asked, requests, sd, quiesce, regions]
    rfl
  · rw [← out room, (quiet_finish r).eventsOut]

/-- R193: a fetch begun before a disable has ended. -/
theorem discardedAnswered (s : State) :
    let t := finish (discardFetch (freePort s))
    t.kept = { s.kept with port := .free } ∧ t.cu.head = s.cu.head ∧ t.eventsOut = s.eventsOut
      ∧ ((s.cu.enabled = false ∨ s.cu.tail = s.cu.head) → t.cu.exec = .idle)
      ∧ (s.cu.enabled = true → s.cu.quiesce = false → s.cu.tail ≠ s.cu.head → t.cu.exec = .fetching) := by
  dsimp only
  obtain ⟨exec, head, -⟩ := finish_exec (discardFetch (freePort s))
  rw [kept_finish, kept_discardFetch, head, exec, (quiet_finish _).eventsOut, quiet_discardFetch.eventsOut,
    discardFetch_eq, head_testFetch]
  refine ⟨rfl, rfl, rfl, fun none => ?_, fun enabled running more => ?_⟩
  · rw [testFetch_idle (s := fetchDropped (freePort s)) none]
    rfl
  · rw [testFetch_due (s := fetchDropped (freePort s)) enabled rfl running more]
    rfl

/-- R170, R211: the line of a store has been read, and is written with the entry's first words replaced. -/
theorem storeReadAnswered {b : Busy} {e : Fin 64} {r : Range} {bd : Band} {c : Nat} (line : List Word)
    (busy : s.cu.exec = .busy b) (work : b.work = .store e) (region : s.pu.regions.preset = some r)
    (band : s.tc.band = some bd) (channel : s.tc.channel = some c) (fits : c < 65536) :
    let t := finish (storeLineRead line (freePort s))
    t.kept = { s.kept with port := .free } ∧ t.cu.exec = s.cu.exec ∧ t.eventsOut = s.eventsOut
      ∧ ∃ w1 : Word,
        (let fresh := [natWord (1 + 256 * bd.code + 65536 * c), w1]
         let stored := if e.val % 2 = 0 then fresh ++ line.drop 2 else line.take 4 ++ fresh ++ line.drop 6
         t.pu.queues.control.all = s.pu.queues.control.all
           ++ [writeOf .storeWrite (r.base + 32 * (e.val / 2)) stored (some .presetStore)]
         ∧ (∀ i, s.sd.identity = some i → w1 = (1 : BitVec 16) ++ i)
         ∧ (s.sd.identity = none → w1.extractLsb' 16 16 = 0)) := by
  dsimp only
  have target : storeTarget (freePort s) = some (r.base, e) := storeTarget_eq (s := freePort s) busy work region
  have written : storeLineRead line (freePort s) = placeTransfer .control
      (writeOf .storeWrite (presetLineAddress r.base e) (storedLine (freePort s) e line) (some .presetStore))
      (freePort s) := by
    rw [storeLineRead, target]
  have small : bd.code < 256 := by cases bd <;> decide
  have words : storedWords (freePort s) = [natWord (1 + 256 * bd.code + 65536 * c),
      identityWord s.sd.identity] := by
    have tc : (freePort s).tc = s.tc := rfl
    rw [storedWords, tc, band, channel, ← storedWord_channel small fits]
    rfl
  obtain ⟨exec, -, -⟩ := finish_exec (storeLineRead line (freePort s))
  rw [kept_finish, exec, (finish_queues _).1, (quiet_finish _).eventsOut, written, control_placeTransfer]
  refine ⟨rfl, rfl, rfl, identityWord s.sd.identity, ?_, fun i known => ?_, fun unknown => ?_⟩
  · rw [storedLine, words]
    rfl
  · rw [known]
    exact storedWord_identity i
  · rw [unknown]
    rfl

/-- R170: the line of a store is in memory. -/
theorem storeWriteAnswered {b : Busy} (busy : s.cu.exec = .busy b)
    (free : ∀ tx, s.pu.proc.head ≠ some (tx, .held .presetStore)) :
    let t := finish (complete .done (releaseLock .presetStore (freePort s)))
    t.kept = { s.kept with port := .free, locks := s.pu.locks.filter fun l => decide (l.owner ≠ .presetStore) }
      ∧ t.cu.head = (if b.counts then s.cu.head + 1 else s.cu.head)
      ∧ (t.cu.exec = .idle ∨ t.cu.exec = .fetching)
      ∧ (s.eventRoom → t.eventsOut = [busyCompletion s b .done]) := by
  dsimp only
  rw [releaseLock_free (s := freePort s) free]
  have quiet : Quiet s (unlocked .presetStore (freePort s)) := rfl
  obtain ⟨head, exec⟩ := finish_complete .done (s := unlocked .presetStore (freePort s)) busy
  rw [head, kept_finish, kept_complete]
  exact ⟨rfl, rfl, exec, fun room => recall_refused (s := unlocked .presetStore (freePort s)) busy
    (quiet.eventRoom room)⟩

end

/-! ## The step -/

section
variable {s : State}

theorem partAnswer_ready (ok : Bool) (data : List Word) (high : s.resetLow = false) :
    exec (.partTransferAnswer ok data) s = .next (finish (partAnswered ok data s)) := by
  change always (partAnswered ok data) s = _
  rw [always_eq, if_neg (by simp [high])]

theorem partAnswered_orphan {x : Transfer} (ok : Bool) (data : List Word) (port : s.pu.port = .orphan x) :
    partAnswered ok data s = freePort s := by
  rw [partAnswered, port]

theorem partAnswered_other (ok : Bool) (data : List Word) (other : ∀ x, s.pu.port ≠ .part x ∧ s.pu.port ≠ .orphan x) :
    partAnswered ok data s = s := by
  unfold partAnswered
  split
  · rename_i x port; exact absurd port (other x).1
  · rename_i x port; exact absurd port (other x).2
  · rfl

theorem partAnswered_ok {x : Transfer} (data : List Word) (port : s.pu.port = .part x) :
    partAnswered true data s = transferDone x (beatsOf x.beats data) (freePort s) := by
  rw [partAnswered, port]
  rfl

theorem partAnswered_error {x : Transfer} (data : List Word) (port : s.pu.port = .part x) :
    partAnswered false data s = transferError x (freePort s) := by
  rw [partAnswered, port]
  rfl

/-- What the end of a step shows of a port given free. -/
theorem finish_freePort (s : State) : (finish (freePort s)).kept = { s.kept with port := .free }
    ∧ (finish (freePort s)).pu.queues = s.pu.queues ∧ (finish (freePort s)).eventsOut = s.eventsOut :=
  ⟨kept_finish _, (finish_queues _).1, (quiet_finish _).eventsOut⟩

end

/-- Settles O33: the answer by what is on the port, then by the requester of the transfer. -/
theorem partAnswerOkServesControl : Obligations.PartAnswerOkServesControl := by
  unfold Obligations.PartAnswerOkServesControl
  intro s data high
  refine ⟨_, partAnswer_ready true data high, fun x port => ?_, fun other => ?_, fun x port => ?_⟩
  · obtain ⟨kept, queues, out⟩ := finish_freePort s
    rw [partAnswered_orphan true data port]
    exact ⟨kept, queues, (finish_exec _).1, out⟩
  · rw [partAnswered_other true data other, kept_finish, (finish_queues s).1]
    exact ⟨rfl, rfl⟩
  rw [partAnswered_ok data port]
  dsimp only
  have done {r : Requester} (requester : x.requester = r) : transferDone x (beatsOf x.beats data) (freePort s)
      = transferDone { x with requester := r } (beatsOf x.beats data) (freePort s) := by rw [← requester]
  refine ⟨fun w requester => ?_, fun e requester write empty => ?_, fun requester => ?_, fun requester => ?_,
    fun requester free => ?_, fun y requester writer free current => ?_, fun requester discards => ?_,
    fun b e r bd c requester busy work region band channel fits => ?_, fun b requester busy free => ?_⟩
  · rw [done requester]
    exact indexWordAnswered w s
  · rw [done requester]
    exact eventWriteAnswered write empty
  · rw [done requester]
    obtain ⟨kept, record, last, owed, placed⟩ := faultRecordAnswered s
    refine ⟨kept, record, last, owed, fun again running => ?_⟩
    obtain ⟨writer, control⟩ := placed again running
    refine ⟨writer, control.trans ?_⟩
    cases s.pu.faultRec with
    | none => rfl
    | some r => rw [faultRecordWords_latched]
  · have still : transferDone x (beatsOf x.beats data) (freePort s) = freePort s := by
      rcases requester with ⟨n, requester⟩ | requester | requester <;> rw [done requester] <;> rfl
    rw [still]
    exact finish_freePort s
  · rw [done requester]
    exact statusAnswered high free
  · rw [done requester]
    exact textAnswered high writer free current
  · have discarded : transferDone { x with requester := .commandFetch } (beatsOf x.beats data) (freePort s)
        = discardFetch (freePort s) := if_pos discards
    rw [done requester, discarded]
    exact discardedAnswered s
  · rw [done requester]
    exact storeReadAnswered _ busy work region band channel fits
  · rw [done requester]
    exact storeWriteAnswered busy free

end Sys2Proof.Machine
end

