-- ==== Sys2Proof/Proofs/AudioAnswers.lean ====
section
/-! SUPPORT. Memory's answers OK to the transfers of the Ring Engine and of the Delay Unit (R46, R59, R60, R64, R69,
R110, R113, R115). -/

namespace Sys2Proof.Machine

/-! ## Transfers placed in order -/

section
variable (s : State)

theorem queue_placeTransfer (q : Queue) (x : Transfer) :
    ((placeTransfer q x s).pu.queues.get q).all = (s.pu.queues.get q).all ++ [x] := by
  have put : (placeTransfer q x s).pu.queues.get q = (s.pu.queues.get q).place (queueCapacity q) x :=
    get_put_same _ _ _
  rw [put, place_all]

/-- R43: transfers placed in order join their queue in order. -/
theorem queue_placeAll (q : Queue) (ts : List Transfer) :
    ((placeAll q ts s).pu.queues.get q).all = (s.pu.queues.get q).all ++ ts := by
  induction ts generalizing s with
  | nil => exact (List.append_nil _).symm
  | cons x ts ih =>
    have rest := ih (placeTransfer q x s)
    rw [queue_placeTransfer, List.append_assoc] at rest
    exact rest

end

/-! ## Samples (R59, R64, R110) -/

theorem map_sampleOf_getD (ws : List Word) (k : Nat) : (ws.map sampleOf).getD k 0 = sampleOf (ws.getD k 0) :=
  List.getD_map ws 0 sampleOf

/-- R64: the frames of a fetched slot are as many as asked for. -/
theorem framesOfWords_length (n m : Nat) (ws : List Word) : (framesOfWords n m ws).length = m := by
  induction m generalizing ws with
  | zero => rfl
  | succ m ih => exact congrArg (· + 1) (ih (ws.drop n))

/-- R64: channel c of frame k is word nk + c of the slot. -/
theorem framesOfWords_getD {n m k c : Nat} (ws : List Word) (frame : k < m) (channel : c < n) :
    ((framesOfWords n m ws).getD k []).getD c 0 = sampleOf (ws.getD (n * k + c) 0) := by
  induction m generalizing k ws with
  | zero => omega
  | succ m ih =>
    rw [framesOfWords]
    cases k with
    | zero =>
      rw [List.getD_cons_zero, map_sampleOf_getD]
      simp [List.getD_eq_getElem?_getD, channel]
    | succ k =>
      rw [List.getD_cons_succ, ih (ws.drop n) (by omega)]
      congr 1
      simp only [List.getD_eq_getElem?_getD, List.getElem?_drop]
      congr 2
      ring

/-- R115: the frames of a prepared block after a read of it. -/
theorem putFrames_getD {start : Nat} {xs frames : Chan} (fits : start + xs.length ≤ frames.length) (k : Nat) :
    (putFrames start xs frames).getD k 0
      = if start ≤ k ∧ k < start + xs.length then xs.getD (k - start) 0 else frames.getD k 0 := by
  have front : (frames.take start).length = start := by rw [List.length_take]; omega
  simp only [putFrames, List.getD_eq_getElem?_getD, List.append_assoc]
  by_cases before : k < start
  · rw [if_neg (by omega), List.getElem?_append_left (by omega), List.getElem?_take_of_lt before]
  · rw [List.getElem?_append_right (by omega), front]
    by_cases within : k < start + xs.length
    · rw [if_pos ⟨by omega, within⟩, List.getElem?_append_left (by omega)]
    · rw [if_neg (by omega), List.getElem?_append_right (by omega), List.getElem?_drop]
      congr 2
      omega

/-! ## Fetches (R64, R69) -/

section
variable {s : State} {j : FetchJob} {b : FetchBuffer}

theorem goodChannelCount_iff {n : Nat} : goodChannelCount n = true ↔ n = 2 ∨ n = 6 ∨ n = 8 := by
  simp [goodChannelCount, or_assoc]

theorem byteOf_one_bit (w : Word) {k : Nat} (lt : k < 8) : (byteOf w 1).getLsbD k = w.getLsbD (8 + k) := by
  simp [byteOf, lt]

theorem endFetch_kept (d : Bool) (goes : d = false) : endFetch d b s = s.mapRe fun re => { re with fetch := b } :=
  if_neg (Bool.eq_false_iff.1 goes)

theorem endFetch_cut (d : Bool) (cut : d = true) (empty : s.cu.outProd = s.re.outCons) :
    endFetch d b s = s.mapRe fun re => { re with fetch := .free } := by
  rw [endFetch, if_pos cut]
  exact testSlotFetch_empty _ empty

theorem kept_mapRe (f : RingEngine → RingEngine) (s : State) : (s.mapRe f).kept = { s.kept with re := f s.re } := rfl

theorem quiet_endFetch (d : Bool) : Quiet s (endFetch d b s) := by
  unfold endFetch
  split
  · exact quiet_testSlotFetch (s := s.mapRe fun re => { re with fetch := .free })
  · rfl

theorem faultRec_testSlotFetch (s : State) : (testSlotFetch s).pu.faultRec = s.pu.faultRec := by
  unfold testSlotFetch
  split
  · split <;> rfl
  · rfl

theorem faultRec_endFetch (d : Bool) : (endFetch d b s).pu.faultRec = s.pu.faultRec := by
  unfold endFetch
  split
  · exact faultRec_testSlotFetch _
  · rfl

/-! ## What each answer leaves, one lemma per requester -/

/-- R60: the header of a stored slot is in memory. -/
theorem inputHeaderAnswered (free : ∀ tx, s.pu.proc.head ≠ some (tx, .held .inputStore)) :
    let t := finish (releaseLock .inputStore (freePort s))
    t.kept = { s.kept with port := .free, locks := s.pu.locks.filter fun l => decide (l.owner ≠ .inputStore) }
      ∧ t.pu.queues = s.pu.queues ∧ t.eventsOut = s.eventsOut := by
  dsimp only
  rw [releaseLock_free (s := freePort s) free]
  exact ⟨kept_finish _, (finish_queues _).1, (quiet_finish _).eventsOut⟩

/-- R60: the producer of the input ring is in memory. -/
theorem inputProducerAnswered (s : State) :
    let t := finish (storeEnded (freePort s))
    t.kept = { s.kept with port := .free, re := { s.re with inProd := s.re.inProd + 1, store := none } }
      ∧ t.pu.queues = s.pu.queues ∧ t.eventsOut = s.eventsOut :=
  ⟨kept_finish _, (finish_queues _).1, (quiet_finish _).eventsOut⟩

/-- R115: a read that ended, of the prepared block it belongs to or of one given up since. -/
theorem kept_delayReadEnded {i : Fin 8} {p : Prepared} (g start : Nat) (ws : Option (List Word))
    (prepared : s.du.speakers[i].prepared = some p) : (delayReadEnded i g start ws s).kept = { s.kept with
      du := { s.du with speakers := s.du.speakers.set i { s.du.speakers[i] with
        prepared := some (if p.generation = g then p.readEnded start ws else p) } } } := by
  have ended : (s.du.speakers[i].prepared.map fun p => if p.generation = g then p.readEnded start ws else p)
      = some (if p.generation = g then p.readEnded start ws else p) := by rw [prepared]; rfl
  rw [← ended]
  rfl

theorem delayReadAnswered {i : Fin 8} {p : Prepared} (g start : Nat) (ws : Option (List Word))
    (prepared : s.du.speakers[i].prepared = some p) :
    (finish (delayReadEnded i g start ws (freePort s))).kept = { s.kept with
      port := .free,
      du := { s.du with speakers := s.du.speakers.set i { s.du.speakers[i] with
        prepared := some (if p.generation = g then p.readEnded start ws else p) } } } :=
  (kept_finish _).trans (kept_delayReadEnded (s := freePort s) g start ws prepared)

theorem delayRead_stale {i : Fin 8} {p : Prepared} {g : Nat} (start : Nat) (ws : Option (List Word))
    (prepared : s.du.speakers[i].prepared = some p) (stale : p.generation ≠ g) :
    (finish (delayReadEnded i g start ws (freePort s))).kept = { s.kept with port := .free } := by
  have same : { s.du.speakers[i] with prepared := some p } = s.du.speakers[i] := by rw [← prepared]
  have self : s.du.speakers.set i s.du.speakers[i] = s.du.speakers := Vector.set_getElem_self _
  rw [delayReadAnswered g start ws prepared, if_neg stale, same, self]
  rfl

/-- R64: the header of a good slot is read. -/
theorem goodHeaderAnswered (given : List Word) (fetching : s.re.fetch = .fetching j)
    (good : (byteOf (given.getD 0 0) 0).toNat = 2 ∨ (byteOf (given.getD 0 0) 0).toNat = 6
      ∨ (byteOf (given.getD 0 0) 0).toNat = 8) :
    let t := finish (fetchHeaderRead given (freePort s))
    let header := given.getD 0 0
    let n := (byteOf header 0).toNat
    t.kept = { s.kept with
        port := .free,
        re := { s.re with fetch := .fetching { j with
          channels := n, disc := header.getLsbD 8, last := header.getLsbD 9, words := [], left := 4 * n } } }
      ∧ t.pu.queues.render.all = s.pu.queues.render.all
          ++ (List.range (4 * n)).map fun k =>
              readOf .fetchSamples (j.slotAddr + 64 + 32 * k) 8 (some .outputFetch) := by
  dsimp only
  have reads : fetchHeaderRead given (freePort s) = placeSampleReads j (given.getD 0 0) (freePort s) := by
    have fetching' : (freePort s).re.fetch = .fetching j := fetching
    rw [fetchHeaderRead, fetching']
    exact if_pos (goodChannelCount_iff.2 good)
  rw [reads, kept_finish, (finish_queues _).1, placeSampleReads, kept_placeAll, byteOf_one_bit _ (by decide),
    byteOf_one_bit _ (by decide)]
  exact ⟨rfl, queue_placeAll _ .render _⟩

/-- R64, R69: the header of a bad slot is read. -/
theorem badHeaderAnswered (given : List Word) (fetching : s.re.fetch = .fetching j)
    (bad : ¬ ((byteOf (given.getD 0 0) 0).toNat = 2 ∨ (byteOf (given.getD 0 0) 0).toNat = 6
      ∨ (byteOf (given.getD 0 0) 0).toNat = 8))
    (free : ∀ tx, s.pu.proc.head ≠ some (tx, .held .outputFetch)) :
    let t := finish (fetchHeaderRead given (freePort s))
    let without := s.pu.locks.filter fun l => decide (l.owner ≠ .outputFetch)
    (j.discard = false →
        t.kept = { s.kept with port := .free, locks := without, re := { s.re with fetch := .bad } })
      ∧ (j.discard = true → s.cu.outProd = s.re.outCons →
          t.kept = { s.kept with port := .free, locks := without, re := { s.re with fetch := .free } })
      ∧ (s.pu.faultRec = none →
          t.pu.faultRec = some { kind := .badOutputSlot, addr := j.slotAddr, stamp := s.clock.stamp })
      ∧ (s.eventRoom → t.eventsOut = [eventNow s (.fault .badOutputSlot) 0 (natWord j.slotAddr) 0]) := by
  dsimp only
  have reads : fetchHeaderRead given (freePort s) = endFetch j.discard .bad
      (raiseFault .badOutputSlot j.slotAddr (unlocked .outputFetch (freePort s))) := by
    have fetching' : (freePort s).re.fetch = .fetching j := fetching
    rw [fetchHeaderRead, fetching', ← releaseLock_free (s := freePort s) free]
    exact if_neg (goodChannelCount_iff.not.2 bad)
  have kept := kept_raiseFault (unlocked .outputFetch (freePort s)) .badOutputSlot j.slotAddr
  have faults := raiseFault_warning (s := unlocked .outputFetch (freePort s)) (k := .badOutputSlot) j.slotAddr rfl
  rw [reads]
  revert kept faults
  generalize raiseFault .badOutputSlot j.slotAddr (unlocked .outputFetch (freePort s)) = u
  rintro kept ⟨record, event⟩
  have re : u.re = s.re := congrArg Kept.re kept
  have outProd : u.cu.outProd = s.cu.outProd := congrArg Kept.outProd kept
  rw [kept_finish, faultRec_finish, (quiet_finish _).eventsOut, faultRec_endFetch, (quiet_endFetch _).eventsOut]
  refine ⟨fun goes => ?_, fun cut empty => ?_, record, event⟩
  · rw [endFetch_kept _ goes, kept_mapRe, kept, re]
    rfl
  · rw [endFetch_cut _ cut (by rw [re, outProd, empty]), kept_mapRe, kept, re]
    rfl

/-- R64: sample reads that are not the last. -/
theorem samplesAnswered (given : List Word) (fetching : s.re.fetch = .fetching j) (more : 1 < j.left) :
    (finish (fetchSamplesRead given (freePort s))).kept = { s.kept with
      port := .free,
      re := { s.re with fetch := .fetching { j with words := j.words ++ given, left := j.left - 1 } } } := by
  have fetching' : (freePort s).re.fetch = .fetching j := fetching
  have left : j.left - 1 ≠ 0 := by omega
  rw [kept_finish, fetchSamplesRead, fetching']
  dsimp only
  rw [if_neg left]
  rfl

/-- R64, R69: the last of the sample reads. -/
theorem lastSamplesAnswered (given : List Word) (fetching : s.re.fetch = .fetching j) (last : j.left = 1)
    (free : ∀ tx, s.pu.proc.head ≠ some (tx, .held .outputFetch)) :
    let t := finish (fetchSamplesRead given (freePort s))
    let without := s.pu.locks.filter fun l => decide (l.owner ≠ .outputFetch)
    (j.discard = false → t.kept = { s.kept with
        port := .free, locks := without,
        re := { s.re with fetch := .complete (fetchedBlock { j with words := j.words ++ given }) } })
      ∧ (j.discard = true → s.cu.outProd = s.re.outCons →
          t.kept = { s.kept with port := .free, locks := without, re := { s.re with fetch := .free } }) := by
  dsimp only
  have reads : fetchSamplesRead given (freePort s) = endFetch j.discard
      (.complete (fetchedBlock { j with words := j.words ++ given }))
      (unlocked .outputFetch ((freePort s).mapRe fun re =>
        { re with fetch := .fetching { j with words := j.words ++ given, left := j.left - 1 } })) := by
    have fetching' : (freePort s).re.fetch = .fetching j := fetching
    have left : j.left - 1 = 0 := by omega
    rw [fetchSamplesRead, fetching']
    dsimp only
    rw [if_pos left, releaseLock_free (by exact free)]
    rfl
  rw [kept_finish, reads]
  refine ⟨fun goes => ?_, fun cut empty => ?_⟩
  · rw [endFetch_kept _ goes]
    rfl
  · rw [endFetch_cut _ cut (by exact empty)]
    rfl

end

/-- Settles O34: the answer by the requester of the transfer. -/
theorem partAnswerOkServesAudio : Obligations.PartAnswerOkServesAudio := by
  unfold Obligations.PartAnswerOkServesAudio
  intro s data x high port
  refine ⟨_, partAnswer_ready true data high, ?_⟩
  rw [partAnswered_ok data port]
  have done {r : Requester} (requester : x.requester = r) : transferDone x (beatsOf x.beats data) (freePort s)
      = transferDone { x with requester := r } (beatsOf x.beats data) (freePort s) := by rw [← requester]
  have given : (data ++ List.replicate x.beats 0).take x.beats = beatsOf x.beats data := rfl
  rw [given]
  dsimp only
  refine ⟨fun requester => ?_, fun requester free => ?_, fun requester => ?_, fun i g start p requester prepared => ?_,
    fun j requester fetching => ?_, fun j requester fetching => ?_⟩
  · have still : transferDone x (beatsOf x.beats data) (freePort s) = freePort s := by
      rcases requester with requester | ⟨i, requester⟩ <;> rw [done requester] <;> rfl
    rw [still]
    exact finish_freePort s
  · rw [done requester]
    exact inputHeaderAnswered free
  · rw [done requester]
    exact inputProducerAnswered s
  · rw [done requester]
    refine ⟨delayRead_stale start _ prepared, fun current => ?_⟩
    have answered := delayReadAnswered g start (some (beatsOf x.beats data)) prepared
    rw [if_pos current] at answered
    refine ⟨_, answered, fun fits k => ?_⟩
    rw [putFrames_getD (by rwa [List.length_map]), List.length_map, map_sampleOf_getD]
  · rw [done requester]
    refine ⟨goodHeaderAnswered _ fetching, fun two six eight free => ?_⟩
    exact badHeaderAnswered _ fetching (fun good => good.elim two fun good => good.elim six eight) free
  · rw [done requester]
    refine ⟨samplesAnswered _ fetching, fun last free goes => ?_, fun last free => ?_⟩
    · obtain ⟨kept, -⟩ := lastSamplesAnswered (beatsOf x.beats data) fetching last free
      exact ⟨_, kept goes, framesOfWords_length _ _ _, fun k c channel => framesOfWords_getD _ k.isLt channel⟩
    · exact (lastSamplesAnswered _ fetching last free).2

end Sys2Proof.Machine
end

