-- ==== Sys2Proof/Proofs/LocksAndQueues.lean ====
section
/-! SUPPORT. The lock requests admitted and the places of the queues taken (R38, R39, R40, R43, R60, R64, R170, R184,
R199). -/

namespace Sys2Proof.Machine

/-! ## Admission (R38, R40) -/

section
variable {s : State} {l : Lock}

theorem lockFits_iff : lockFits s l = true ↔ s.pu.locks.length < 4 ∧ ∀ h ∈ s.pu.locks,
    l.startLine + l.lines ≤ h.startLine ∨ h.startLine + h.lines ≤ l.startLine := by
  simp only [lockFits, Bool.and_eq_true, decide_eq_true_eq, List.all_eq_true, Bool.not_eq_true', Lock.overlaps,
    Bool.and_eq_false_iff, decide_eq_false_iff_not, Nat.not_lt]
  exact and_congr_right fun _ => forall_congr' fun h => imp_congr_right fun _ => or_comm

theorem lockGrantWork_fits {rest : List Lock} (requests : s.pu.requests = l :: rest) (fits : lockFits s l = true) :
    lockGrantWork s = sequenceGranted l.owner (holdWaiting l (enterLock l s)) := by
  rw [lockGrantWork, requests]
  exact if_pos fits

theorem lockGrantWork_waits {rest : List Lock} (requests : s.pu.requests = l :: rest) (full : ¬ lockFits s l = true) :
    lockGrantWork s = s := by
  rw [lockGrantWork, requests]
  exact if_neg full

theorem lockGrantWork_none (requests : s.pu.requests = []) : lockGrantWork s = s := by
  rw [lockGrantWork, requests]

/-- R40: the processor port once a lock is taken: a waiting transaction that the lock stops is held. -/
def ProcPort.heldBy (p : ProcPort) (l : Lock) : ProcPort :=
  match p.head with
  | some (tx, .waiting) => if l.stops tx then { p with head := some (tx, .held l.owner) } else p
  | _ => p

theorem heldBy_stops {p : ProcPort} {tx : ProcTx} (head : p.head = some (tx, .waiting)) (stops : l.stops tx = true) :
    p.heldBy l = { p with head := some (tx, .held l.owner) } := by
  rw [ProcPort.heldBy, head]
  exact if_pos stops

theorem heldBy_passes {p : ProcPort} (passes : ∀ tx, p.head = some (tx, .waiting) → ¬ l.stops tx = true) :
    p.heldBy l = p := by
  unfold ProcPort.heldBy
  split
  · rename_i tx head
    exact if_neg (passes tx head)
  · rfl

theorem holdWaiting_eq (l : Lock) (s : State) :
    holdWaiting l s = s.mapPu fun pu => { pu with proc := s.pu.proc.heldBy l } := by
  unfold holdWaiting
  split
  · rename_i tx head
    split
    · rename_i stops
      rw [heldBy_stops head stops]
      rfl
    · rename_i passes
      have same : s.pu.proc.heldBy l = s.pu.proc := heldBy_passes fun tx' head' => by
        cases head.symm.trans head'
        exact passes
      rw [same]
      rfl
  · rename_i other
    rw [heldBy_passes fun tx head => absurd head (other tx)]
    rfl

/-! ## The first transfers of a sequence (R39) -/

/-- R39: transfers a granted sequence places, and the queue they join. -/
def firstTransfers (o : Sequence) (s : State) : List Transfer :=
  match o with
  | .outputFetch => match s.re.fetch with
    | .fetching j => [readOf .fetchHeader j.slotAddr 8 (some .outputFetch)]
    | _ => []
  | .inputStore => match s.re.store with
    | some j => storeTransfers s j
    | none => []
  | .statusWrite => statusTransfers s
  | .textWrite => match s.sd.writer with
    | some t => textTransfers s t
    | none => []
  | .presetStore => match storeTarget s with
    | some (base, i) => [readOf .storeRead (presetLineAddress base i) 8 (some .presetStore)]
    | none => []

/-- R39: what each sequence does when its lock is granted is to place its first transfers. -/
theorem sequenceGranted_eq (o : Sequence) (s : State) :
    sequenceGranted o s = placeAll (sequenceQueue o) (firstTransfers o s) s := by
  cases o with
  | outputFetch =>
    unfold sequenceGranted fetchGranted firstTransfers
    dsimp only
    cases s.re.fetch <;> rfl
  | inputStore =>
    unfold sequenceGranted storeGranted firstTransfers
    dsimp only
    cases s.re.store <;> rfl
  | statusWrite => rfl
  | textWrite =>
    unfold sequenceGranted textGranted firstTransfers
    dsimp only
    cases s.sd.writer <;> rfl
  | presetStore =>
    unfold sequenceGranted presetGranted firstTransfers
    dsimp only
    cases storeTarget s <;> rfl

end

/-! ## The text's words (R207) -/

theorem textWords_length (y : StationText) (start : Nat) : (textWords y start).length = 8 := by simp [textWords]

theorem byteOf_word4 (b0 b1 b2 b3 : Byte) (k : Fin 4) :
    byteOf (word4 b0.toNat b1.toNat b2.toNat b3.toNat) k.val = [b0, b1, b2, b3].getD k.val 0 := by
  have := b0.isLt; have := b1.isLt; have := b2.isLt; have := b3.isLt
  refine BitVec.eq_of_toNat_eq ?_
  rw [byteOf, BitVec.extractLsb'_toNat, word4, BitVec.toNat_ofNat, Nat.shiftRight_eq_div_pow]
  fin_cases k <;> simp only [List.getD_cons_zero, List.getD_cons_succ] <;> omega

/-- R207: the word of four characters. -/
theorem textWords_getD (y : StationText) (start : Nat) {i : Nat} (lt : i < 8) : (textWords y start).getD i 0
    = word4 (y.charAt (start + 4 * i)) (y.charAt (start + 4 * i + 1)) (y.charAt (start + 4 * i + 2))
        (y.charAt (start + 4 * i + 3)) := by
  simp [textWords, List.getD_eq_getElem?_getD, lt]

/-- R207: byte j of a word of text is its character j. -/
theorem byteOf_textWords (y : StationText) (start : Nat) {i : Nat} (lt : i < 8) (j : Fin 4) :
    byteOf ((textWords y start).getD i 0) j.val = y.chars.getD (start + 4 * i + j.val) 0 := by
  rw [textWords_getD y start lt, StationText.charAt, StationText.charAt, StationText.charAt, StationText.charAt,
    byteOf_word4]
  fin_cases j <;> rfl

/-- R207: the 64 characters of a text over its two lines. -/
theorem byteOf_textLines (y : StationText) (k : Fin 64) :
    byteOf ((textWords y 0 ++ textWords y 32).getD (k.val / 4) 0) (k.val % 4) = y.chars.getD k.val 0 := by
  have place : k.val % 4 < 4 := Nat.mod_lt _ (by decide)
  by_cases low : k.val / 4 < 8
  · rw [List.getD_append _ _ _ _ (by rwa [textWords_length]), byteOf_textWords y 0 low ⟨k.val % 4, place⟩]
    congr 1
    dsimp only
    omega
  · rw [List.getD_append_right _ _ _ _ (by rw [textWords_length]; omega), textWords_length,
      byteOf_textWords y 32 (i := k.val / 4 - 8) (by omega) ⟨k.val % 4, place⟩]
    congr 1
    dsimp only
    omega

/-! ## A request granted -/

section
variable {s : State} {l : Lock} {rest : List Lock}

/-- R38: the state with a request entered in the lock table, its first transfers not placed yet. -/
def lockTaken (l : Lock) (s : State) : State := holdWaiting l (enterLock l s)

theorem lockTaken_eq (l : Lock) (s : State) : lockTaken l s = s.mapPu fun pu =>
    { pu with locks := pu.locks ++ [l], requests := pu.requests.drop 1, proc := s.pu.proc.heldBy l } := by
  rw [lockTaken, holdWaiting_eq]
  rfl

theorem firstTransfers_lockTaken (o : Sequence) : firstTransfers o (lockTaken l s) = firstTransfers o s := by
  rw [lockTaken_eq]
  cases o <;> rfl

theorem cu_placeAll (q : Queue) (ts : List Transfer) (s : State) : (placeAll q ts s).cu = s.cu := by
  induction ts generalizing s with
  | nil => rfl
  | cons x ts ih => exact ih (placeTransfer q x s)

/-- R38: what a granted request leaves. -/
theorem lockGranted (high : s.resetLow = false) (current : s.imageCurrent) (requests : s.pu.requests = l :: rest)
    (fits : lockFits s l = true) :
    let t := finish (lockGrantWork s)
    t.kept = { s.kept with locks := s.pu.locks ++ [l], proc := s.pu.proc.heldBy l }
      ∧ t.pu.requests = rest
      ∧ (t.pu.queues.get (sequenceQueue l.owner)).all
          = (s.pu.queues.get (sequenceQueue l.owner)).all ++ firstTransfers l.owner s := by
  dsimp only
  have granted : lockGrantWork s
      = placeAll (sequenceQueue l.owner) (firstTransfers l.owner s) (lockTaken l s) := by
    rw [lockGrantWork_fits requests fits, sequenceGranted_eq, ← lockTaken, firstTransfers_lockTaken]
  have kept : (lockGrantWork s).kept
      = { s.kept with locks := s.pu.locks ++ [l], proc := s.pu.proc.heldBy l } := by
    rw [granted, kept_placeAll, lockTaken_eq]
    rfl
  have image : (lockGrantWork s).cu.image = s.cu.image := by
    rw [granted, cu_placeAll, lockTaken_eq]
    rfl
  have shown : finish (lockGrantWork s) = drivePins (lockGrantWork s) :=
    finish_shown high current image (by rw [kept]; rfl)
  refine ⟨by rw [kept_finish, kept], ?_, ?_⟩
  · rw [shown, granted]
    change (placeAll _ _ _).pu.requests = rest
    rw [requests_placeAll, lockTaken_eq]
    change s.pu.requests.drop 1 = rest
    rw [requests]
    rfl
  · rw [(finish_queues _).1, granted, queue_placeAll, lockTaken_eq]
    rfl

/-- R43: the place of a queue taken by the transfer that has waited longest. -/
theorem queueRoom_get (q : Queue) (s : State) : (queueRoom q s).pu.queues.get q
    = (s.pu.queues.get q).takeWaiting (queueCapacity q) := get_put_same _ _ _

theorem queueRoom_other {q r : Queue} (other : r ≠ q) : (queueRoom q s).pu.queues.get r = s.pu.queues.get r :=
  get_put_other _ _ other

theorem queueCapacity_eq (q : Queue) : queueCapacity q = if q = .render then 32 else 16 := by
  cases q <;> rfl

theorem takeWaiting_room {tq : TransferQueue} {cap : Nat} {x : Transfer} {rest : List Transfer}
    (waiting : tq.waiting = x :: rest) (room : tq.items.length < cap) :
    tq.takeWaiting cap = { items := tq.items ++ [x], waiting := rest } := by
  rw [TransferQueue.takeWaiting, waiting]
  exact if_pos room

theorem takeWaiting_same {tq : TransferQueue} {cap : Nat} (nothing : tq.waiting = [] ∨ cap ≤ tq.items.length) :
    tq.takeWaiting cap = tq := by
  unfold TransferQueue.takeWaiting
  split
  · rfl
  · rename_i x rest waiting
    refine if_neg fun room => nothing.elim (fun empty => ?_) fun full => by omega
    cases empty.symm.trans waiting

end

/-- Settles O36: the oldest request by whether it fits, and the oldest transfer by whether there is room. -/
theorem lockAndQueueAdmitOldest : Obligations.LockAndQueueAdmitOldest := by
  unfold Obligations.LockAndQueueAdmitOldest
  refine ⟨fun s high current => ⟨_, live_ready lockGrantWork high, fun l rest requests => ?_, fun none => ?_⟩,
    fun s q high => ⟨_, live_ready (queueRoom q) high, ?_⟩⟩
  · dsimp only
    simp only [← lockFits_iff, ← Lock.stops_iff]
    refine ⟨fun fits => ?_, fun full => ?_⟩
    · obtain ⟨kept, left, placed⟩ := lockGranted high current requests fits
      have proc : (finish (lockGrantWork s)).pu.proc = s.pu.proc.heldBy l := congrArg Kept.proc kept
      refine ⟨by rw [kept, proc], left, fun tx head first last way => ?_, fun passes => ?_, fun owner => ?_,
        fun j owner fetching => ?_, fun j owner store => ?_, fun b e r owner busy work region => ?_,
        fun y owner writer => ?_⟩
      · rw [proc, heldBy_stops head (Lock.stops_iff.2 ⟨first, last, way⟩)]
      · rw [proc, heldBy_passes passes]
      · rw [owner] at placed
        exact placed
      · rw [owner, firstTransfers, fetching] at placed
        exact placed
      · rw [owner, firstTransfers, store] at placed
        exact placed.trans (List.append_assoc _ _ _).symm
      · rw [owner, firstTransfers, storeTarget_eq busy work region] at placed
        exact placed
      · rw [owner, firstTransfers, writer] at placed
        exact ⟨_, _, placed, textWords_length y 0, textWords_length y 32, byteOf_textLines y⟩
    · rw [lockGrantWork_waits requests full, kept_finish, (finish_queues s).1,
        finish_shown (t := s) high current rfl rfl]
      exact ⟨rfl, rfl, rfl⟩
  · rw [lockGrantWork_none none, kept_finish, finish_shown (t := s) high current rfl rfl]
    exact ⟨rfl, none⟩
  · rw [kept_finish, (finish_queues _).1, ← queueCapacity_eq, queueRoom_get]
    exact ⟨rfl, fun r other => queueRoom_other other, fun x rest waiting room => takeWaiting_room waiting room,
      takeWaiting_same⟩

end Sys2Proof.Machine
end

