-- ==== Sys2Proof/Proofs/ErrorAnswers.lean ====
section
/-! SUPPORT. Memory's answers ERROR to a part transfer (R46 to R48, R50, R61, R65, R115, R170, R184, R196, R197, R199):
the fault raised, the sequence aborted, the requester told. -/

namespace Sys2Proof.Machine

/-! ## The fault raised (R46, R48, R50) -/

section
variable {s u : State} {x : Transfer}

theorem transferFault_raises (other : x.requester ≠ .eventWrite) :
    transferFault x s = raiseFault .partMemoryError x.addr s := if_neg other

theorem reports_transferFault : Reports s (transferFault x s) := by
  unfold transferFault
  split
  · split
    · exact .refl
    · exact reports_raiseFaultMarked _ _ _ s
  · exact reports_raiseFaultMarked _ _ _ s

@[simp] theorem kept_transferFault : (transferFault x s).kept = s.kept := by
  unfold transferFault
  split
  · split
    · rfl
    · exact kept_raiseFaultMarked s _ _ _
  · exact kept_raiseFault s _ _

/-- R46: the event of a part transfer that failed. -/
def memoryErrorEvent (s : State) (a : Nat) : Event := eventNow s (.fault .partMemoryError) 0 (natWord a) 1

theorem raiseFault_memoryError {n : Nat} (a : Nat) (room : s.takesEvents (n + 1)) :
    (raiseFault .partMemoryError a s).takesEvents n
      ∧ (raiseFault .partMemoryError a s).eventsOut = s.eventsOut ++ [memoryErrorEvent s a] :=
  raiseFaultMarked_joins false .partMemoryError a room

theorem faultReplaces_some (r : FaultRecord) (k : FaultKind) :
    faultReplaces (some r) k = (!r.kind.isError && k.isError) := rfl

/-- R48: an ERROR takes the place of no fault and of a WARNING. -/
theorem faultTaken_memoryError (a : Nat) (s : State) : ∃ r, faultTaken .partMemoryError a s = some r
    ∧ r.kind.isError = true := by
  cases record : s.pu.faultRec with
  | none => exact ⟨_, faultTaken_of_empty _ a record, rfl⟩
  | some r =>
    rw [faultTaken, record, faultReplaces_some]
    cases severity : r.kind.isError with
    | false => exact ⟨_, rfl, rfl⟩
    | true => exact ⟨r, rfl, severity⟩

/-! ## The abort (R42, R47) -/

/-- R48: a latched ERROR stays behind a guarded write. -/
theorem faultRec_guardFault {r : FaultRecord} {tx : ProcTx} (latched : s.pu.faultRec = some r) :
    (guardFault tx s).pu.faultRec = some r := by
  unfold guardFault
  split
  · exact latched
  · refine (raiseFaultMarked_faultRec _ _ _ s).trans ?_
    rw [faultTaken, latched]
    exact if_neg (by simp [faultReplaces, FaultKind.isError])

theorem faultRec_reachHead {r : FaultRecord} (l : List ProcTx) (latched : s.pu.faultRec = some r) :
    (reachHead l s).pu.faultRec = some r := by
  induction l generalizing s with
  | nil => exact latched
  | cons tx rest ih =>
    unfold reachHead
    split
    · exact ih (faultRec_guardFault latched)
    · exact latched
    · exact latched

theorem rejudgeHead_leaves (o : Sequence) (s : State) :
    (∃ p, (rejudgeHead o s).kept = { s.kept with proc := p }) ∧ Reports s (rejudgeHead o s)
      ∧ ∀ r, s.pu.faultRec = some r → (rejudgeHead o s).pu.faultRec = some r := by
  have stays : (∃ p, s.kept = { s.kept with proc := p }) ∧ Reports s s
      ∧ ∀ r, s.pu.faultRec = some r → s.pu.faultRec = some r := ⟨⟨s.pu.proc, rfl⟩, .refl, fun _ => id⟩
  unfold rejudgeHead
  split
  · split
    · obtain ⟨kept, reports⟩ := reachHead_leaves (_ :: s.pu.proc.behind) s
      exact ⟨kept, reports, fun r latched => faultRec_reachHead _ latched⟩
    · exact stays
  · exact stays

/-- R47: the state with a sequence's transfers and its lock removed. -/
def sequenceCut (o : Sequence) (s : State) : State := unlocked o (removeSequence o s)

theorem abortSequence_some (o : Sequence) : abortSequence (some o) s = rejudgeHead o (sequenceCut o s) := rfl

theorem kept_sequenceCut (o : Sequence) (s : State) : (sequenceCut o s).kept
    = { s.kept with locks := s.kept.locks.filter fun l => decide (l.owner ≠ o) } := rfl

/-- R47: of an aborted sequence no transfer is left in its queue. -/
theorem sequenceCut_removed (o : Sequence) :
    ∀ y ∈ ((sequenceCut o s).pu.queues.get (sequenceQueue o)).all, y.sequence ≠ some o := by
  have queue : (sequenceCut o s).pu.queues.get (sequenceQueue o)
      = (s.pu.queues.get (sequenceQueue o)).filter fun t => decide (t.sequence ≠ some o) := get_put_same _ _ _
  rw [queue]
  intro y mem
  rcases List.mem_append.1 mem with mem | mem
  · exact of_decide_eq_true (List.mem_filter.1 mem).2
  · exact of_decide_eq_true (List.mem_filter.1 mem).2

/-- What the Command Unit's reports leave of the absence of a sequence's transfers. -/
theorem Reports.removed {o : Sequence} (h : Reports s u) (q : Queue)
    (gone : ∀ y ∈ (s.pu.queues.get q).all, y.sequence ≠ some o) :
    ∀ y ∈ (u.pu.queues.get q).all, y.sequence ≠ some o := by
  obtain ⟨-, -, render, input, ts, control, free⟩ := h
  cases q with
  | render =>
    intro y mem
    change y ∈ u.pu.queues.render.all at mem
    rw [render] at mem
    exact gone y mem
  | input =>
    intro y mem
    change y ∈ u.pu.queues.input.all at mem
    rw [input] at mem
    exact gone y mem
  | control =>
    intro y mem
    change y ∈ u.pu.queues.control.all at mem
    rw [control] at mem
    rcases List.mem_append.1 mem with mem | mem
    · exact gone y mem
    · rw [free y mem]
      nofun

/-- R46, R47: what the fault and the abort leave before the requester is told. -/
theorem aborted_leaves (o : Sequence) (x : Transfer) (s : State) :
    (∃ p, (abortSequence (some o) (transferFault x s)).kept
        = { s.kept with locks := s.pu.locks.filter fun l => decide (l.owner ≠ o), proc := p })
      ∧ (∃ ws p w d fw, (abortSequence (some o) (transferFault x s)).cu = { s.cu with
          words := ws, pendingEvents := p, evWrite := w, evDropped := d, faultWriter := fw })
      ∧ ∀ y ∈ ((abortSequence (some o) (transferFault x s)).pu.queues.get (sequenceQueue o)).all,
          y.sequence ≠ some o := by
  obtain ⟨⟨p, kept⟩, reports, -⟩ := rejudgeHead_leaves o (sequenceCut o (transferFault x s))
  obtain ⟨⟨_, _, _, _, _, cu⟩, -⟩ := reports_transferFault (s := s) (x := x)
  have gone := reports.removed _ (sequenceCut_removed o)
  obtain ⟨⟨_, _, _, _, _, cu'⟩, -⟩ := reports
  have same : (sequenceCut o (transferFault x s)).cu = (transferFault x s).cu := rfl
  rw [abortSequence_some]
  refine ⟨⟨p, ?_⟩, ⟨_, _, _, _, _, by rw [cu', same, cu]⟩, gone⟩
  rw [kept, kept_sequenceCut, kept_transferFault]
  rfl

/-! ## The record stays (R48) -/

theorem faultRec_testFetch (s : State) : (testFetch s).pu.faultRec = s.pu.faultRec := by
  unfold testFetch
  split <;> rfl

theorem faultRec_indexWordEnded (w : IndexWord) (s : State) :
    (indexWordEnded w s).pu.faultRec = s.pu.faultRec := by
  unfold indexWordEnded
  split_ifs
  · rfl
  · exact faultRec_writeIndexWord _ _
  · rfl

theorem faultRec_faultRecordEnded (s : State) : (faultRecordEnded s).pu.faultRec = s.pu.faultRec := by
  unfold faultRecordEnded
  dsimp only
  split
  · exact faultRec_writeFaultRecord _
  · rfl

theorem faultRec_dropBlock (c : DropCause) (s : State) : (dropBlock c s).pu.faultRec = s.pu.faultRec := by
  unfold dropBlock
  dsimp only
  split
  · exact faultRec_raiseEvent _ _ _ _ _
  · rfl

theorem faultRec_eventFailed (s : State) : (eventFailed s).pu.faultRec = s.pu.faultRec :=
  (pumpEvents_faultRec _).trans (faultRec_writeIndexWord _ _)

theorem faultRec_fetchFailed (s : State) : (fetchFailed s).pu.faultRec = s.pu.faultRec := by
  unfold fetchFailed
  split
  · exact faultRec_testFetch _
  · exact faultRec_complete _ _

theorem faultRec_fetchAborted (s : State) : (fetchAborted s).pu.faultRec = s.pu.faultRec := by
  unfold fetchAborted
  split
  · exact faultRec_endFetch _
  · rfl

/-- R47: what a requester does at a failure latches no fault. -/
theorem faultRec_transferFailed (x : Transfer) (s : State) : (transferFailed x s).pu.faultRec = s.pu.faultRec := by
  unfold transferFailed
  split
  · exact faultRec_fetchFailed s
  · exact faultRec_eventFailed s
  · exact faultRec_indexWordEnded _ s
  · exact faultRec_faultRecordEnded s
  · rfl
  · rfl
  · rfl
  · exact faultRec_complete s _
  · exact faultRec_complete s _
  · exact faultRec_complete s _
  · exact faultRec_dropBlock _ _
  · exact faultRec_dropBlock _ _
  · exact faultRec_dropBlock _ _
  · exact faultRec_fetchAborted s
  · exact faultRec_fetchAborted s
  · rfl
  · rfl

/-! ## The port stays free -/

theorem kept_eventFailed (s : State) : (eventFailed s).kept = s.kept := by
  rw [eventFailed, kept_pumpEvents, kept_dropEvent]
  rfl

theorem port_fetchFailed (s : State) : (fetchFailed s).kept.port = s.kept.port := by
  unfold fetchFailed
  split
  · rw [kept_discardFetch]
  · rw [kept_complete]
    rfl

theorem port_dropBlock (c : DropCause) (s : State) : (dropBlock c s).kept.port = s.kept.port := by
  rw [kept_of_butRe (butRe_dropBlock s c)]

theorem port_endFetch (d : Bool) (b : FetchBuffer) (s : State) : (endFetch d b s).kept.port = s.kept.port := by
  unfold endFetch
  split
  · rw [kept_testSlotFetch]
    rfl
  · rfl

theorem port_fetchAborted (s : State) : (fetchAborted s).kept.port = s.kept.port := by
  unfold fetchAborted
  split
  · exact port_endFetch _ _ s
  · rfl

/-- R47: what a requester does at a failure leaves the memory port alone. -/
theorem port_transferFailed (x : Transfer) (s : State) : (transferFailed x s).kept.port = s.kept.port := by
  unfold transferFailed
  split
  · exact port_fetchFailed s
  · rw [kept_eventFailed]
  · rw [kept_indexWordEnded]
  · rw [kept_faultRecordEnded]
  · rfl
  · rfl
  · rfl
  · rw [kept_complete]
  · rw [kept_complete]
  · rw [kept_complete]
  · exact port_dropBlock _ _
  · exact port_dropBlock _ _
  · exact port_dropBlock _ _
  · exact port_fetchAborted s
  · exact port_fetchAborted s
  · rfl
  · rfl

theorem port_abortSequence (sq : Option Sequence) (s : State) : (abortSequence sq s).kept.port = s.kept.port := by
  cases sq with
  | none => rfl
  | some o =>
    obtain ⟨⟨p, kept⟩, -⟩ := rejudgeHead_leaves o (sequenceCut o s)
    rw [abortSequence_some, kept]
    rfl

/-- R46: the port is free once a transfer has been answered ERROR. -/
theorem port_transferError (x : Transfer) (s : State) :
    (finish (transferError x (freePort s))).pu.port = .free := by
  change (finish (transferError x (freePort s))).kept.port = .free
  rw [kept_finish, transferError, port_transferFailed, port_abortSequence, kept_transferFault]
  rfl

/-! ## The fault record of an ERROR (R46, R48) -/

theorem faultRec_abortSequence {r : FaultRecord} (sq : Option Sequence) (latched : s.pu.faultRec = some r) :
    (abortSequence sq s).pu.faultRec = some r := by
  cases sq with
  | none => exact latched
  | some o =>
    obtain ⟨-, -, stays⟩ := rejudgeHead_leaves o (sequenceCut o s)
    exact stays r latched

theorem faultRec_transferError (other : x.requester ≠ .eventWrite) :
    (finish (transferError x (freePort s))).pu.faultRec = faultTaken .partMemoryError x.addr s := by
  obtain ⟨r, taken, -⟩ := faultTaken_memoryError x.addr (freePort s)
  have raised : (transferFault x (freePort s)).pu.faultRec = some r := by
    rw [transferFault_raises other]
    exact (raiseFaultMarked_faultRec _ _ _ _).trans taken
  rw [faultRec_finish, transferError, faultRec_transferFailed, faultRec_abortSequence _ raised]
  exact taken.symm

/-- R48: a latched record after a failed transfer: an ERROR stays. -/
theorem faultTaken_latched {r : FaultRecord} (a : Nat) (latched : s.pu.faultRec = some r) :
    faultTaken .partMemoryError a s = if r.kind = .partMemoryError ∨ r.kind = .ringGeometry then some r
      else some { kind := .partMemoryError, addr := a, stamp := s.clock.stamp } := by
  rw [faultTaken, latched, faultReplaces_some]
  obtain ⟨kind, addr, stamp⟩ := r
  cases kind <;> rfl

/-! ## The aborted sequences, one lemma per requester -/

theorem transferError_sequence {r : Requester} {o : Sequence} (requester : x.requester = r)
    (sequence : x.sequence = some o) : transferError x s
      = transferFailed { x with requester := r } (abortSequence (some o) (transferFault x s)) := by
  subst requester
  exact congrArg (fun sq => transferFailed x (abortSequence sq (transferFault x s))) sequence

theorem transferError_plain {r : Requester} (requester : x.requester = r) (plain : x.sequence = none) :
    transferError x s = transferFailed { x with requester := r } (transferFault x s) := by
  subst requester
  exact congrArg (fun sq => transferFailed x (abortSequence sq (transferFault x s))) plain

theorem reports_dropBlock (c : DropCause) (s : State) : Reports s (dropBlock c s) := by
  unfold dropBlock
  dsimp only
  split
  · exact .trans (.of_cu rfl rfl rfl) (reports_raiseEvent _ _ _ _ _)
  · exact .of_cu rfl rfl rfl

/-- R61: a store is aborted. -/
theorem storeAborted_leaves (sequence : x.sequence = some .inputStore)
    (store : x.requester = .inputLine ∨ x.requester = .inputHeader ∨ x.requester = .inputProducer) :
    let t := finish (transferError x (freePort s))
    t.pu.locks = s.pu.locks.filter (fun l => decide (l.owner ≠ .inputStore))
      ∧ (∀ y ∈ t.pu.queues.input.all, y.sequence ≠ some .inputStore)
      ∧ t.re.store = none ∧ t.re.inProd = s.re.inProd ∧ t.re.dropped = s.re.dropped + 1 ∧ t.re.disc = true := by
  dsimp only
  have aborts : transferError x (freePort s)
      = storeAborted (abortSequence (some .inputStore) (transferFault x (freePort s))) := by
    rcases store with line | header | producer
    · exact transferError_sequence line sequence
    · exact transferError_sequence header sequence
    · exact transferError_sequence producer sequence
  obtain ⟨⟨p, kept⟩, -, gone⟩ := aborted_leaves .inputStore x (freePort s)
  rw [aborts]
  revert kept gone
  generalize abortSequence (some .inputStore) (transferFault x (freePort s)) = u
  intro kept gone
  have dropped : (finish (storeAborted u)).re = { u.re with store := none }.dropping := by
    rw [finish_re]
    exact dropBlock_re _ _
  have locks : (finish (storeAborted u)).pu.locks = u.pu.locks := by
    change (finish (storeAborted u)).kept.locks = u.kept.locks
    rw [kept_finish, storeAborted, kept_of_butRe (butRe_dropBlock _ _)]
    rfl
  have re : u.re = s.re := congrArg Kept.re kept
  rw [dropped, locks, (finish_queues _).1, re]
  exact ⟨congrArg Kept.locks kept, (reports_dropBlock _ _).removed .input gone, rfl, rfl, rfl, rfl⟩

/-- R65: the end of a fetch places no transfer and releases no lock. -/
theorem endFetch_path (d : Bool) (b : FetchBuffer) (s : State) :
    (endFetch d b s).pu.queues = s.pu.queues ∧ (endFetch d b s).pu.locks = s.pu.locks := by
  unfold endFetch testSlotFetch
  split
  · split
    · split <;> exact ⟨rfl, rfl⟩
    · exact ⟨rfl, rfl⟩
  · exact ⟨rfl, rfl⟩

theorem fetchAborted_path (s : State) :
    (fetchAborted s).pu.queues = s.pu.queues ∧ (fetchAborted s).pu.locks = s.pu.locks := by
  unfold fetchAborted
  split
  · exact endFetch_path _ _ s
  · exact ⟨rfl, rfl⟩

/-- R65: a fetch is aborted. -/
theorem fetchAborted_leaves (sequence : x.sequence = some .outputFetch)
    (fetch : x.requester = .fetchHeader ∨ x.requester = .fetchSamples) :
    let t := finish (transferError x (freePort s))
    t.pu.locks = s.pu.locks.filter (fun l => decide (l.owner ≠ .outputFetch))
      ∧ (∀ y ∈ t.pu.queues.render.all, y.sequence ≠ some .outputFetch)
      ∧ ∀ j, s.re.fetch = .fetching j → j.discard = false → t.re = { s.re with fetch := .failed } := by
  dsimp only
  have aborts : transferError x (freePort s)
      = fetchAborted (abortSequence (some .outputFetch) (transferFault x (freePort s))) := by
    rcases fetch with header | samples
    · exact transferError_sequence header sequence
    · exact transferError_sequence samples sequence
  obtain ⟨⟨p, kept⟩, -, gone⟩ := aborted_leaves .outputFetch x (freePort s)
  rw [aborts]
  revert kept gone
  generalize abortSequence (some .outputFetch) (transferFault x (freePort s)) = u
  intro kept gone
  obtain ⟨queues, path⟩ := fetchAborted_path u
  have locks : (finish (fetchAborted u)).pu.locks = u.pu.locks :=
    (congrArg Kept.locks (kept_finish (fetchAborted u))).trans path
  have re : u.re = s.re := congrArg Kept.re kept
  rw [locks, (finish_queues _).1, queues, finish_re]
  refine ⟨congrArg Kept.locks kept, gone, fun j fetching goes => ?_⟩
  have fails : fetchAborted u = endFetch j.discard .failed u := by rw [fetchAborted, re, fetching]
  rw [fails, endFetch_kept _ goes, ← re]
  rfl

/-- R184: a text write is aborted. -/
theorem textAborted_leaves {last : Bool} (text : x.requester = .textLine last)
    (sequence : x.sequence = some .textWrite) :
    let t := finish (transferError x (freePort s))
    t.pu.locks = s.pu.locks.filter (fun l => decide (l.owner ≠ .textWrite))
      ∧ (∀ y ∈ t.pu.queues.control.all, y.sequence ≠ some .textWrite)
      ∧ t.sd = { s.sd with writer := none, lastWritten := none } := by
  dsimp only
  have aborts : transferError x (freePort s)
      = textAborted (abortSequence (some .textWrite) (transferFault x (freePort s))) :=
    transferError_sequence text sequence
  obtain ⟨⟨p, kept⟩, -, gone⟩ := aborted_leaves .textWrite x (freePort s)
  rw [aborts]
  revert kept gone
  generalize abortSequence (some .textWrite) (transferFault x (freePort s)) = u
  intro kept gone
  have locks : (finish (textAborted u)).pu.locks = u.pu.locks := congrArg Kept.locks (kept_finish (textAborted u))
  have sd : u.sd = s.sd := congrArg Kept.sd kept
  rw [locks, (finish_queues _).1, finish_sd, ← sd]
  exact ⟨congrArg Kept.locks kept, gone, rfl⟩

/-- R199: a status write is aborted. -/
theorem statusAborted_leaves {last : Bool} (high : s.resetLow = false) (status : x.requester = .statusLine last)
    (sequence : x.sequence = some .statusWrite) :
    let t := finish (transferError x (freePort s))
    t.pu.locks = s.pu.locks.filter (fun l => decide (l.owner ≠ .statusWrite))
      ∧ (∀ y ∈ t.pu.queues.control.all, y.sequence ≠ some .statusWrite)
      ∧ (s.imageCurrent → t.cu.status = { s.cu.status with writing := false, again := false }) := by
  dsimp only
  have aborts : transferError x (freePort s)
      = statusWriteAborted (abortSequence (some .statusWrite) (transferFault x (freePort s))) :=
    transferError_sequence status sequence
  obtain ⟨⟨p, kept⟩, ⟨_, _, _, _, _, cu⟩, gone⟩ := aborted_leaves .statusWrite x (freePort s)
  rw [aborts]
  revert kept gone cu
  generalize abortSequence (some .statusWrite) (transferFault x (freePort s)) = u
  intro kept gone cu
  have locks : (finish (statusWriteAborted u)).pu.locks = u.pu.locks :=
    congrArg Kept.locks (kept_finish (statusWriteAborted u))
  rw [locks, (finish_queues _).1]
  refine ⟨congrArg Kept.locks kept, gone, fun current => ?_⟩
  have image : (statusWriteAborted u).cu.image = s.cu.image := by
    change u.cu.image = _
    rw [cu]
    rfl
  have shown : finish (statusWriteAborted u) = drivePins (statusWriteAborted u) :=
    finish_shown high current image (by rw [kept_statusWriteAborted, kept]; rfl)
  rw [shown]
  change { u.cu.status with writing := false, again := false } = _
  rw [cu]
  rfl

/-! ## The commands that fail (R169, R170, R196) -/

theorem abortSequence_free {o : Sequence} (free : ∀ tx, s.pu.proc.head ≠ some (tx, .held o)) :
    abortSequence (some o) s = sequenceCut o s := releaseLock_free (s := removeSequence o s) free

theorem busyCompletion_stamp {b : Busy} (r : ResultCode) (stamp : u.clock.stamp = s.clock.stamp) :
    busyCompletion u b r = busyCompletion s b r := by rw [busyCompletion, busyCompletion, eventNow, eventNow, stamp]

/-- R46, R196: the events of a command that a failed transfer ends. -/
theorem failed_eventsOut {b : Busy} {a : Nat} (busy : u.cu.exec = .busy b)
    (quiet : Quiet (raiseFault .partMemoryError a (freePort s)) u) (stamp : u.clock.stamp = s.clock.stamp)
    (room : s.eventRoom) :
    (finish (complete .failed u)).eventsOut = [memoryErrorEvent s a, busyCompletion s b .failed] := by
  have free : Quiet s (freePort s) := rfl
  obtain ⟨later, out⟩ := raiseFault_memoryError a (free.takesEvents room.takesEvents)
  rw [free.eventsOut, room.eventsOut] at out
  rw [(quiet_finish _).eventsOut, complete_eventsOut .failed busy (quiet.takesEvents later), quiet.eventsOut, out,
    busyCompletion_stamp .failed stamp]
  rfl

/-- R196: a command that a failed transfer ends. -/
theorem failed_completes {b : Busy} {a : Nat} (busy : s.cu.exec = .busy b)
    (same : u.cu = (raiseFault .partMemoryError a (freePort s)).cu)
    (quiet : Quiet (raiseFault .partMemoryError a (freePort s)) u) (stamp : u.clock.stamp = s.clock.stamp) :
    (finish (complete .failed u)).kept = u.kept
      ∧ (finish (complete .failed u)).cu.head = (if b.counts then s.cu.head + 1 else s.cu.head)
      ∧ ((finish (complete .failed u)).cu.exec = .idle ∨ (finish (complete .failed u)).cu.exec = .fetching)
      ∧ (s.eventRoom → (finish (complete .failed u)).eventsOut
          = [memoryErrorEvent s a, busyCompletion s b .failed]) := by
  obtain ⟨⟨_, _, _, _, _, cu⟩, -⟩ := reports_raiseFaultMarked false .partMemoryError a (freePort s)
  change (raiseFault .partMemoryError a (freePort s)).cu = _ at cu
  have busy' : u.cu.exec = .busy b := by rw [same, cu]; exact busy
  have head' : u.cu.head = s.cu.head := by rw [same, cu]; rfl
  obtain ⟨head, exec⟩ := finish_complete .failed busy'
  exact ⟨by rw [kept_finish, kept_complete], by rw [head, head'], exec, failed_eventsOut busy' quiet stamp⟩

/-- R169: a recall whose read failed. -/
theorem recallFailed_leaves {b : Busy} (busy : s.cu.exec = .busy b) (read : x.requester = .presetRead)
    (plain : x.sequence = none) :
    let t := finish (transferError x (freePort s))
    t.kept = { s.kept with port := .free }
      ∧ t.cu.head = (if b.counts then s.cu.head + 1 else s.cu.head)
      ∧ (t.cu.exec = .idle ∨ t.cu.exec = .fetching)
      ∧ (s.eventRoom → t.eventsOut = [memoryErrorEvent s x.addr, busyCompletion s b .failed]) := by
  dsimp only
  have kept := kept_raiseFault (freePort s) .partMemoryError x.addr
  have told : transferError x (freePort s) = complete .failed (raiseFault .partMemoryError x.addr (freePort s)) := by
    rw [transferError_plain read plain, transferFault_raises (by rw [read]; nofun)]
    rfl
  obtain ⟨left, rest⟩ := failed_completes (u := raiseFault .partMemoryError x.addr (freePort s)) busy rfl .refl
    (congrArg (fun k => k.clock.stamp) kept)
  rw [told]
  exact ⟨left.trans kept, rest⟩

/-- R170: a store whose transfer failed. -/
theorem storeFailed_leaves {b : Busy} (busy : s.cu.exec = .busy b)
    (store : x.requester = .storeRead ∨ x.requester = .storeWrite) (sequence : x.sequence = some .presetStore)
    (free : ∀ tx, s.pu.proc.head ≠ some (tx, .held .presetStore)) :
    let t := finish (transferError x (freePort s))
    t.kept = { s.kept with
        port := .free, locks := s.pu.locks.filter (fun l => decide (l.owner ≠ .presetStore)) }
      ∧ t.cu.head = (if b.counts then s.cu.head + 1 else s.cu.head)
      ∧ (t.cu.exec = .idle ∨ t.cu.exec = .fetching)
      ∧ (s.eventRoom → t.eventsOut = [memoryErrorEvent s x.addr, busyCompletion s b .failed]) := by
  dsimp only
  have kept := kept_raiseFault (freePort s) .partMemoryError x.addr
  have proc : (raiseFault .partMemoryError x.addr (freePort s)).pu.proc = s.pu.proc := congrArg Kept.proc kept
  have raises : transferFault x (freePort s) = raiseFault .partMemoryError x.addr (freePort s) := by
    refine transferFault_raises ?_
    rcases store with read | write
    · rw [read]; nofun
    · rw [write]; nofun
  have told : transferError x (freePort s)
      = complete .failed (sequenceCut .presetStore (raiseFault .partMemoryError x.addr (freePort s))) := by
    rw [← abortSequence_free (by rw [proc]; exact free), ← raises]
    rcases store with read | write
    · exact transferError_sequence read sequence
    · exact transferError_sequence write sequence
  obtain ⟨left, rest⟩ := failed_completes
    (u := sequenceCut .presetStore (raiseFault .partMemoryError x.addr (freePort s))) busy rfl rfl
    (congrArg (fun k => k.clock.stamp) kept)
  rw [told]
  exact ⟨left.trans (by rw [kept_sequenceCut, kept]; rfl), rest⟩

/-- R196: a record that could not be read, taken as a command of tag 0 and of a free kind. -/
def unreadTaken (s : State) : State :=
  { beginCommand 0 (Config.freeKind s.freeUsed) s with freeUsed := s.freeUsed + 1 }

theorem kept_unreadTaken (s : State) : (unreadTaken s).kept = { s.kept with freeUsed := s.kept.freeUsed + 1 } := rfl

/-- R196: a command fetch whose read failed. -/
theorem fetchFailed_leaves (fetch : x.requester = .commandFetch) (plain : x.sequence = none)
    (goes : s.cu.fetchDiscard = false) :
    let t := finish (transferError x (freePort s))
    t.kept = { s.kept with port := .free, freeUsed := s.freeUsed + 1 } ∧ t.cu.head = s.cu.head + 1
      ∧ (t.cu.exec = .idle ∨ t.cu.exec = .fetching)
      ∧ (s.eventRoom → ∃ kind, t.eventsOut = [memoryErrorEvent s x.addr, completionEvent s 0 kind .failed]) := by
  dsimp only
  have kept := kept_raiseFault (freePort s) .partMemoryError x.addr
  obtain ⟨⟨_, _, _, _, _, cu⟩, -⟩ := reports_raiseFaultMarked false .partMemoryError x.addr (freePort s)
  change (raiseFault .partMemoryError x.addr (freePort s)).cu = _ at cu
  have told : transferError x (freePort s)
      = complete .failed (unreadTaken (raiseFault .partMemoryError x.addr (freePort s))) := by
    have runs : ¬ (raiseFault .partMemoryError x.addr (freePort s)).cu.fetchDiscard = true := by
      rw [cu]
      exact Bool.eq_false_iff.1 goes
    rw [transferError_plain fetch plain, transferFault_raises (by rw [fetch]; nofun)]
    exact if_neg runs
  have head : (raiseFault .partMemoryError x.addr (freePort s)).cu.head = s.cu.head := by rw [cu]; rfl
  obtain ⟨advanced, exec⟩ := finish_complete .failed
    (s := unreadTaken (raiseFault .partMemoryError x.addr (freePort s))) rfl
  rw [told]
  refine ⟨by rw [kept_finish, kept_complete, kept_unreadTaken, kept]; rfl, ?_, exec,
    fun room => ⟨Config.freeKind (raiseFault .partMemoryError x.addr (freePort s)).freeUsed, ?_⟩⟩
  · rw [advanced, ← head]
    rfl
  · have out := failed_eventsOut (u := unreadTaken (raiseFault .partMemoryError x.addr (freePort s))) (a := x.addr)
      rfl rfl (congrArg (fun k => k.clock.stamp) kept) room
    rw [out, completionEvent, ← head]
    rfl

/-! ## Index words and events (R195, R197) -/

section
variable {w v : IndexWord}

theorem place_ne (other : w ≠ v) : w.place ≠ v.place := by
  revert other
  cases w <;> cases v <;> decide

theorem word_setWriter (other : w ≠ v) (ww : WordWriter) :
    (setWriter v ww s).cu.words[w.place] = s.cu.words[w.place] :=
  Vector.getElem_set_ne v.place.isLt _ fun same => place_ne other (Fin.ext same.symm)

theorem word_writeIndexWord (other : w ≠ v) : (writeIndexWord v s).cu.words[w.place] = s.cu.words[w.place] := by
  unfold writeIndexWord
  split_ifs <;> exact word_setWriter other _

variable (kept : w ≠ .eventsDropped)
include kept

theorem word_dropEvent (s : State) : (dropEvent s).cu.words[w.place] = s.cu.words[w.place] :=
  word_writeIndexWord kept

theorem word_writeOldest (es : List Event) (s : State) :
    (writeOldest es s).cu.words[w.place] = s.cu.words[w.place] := by
  induction es generalizing s with
  | nil => rfl
  | cons e es ih =>
    unfold writeOldest
    split
    · exact (ih (dropEvent s)).trans (word_dropEvent kept s)
    · rfl

theorem word_queueEvent (e : Event) (s : State) : (queueEvent e s).cu.words[w.place] = s.cu.words[w.place] := by
  unfold queueEvent pumpEvents
  split
  · split
    · rfl
    · exact word_writeOldest kept _ _
  · exact word_dropEvent kept s

/-- R48, R195: a fault raised moves the writer of no index word but the dropped count. -/
theorem word_raiseFault (k : FaultKind) (a : Nat) (s : State) :
    (raiseFault k a s).cu.words[w.place] = s.cu.words[w.place] := by
  have written (s : State) : (writeFaultRecord s).cu.words[w.place] = s.cu.words[w.place] := by
    unfold writeFaultRecord
    split <;> rfl
  change (raiseFaultMarked false k a s).cu.words[w.place] = _
  rw [raiseFaultMarked_eq]
  split
  · exact (written _).trans (word_queueEvent kept _ s)
  · exact word_queueEvent kept _ s

end

/-- R195: the write of an index word failed. -/
theorem indexWordFailed_leaves {w : IndexWord} (word : x.requester = .indexWord w) (plain : x.sequence = none)
    (other : w ≠ .eventsDropped) (last : s.cu.words[w.place] = { inFlight := true, again := false }) :
    let t := finish (transferError x (freePort s))
    t.kept = { s.kept with port := .free } ∧ t.cu.words[w.place] = { inFlight := false, again := false } := by
  dsimp only
  have kept := kept_raiseFault (freePort s) .partMemoryError x.addr
  have same := (word_raiseFault other .partMemoryError x.addr (freePort s)).trans last
  have told : transferError x (freePort s) = idleWriter w (raiseFault .partMemoryError x.addr (freePort s)) := by
    rw [transferError_plain word plain, transferFault_raises (by rw [word]; nofun)]
    exact indexWordEnded_last (congrArg WordWriter.again same)
  rw [told, kept_finish, kept_idleWriter, finish_words]
  exact ⟨kept, Vector.getElem_set_self _⟩

/-! ## A failed event write (R50, R197) -/

/-- R197: the write of an event is given up. -/
def eventGivenUp (s : State) : State := s.mapCu fun cu => { cu with evWrite := none }

theorem reports_eventFailed (s : State) : Reports s (eventFailed s) :=
  .trans (t := eventGivenUp s) (.of_cu rfl rfl rfl) ((reports_dropEvent _).trans (reports_pumpEvents _))

theorem dropEvent_events (s : State) : (dropEvent s).cu.evDropped = s.cu.evDropped + 1
    ∧ (dropEvent s).cu.pendingEvents = s.cu.pendingEvents ∧ (dropEvent s).cu.evWrite = s.cu.evWrite
    ∧ (dropEvent s).cu.quiesce = s.cu.quiesce ∧ eventRingFull (dropEvent s) = eventRingFull s := by
  unfold dropEvent writeIndexWord
  split_ifs <;> exact ⟨rfl, rfl, rfl, rfl, rfl⟩

/-- R197: with no event waiting, the failed one is counted and no more. -/
theorem eventFailed_alone (empty : s.cu.pendingEvents = []) :
    (eventFailed s).cu.evDropped = s.cu.evDropped + 1 ∧ (eventFailed s).eventsOut = [] := by
  obtain ⟨dropped, pending, write, -⟩ := dropEvent_events (eventGivenUp s)
  have failed : eventFailed s = dropEvent (eventGivenUp s) := pumpEvents_nothing (pending.trans empty)
  rw [failed, State.eventsOut, write, pending]
  exact ⟨dropped, empty⟩

/-- R197: with an event waiting, the failed one is counted and the next is written. -/
theorem eventFailed_next {e : Event} (pending : s.cu.pendingEvents = [e]) (running : s.cu.quiesce = false)
    (space : eventRingFull s = false) :
    (eventFailed s).cu.evDropped = s.cu.evDropped + 1 ∧ (eventFailed s).eventsOut = [e] := by
  obtain ⟨dropped, pending', write, quiesce, full⟩ := dropEvent_events (eventGivenUp s)
  have failed : eventFailed s = placeEventWrite e
      ((dropEvent (eventGivenUp s)).mapCu fun cu => { cu with pendingEvents := [] }) :=
    pumpEvents_next (s := dropEvent (eventGivenUp s)) (quiesce.trans running) write (pending'.trans pending)
      (full.trans space)
  rw [failed]
  exact ⟨dropped, rfl⟩

theorem eventOfEventWrite_eq {e : EventWrite} (write : s.cu.evWrite = some e) :
    eventOfEventWrite s = e.event.ofEventWrite := by rw [eventOfEventWrite, write]

/-- R50: the fault of a failed event write waits behind it. -/
theorem raiseFault_behind {e : EventWrite} {a : Nat} (write : s.cu.evWrite = some e)
    (empty : s.cu.pendingEvents = []) (enabled : s.cu.enabled = true) :
    (raiseFaultMarked true .partMemoryError a s).cu.pendingEvents = [faultEvent true .partMemoryError a s]
      ∧ (raiseFaultMarked true .partMemoryError a s).cu.evDropped = s.cu.evDropped
      ∧ eventRingFull (raiseFaultMarked true .partMemoryError a s) = eventRingFull s := by
  have queued : queueEvent (faultEvent true .partMemoryError a s) s
      = s.mapCu fun cu => { cu with pendingEvents := cu.pendingEvents ++ [faultEvent true .partMemoryError a s] } := by
    rw [queueEvent, if_pos ⟨enabled, by rw [empty]; decide⟩, pumpEvents, if_pos (.inr (by simp [write]))]
  have recorded (s : State) : (writeFaultRecord s).cu.evDropped = s.cu.evDropped := by
    unfold writeFaultRecord
    split <;> rfl
  have quiet := raiseFaultMarked_quiet true .partMemoryError a s
  rw [queued] at quiet
  refine ⟨?_, ?_, quiet.ringFull.trans rfl⟩
  · exact (congrArg EventView.pendingEvents quiet).trans (congrArg (· ++ [faultEvent true .partMemoryError a s]) empty)
  · rw [raiseFaultMarked_eq, queued]
    split
    · exact recorded _
    · rfl

/-- R50, R197: the write of an event failed. -/
theorem eventFailed_leaves {e : EventWrite} (event : x.requester = .eventWrite) (plain : x.sequence = none)
    (write : s.cu.evWrite = some e) :
    let t := finish (transferError x (freePort s))
    t.kept = { s.kept with port := .free } ∧ t.cu.evProd = s.cu.evProd
      ∧ (e.event.ofEventWrite = true → t.pu.faultRec = s.pu.faultRec)
      ∧ (s.cu.enabled = true → s.cu.quiesce = false → s.cu.pendingEvents = [] → eventRingFull s = false →
          t.cu.evDropped = s.cu.evDropped + 1
          ∧ t.eventsOut = if e.event.ofEventWrite then []
              else [{ memoryErrorEvent s x.addr with ofEventWrite := true }]) := by
  dsimp only
  have told : transferError x (freePort s) = eventFailed (transferFault x (freePort s)) :=
    transferError_plain event plain
  have marked : eventOfEventWrite (freePort s) = e.event.ofEventWrite := eventOfEventWrite_eq (s := freePort s) write
  have fault : transferFault x (freePort s) = if e.event.ofEventWrite then freePort s
      else raiseFaultMarked true .partMemoryError x.addr (freePort s) := by
    rw [transferFault, if_pos event, marked]
  obtain ⟨⟨_, _, _, _, _, cu⟩, -⟩ := (reports_transferFault (s := freePort s) (x := x)).trans (reports_eventFailed _)
  have prod : (eventFailed (transferFault x (freePort s))).cu.evProd = s.cu.evProd := by rw [cu]; rfl
  obtain ⟨-, -, prod'⟩ := finish_exec (eventFailed (transferFault x (freePort s)))
  obtain ⟨-, -, dropped⟩ := finish_events (eventFailed (transferFault x (freePort s)))
  rw [told, kept_finish, kept_eventFailed, kept_transferFault, prod', prod, faultRec_finish, faultRec_eventFailed,
    dropped, (quiet_finish _).eventsOut, fault]
  refine ⟨rfl, rfl, fun own => by rw [own]; rfl, fun enabled running empty space => ?_⟩
  cases own : e.event.ofEventWrite with
  | true => exact eventFailed_alone (s := freePort s) empty
  | false =>
    obtain ⟨pending, same, full⟩ := raiseFault_behind (s := freePort s) (a := x.addr) write empty enabled
    have running' : (raiseFaultMarked true .partMemoryError x.addr (freePort s)).cu.quiesce = false :=
      (congrArg Kept.quiesce (kept_raiseFaultMarked (freePort s) _ _ _)).trans running
    obtain ⟨counted, out⟩ := eventFailed_next pending running' (full.trans space)
    rw [same] at counted
    exact ⟨counted, out⟩

end

/-! ## The fault alone (R46) -/

section
variable {s : State} {x : Transfer}

/-- R46: a transfer whose failure its requester does not answer. -/
theorem faultAlone_leaves {i : Fin 8} (quiet : x.requester = .delayWrite i ∨ x.requester = .captureRecord i)
    (plain : x.sequence = none) :
    let t := finish (transferError x (freePort s))
    t.kept = { s.kept with port := .free } ∧ (s.eventRoom → t.eventsOut = [memoryErrorEvent s x.addr]) := by
  dsimp only
  have told : transferError x (freePort s) = raiseFault .partMemoryError x.addr (freePort s) := by
    rcases quiet with write | record
    · rw [transferError_plain write plain, transferFault_raises (by rw [write]; nofun)]
      rfl
    · rw [transferError_plain record plain, transferFault_raises (by rw [record]; nofun)]
      rfl
  rw [told, kept_finish, kept_raiseFault, (quiet_finish _).eventsOut]
  have free : Quiet s (freePort s) := rfl
  refine ⟨rfl, fun room => ?_⟩
  obtain ⟨-, out⟩ := raiseFault_memoryError x.addr (free.takesEvents room.takesEvents)
  rw [out, free.eventsOut, room.eventsOut]
  rfl

/-- R115: a delay read failed. -/
theorem delayFailed_leaves {i : Fin 8} {g j : Nat} {p : Prepared} (read : x.requester = .delayRead i g j)
    (plain : x.sequence = none) (prepared : s.du.speakers[i].prepared = some p) (current : p.generation = g) :
    (finish (transferError x (freePort s))).kept = { s.kept with
      port := .free,
      du := { s.du with speakers := s.du.speakers.set i { s.du.speakers[i] with
        prepared := some { p with
          lines := p.lines.map fun l => if l.start = j then { l with status := .error } else l } } } } := by
  have kept := kept_raiseFault (freePort s) .partMemoryError x.addr
  have du : (raiseFault .partMemoryError x.addr (freePort s)).du = s.du := congrArg Kept.du kept
  have told : transferError x (freePort s)
      = delayReadEnded i g j none (raiseFault .partMemoryError x.addr (freePort s)) := by
    rw [transferError_plain read plain, transferFault_raises (by rw [read]; nofun)]
    rfl
  rw [told, kept_finish, kept_delayReadEnded g j none (by rw [du]; exact prepared), kept, du, if_pos current]
  rfl

end

/-- Settles O35: the fault and the record, then the requester of the transfer. -/
theorem partAnswerErrorRaisesFault : Obligations.PartAnswerErrorRaisesFault := by
  unfold Obligations.PartAnswerErrorRaisesFault
  intro s data x high port
  refine ⟨_, partAnswer_ready false data high, ?_⟩
  rw [partAnswered_error data port]
  refine ⟨port_transferError x s, ?_⟩
  dsimp only
  refine ⟨fun other => ?_, fun i quiet plain => faultAlone_leaves quiet plain,
    fun store sequence => storeAborted_leaves sequence store,
    fun fetch sequence => fetchAborted_leaves sequence fetch,
    fun last text sequence => textAborted_leaves text sequence,
    fun last status sequence => statusAborted_leaves high status sequence,
    fun b busy preset free => ?_,
    fun i g j p read plain prepared current => delayFailed_leaves read plain prepared current,
    fun w word plain other last => indexWordFailed_leaves word plain other last,
    fun e event plain write => eventFailed_leaves event plain write,
    fun fetch plain goes => fetchFailed_leaves fetch plain goes⟩
  · rw [faultRec_transferError other]
    cases record : s.pu.faultRec with
    | none => exact faultTaken_of_empty _ _ record
    | some r => exact faultTaken_latched _ record
  · rcases preset with ⟨read, plain⟩ | ⟨store, sequence⟩
    · rw [if_pos plain]
      exact recallFailed_leaves busy read plain
    · rw [if_neg (by rw [sequence]; nofun)]
      exact storeFailed_leaves busy store sequence free

end Sys2Proof.Machine
end
